-- ==== Sys2Proof/Word.lean ====
section
/-! DEFINITION. Word types and the sparse table type that State is made of. -/
namespace Sys2Proof

/-- A byte of memory. -/
abbrev Byte := BitVec 8
/-- A halfword: the unit of a code line (R34) and of a semaphore (R11). -/
abbrev Half := BitVec 16
/-- A 32-bit register (R11). -/
abbrev Word := BitVec 32
/-- A 64-bit register or register pair (R13). -/
abbrev DWord := BitVec 64
/-- A virtual or physical address of 48 bits. -/
abbrev Addr := BitVec 48
/-- One bit per lane (R24). -/
abbrev Mask := BitVec 32

/-- A sparse table from natural keys: a list of key and value pairs with keys strictly rising. What an unlisted key
reads as is given at each read. -/
abbrev Tbl (α : Type) := List (Nat × α)

end Sys2Proof
end

