-- ==== Sys2Proof/Syntax.lean ====
section
/-! DEFINITION. The instructions: core positions (R58), Walker opcodes (R69) and the device's own steps and events
(spec/opcode_table.json), with their operands. -/
namespace Sys2Proof

/-- The guard of a head (R42, R43). -/
structure Guard where
  pred : BitVec 3
  neg : Bool
deriving DecidableEq, Repr

/-- An 8-bit register field (R47). -/
abbrev Reg := BitVec 8

/-- Type codes 0x0 to 0xB (R61). -/
inductive Ty where
  | n32 | s32 | n64 | s64 | n16 | s16 | n8 | s8 | f16 | bf16 | f32 | f64
deriving DecidableEq, Repr

/-- Rounding field (R63): dynamic or one of the five modes. -/
inductive Rnd where
  | dyn | rne | rtz | rup | rdn | rna
deriving DecidableEq, Repr

/-- Condition codes (R62). -/
inductive Cond where
  | eq | ne | lt | le | gt | ge
deriving DecidableEq, Repr

/-- Orderings (R65). -/
inductive Order where
  | rlx | acq | rel | ar
deriving DecidableEq, Repr

/-- Scopes (R65, R186). -/
inductive Scope where
  | g | t | x | d | s
deriving DecidableEq, Repr

/-- Memory sizes (R65). -/
inductive Size where
  | n8 | s8 | n16 | s16 | n32 | s32 | n64 | s64
deriving DecidableEq, Repr

/-- Operations of atom, red and near (R66). -/
inductive AtomOp where
  | add | min | max | and | or | xor | xchg | cas | gather
deriving DecidableEq, Repr

/-- Votes (R103). -/
inductive VoteOp where
  | mask | count | lead | every | none | some | split
deriving DecidableEq, Repr

/-- Register files of mov (file) (R62). -/
inductive RFile where
  | v | s | p
deriving DecidableEq, Repr

/-- Functions of fsfn (R145). -/
inductive Sfn where
  | exp2 | log2 | sinpi | cospi | tanh | sigm
deriving DecidableEq, Repr

/-- Formats of the accumulator moves (R208). -/
inductive AccFmt where
  | f32 | f16 | bf16
deriving DecidableEq, Repr

/-- Directions of copy (R209). -/
inductive CopyDir where
  | gs | sg | ss | gg
deriving DecidableEq, Repr

/-- Element formats of the matrix forms (R203). -/
inductive MmaFmt where
  | f16 | bf16 | e4m3 | e5m2 | s8 | mxf4 | dpt
deriving DecidableEq, Repr

/-- Operations of slotstat (R379). -/
inductive SlotOp where
  | get | drops | bind | unbind
deriving DecidableEq, Repr

/-- Formats of tdist (R216). -/
inductive DistFmt where
  | e4m3 | e5m2 | f16
deriving DecidableEq, Repr

/-- Sizes of wld (R216). -/
inductive WldSize where
  | n64 | n32 | s32 | n16
deriving DecidableEq, Repr

/-- Extent operand of xalloc (R164). -/
inductive AllocSize where
  | words (e : BitVec 4)
  | prec
deriving DecidableEq, Repr

/-- The engine synchronisation word (R46). -/
structure Sync where
  sigk : Reg
  inc : BitVec 4
  waitk : Reg
  thr : BitVec 8
deriving DecidableEq, Repr

/-! Operand bundles of the core families. -/

/-- Integer register forms (R120). -/
structure IntBin where
  uni : Bool
  ty : Ty
  d : Reg
  a : Reg
  b : Reg
deriving DecidableEq, Repr

structure IntImm where
  uni : Bool
  ty : Ty
  d : Reg
  a : Reg
  imm : BitVec 16
deriving DecidableEq, Repr

structure IntUn where
  uni : Bool
  ty : Ty
  d : Reg
  a : Reg
deriving DecidableEq, Repr

/-- mad: the third source stands in imm16 [7:0] (R60). -/
structure IntTri where
  uni : Bool
  ty : Ty
  d : Reg
  a : Reg
  b : Reg
  c : Reg
deriving DecidableEq, Repr

/-- bfx and bfi (R125); b is 0 for bfx. -/
structure IntField where
  uni : Bool
  ty : Ty
  d : Reg
  a : Reg
  b : Reg
  pos : BitVec 7
  len : BitVec 7
deriving DecidableEq, Repr

/-- prmt, type .n32 only (R126). -/
structure Prmt where
  uni : Bool
  d : Reg
  a : Reg
  b : Reg
  sel : BitVec 16
deriving DecidableEq, Repr

/-- sel (R128). -/
structure SelOp where
  ty : Ty
  d : Reg
  a : Reg
  b : Reg
  p : BitVec 3
deriving DecidableEq, Repr

/-- cmp (R127). -/
structure CmpOp where
  uni : Bool
  cond : Cond
  ty : Ty
  d : Reg
  a : Reg
  b : Reg
deriving DecidableEq, Repr

structure CmpImm where
  uni : Bool
  cond : Cond
  ty : Ty
  d : Reg
  a : Reg
  imm : BitVec 16
deriving DecidableEq, Repr

/-- cvt (R129). -/
structure CvtOp where
  dty : Ty
  sty : Ty
  sat : Bool
  d : Reg
  a : Reg
deriving DecidableEq, Repr

/-- lea (R130). -/
structure LeaOp where
  uni : Bool
  ty : Ty
  d : Reg
  a : Reg
  b : Reg
  sh : BitVec 4
deriving DecidableEq, Repr

/-- shfl (R131). -/
structure ShflOp where
  ty : Ty
  d : Reg
  a : Reg
  b : Reg
deriving DecidableEq, Repr

/-- movi (R133). -/
structure MoviOp where
  uni : Bool
  ty : Ty
  d : Reg
  imm : BitVec 32
deriving DecidableEq, Repr

/-- mov (file) (R132). -/
structure MovFile where
  df : RFile
  af : RFile
  d : Reg
  a : Reg
deriving DecidableEq, Repr

/-- Lane floating-point forms (R136). -/
structure FpBin where
  nf : Bool
  rnd : Rnd
  ty : Ty
  d : Reg
  a : Reg
  b : Reg
deriving DecidableEq, Repr

structure FpUn where
  nf : Bool
  rnd : Rnd
  ty : Ty
  d : Reg
  a : Reg
deriving DecidableEq, Repr

structure FpTri where
  nf : Bool
  rnd : Rnd
  ty : Ty
  d : Reg
  a : Reg
  b : Reg
  c : Reg
deriving DecidableEq, Repr

structure FcmpOp where
  nf : Bool
  ty : Ty
  cond : Cond
  d : Reg
  a : Reg
  b : Reg
deriving DecidableEq, Repr

structure FcvtOp where
  nf : Bool
  rnd : Rnd
  dty : Ty
  sty : Ty
  d : Reg
  a : Reg
deriving DecidableEq, Repr

structure FsfnOp where
  nf : Bool
  rnd : Rnd
  ty : Ty
  fn : Sfn
  d : Reg
  a : Reg
deriving DecidableEq, Repr

/-- Variable-precision forms (R147). -/
structure VpBin where
  nf : Bool
  rnd : Rnd
  exact : Bool
  d : Reg
  a : Reg
  b : Reg
deriving DecidableEq, Repr

structure VpUn where
  nf : Bool
  rnd : Rnd
  exact : Bool
  d : Reg
  a : Reg
deriving DecidableEq, Repr

structure VpTri where
  nf : Bool
  rnd : Rnd
  exact : Bool
  d : Reg
  a : Reg
  b : Reg
  c : Reg
deriving DecidableEq, Repr

structure XcmpOp where
  nf : Bool
  cond : Cond
  d : Reg
  a : Reg
  b : Reg
deriving DecidableEq, Repr

/-- xneg and xabs. -/
structure VpSign where
  nf : Bool
  d : Reg
  a : Reg
deriving DecidableEq, Repr

/-- xcvt: fromVp is imm16 [4]. -/
structure XcvtOp where
  nf : Bool
  rnd : Rnd
  exact : Bool
  ty : Ty
  fromVp : Bool
  d : Reg
  a : Reg
deriving DecidableEq, Repr

structure XldOp where
  nf : Bool
  rnd : Rnd
  exact : Bool
  d : Reg
  a : Reg
  off : BitVec 16
deriving DecidableEq, Repr

structure XldStride where
  nf : Bool
  rnd : Rnd
  exact : Bool
  d : Reg
  a : Reg
  b : Reg
  stride : BitVec 16
deriving DecidableEq, Repr

structure XstOp where
  nf : Bool
  d : Reg
  a : Reg
  off : BitVec 16
deriving DecidableEq, Repr

structure XstStride where
  nf : Bool
  d : Reg
  a : Reg
  b : Reg
  stride : BitVec 16
deriving DecidableEq, Repr

/-- ld and st (R170): b names the rectangle for scope .x. -/
structure MemOp where
  ord : Order
  scope : Scope
  size : Size
  d : Reg
  a : Reg
  b : Reg
  off : BitVec 16
deriving DecidableEq, Repr

/-- lds and sts. -/
structure ScrOp where
  size : Size
  d : Reg
  a : Reg
  off : BitVec 16
deriving DecidableEq, Repr

/-- bst. -/
structure BstOp where
  ord : Order
  scope : Scope
  size : Size
  d : Reg
  a : Reg
  b : Reg
  rect : Reg
  off : BitVec 8
deriving DecidableEq, Repr

/-- atom, red and near (R66): fields an operation does not use are 0. -/
structure AtomOps where
  ord : Order
  scope : Scope
  size : Size
  op : AtomOp
  d : Reg
  a : Reg
  b : Reg
  rect : Reg
  cmp : Reg
  count : BitVec 4
  off : BitVec 8
deriving DecidableEq, Repr

/-- mma forms (R202): e is 0 in T6 forms. -/
structure MmaOps where
  t : Reg
  a : Reg
  b : Reg
  e : Reg
  ta : Bool
  tb : Bool
  wua : Bool
  zc : Bool
  pa : BitVec 16
  pb : BitVec 16
  sync : Sync
deriving DecidableEq, Repr

/-- acc.ld and acc.st (R208). -/
structure AccOps where
  t : Reg
  a : Reg
  fmt : AccFmt
  tr : Bool
  pitch : BitVec 16
  sync : Sync
deriving DecidableEq, Repr

/-- copy (R209). -/
structure CopyOps where
  dir : CopyDir
  d : Reg
  a : Reg
  b : Reg
  e : Reg
  bytes : BitVec 20
  rows : BitVec 12
  sync : Sync
deriving DecidableEq, Repr

/-! Walker operands (R216). -/

abbrev WReg := BitVec 5

/-- Integer and floating Walker forms: the two fn bits. -/
structure WBin where
  d : WReg
  a : WReg
  b : WReg
  f0 : Bool
  f1 : Bool
deriving DecidableEq, Repr

structure WCmpOp where
  d : WReg
  a : WReg
  b : WReg
  cond : Cond
  f0 : Bool
  f1 : Bool
deriving DecidableEq, Repr

structure WTest where
  d : WReg
  a : WReg
  n : BitVec 2
  flag : Bool
  j : BitVec 2
deriving DecidableEq, Repr

structure WDist where
  d : WReg
  a : WReg
  n : BitVec 2
  h : Bool
  src : BitVec 3
  qh : Bool
  fmt : DistFmt
  ip : Bool
deriving DecidableEq, Repr

structure WKey where
  d : WReg
  a : WReg
  b : WReg
  n : BitVec 2
  strict : Bool
  signed : Bool
deriving DecidableEq, Repr

structure WLd where
  d : WReg
  a : WReg
  src : BitVec 3
  size : WldSize
  off : BitVec 7
deriving DecidableEq, Repr

/-! Operands of the device's events. -/

/-- A completion record (R234). -/
structure Record where
  w0 : Word
  w1 : Word
  w2 : Word
  w3 : Word
deriving DecidableEq, Repr

/-- The live state of a walk that a checkpoint or a relay message holds (R214): qb, w1-w15, the stack from the oldest
entry, the resume PC. -/
structure WalkBody where
  qb : List Byte
  w : List DWord
  stack : List DWord
  pc : Addr
deriving DecidableEq, Repr

/-- The fields of a relay message's header (R334), with its body. src, srcPart and port say from which partition of which device
and by which port it arrived (R398). -/
structure RelayMsg where
  answer : Nat
  device : Nat
  part : Nat
  core : Nat
  ctx : Nat
  queue : Nat
  team : Nat
  group : Nat
  lane : Nat
  program : Nat
  code : DWord
  words : Nat
  serial : Word
  word : Nat
  body : Option WalkBody
  recs : List Record
  src : Nat
  srcPart : Nat
  port : Nat
deriving DecidableEq, Repr

/-- A relay message as it arrives: its bytes (R334, R335), and from which partition of which device and by which port it came
(R398). -/
structure RelayIn where
  src : Nat
  srcPart : Nat
  port : Nat
  bytes : List Byte
deriving DecidableEq, Repr

/-- A link that fails (R303, R338). -/
inductive LinkId where
  | mesh (part : Nat)
  | bridge (part : Nat) (column : Nat)
  | ual (port : Nat)
deriving DecidableEq, Repr

/-- An answer of an L1 to its home (R294, R295). -/
inductive CohAnswer where
  | clean | data | crossed
  | installed
  | refused (reason : Nat)
deriving DecidableEq, Repr

/-- The agents that write or read at a home slice and keep no copy (R277, R297): a group by `near`, a copy, a walk; of the
dispatcher a launch queue, a grid and a message to the pager; the host and a peer. -/
inductive AgentId where
  | group (g : Nat)
  | copy (c : Nat) (seq : Word)
  | walk (w : Nat)
  | queue (part n : Nat)
  | grid (g : Nat)
  | mail (req : Nat)
  | host
  | peer (device : Nat)
deriving DecidableEq, Repr

/-- What a peer asks (R395, R398). -/
inductive PeerOp where
  | read (n : Nat)
  | write (bytes : List Byte)
  | atomic (op : AtomOp) (size : Size) (operand cmp : DWord)
deriving DecidableEq, Repr

/-- Host AtomicOps (R391). -/
inductive HostAtomic where
  | fetchAdd | swap | cas
deriving DecidableEq, Repr

/-- Register pages reached through BAR0 (R392). -/
inductive RegPage where
  | launch (part : Nat)
  | ingress (port : Nat)
  | mgmt
deriving DecidableEq, Repr

/-- How the sections of an image lie and what a flash or host read returned: none when it failed (R406, R408). -/
abbrev Image := Option (List Byte)

/-- One write that a `bst` sends to the home of its line (R298): the virtual address that it was checked at (R189), its physical
address, the key of its page and its bytes. -/
structure HomePut where
  va : Nat
  pa : Nat
  key : Nat
  data : List Byte
deriving DecidableEq, Repr

/-- What a home is to perform for a group: the request that it ends, the key of a `red`'s page, the writes of a `bst`. -/
structure HomeJob where
  req : Nat
  key : Nat
  puts : List HomePut
deriving DecidableEq, Repr

/-- What the home write of a `bst` carries beside its line: the cores to push to, and the writes (R298). -/
structure HomePush where
  dests : List Nat
  job : HomeJob
deriving DecidableEq, Repr

/-- What a `red` carries to its word's home: the operand, and the request that it ends (R183). -/
structure NearOperand where
  value : DWord
  job : HomeJob
deriving DecidableEq, Repr

/-- The instructions and events of the device. Event operands: g a group, w a walk, c a core, q a quad, b a partition,
line a line number (address / 128), seq a command sequence number, stream the selective IDE stream of a host access. -/
inductive Instr where
  -- control and synchronisation (R96)
  | nop (g : Guard)
  | bra (g : Guard) (off : BitVec 32)
  | brx (g : Guard) (a : Reg)
  | call (g : Guard) (d : Reg) (off : BitVec 32)
  | exit (g : Guard)
  | ret (g : Guard) (a : Reg)
  | yield (g : Guard)
  | brk (g : Guard) (imm : BitVec 16)
  | cvset (g : Guard) (c : Reg) (mask : BitVec 32)
  | cvwait (c : Reg)
  | trap (g : Guard) (imm : BitVec 16)
  | vote (g : Guard) (op : VoteOp) (d a : Reg)
  | semwait (g : Guard) (d k : Reg) (dec : Bool) (thr : BitVec 16)
  | semadd (g : Guard) (k : Reg) (inc : BitVec 16)
  | semset (g : Guard) (k : Reg) (val : BitVec 16)
  | barArrive (g : Guard) (scope : Scope) (b : Reg)
  | barWait (g : Guard) (scope : Scope) (b : Reg)
  | waitm (g : Guard) (ord : Order) (scope : Scope) (d a b : Reg)
  | launch (g : Guard) (d a : Reg)
  -- integer, address and moves (R120)
  | add (g : Guard) (o : IntBin)
  | addImm (g : Guard) (o : IntImm)
  | sub (g : Guard) (o : IntBin)
  | neg (g : Guard) (o : IntUn)
  | mul (g : Guard) (o : IntBin)
  | mulImm (g : Guard) (o : IntImm)
  | mulh (g : Guard) (o : IntBin)
  | mad (g : Guard) (o : IntTri)
  | div (g : Guard) (o : IntBin)
  | rem (g : Guard) (o : IntBin)
  | min (g : Guard) (o : IntBin)
  | max (g : Guard) (o : IntBin)
  | abs (g : Guard) (o : IntUn)
  | minImm (g : Guard) (o : IntImm)
  | maxImm (g : Guard) (o : IntImm)
  | and (g : Guard) (o : IntBin)
  | andImm (g : Guard) (o : IntImm)
  | or (g : Guard) (o : IntBin)
  | orImm (g : Guard) (o : IntImm)
  | xor (g : Guard) (o : IntBin)
  | xorImm (g : Guard) (o : IntImm)
  | not (g : Guard) (o : IntUn)
  | shl (g : Guard) (o : IntBin)
  | shlImm (g : Guard) (o : IntImm)
  | shr (g : Guard) (o : IntBin)
  | shrImm (g : Guard) (o : IntImm)
  | sra (g : Guard) (o : IntBin)
  | sraImm (g : Guard) (o : IntImm)
  | clz (g : Guard) (o : IntUn)
  | ctz (g : Guard) (o : IntUn)
  | popc (g : Guard) (o : IntUn)
  | brev (g : Guard) (o : IntUn)
  | bfx (g : Guard) (o : IntField)
  | bfi (g : Guard) (o : IntField)
  | prmt (g : Guard) (o : Prmt)
  | sel (g : Guard) (o : SelOp)
  | cmp (g : Guard) (o : CmpOp)
  | cmpImm (g : Guard) (o : CmpImm)
  | cvt (g : Guard) (o : CvtOp)
  | lea (g : Guard) (o : LeaOp)
  | shfl (g : Guard) (o : ShflOp)
  | mov (g : Guard) (d a : Reg)
  | movi (g : Guard) (o : MoviOp)
  | mov64 (g : Guard) (d a : Reg)
  | movFile (g : Guard) (o : MovFile)
  -- lane floating point (R136)
  | fadd (g : Guard) (o : FpBin)
  | fsub (g : Guard) (o : FpBin)
  | fmul (g : Guard) (o : FpBin)
  | fma (g : Guard) (o : FpTri)
  | fdiv (g : Guard) (o : FpBin)
  | fsqrt (g : Guard) (o : FpUn)
  | frcp (g : Guard) (o : FpUn)
  | frsq (g : Guard) (o : FpUn)
  | fmin (g : Guard) (o : FpBin)
  | fmax (g : Guard) (o : FpBin)
  | fabs (g : Guard) (o : FpUn)
  | fneg (g : Guard) (o : FpUn)
  | fcmp (g : Guard) (o : FcmpOp)
  | fclass (g : Guard) (o : FpUn)
  | fcvt (g : Guard) (o : FcvtOp)
  | fround (g : Guard) (o : FpUn)
  | fsfn (g : Guard) (o : FsfnOp)
  -- variable precision (R147)
  | xadd (g : Guard) (o : VpBin)
  | xsub (g : Guard) (o : VpBin)
  | xmul (g : Guard) (o : VpBin)
  | xfma (g : Guard) (o : VpTri)
  | xdiv (g : Guard) (o : VpBin)
  | xsqrt (g : Guard) (o : VpUn)
  | xcmp (g : Guard) (o : XcmpOp)
  | xround (g : Guard) (o : VpUn)
  | xneg (g : Guard) (o : VpSign)
  | xabs (g : Guard) (o : VpSign)
  | xmov (g : Guard) (d a : Reg)
  | xcvt (g : Guard) (o : XcvtOp)
  | xld (g : Guard) (o : XldOp)
  | xldStride (g : Guard) (o : XldStride)
  | xst (g : Guard) (o : XstOp)
  | xstStride (g : Guard) (o : XstStride)
  | xnext (g : Guard) (d a : Reg)
  | xalloc (g : Guard) (d : Reg) (e : AllocSize)
  | xframe (g : Guard) (a : Option Reg)
  | xunframe (g : Guard)
  -- memory, atomics, batons (R170)
  | ld (g : Guard) (o : MemOp)
  | st (g : Guard) (o : MemOp)
  | lds (g : Guard) (o : ScrOp)
  | sts (g : Guard) (o : ScrOp)
  | bst (g : Guard) (o : BstOp)
  | prf (g : Guard) (l2 : Bool) (a : Reg) (off : BitVec 16)
  | pushm (g : Guard) (d : Reg) (n : BitVec 5)
  | popm (g : Guard) (d : Reg) (n : BitVec 5)
  | atom (g : Guard) (o : AtomOps)
  | red (g : Guard) (o : AtomOps)
  | near (g : Guard) (o : AtomOps)
  | fence (g : Guard) (ord : Order) (scope : Scope) (b : Reg)
  -- matrix and copy (R195)
  | mmaF16 (g : Guard) (o : MmaOps)
  | mmaBf16 (g : Guard) (o : MmaOps)
  | mmaE4m3 (g : Guard) (o : MmaOps)
  | mmaE5m2 (g : Guard) (o : MmaOps)
  | mmaS8 (g : Guard) (o : MmaOps)
  | mmaMxf4 (g : Guard) (o : MmaOps)
  | mmaDpt (g : Guard) (o : MmaOps)
  | mmaF16Sp (g : Guard) (o : MmaOps)
  | mmaBf16Sp (g : Guard) (o : MmaOps)
  | mmaE4m3Sp (g : Guard) (o : MmaOps)
  | mmaE5m2Sp (g : Guard) (o : MmaOps)
  | mmaS8Sp (g : Guard) (o : MmaOps)
  | mmaMxf4Sp (g : Guard) (o : MmaOps)
  | mmaDptSp (g : Guard) (o : MmaOps)
  | accZero (g : Guard) (t : Reg) (sync : Sync)
  | accLd (g : Guard) (o : AccOps)
  | accSt (g : Guard) (o : AccOps)
  | copy (g : Guard) (o : CopyOps)
  -- Walker lane side (R235)
  | wprog (g : Guard) (d a b : Reg) (words : BitVec 16)
  | wlaunch (g : Guard) (a b : Reg) (queue : BitVec 2) (sync : Sync)
  | wtake (g : Guard) (d a b : Reg) (queue : BitVec 2)
  | wpoll (g : Guard) (d a : Reg) (queue : BitVec 2) (clr : Bool)
  | wcancel (g : Guard) (d : Reg) (queue : BitVec 2) (team : Bool)
  -- Warm-up Array and ingress (R378)
  | wuacfg (g : Guard) (stat : Bool) (clr : Bool) (d a : Reg) (off : BitVec 16)
  | wuarun (g : Guard) (a : Reg) (sync : Sync)
  | slotfree (g : Guard) (d a : Reg) (ring : BitVec 2)
  | slotstat (g : Guard) (op : SlotOp) (ring : BitVec 2) (clr : Bool) (d a b : Reg)
  -- system (R96)
  | getc (g : Guard) (uni : Bool) (d : Reg) (num : BitVec 8)
  | setc (g : Guard) (uni : Bool) (num : BitVec 8) (a : Reg)
  | tret
  | halt
  -- Walker instructions (R216)
  | nfetch (n : BitVec 2) (pf : Bool) (a : WReg)
  | ndec (d : WReg) (n : BitVec 2) (k : BitVec 4)
  | tbox (o : WTest)
  | ttri (o : WTest)
  | tdist (o : WDist)
  | tkey (o : WKey)
  | spush (a : WReg)
  | spop (d a : WReg)
  | emit (d a b : WReg)
  | relay (a : WReg)
  | ckpt
  | done
  | j (off : BitVec 26)
  | jz (a : WReg) (off : BitVec 21)
  | jnz (a : WReg) (off : BitVec 21)
  | jmask (a : WReg) (off : BitVec 21)
  | wadd (o : WBin)
  | wsub (o : WBin)
  | wand (o : WBin)
  | wor (o : WBin)
  | wshl (o : WBin)
  | wshr (o : WBin)
  | wcmp (o : WCmpOp)
  | wmin (o : WBin)
  | wmax (o : WBin)
  | wmov (d a : WReg)
  | wli (d a : WReg) (imm : BitVec 16)
  | wsel (d a b c : WReg)
  | wld (o : WLd)
  | wfadd (o : WBin)
  | wfmul (o : WBin)
  | wfmin (o : WBin)
  | wfmax (o : WBin)
  | wfcmp (o : WCmpOp)
  -- steps of groups, engines and walks
  | engineReportTaken (g : Nat)
  | pathTurnEnd (g : Nat)
  | pacerForce (g : Nat)
  | semwaitTimeout (g path : Nat)
  | waitmTimeout (g path : Nat)
  | hurdleArrival (team : Nat)
  | hurdleCompletion (cluster : Nat)
  | engineCommandStart (c : Nat) (seq : Word)
  | operandStagingDone (q : Nat)
  | mmaBlockStep (q : Nat)
  | tileCommandComplete (q : Nat)
  | copyComplete (c : Nat) (seq : Word)
  | wuaRunComplete (q : Nat)
  | wlaunchIntake (c : Nat) (seq : Word)
  | walkStart (c : Nat)
  | nodeLineArrival (w : Nat)
  | walkRecordAppend (w : Nat)
  | wlaunchSignal (c : Nat) (seq : Word)
  | relayBusyRetry (w : Nat)
  -- coherence (R294-R299)
  | l1Fill (c line : Nat) (excl : Bool)
  | l1Inv (c line : Nat)
  | l1RecallI (c line : Nat)
  | l1RecallS (c line : Nat)
  | l1Push (c line : Nat)
  | l1EvictAnswer (c line : Nat)
  | homeGets (c line : Nat)
  | homeGetm (c line : Nat)
  | nodeCacheFill (part line : Nat)
  | bstHomeWrite (c line : Nat) (push : HomePush)
  | homeWrite (a : AgentId) (part addr : Nat) (bytes : List Byte)
  | homeRead (a : AgentId) (part addr n : Nat)
  | nearDataOp (c : Nat) (op : AtomOp) (size : Size) (addr : Nat) (operand : NearOperand)
  | homeEvictionNotice (c line : Nat) (dirty : Bool)
  | homeAnswer (c line : Nat) (ans : CohAnswer)
  | batonAck (c line dest : Nat) (reason : Nat)
  | peerCopyExpiry (line : Nat)
  -- faults, translation, contexts
  | mailboxSlotWrite (req : Nat)
  | pagerReply (req : Nat)
  | tlbinvComplete (b : Nat)
  | groupSwapStop (g : Nat)
  | swapCoresHalted (b : Nat)
  | swapExchangeDone (b : Nat)
  -- launch and dispatch
  | dispatcherTurn (b : Nat)
  | launchRecordCheck (grid : Nat)
  | gridCounterRead (grid : Nat)
  | gridCounterPoll (grid : Nat)
  | dispatchStep (b : Nat)
  | teamRetire (team : Nat)
  | gridEnd (grid : Nat)
  -- ingress (R366-R377)
  | flowControlSend (port : Nat)
  | heldLineDelivery (port : Nat)
  | ringUnbindComplete (c ring : Nat)
  -- partitions, firmware, management
  | partitionAssign (b : Nat)
  | partitionRelease (b : Nat)
  | partitionReset (b : Nat)
  | firmwareVerify (img : Image)
  | fwLoadAndBoot (img : Image)
  | fwStoreToFlash (img : Image)
  | spdmRequest
  | keyInstall (b : Nat) (key : List Byte)
  | keyGenerate (b : Nat)
  | keyErase (b : Nat)
  -- arrivals and wakes
  | unassignedPosition (head : BitVec 16)
  | unassignedWalkerOpcode (word : BitVec 32)
  | arrivalCheckTrap
  -- what comes from outside the device; b of a relay event is the receiving partition (R335, R336)
  | relayWalk (b : Nat) (r : RelayIn)
  | relayWalkAnswer (b : Nat) (r : RelayIn)
  | relayRelease (b : Nat) (r : RelayIn)
  | relayReleaseAnswer (b : Nat) (r : RelayIn)
  | relayRoom (b : Nat) (r : RelayIn)
  | relayEnded (b : Nat) (r : RelayIn)
  | relayFaultMessage (b : Nat) (r : RelayIn)
  | relayRecall (b : Nat) (r : RelayIn)
  | relayCancel (b : Nat) (r : RelayIn)
  | relayHome (b : Nat) (r : RelayIn)
  | relayCancelled (b : Nat) (r : RelayIn)
  | linkFailure (l : LinkId)
  | remoteCompletion (req : Nat) (data : List Byte)
  | accessRefused (req : Nat)
  | tlbinvWrite (b : Nat) (v : DWord)
  | ctxctlSwapRequest (b : Nat) (v : Word)
  | mcstatWrite (b : Nat) (v : Word)
  | lqtailWrite (b n : Nat) (v : Word)
  | lqctlWrite (b n : Nat) (v : Word)
  | ingressLineFrame (port : Nat) (frame : List Byte) (fec : Bool)
  | ingressFcFrame (port : Nat) (frame : List Byte)
  | ingressLinkChange (port : Nat) (lock : BitVec 4) (aligned : Bool)
  | hostBar2Read (addr n : Nat) (stream : Option Nat)
  | hostBar2Write (addr : Nat) (bytes : List Byte) (stream : Option Nat)
  | hostAtomicop (op : HostAtomic) (w64 : Bool) (addr : Nat) (operand cmp : DWord) (stream : Option Nat)
  | peerRequest (device src b port req addr : Nat) (op : PeerOp)
  | powerThrottle (package board : Nat) (temp : Int)
  | thermalShutdown
  | registerWrite (page : RegPage) (off : Nat) (w64 : Bool) (v : DWord)
  | haltFirmwareWake (g : Nat)
  | ualinkPortUp (port : Nat) (sec : Bool)
  | ingressFecCodeword (port : Nat) (corrected uncorrectable : Bool)
  | stage1Init (training selfTest : Bool)
  | dumpstatWrite (v : Word)
  | deviceReset
deriving DecidableEq, Repr

end Sys2Proof
end

