-- ==== Sys2Proof/WellFormed.lean ====
section
/-! DEFINITION. The operands an instruction admits (R47, R61-R67 and each entry): register numbers within their file's
field, types, orderings, scopes and operations the entry lists, fields it does not use 0. -/
namespace Sys2Proof

/-- Number bits of the files (R47): s, x, p and c, a. -/
def Reg.inS (r : Reg) : Bool := decide (r.toNat < 64)
def Reg.inX (r : Reg) : Bool := decide (r.toNat < 32)
def Reg.inP (r : Reg) : Bool := decide (r.toNat < 8)
def Reg.inA (r : Reg) : Bool := decide (r.toNat < 4)

/-- A register of an integer form: s under m [7], else v (R62). -/
def Reg.inInt (uni : Bool) (r : Reg) : Bool := !uni || r.inS

/-- "32, 64" of R120. -/
def Ty.isInt3264 : Ty → Bool
  | .n32 => true
  | .s32 => true
  | .n64 => true
  | .s64 => true
  | _ => false

/-- The integer codes 0x0-0x7. -/
def Ty.isInt : Ty → Bool
  | .n16 => true
  | .s16 => true
  | .n8 => true
  | .s8 => true
  | t => t.isInt3264

def Ty.isFloat : Ty → Bool
  | .f16 => true
  | .bf16 => true
  | .f32 => true
  | .f64 => true
  | _ => false

/-- `.f16 .f32 .f64` of R136. -/
def Ty.isDiv (t : Ty) : Bool := t.isFloat && t != .bf16

/-- `.f32 .f64` of R136. -/
def Ty.isWideFloat (t : Ty) : Bool := t == .f32 || t == .f64

/-- `.f16 .f32` of R136. -/
def Ty.isSfn (t : Ty) : Bool := t == .f16 || t == .f32

/-- Types of fcvt (R143). -/
def Ty.isCvt (t : Ty) : Bool := t.isFloat || t.isInt3264

/-- Whether a type is signed (R115). -/
def Ty.signed : Ty → Bool
  | .s8 => true
  | .s16 => true
  | .s32 => true
  | .s64 => true
  | _ => false

/-- No guard (R96). -/
def Guard.always (g : Guard) : Bool := g.pred == 0 && !g.neg

def IntBin.wf (o : IntBin) : Bool := o.ty.isInt3264 && o.d.inInt o.uni && o.a.inInt o.uni && o.b.inInt o.uni
def IntImm.wf (o : IntImm) : Bool := o.ty.isInt3264 && o.d.inInt o.uni && o.a.inInt o.uni
def IntUn.wf (o : IntUn) : Bool := o.ty.isInt3264 && o.d.inInt o.uni && o.a.inInt o.uni
def IntTri.wf (o : IntTri) : Bool :=
  o.ty.isInt3264 && o.d.inInt o.uni && o.a.inInt o.uni && o.b.inInt o.uni && o.c.inInt o.uni

/-- abs takes the signed types only (R120). -/
def IntUn.wfAbs (o : IntUn) : Bool := (o.ty == .s32 || o.ty == .s64) && o.d.inInt o.uni && o.a.inInt o.uni

def IntField.wfBfx (o : IntField) : Bool :=
  o.ty.isInt3264 && o.d.inInt o.uni && o.a.inInt o.uni && o.b == 0
def IntField.wfBfi (o : IntField) : Bool :=
  o.ty.isInt3264 && o.d.inInt o.uni && o.a.inInt o.uni && o.b.inInt o.uni

def Prmt.wf (o : Prmt) : Bool := o.d.inInt o.uni && o.a.inInt o.uni && o.b.inInt o.uni
def SelOp.wf (o : SelOp) : Bool := o.ty.isInt3264
def CmpOp.wf (o : CmpOp) : Bool := o.ty.isInt3264 && o.d.inP && o.a.inInt o.uni && o.b.inInt o.uni
def CmpImm.wf (o : CmpImm) : Bool := o.ty.isInt3264 && o.d.inP && o.a.inInt o.uni
def CvtOp.wf (o : CvtOp) : Bool := o.dty.isInt && o.sty.isInt
def LeaOp.wf (o : LeaOp) : Bool := o.ty.isInt3264 && o.d.inInt o.uni && o.a.inInt o.uni && o.b.inInt o.uni
def ShflOp.wf (o : ShflOp) : Bool := o.ty == .n32 || o.ty == .n64
def MoviOp.wf (o : MoviOp) : Bool := o.ty.isInt3264 && o.d.inInt o.uni

/-- A register of a file of mov (file). -/
def RFile.holds : RFile → Reg → Bool
  | .v, _ => true
  | .s, r => r.inS
  | .p, r => r.inP

def MovFile.wf (o : MovFile) : Bool := o.df.holds o.d && o.af.holds o.a

def FpBin.wf (tys : Ty → Bool) (o : FpBin) : Bool := tys o.ty
def FpUn.wf (tys : Ty → Bool) (o : FpUn) : Bool := tys o.ty
/-- Instructions that do not round (R134). -/
def FpBin.wfExact (tys : Ty → Bool) (o : FpBin) : Bool := tys o.ty && o.rnd == .dyn
def FpUn.wfExact (tys : Ty → Bool) (o : FpUn) : Bool := tys o.ty && o.rnd == .dyn
def FpTri.wf (o : FpTri) : Bool := o.ty.isFloat
def FcmpOp.wf (o : FcmpOp) : Bool := o.ty.isWideFloat && o.d.inP
def FcvtOp.wf (o : FcvtOp) : Bool :=
  o.dty.isCvt && o.sty.isCvt && (o.dty.isFloat || o.sty.isFloat) && o.dty != o.sty
def FsfnOp.wf (o : FsfnOp) : Bool := o.ty.isSfn

def VpBin.wf (o : VpBin) : Bool := o.d.inX && o.a.inX && o.b.inX
def VpUn.wf (o : VpUn) : Bool := o.d.inX && o.a.inX
def VpTri.wf (o : VpTri) : Bool := o.d.inX && o.a.inX && o.b.inX && o.c.inX
def XcmpOp.wf (o : XcmpOp) : Bool := o.d.inP && o.a.inX && o.b.inX
def VpSign.wf (o : VpSign) : Bool := o.d.inX && o.a.inX
def XcvtOp.wf (o : XcvtOp) : Bool := if o.fromVp then o.a.inX && !o.exact else o.d.inX

def AllocSize.wf : AllocSize → Bool
  | .words e => decide (e.toNat ≤ 8)
  | .prec => true

/-- The rectangle register of an `.x` scope; 0 with any other (R65). -/
def rectWf (scope : Scope) (r : Reg) : Bool := if scope == .x then r.inS else r == 0

/-- Orderings accepted (R65). -/
def Order.forLoad (o : Order) : Bool := o == .rlx || o == .acq
def Order.forStore (o : Order) : Bool := o == .rlx || o == .rel

def Size.code : Size → BitVec 3
  | .n8 => 0
  | .s8 => 1
  | .n16 => 2
  | .s16 => 3
  | .n32 => 4
  | .s32 => 5
  | .n64 => 6
  | .s64 => 7

/-- Sizes 4-7, which atomics take (R170). -/
def Size.atomic (z : Size) : Bool := decide (4 ≤ z.code.toNat)

def MemOp.wfLd (o : MemOp) : Bool := o.ord.forLoad && rectWf o.scope o.b
def MemOp.wfSt (o : MemOp) : Bool := o.ord.forStore && rectWf o.scope o.b
def BstOp.wf (o : BstOp) : Bool := o.ord.forStore && o.b.inS && rectWf o.scope o.rect

/-- Operations of red: 0-5 of R66. -/
def AtomOp.reduces : AtomOp → Bool
  | .xchg => false
  | .cas => false
  | .gather => false
  | _ => true

def AtomOps.wfAtom (o : AtomOps) : Bool :=
  o.size.atomic && o.op != .gather && rectWf o.scope o.rect && (o.op == .cas || o.cmp == 0) && o.count == 0

def AtomOps.wfRed (o : AtomOps) : Bool :=
  o.size.atomic && o.op.reduces && o.ord.forStore && rectWf o.scope o.rect && o.cmp == 0 && o.count == 0 && o.d == 0

def AtomOps.wfNear (o : AtomOps) : Bool :=
  o.size.atomic && (o.op.reduces || o.op == .gather) && rectWf o.scope o.rect && o.cmp == 0 &&
    (if o.op == .gather then o.b == 0 && decide (o.count.toNat < 8) else o.count == 0)

/-! Matrix geometry (R203). -/

/-- Stored bytes of one row of A and B in a form: ta and tb select the layout. -/
def MmaFmt.rowA : MmaFmt → Bool → Nat
  | .f16, _ => 128
  | .bf16, _ => 128
  | .mxf4, ta => if ta then 32 else 128
  | _, ta => if ta then 64 else 128

def MmaFmt.rowB (f : MmaFmt) (sp tb : Bool) : Nat :=
  match f with
  | .f16 => if sp then (if tb then 128 else 256) else 128
  | .bf16 => if sp then (if tb then 128 else 256) else 128
  | .mxf4 => if tb then 32 else if sp then 256 else 128
  | _ => if tb then 64 else if sp then 256 else 128

/-- Whether the form carries a side area, which is whether it is T7 (R195). -/
def MmaFmt.side (f : MmaFmt) (sp : Bool) : Bool := sp || f == .mxf4 || f == .dpt

/-- Operand values mma admits (R202). -/
def MmaOps.admits (f : MmaFmt) (sp : Bool) (o : MmaOps) : Bool :=
  !(sp && o.ta) && !(o.wua && (sp || f == .bf16 || f == .mxf4)) &&
    (o.pa == 0 || decide (f.rowA o.ta ≤ 8 * o.pa.toNat)) && (o.pb == 0 || decide (f.rowB sp o.tb ≤ 8 * o.pb.toNat))

def MmaOps.wf (f : MmaFmt) (sp : Bool) (o : MmaOps) : Bool :=
  o.t.inA && o.b.inS && (if o.wua then o.a == 0 && o.pa == 0 else o.a.inS) &&
    (if f.side sp then o.e.inS else o.e == 0) && o.admits f sp

/-- Element bytes of an accumulator move (R208). -/
def AccFmt.bytes : AccFmt → Nat
  | .f32 => 4
  | _ => 2

def AccOps.admits (o : AccOps) : Bool := o.pitch == 0 || decide (64 * o.fmt.bytes ≤ 8 * o.pitch.toNat)
def AccOps.wf (o : AccOps) : Bool := o.t.inA && o.a.inS && o.admits
def CopyOps.admits (o : CopyOps) : Bool := decide (0 < o.bytes.toNat) && decide (o.bytes.toNat ≤ 393216)
def CopyOps.wf (o : CopyOps) : Bool := o.d.inS && o.a.inS && o.b.inS && o.e.inS && o.admits

/-- The numbers of R24. -/
def ctrlListed (n : Nat) : Bool :=
  decide (n ≤ 0x07) || (decide (0x10 ≤ n) && decide (n ≤ 0x14)) || (decide (0x20 ≤ n) && decide (n ≤ 0x24)) ||
    (decide (0x30 ≤ n) && decide (n ≤ 0x34)) || (decide (0x40 ≤ n) && decide (n ≤ 0x5F))

/-- RO registers of R24. -/
def ctrlReadOnly (n : Nat) : Bool := decide (n ≤ 0x07) || n == 0x13 || (decide (0x40 ≤ n) && decide (n ≤ 0x5F))

/-- RS registers of R24. -/
def ctrlSupervisor (n : Nat) : Bool := n == 0x33 || n == 0x34

def WBin.wfFloat (o : WBin) : Bool := !o.f1
def WTest.wfBox (o : WTest) : Bool := o.j == 0 && (!o.flag || o.a == 0)
def WTest.wfTri (o : WTest) : Bool := !o.flag
def WDist.wf (o : WDist) : Bool := decide (o.src.toNat ≤ 4) && (decide (o.src.toNat < 4) || !o.qh)
def WLd.wf (o : WLd) : Bool := decide (o.src.toNat ≤ 4)

/-- Well-formed instructions; the device's events carry no encoding and every one is well formed. -/
def Instr.wf : Instr → Bool
  | .call _ _ _ => true
  | .cvset _ c _ => c.inP
  | .cvwait c => c.inP
  | .vote _ op d a => a.inP && (match op with
      | .mask => d.inS
      | .count => d.inS
      | .lead => d.inS
      | _ => d.inP)
  | .semwait _ d _ _ _ => d.inP
  | .barArrive _ scope b => (scope == .t || scope == .x) && rectWf scope b
  | .barWait _ scope b => (scope == .t || scope == .x) && rectWf scope b
  | .waitm _ ord scope d a b => ord.forLoad && scope != .x && d.inS && a.inS && b.inS
  | .launch _ d a => d.inS && a.inS
  | .add _ o => o.wf
  | .addImm _ o => o.wf
  | .sub _ o => o.wf
  | .neg _ o => o.wf
  | .mul _ o => o.wf
  | .mulImm _ o => o.wf
  | .mulh _ o => o.wf
  | .mad _ o => o.wf
  | .div _ o => o.wf
  | .rem _ o => o.wf
  | .min _ o => o.wf
  | .max _ o => o.wf
  | .abs _ o => o.wfAbs
  | .minImm _ o => o.wf
  | .maxImm _ o => o.wf
  | .and _ o => o.wf
  | .andImm _ o => o.wf
  | .or _ o => o.wf
  | .orImm _ o => o.wf
  | .xor _ o => o.wf
  | .xorImm _ o => o.wf
  | .not _ o => o.wf
  | .shl _ o => o.wf
  | .shlImm _ o => o.wf
  | .shr _ o => o.wf
  | .shrImm _ o => o.wf
  | .sra _ o => o.wf
  | .sraImm _ o => o.wf
  | .clz _ o => o.wf
  | .ctz _ o => o.wf
  | .popc _ o => o.wf
  | .brev _ o => o.wf
  | .bfx _ o => o.wfBfx
  | .bfi _ o => o.wfBfi
  | .prmt _ o => o.wf
  | .sel _ o => o.wf
  | .cmp _ o => o.wf
  | .cmpImm _ o => o.wf
  | .cvt _ o => o.wf
  | .lea _ o => o.wf
  | .shfl _ o => o.wf
  | .movi _ o => o.wf
  | .movFile _ o => o.wf
  | .fadd _ o => o.wf Ty.isFloat
  | .fsub _ o => o.wf Ty.isFloat
  | .fmul _ o => o.wf Ty.isFloat
  | .fma _ o => o.wf
  | .fdiv _ o => o.wf Ty.isDiv
  | .fsqrt _ o => o.wf Ty.isDiv
  | .frcp _ o => o.wf Ty.isDiv
  | .frsq _ o => o.wf Ty.isDiv
  | .fmin _ o => o.wfExact Ty.isFloat
  | .fmax _ o => o.wfExact Ty.isFloat
  | .fabs _ o => o.wfExact Ty.isFloat
  | .fneg _ o => o.wfExact Ty.isFloat
  | .fcmp _ o => o.wf
  | .fclass _ o => o.wfExact Ty.isWideFloat
  | .fcvt _ o => o.wf
  | .fround _ o => o.wf Ty.isFloat
  | .fsfn _ o => o.wf
  | .xadd _ o => o.wf
  | .xsub _ o => o.wf
  | .xmul _ o => o.wf
  | .xfma _ o => o.wf
  | .xdiv _ o => o.wf
  | .xsqrt _ o => o.wf
  | .xcmp _ o => o.wf
  | .xround _ o => o.wf
  | .xneg _ o => o.wf
  | .xabs _ o => o.wf
  | .xmov _ d a => d.inX && a.inX
  | .xcvt _ o => o.wf
  | .xld _ o => o.d.inX
  | .xldStride _ o => o.d.inX
  | .xst _ o => o.d.inX
  | .xstStride _ o => o.d.inX
  | .xalloc _ d e => d.inX && e.wf
  | .xframe _ a => match a with
      | some r => r.inS
      | none => true
  | .ld _ o => o.wfLd
  | .st _ o => o.wfSt
  | .bst _ o => o.wf
  | .atom _ o => o.wfAtom
  | .red _ o => o.wfRed
  | .near _ o => o.wfNear
  | .fence _ ord scope b => ord != .rlx && rectWf scope b
  | .mmaF16 _ o => o.wf .f16 false
  | .mmaBf16 _ o => o.wf .bf16 false
  | .mmaE4m3 _ o => o.wf .e4m3 false
  | .mmaE5m2 _ o => o.wf .e5m2 false
  | .mmaS8 _ o => o.wf .s8 false
  | .mmaMxf4 _ o => o.wf .mxf4 false
  | .mmaDpt _ o => o.wf .dpt false
  | .mmaF16Sp _ o => o.wf .f16 true
  | .mmaBf16Sp _ o => o.wf .bf16 true
  | .mmaE4m3Sp _ o => o.wf .e4m3 true
  | .mmaE5m2Sp _ o => o.wf .e5m2 true
  | .mmaS8Sp _ o => o.wf .s8 true
  | .mmaMxf4Sp _ o => o.wf .mxf4 true
  | .mmaDptSp _ o => o.wf .dpt true
  | .accZero _ t _ => t.inA
  | .accLd _ o => o.wf
  | .accSt _ o => o.wf
  | .copy _ o => o.wf
  | .wprog _ d a b _ => d.inS && a.inS && b.inS
  | .wlaunch _ _ b _ _ => b.inS
  | .wtake _ _ a b _ => a.inS && b.inP
  | .wpoll _ d a _ _ => d.inS && a.inS
  | .wcancel _ d _ _ => d.inS
  | .wuacfg _ stat clr d a off => d.inS && (if stat then a == 0 && off == 0 else a.inS && !clr)
  | .wuarun _ a _ => a.inS
  | .slotfree _ d a _ => d.inS && a.inS
  | .slotstat _ op _ clr d a b => (match op with
      | .get => d.inS && a == 0 && b == 0
      | .drops => d.inS && a == 0 && b == 0
      | .bind => d == 0 && a.inS && b.inS && !clr
      | .unbind => d == 0 && a == 0 && b == 0 && !clr)
  | .getc _ uni d num => d.inInt uni && ctrlListed num.toNat
  | .setc _ uni num a => a.inInt uni && ctrlListed num.toNat && !ctrlReadOnly num.toNat
  | .tbox o => o.wfBox
  | .ttri o => o.wfTri
  | .tdist o => o.wf
  | .wld o => o.wf
  | .wfadd o => o.wfFloat
  | .wfmul o => o.wfFloat
  | .wfmin o => o.wfFloat
  | .wfmax o => o.wfFloat
  | .wfcmp o => !o.f1
  | _ => true

end Sys2Proof
end

