-- ==== Sys2Proof/Decode.lean ====
section
/-! DEFINITION. The decoder of core heads and tails (R42-R48, R58-R68), of Walker words (R49, R69, R216) and of code
lines (R34-R36), and after it the encoder. -/
namespace Sys2Proof

/-- A refused encoding: the head and the reason of R44. -/
structure Reject where
  head : Half
  reason : Nat
deriving DecidableEq, Repr

/-! Tail fields (R45): w is imm16, imm32 or the synchronisation word; h is h16, h32 or h40. -/

structure Fields where
  d : BitVec 8
  a : BitVec 8
  b : BitVec 8
  m : BitVec 8
  w : BitVec 32
  e : BitVec 8
  h : BitVec 40
deriving DecidableEq, Repr

def Fields.zero : Fields := ⟨0, 0, 0, 0, 0, 0, 0⟩

def loByte (x : Half) : BitVec 8 := x.setWidth 8
def hiByte (x : Half) : BitVec 8 := (x >>> 8).setWidth 8
def loHalf (x : BitVec 32) : Half := x.setWidth 16
def hiHalf (x : BitVec 32) : Half := (x >>> 16).setWidth 16

/-- The fields of a tail, its halfwords in ascending address order (R35). -/
def fieldsOf : List Half → Fields
  | [x0] => { Fields.zero with d := loByte x0, a := hiByte x0 }
  | [x0, x1] => { Fields.zero with d := loByte x0, a := hiByte x0, b := loByte x1, m := hiByte x1 }
  | [x0, x1, x2] => ⟨loByte x0, hiByte x0, loByte x1, hiByte x1, x2.setWidth 32, 0, 0⟩
  | [x0, x1, x2, x3] => ⟨loByte x0, hiByte x0, loByte x1, hiByte x1, x3 ++ x2, 0, 0⟩
  | [x0, x1, x2, x3, x4] => ⟨loByte x0, hiByte x0, loByte x1, hiByte x1, x3 ++ x2, 0, x4.setWidth 40⟩
  | [x0, x1, x2, x3, x4, x5] => ⟨loByte x0, hiByte x0, loByte x1, hiByte x1, x3 ++ x2, 0, (x5 ++ x4).setWidth 40⟩
  | [x0, x1, x2, x3, x4, x5, x6] =>
    ⟨loByte x0, hiByte x0, loByte x1, hiByte x1, x3 ++ x2, loByte x4, x6 ++ x5 ++ hiByte x4⟩
  | _ => Fields.zero

/-- Whether a bit outside the mask is set (R44, reason 0x2). -/
def Fields.strays (f u : Fields) : Bool :=
  f.d &&& ~~~u.d != 0 || f.a &&& ~~~u.a != 0 || f.b &&& ~~~u.b != 0 || f.m &&& ~~~u.m != 0 || f.w &&& ~~~u.w != 0 ||
    f.e &&& ~~~u.e != 0 || f.h &&& ~~~u.h != 0

/-! Coded values (R61-R66). -/

def Ty.code : Ty → BitVec 4
  | .n32 => 0
  | .s32 => 1
  | .n64 => 2
  | .s64 => 3
  | .n16 => 4
  | .s16 => 5
  | .n8 => 6
  | .s8 => 7
  | .f16 => 8
  | .bf16 => 9
  | .f32 => 10
  | .f64 => 11

def Ty.ofCode (c : BitVec 4) : Option Ty :=
  match c.toNat with
  | 0 => some .n32
  | 1 => some .s32
  | 2 => some .n64
  | 3 => some .s64
  | 4 => some .n16
  | 5 => some .s16
  | 6 => some .n8
  | 7 => some .s8
  | 8 => some .f16
  | 9 => some .bf16
  | 10 => some .f32
  | 11 => some .f64
  | _ => none

def Rnd.code : Rnd → BitVec 3
  | .dyn => 0
  | .rne => 1
  | .rtz => 2
  | .rup => 3
  | .rdn => 4
  | .rna => 5

def Rnd.ofCode (c : BitVec 3) : Option Rnd :=
  match c.toNat with
  | 0 => some .dyn
  | 1 => some .rne
  | 2 => some .rtz
  | 3 => some .rup
  | 4 => some .rdn
  | 5 => some .rna
  | _ => none

def Cond.code : Cond → BitVec 3
  | .eq => 0
  | .ne => 1
  | .lt => 2
  | .le => 3
  | .gt => 4
  | .ge => 5

def Cond.ofCode (c : BitVec 3) : Option Cond :=
  match c.toNat with
  | 0 => some .eq
  | 1 => some .ne
  | 2 => some .lt
  | 3 => some .le
  | 4 => some .gt
  | 5 => some .ge
  | _ => none

def Order.code : Order → BitVec 2
  | .rlx => 0
  | .acq => 1
  | .rel => 2
  | .ar => 3

def Order.ofCode (c : BitVec 2) : Order :=
  match c.toNat with
  | 0 => .rlx
  | 1 => .acq
  | 2 => .rel
  | _ => .ar

def Scope.code : Scope → BitVec 3
  | .g => 0
  | .t => 1
  | .x => 2
  | .d => 3
  | .s => 4

def Scope.ofCode (c : BitVec 3) : Option Scope :=
  match c.toNat with
  | 0 => some .g
  | 1 => some .t
  | 2 => some .x
  | 3 => some .d
  | 4 => some .s
  | _ => none

def Size.ofCode (c : BitVec 3) : Size :=
  match c.toNat with
  | 0 => .n8
  | 1 => .s8
  | 2 => .n16
  | 3 => .s16
  | 4 => .n32
  | 5 => .s32
  | 6 => .n64
  | _ => .s64

def AtomOp.code : AtomOp → BitVec 4
  | .add => 0
  | .min => 1
  | .max => 2
  | .and => 3
  | .or => 4
  | .xor => 5
  | .xchg => 6
  | .cas => 7
  | .gather => 8

def AtomOp.ofCode (c : BitVec 4) : Option AtomOp :=
  match c.toNat with
  | 0 => some .add
  | 1 => some .min
  | 2 => some .max
  | 3 => some .and
  | 4 => some .or
  | 5 => some .xor
  | 6 => some .xchg
  | 7 => some .cas
  | 8 => some .gather
  | _ => none

/-- Votes by m [3:0]: bits [1:0] the operation, [3:2] the test of `.test` (R103). -/
def VoteOp.code : VoteOp → BitVec 4
  | .mask => 0
  | .count => 1
  | .lead => 2
  | .every => 3
  | .none => 7
  | .some => 11
  | .split => 15

def VoteOp.ofCode (c : BitVec 4) : VoteOp :=
  match c.toNat % 4, c.toNat / 4 with
  | 0, _ => .mask
  | 1, _ => .count
  | 2, _ => .lead
  | _, 0 => .every
  | _, 1 => .none
  | _, 2 => .some
  | _, _ => .split

def VoteOp.isTest : VoteOp → Bool
  | .mask => false
  | .count => false
  | .lead => false
  | _ => true

def RFile.code : RFile → BitVec 2
  | .v => 0
  | .s => 1
  | .p => 2

def RFile.ofCode (c : BitVec 2) : Option RFile :=
  match c.toNat with
  | 0 => some .v
  | 1 => some .s
  | 2 => some .p
  | _ => none

def Sfn.code : Sfn → BitVec 4
  | .exp2 => 0
  | .log2 => 1
  | .sinpi => 2
  | .cospi => 3
  | .tanh => 4
  | .sigm => 5

def Sfn.ofCode (c : BitVec 4) : Option Sfn :=
  match c.toNat with
  | 0 => some .exp2
  | 1 => some .log2
  | 2 => some .sinpi
  | 3 => some .cospi
  | 4 => some .tanh
  | 5 => some .sigm
  | _ => none

def AccFmt.code : AccFmt → BitVec 2
  | .f32 => 0
  | .f16 => 1
  | .bf16 => 2

def AccFmt.ofCode (c : BitVec 2) : Option AccFmt :=
  match c.toNat with
  | 0 => some .f32
  | 1 => some .f16
  | 2 => some .bf16
  | _ => none

def CopyDir.code : CopyDir → BitVec 2
  | .gs => 0
  | .sg => 1
  | .ss => 2
  | .gg => 3

def CopyDir.ofCode (c : BitVec 2) : CopyDir :=
  match c.toNat with
  | 0 => .gs
  | 1 => .sg
  | 2 => .ss
  | _ => .gg

def SlotOp.code : SlotOp → BitVec 2
  | .get => 0
  | .drops => 1
  | .bind => 2
  | .unbind => 3

def SlotOp.ofCode (c : BitVec 2) : SlotOp :=
  match c.toNat with
  | 0 => .get
  | 1 => .drops
  | 2 => .bind
  | _ => .unbind

def DistFmt.code : DistFmt → BitVec 2
  | .e4m3 => 0
  | .e5m2 => 1
  | .f16 => 2

def DistFmt.ofCode (c : BitVec 2) : Option DistFmt :=
  match c.toNat with
  | 0 => some .e4m3
  | 1 => some .e5m2
  | 2 => some .f16
  | _ => none

def WldSize.code : WldSize → BitVec 2
  | .n64 => 0
  | .n32 => 1
  | .s32 => 2
  | .n16 => 3

def WldSize.ofCode (c : BitVec 2) : WldSize :=
  match c.toNat with
  | 0 => .n64
  | 1 => .n32
  | 2 => .s32
  | _ => .n16

/-- The synchronisation word (R46). -/
def Sync.word (s : Sync) : BitVec 32 := (0 : BitVec 4) ++ s.sigk ++ s.inc ++ s.waitk ++ s.thr

def Sync.ofWord (w : BitVec 32) : Sync :=
  ⟨(w >>> 20).setWidth 8, (w >>> 16).setWidth 4, (w >>> 8).setWidth 8, w.setWidth 8⟩

/-- Bits of the synchronisation word in use. -/
def syncMask : BitVec 32 := 0x0FFFFFFF

/-- Bits [lo + n - 1 : lo]. -/
def sub8 (m : BitVec 8) (lo n : Nat) : BitVec n := (m >>> lo).setWidth n

/-! Modifier bytes (R62-R65). -/

def Ty.ofM (m : BitVec 8) : Option Ty := Ty.ofCode (sub8 m 0 4)
def Rnd.ofM (m : BitVec 8) : Option Rnd := Rnd.ofCode (sub8 m 4 3)
def Cond.ofM (m : BitVec 8) : Option Cond := Cond.ofCode (sub8 m 4 3)
def Scope.ofM (m : BitVec 8) : Option Scope := Scope.ofCode (sub8 m 3 3)
def Order.ofM (m : BitVec 8) : Order := Order.ofCode (sub8 m 6 2)
def Size.ofM (m : BitVec 8) : Size := Size.ofCode (sub8 m 0 3)
def topBit (m : BitVec 8) : Bool := m.getLsbD 7

/-- m of R62. -/
def intM (uni : Bool) (cond : BitVec 3) (ty : Ty) : BitVec 8 := BitVec.ofBool uni ++ cond ++ ty.code
/-- m of R63. -/
def fpM (nf : Bool) (rnd : Rnd) (ty : Ty) : BitVec 8 := BitVec.ofBool nf ++ rnd.code ++ ty.code
/-- m of R64. -/
def vpM (nf : Bool) (rnd : Rnd) (exact : Bool) : BitVec 8 :=
  BitVec.ofBool nf ++ rnd.code ++ BitVec.ofBool exact ++ (0 : BitVec 3)
/-- m of R65. -/
def memM (ord : Order) (scope : Scope) (size : BitVec 3) : BitVec 8 := ord.code ++ scope.code ++ size

/-- A position's checks and meaning: tail length, bits in use, register fields with their width (R47), and the
instruction unless an operand value is not permitted (R67). -/
structure Row where
  t : Nat
  used : Fields
  regs : List (BitVec 8 × Nat)
  ins : Option Instr
deriving DecidableEq, Repr

def Row.decide (r : Row) (head : Half) (f : Fields) (t : Nat) : Except Reject Instr :=
  if r.t ≠ t then .error ⟨head, 1⟩
  else if f.strays r.used then .error ⟨head, 2⟩
  else if r.regs.any (fun q => Decidable.decide (2 ^ q.2 ≤ q.1.toNat)) then .error ⟨head, 3⟩
  else
    match r.ins with
    | some i => .ok i
    | none => .error ⟨head, 4⟩

/-- some x when the condition holds. -/
def keep {α : Type} (c : Bool) (x : α) : Option α := if c then some x else none

/-- Number bits of a register in an integer form (R62). -/
def intW (uni : Bool) : Nat := if uni then 6 else 8

def useDAB : Fields := ⟨255, 255, 255, 0, 0, 0, 0⟩
def useDA : Fields := ⟨255, 255, 0, 0, 0, 0, 0⟩

def rowIntBin (f : Fields) (mk : IntBin → Instr) : Row :=
  let u := topBit f.m
  ⟨2, { useDAB with m := 0x8F }, [(f.b, intW u), (f.a, intW u), (f.d, intW u)],
    (Ty.ofM f.m).bind fun ty => keep ty.isInt3264 (mk ⟨u, ty, f.d, f.a, f.b⟩)⟩

def rowIntImm (f : Fields) (mk : IntImm → Instr) : Row :=
  let u := topBit f.m
  ⟨3, { useDA with m := 0x8F, w := 0xFFFF }, [(f.a, intW u), (f.d, intW u)],
    (Ty.ofM f.m).bind fun ty => keep ty.isInt3264 (mk ⟨u, ty, f.d, f.a, f.w.setWidth 16⟩)⟩

def rowIntUn (f : Fields) (tys : Ty → Bool) (mk : IntUn → Instr) : Row :=
  let u := topBit f.m
  ⟨2, { useDA with m := 0x8F }, [(f.a, intW u), (f.d, intW u)],
    (Ty.ofM f.m).bind fun ty => keep (tys ty) (mk ⟨u, ty, f.d, f.a⟩)⟩

def rowFpBin (f : Fields) (tys : Ty → Bool) (rounds : Bool) (mk : FpBin → Instr) : Row :=
  ⟨2, { useDAB with m := 0xFF }, [],
    (Ty.ofM f.m).bind fun ty => (Rnd.ofM f.m).bind fun r =>
      keep (tys ty && (rounds || r == .dyn)) (mk ⟨topBit f.m, r, ty, f.d, f.a, f.b⟩)⟩

def rowFpUn (f : Fields) (tys : Ty → Bool) (rounds : Bool) (mk : FpUn → Instr) : Row :=
  ⟨2, { useDA with m := 0xFF }, [],
    (Ty.ofM f.m).bind fun ty => (Rnd.ofM f.m).bind fun r =>
      keep (tys ty && (rounds || r == .dyn)) (mk ⟨topBit f.m, r, ty, f.d, f.a⟩)⟩

def exactBit (m : BitVec 8) : Bool := m.getLsbD 3

def rowVpBin (f : Fields) (mk : VpBin → Instr) : Row :=
  ⟨2, { useDAB with m := 0xF8 }, [(f.b, 5), (f.a, 5), (f.d, 5)],
    (Rnd.ofM f.m).map fun r => mk ⟨topBit f.m, r, exactBit f.m, f.d, f.a, f.b⟩⟩

def rowVpUn (f : Fields) (mk : VpUn → Instr) : Row :=
  ⟨2, { useDA with m := 0xF8 }, [(f.a, 5), (f.d, 5)],
    (Rnd.ofM f.m).map fun r => mk ⟨topBit f.m, r, exactBit f.m, f.d, f.a⟩⟩

/-- m of kind N: only nf (R147). -/
def onlyNf (m : BitVec 8) : Bool := m &&& 0x78 == 0

def rowVpSign (f : Fields) (mk : VpSign → Instr) : Row :=
  ⟨2, { useDA with m := 0xF8 }, [(f.a, 5), (f.d, 5)], keep (onlyNf f.m) (mk ⟨topBit f.m, f.d, f.a⟩)⟩

/-! Control and synchronisation (R96). -/

def rowUnguarded (t : Nat) (used : Fields) (regs : List (BitVec 8 × Nat)) (g : Guard) (i : Instr) : Row :=
  ⟨t, used, regs, keep g.always i⟩

def rowVote (g : Guard) (f : Fields) : Row :=
  let op := VoteOp.ofCode (sub8 f.m 0 4)
  ⟨2, { useDA with m := if op.isTest then 0x0F else 0x03 }, [(f.a, 3), (f.d, if op.isTest then 3 else 6)],
    some (.vote g op f.d f.a)⟩

def rowBar (f : Fields) (mk : Scope → Reg → Instr) : Row :=
  let x := Scope.ofM f.m == some .x
  ⟨2, { Fields.zero with m := 0x38, b := if x then 255 else 0 }, if x then [(f.b, 6)] else [],
    (Scope.ofM f.m).bind fun sc => keep (sc == .t || sc == .x) (mk sc f.b)⟩

def rowWaitm (g : Guard) (f : Fields) : Row :=
  ⟨2, { useDAB with m := 0xFF }, [(f.b, 6), (f.a, 6), (f.d, 6)],
    (Scope.ofM f.m).bind fun sc =>
      keep ((Order.ofM f.m).forLoad && sc != .x && sub8 f.m 0 3 == 4) (.waitm g (Order.ofM f.m) sc f.d f.a f.b)⟩

def controlRow (major minor : Nat) (g : Guard) (f : Fields) : Option Row :=
  match major, minor with
  | 0x00, 0 => some ⟨0, Fields.zero, [], some (.nop g)⟩
  | 0x00, 1 => some ⟨4, { Fields.zero with w := 0xFFFFFFFF }, [], some (.bra g f.w)⟩
  | 0x00, 2 => some ⟨1, { Fields.zero with a := 255 }, [], some (.brx g f.a)⟩
  | 0x00, 3 => some ⟨4, { Fields.zero with d := 255, w := 0xFFFFFFFF }, [], some (.call g f.d f.w)⟩
  | 0x01, 0 => some ⟨0, Fields.zero, [], some (.exit g)⟩
  | 0x01, 1 => some ⟨1, { Fields.zero with a := 255 }, [], some (.ret g f.a)⟩
  | 0x01, 2 => some ⟨0, Fields.zero, [], some (.yield g)⟩
  | 0x01, 3 => some ⟨3, { Fields.zero with w := 0xFFFF }, [], some (.brk g (f.w.setWidth 16))⟩
  | 0x02, 0 => some ⟨4, { Fields.zero with d := 255, w := 0xFFFFFFFF }, [(f.d, 3)], some (.cvset g f.d f.w)⟩
  | 0x02, 1 => some (rowUnguarded 1 { Fields.zero with d := 255 } [(f.d, 3)] g (.cvwait f.d))
  | 0x02, 2 => some ⟨3, { Fields.zero with w := 0xFFFF }, [], some (.trap g (f.w.setWidth 16))⟩
  | 0x02, 3 => some (rowVote g f)
  | 0x03, 0 => some ⟨3, { useDA with m := 1, w := 0xFFFF }, [(f.d, 3)],
      some (.semwait g f.d f.a (f.m.getLsbD 0) (f.w.setWidth 16))⟩
  | 0x03, 1 => some ⟨3, { Fields.zero with a := 255, w := 0xFFFF }, [], some (.semadd g f.a (f.w.setWidth 16))⟩
  | 0x03, 2 => some ⟨3, { Fields.zero with a := 255, w := 0xFFFF }, [], some (.semset g f.a (f.w.setWidth 16))⟩
  | 0x04, 0 => some (rowBar f (.barArrive g))
  | 0x04, 1 => some (rowBar f (.barWait g))
  | 0x04, 2 => some (rowWaitm g f)
  | 0x05, 0 => some ⟨2, useDA, [(f.a, 6), (f.d, 6)], some (.launch g f.d f.a)⟩
  | _, _ => none

def systemRow (minor : Nat) (g : Guard) (f : Fields) : Option Row :=
  match minor with
  | 0 => some ⟨2, { useDA with m := 0x80 }, [(f.d, intW (topBit f.m))],
      keep (ctrlListed f.a.toNat) (.getc g (topBit f.m) f.d f.a)⟩
  | 1 => some ⟨2, { useDA with m := 0x80 }, [(f.a, intW (topBit f.m))],
      keep (ctrlListed f.d.toNat && !ctrlReadOnly f.d.toNat) (.setc g (topBit f.m) f.d f.a)⟩
  | 2 => some (rowUnguarded 0 Fields.zero [] g .tret)
  | 3 => some (rowUnguarded 0 Fields.zero [] g .halt)
  | _ => none

/-! Integer, address and moves (R120). -/

def rowMad (g : Guard) (f : Fields) : Row :=
  let u := topBit f.m
  let c : Reg := f.w.setWidth 8
  ⟨3, { useDAB with m := 0x8F, w := 0xFF }, [(c, intW u), (f.b, intW u), (f.a, intW u), (f.d, intW u)],
    (Ty.ofM f.m).bind fun ty => keep ty.isInt3264 (.mad g ⟨u, ty, f.d, f.a, f.b, c⟩)⟩

def rowField (f : Fields) (ins : Bool) (mk : IntField → Instr) : Row :=
  let u := topBit f.m
  ⟨3, { useDA with b := if ins then 255 else 0, m := 0x8F, w := 0x7F7F },
    if ins then [(f.b, intW u), (f.a, intW u), (f.d, intW u)] else [(f.a, intW u), (f.d, intW u)],
    (Ty.ofM f.m).bind fun ty =>
      keep ty.isInt3264 (mk ⟨u, ty, f.d, f.a, f.b, f.w.setWidth 7, (f.w >>> 8).setWidth 7⟩)⟩

def rowPrmt (g : Guard) (f : Fields) : Row :=
  let u := topBit f.m
  ⟨3, { useDAB with m := 0x8F, w := 0xFFFF }, [(f.b, intW u), (f.a, intW u), (f.d, intW u)],
    (Ty.ofM f.m).bind fun ty => keep (ty == .n32) (.prmt g ⟨u, f.d, f.a, f.b, f.w.setWidth 16⟩)⟩

def rowSel (g : Guard) (f : Fields) : Row :=
  ⟨3, { useDAB with m := 0x8F, w := 0x7 }, [],
    (Ty.ofM f.m).bind fun ty =>
      keep (ty.isInt3264 && !topBit f.m) (.sel g ⟨ty, f.d, f.a, f.b, f.w.setWidth 3⟩)⟩

def rowCmp (g : Guard) (f : Fields) : Row :=
  let u := topBit f.m
  ⟨2, { useDAB with m := 0xFF }, [(f.b, intW u), (f.a, intW u), (f.d, 3)],
    (Ty.ofM f.m).bind fun ty => (Cond.ofM f.m).bind fun c =>
      keep ty.isInt3264 (.cmp g ⟨u, c, ty, f.d, f.a, f.b⟩)⟩

def rowCmpImm (g : Guard) (f : Fields) : Row :=
  let u := topBit f.m
  ⟨3, { useDA with m := 0xFF, w := 0xFFFF }, [(f.a, intW u), (f.d, 3)],
    (Ty.ofM f.m).bind fun ty => (Cond.ofM f.m).bind fun c =>
      keep ty.isInt3264 (.cmpImm g ⟨u, c, ty, f.d, f.a, f.w.setWidth 16⟩)⟩

def rowCvt (g : Guard) (f : Fields) : Row :=
  ⟨2, { useDA with b := 1, m := 0xFF }, [],
    (Ty.ofCode (sub8 f.m 4 4)).bind fun dt => (Ty.ofM f.m).bind fun st =>
      keep (dt.isInt && st.isInt) (.cvt g ⟨dt, st, f.b.getLsbD 0, f.d, f.a⟩)⟩

def rowLea (g : Guard) (f : Fields) : Row :=
  let u := topBit f.m
  ⟨3, { useDAB with m := 0x8F, w := 0xF }, [(f.b, intW u), (f.a, intW u), (f.d, intW u)],
    (Ty.ofM f.m).bind fun ty => keep ty.isInt3264 (.lea g ⟨u, ty, f.d, f.a, f.b, f.w.setWidth 4⟩)⟩

def rowShfl (g : Guard) (f : Fields) : Row :=
  ⟨2, { useDAB with m := 0x8F }, [],
    (Ty.ofM f.m).bind fun ty =>
      keep ((ty == .n32 || ty == .n64) && !topBit f.m) (.shfl g ⟨ty, f.d, f.a, f.b⟩)⟩

def rowMovi (g : Guard) (f : Fields) : Row :=
  let u := topBit f.m
  ⟨4, { Fields.zero with d := 255, m := 0x8F, w := 0xFFFFFFFF }, [(f.d, intW u)],
    (Ty.ofM f.m).bind fun ty => keep ty.isInt3264 (.movi g ⟨u, ty, f.d, f.w⟩)⟩

/-- Number bits of a file code of mov (file). -/
def fileW (c : Option RFile) : Nat :=
  match c with
  | some .s => 6
  | some .p => 3
  | _ => 8

def rowMovFile (g : Guard) (f : Fields) : Row :=
  let df := RFile.ofCode (sub8 f.m 0 2)
  let af := RFile.ofCode (sub8 f.m 2 2)
  ⟨2, { useDA with m := 0x0F }, [(f.a, fileW af), (f.d, fileW df)],
    df.bind fun x => af.map fun y => .movFile g ⟨x, y, f.d, f.a⟩⟩

def intRow (major minor : Nat) (g : Guard) (f : Fields) : Option Row :=
  match major, minor with
  | 0x10, 0 => some (rowIntBin f (.add g))
  | 0x10, 1 => some (rowIntImm f (.addImm g))
  | 0x10, 2 => some (rowIntBin f (.sub g))
  | 0x10, 3 => some (rowIntUn f Ty.isInt3264 (.neg g))
  | 0x11, 0 => some (rowIntBin f (.mul g))
  | 0x11, 1 => some (rowIntImm f (.mulImm g))
  | 0x11, 2 => some (rowIntBin f (.mulh g))
  | 0x11, 3 => some (rowMad g f)
  | 0x12, 0 => some (rowIntBin f (.div g))
  | 0x12, 1 => some (rowIntBin f (.rem g))
  | 0x12, 2 => some (rowIntBin f (.min g))
  | 0x12, 3 => some (rowIntBin f (.max g))
  | 0x13, 0 => some (rowIntUn f (fun t => t == .s32 || t == .s64) (.abs g))
  | 0x13, 1 => some (rowIntImm f (.minImm g))
  | 0x13, 2 => some (rowIntImm f (.maxImm g))
  | 0x14, 0 => some (rowIntBin f (.and g))
  | 0x14, 1 => some (rowIntImm f (.andImm g))
  | 0x14, 2 => some (rowIntBin f (.or g))
  | 0x14, 3 => some (rowIntImm f (.orImm g))
  | 0x15, 0 => some (rowIntBin f (.xor g))
  | 0x15, 1 => some (rowIntImm f (.xorImm g))
  | 0x15, 2 => some (rowIntUn f Ty.isInt3264 (.not g))
  | 0x16, 0 => some (rowIntBin f (.shl g))
  | 0x16, 1 => some (rowIntImm f (.shlImm g))
  | 0x16, 2 => some (rowIntBin f (.shr g))
  | 0x16, 3 => some (rowIntImm f (.shrImm g))
  | 0x17, 0 => some (rowIntBin f (.sra g))
  | 0x17, 1 => some (rowIntImm f (.sraImm g))
  | 0x18, 0 => some (rowIntUn f Ty.isInt3264 (.clz g))
  | 0x18, 1 => some (rowIntUn f Ty.isInt3264 (.ctz g))
  | 0x18, 2 => some (rowIntUn f Ty.isInt3264 (.popc g))
  | 0x18, 3 => some (rowIntUn f Ty.isInt3264 (.brev g))
  | 0x19, 0 => some (rowField f false (.bfx g))
  | 0x19, 1 => some (rowField f true (.bfi g))
  | 0x19, 2 => some (rowPrmt g f)
  | 0x1A, 0 => some (rowSel g f)
  | 0x1A, 1 => some (rowCmp g f)
  | 0x1A, 2 => some (rowCmpImm g f)
  | 0x1B, 0 => some (rowCvt g f)
  | 0x1B, 1 => some (rowLea g f)
  | 0x1B, 2 => some (rowShfl g f)
  | 0x1C, 0 => some ⟨1, useDA, [], some (.mov g f.d f.a)⟩
  | 0x1C, 1 => some (rowMovi g f)
  | 0x1C, 2 => some ⟨1, useDA, [], some (.mov64 g f.d f.a)⟩
  | 0x1C, 3 => some (rowMovFile g f)
  | _, _ => none

/-! Lane floating point (R136). -/

def rowFma (g : Guard) (f : Fields) : Row :=
  ⟨3, { useDAB with m := 0xFF, w := 0xFF }, [],
    (Ty.ofM f.m).bind fun ty => (Rnd.ofM f.m).bind fun r =>
      keep ty.isFloat (.fma g ⟨topBit f.m, r, ty, f.d, f.a, f.b, f.w.setWidth 8⟩)⟩

def rowFcmp (g : Guard) (f : Fields) : Row :=
  ⟨3, { useDAB with m := 0xFF, w := 0x7 }, [(f.d, 3)],
    (Ty.ofM f.m).bind fun ty => (Rnd.ofM f.m).bind fun r => (Cond.ofCode (f.w.setWidth 3)).bind fun c =>
      keep (ty.isWideFloat && r == .dyn) (.fcmp g ⟨topBit f.m, ty, c, f.d, f.a, f.b⟩)⟩

def rowFcvt (g : Guard) (f : Fields) : Row :=
  ⟨3, { useDA with m := 0xFF, w := 0xF }, [],
    (Ty.ofM f.m).bind fun dt => (Rnd.ofM f.m).bind fun r => (Ty.ofCode (f.w.setWidth 4)).bind fun st =>
      keep (dt.isCvt && st.isCvt && (dt.isFloat || st.isFloat) && dt != st)
        (.fcvt g ⟨topBit f.m, r, dt, st, f.d, f.a⟩)⟩

def rowFsfn (g : Guard) (f : Fields) : Row :=
  ⟨3, { useDA with m := 0xFF, w := 0xF }, [],
    (Ty.ofM f.m).bind fun ty => (Rnd.ofM f.m).bind fun r => (Sfn.ofCode (f.w.setWidth 4)).bind fun fn =>
      keep ty.isSfn (.fsfn g ⟨topBit f.m, r, ty, fn, f.d, f.a⟩)⟩

/-- Rows of the lane floating-point family (R136). `fround` is minor 3, as R58 and the Minor column of R136 have it; the head
0x6682 that R136 prints beside it is that of minor 2: DEDUCED (log 68). -/
def fpRow (major minor : Nat) (g : Guard) (f : Fields) : Option Row :=
  match major, minor with
  | 0x30, 0 => some (rowFpBin f Ty.isFloat true (.fadd g))
  | 0x30, 1 => some (rowFpBin f Ty.isFloat true (.fsub g))
  | 0x30, 2 => some (rowFpBin f Ty.isFloat true (.fmul g))
  | 0x30, 3 => some (rowFma g f)
  | 0x31, 0 => some (rowFpBin f Ty.isDiv true (.fdiv g))
  | 0x31, 1 => some (rowFpUn f Ty.isDiv true (.fsqrt g))
  | 0x31, 2 => some (rowFpUn f Ty.isDiv true (.frcp g))
  | 0x31, 3 => some (rowFpUn f Ty.isDiv true (.frsq g))
  | 0x32, 0 => some (rowFpBin f Ty.isFloat false (.fmin g))
  | 0x32, 1 => some (rowFpBin f Ty.isFloat false (.fmax g))
  | 0x32, 2 => some (rowFpUn f Ty.isFloat false (.fabs g))
  | 0x32, 3 => some (rowFpUn f Ty.isFloat false (.fneg g))
  | 0x33, 0 => some (rowFcmp g f)
  | 0x33, 1 => some (rowFpUn f Ty.isWideFloat false (.fclass g))
  | 0x33, 2 => some (rowFcvt g f)
  | 0x33, 3 => some (rowFpUn f Ty.isFloat true (.fround g))
  | 0x34, 0 => some (rowFsfn g f)
  | _, _ => none

/-! Variable precision (R147). -/

def rowXfma (g : Guard) (f : Fields) : Row :=
  let c : Reg := f.w.setWidth 8
  ⟨3, { useDAB with m := 0xF8, w := 0xFF }, [(c, 5), (f.b, 5), (f.a, 5), (f.d, 5)],
    (Rnd.ofM f.m).map fun r => .xfma g ⟨topBit f.m, r, exactBit f.m, f.d, f.a, f.b, c⟩⟩

def rowXcmp (g : Guard) (f : Fields) : Row :=
  ⟨3, { useDAB with m := 0xF8, w := 0x7 }, [(f.b, 5), (f.a, 5), (f.d, 3)],
    (Cond.ofCode (f.w.setWidth 3)).bind fun c => keep (onlyNf f.m) (.xcmp g ⟨topBit f.m, c, f.d, f.a, f.b⟩)⟩

def rowXcvt (g : Guard) (f : Fields) : Row :=
  let out := f.w.getLsbD 4
  ⟨3, { useDA with m := 0xF8, w := 0x1F }, if out then [(f.a, 5)] else [(f.d, 5)],
    (Rnd.ofM f.m).bind fun r => (Ty.ofCode (f.w.setWidth 4)).bind fun ty =>
      keep (!(out && exactBit f.m)) (.xcvt g ⟨topBit f.m, r, exactBit f.m, ty, out, f.d, f.a⟩)⟩

def rowXalloc (g : Guard) (f : Fields) : Row :=
  let e : BitVec 4 := f.w.setWidth 4
  ⟨3, { Fields.zero with d := 255, m := 0xF8, w := 0x1F }, [(f.d, 5)],
    if f.m != 0 then none
    else if f.w.getLsbD 4 then keep (e == 0) (.xalloc g f.d .prec)
    else keep (decide (e.toNat ≤ 8)) (.xalloc g f.d (.words e))⟩

def rowXframe (g : Guard) (f : Fields) : Row :=
  let c := f.w.getLsbD 0
  ⟨3, { Fields.zero with a := if c then 255 else 0, m := 0xF8, w := 1 }, if c then [(f.a, 6)] else [],
    keep (f.m == 0) (.xframe g (if c then some f.a else none))⟩

def vpRow (major minor : Nat) (g : Guard) (f : Fields) : Option Row :=
  match major, minor with
  | 0x48, 0 => some (rowVpBin f (.xadd g))
  | 0x48, 1 => some (rowVpBin f (.xsub g))
  | 0x48, 2 => some (rowVpBin f (.xmul g))
  | 0x48, 3 => some (rowXfma g f)
  | 0x49, 0 => some (rowVpBin f (.xdiv g))
  | 0x49, 1 => some (rowVpUn f (.xsqrt g))
  | 0x49, 2 => some (rowXcmp g f)
  | 0x49, 3 => some (rowVpUn f (.xround g))
  | 0x4A, 0 => some (rowVpSign f (.xneg g))
  | 0x4A, 1 => some (rowVpSign f (.xabs g))
  | 0x4A, 2 => some ⟨1, useDA, [(f.a, 5), (f.d, 5)], some (.xmov g f.d f.a)⟩
  | 0x4A, 3 => some (rowXcvt g f)
  | 0x4B, 0 => some ⟨3, { useDA with m := 0xF8, w := 0xFFFF }, [(f.d, 5)],
      (Rnd.ofM f.m).map fun r => .xld g ⟨topBit f.m, r, exactBit f.m, f.d, f.a, f.w.setWidth 16⟩⟩
  | 0x4B, 1 => some ⟨3, { useDAB with m := 0xF8, w := 0xFFFF }, [(f.d, 5)],
      (Rnd.ofM f.m).map fun r => .xldStride g ⟨topBit f.m, r, exactBit f.m, f.d, f.a, f.b, f.w.setWidth 16⟩⟩
  | 0x4B, 2 => some ⟨3, { useDA with m := 0xF8, w := 0xFFFF }, [(f.d, 5)],
      keep (onlyNf f.m) (.xst g ⟨topBit f.m, f.d, f.a, f.w.setWidth 16⟩)⟩
  | 0x4B, 3 => some ⟨3, { useDAB with m := 0xF8, w := 0xFFFF }, [(f.d, 5)],
      keep (onlyNf f.m) (.xstStride g ⟨topBit f.m, f.d, f.a, f.b, f.w.setWidth 16⟩)⟩
  | 0x4C, 0 => some ⟨2, { useDA with m := 0xF8 }, [], keep (f.m == 0) (.xnext g f.d f.a)⟩
  | 0x4C, 1 => some (rowXalloc g f)
  | 0x4C, 2 => some (rowXframe g f)
  | 0x4C, 3 => some ⟨0, Fields.zero, [], some (.xunframe g)⟩
  | _, _ => none

/-! Memory, atomics and batons (R170). -/

/-- Bits and register field of a rectangle named in b (R65). -/
def isX (f : Fields) : Bool := Scope.ofM f.m == some .x

def rowMem (f : Fields) (ok : Order → Bool) (mk : MemOp → Instr) : Row :=
  ⟨3, { useDA with b := if isX f then 255 else 0, m := 0xFF, w := 0xFFFF }, if isX f then [(f.b, 6)] else [],
    (Scope.ofM f.m).bind fun sc =>
      keep (ok (Order.ofM f.m)) (mk ⟨Order.ofM f.m, sc, Size.ofM f.m, f.d, f.a, f.b, f.w.setWidth 16⟩)⟩

def rowScr (f : Fields) (mk : ScrOp → Instr) : Row :=
  ⟨3, { useDA with m := 0x07, w := 0xFFFF }, [], some (mk ⟨Size.ofM f.m, f.d, f.a, f.w.setWidth 16⟩)⟩

def rectOf (f : Fields) : Reg := (f.w >>> 24).setWidth 8
def rectMask (f : Fields) : BitVec 32 := if isX f then 0xFF000000 else 0

def rowBst (g : Guard) (f : Fields) : Row :=
  ⟨4, { useDAB with m := 0xFF, w := 0xFF ||| rectMask f }, if isX f then [(rectOf f, 6), (f.b, 6)] else [(f.b, 6)],
    (Scope.ofM f.m).bind fun sc =>
      keep (Order.ofM f.m).forStore
        (.bst g ⟨Order.ofM f.m, sc, Size.ofM f.m, f.d, f.a, f.b, rectOf f, f.w.setWidth 8⟩)⟩

def atomOf (f : Fields) (op : AtomOp) (sc : Scope) : AtomOps :=
  ⟨Order.ofM f.m, sc, Size.ofM f.m, op, f.d, f.a, f.b, rectOf f, (f.w >>> 12).setWidth 8, (f.w >>> 8).setWidth 4,
    f.w.setWidth 8⟩

/-- The operation code of imm32 [23:20] (R66). -/
def opField (f : Fields) : BitVec 4 := (f.w >>> 20).setWidth 4

def rowAtom (g : Guard) (f : Fields) : Row :=
  ⟨4, { useDAB with m := 0xFF, w := (0x00F000FF ||| rectMask f) ||| (if opField f == 7 then 0x000FF000 else 0) },
    if isX f then [(rectOf f, 6)] else [],
    (Scope.ofM f.m).bind fun sc => (AtomOp.ofCode (opField f)).bind fun op =>
      keep ((Size.ofM f.m).atomic && op != .gather) (.atom g (atomOf f op sc))⟩

def rowRed (g : Guard) (f : Fields) : Row :=
  ⟨4, { Fields.zero with a := 255, b := 255, m := 0xFF, w := 0x00F000FF ||| rectMask f },
    if isX f then [(rectOf f, 6)] else [],
    (Scope.ofM f.m).bind fun sc => (AtomOp.ofCode (opField f)).bind fun op =>
      keep ((Size.ofM f.m).atomic && op.reduces && (Order.ofM f.m).forStore) (.red g (atomOf f op sc))⟩

def rowNear (g : Guard) (f : Fields) : Row :=
  let ga := opField f == 8
  let w := (0x00F000FF ||| rectMask f) ||| (if ga then 0x00000F00 else 0)
  ⟨4, { useDA with b := if ga then 0 else 255, m := 0xFF, w := w },
    if isX f then [(rectOf f, 6)] else [],
    (Scope.ofM f.m).bind fun sc => (AtomOp.ofCode (opField f)).bind fun op =>
      keep ((Size.ofM f.m).atomic && (op.reduces || op == .gather) && decide ((atomOf f op sc).count.toNat < 8))
        (.near g (atomOf f op sc))⟩

def rowFence (g : Guard) (f : Fields) : Row :=
  ⟨2, { Fields.zero with b := if isX f then 255 else 0, m := 0xF8 }, if isX f then [(f.b, 6)] else [],
    (Scope.ofM f.m).bind fun sc => keep (Order.ofM f.m != .rlx) (.fence g (Order.ofM f.m) sc f.b)⟩

def memRow (major minor : Nat) (g : Guard) (f : Fields) : Option Row :=
  match major, minor with
  | 0x58, 0 => some (rowMem f Order.forLoad (.ld g))
  | 0x58, 1 => some (rowMem f Order.forStore (.st g))
  | 0x58, 2 => some (rowScr f (.lds g))
  | 0x58, 3 => some (rowScr f (.sts g))
  | 0x59, 0 => some (rowBst g f)
  | 0x59, 1 => some ⟨3, { Fields.zero with d := 3, a := 255, w := 0xFFFF }, [],
      keep (!f.d.getLsbD 1) (.prf g (f.d.getLsbD 0) f.a (f.w.setWidth 16))⟩
  | 0x59, 2 => some ⟨3, { Fields.zero with d := 255, w := 0x1F }, [], some (.pushm g f.d (f.w.setWidth 5))⟩
  | 0x59, 3 => some ⟨3, { Fields.zero with d := 255, w := 0x1F }, [], some (.popm g f.d (f.w.setWidth 5))⟩
  | 0x5A, 0 => some (rowAtom g f)
  | 0x5A, 1 => some (rowRed g f)
  | 0x5A, 2 => some (rowNear g f)
  | 0x5A, 3 => some (rowFence g f)
  | _, _ => none

/-! Matrix and copy (R195). -/

def mmaOf (f : Fields) : MmaOps :=
  ⟨f.d, f.a, f.b, f.e, f.m.getLsbD 7, f.m.getLsbD 6, f.m.getLsbD 5, f.m.getLsbD 4, f.h.setWidth 16,
    (f.h >>> 16).setWidth 16, Sync.ofWord f.w⟩

def rowMma (f : Fields) (fmt : MmaFmt) (sp : Bool) (mk : MmaOps → Instr) : Row :=
  let o := mmaOf f
  let side := fmt.side sp
  ⟨if side then 7 else 6,
    { d := 255, a := if o.wua then 0 else 255, b := 255, m := 0xF0, w := syncMask, e := if side then 255 else 0,
      h := if o.wua then 0xFFFF0000 else 0xFFFFFFFF },
    (if side then [(f.e, 6)] else []) ++ (f.b, 6) :: ((if o.wua then [] else [(f.a, 6)]) ++ [(f.d, 2)]),
    keep (o.admits fmt sp) (mk o)⟩

def accOf (f : Fields) (fmt : AccFmt) : AccOps :=
  ⟨f.d, f.a, fmt, f.m.getLsbD 2, f.h.setWidth 16, Sync.ofWord f.w⟩

def rowAcc (f : Fields) (mk : AccOps → Instr) : Row :=
  ⟨6, { useDA with m := 0x07, w := syncMask, h := 0xFFFF }, [(f.a, 6), (f.d, 2)],
    (AccFmt.ofCode (sub8 f.m 0 2)).bind fun fmt => keep (accOf f fmt).admits (mk (accOf f fmt))⟩

def copyOf (f : Fields) : CopyOps :=
  ⟨CopyDir.ofCode (sub8 f.m 0 2), f.d, f.a, f.b, f.e, f.h.setWidth 20, (f.h >>> 20).setWidth 12, Sync.ofWord f.w⟩

def rowCopy (g : Guard) (f : Fields) : Row :=
  ⟨7, { d := 255, a := 255, b := 255, m := 0x03, w := syncMask, e := 255, h := 0xFFFFFFFF },
    [(f.e, 6), (f.b, 6), (f.a, 6), (f.d, 6)], keep (copyOf f).admits (.copy g (copyOf f))⟩

def matrixRow (major minor : Nat) (g : Guard) (f : Fields) : Option Row :=
  match major, minor with
  | 0x70, 0 => some (rowMma f .f16 false (.mmaF16 g))
  | 0x70, 1 => some (rowMma f .bf16 false (.mmaBf16 g))
  | 0x70, 2 => some (rowMma f .e4m3 false (.mmaE4m3 g))
  | 0x70, 3 => some (rowMma f .e5m2 false (.mmaE5m2 g))
  | 0x71, 0 => some (rowMma f .s8 false (.mmaS8 g))
  | 0x71, 1 => some (rowMma f .mxf4 false (.mmaMxf4 g))
  | 0x71, 2 => some (rowMma f .dpt false (.mmaDpt g))
  | 0x72, 0 => some (rowMma f .f16 true (.mmaF16Sp g))
  | 0x72, 1 => some (rowMma f .bf16 true (.mmaBf16Sp g))
  | 0x72, 2 => some (rowMma f .e4m3 true (.mmaE4m3Sp g))
  | 0x72, 3 => some (rowMma f .e5m2 true (.mmaE5m2Sp g))
  | 0x73, 0 => some (rowMma f .s8 true (.mmaS8Sp g))
  | 0x73, 1 => some (rowMma f .mxf4 true (.mmaMxf4Sp g))
  | 0x73, 2 => some (rowMma f .dpt true (.mmaDptSp g))
  | 0x74, 0 => some ⟨5, { Fields.zero with d := 255, w := syncMask }, [(f.d, 2)],
      some (.accZero g f.d (Sync.ofWord f.w))⟩
  | 0x74, 1 => some (rowAcc f (.accLd g))
  | 0x74, 2 => some (rowAcc f (.accSt g))
  | 0x74, 3 => some (rowCopy g f)
  | _, _ => none

/-! Walker lane side (R235), Warm-up Array and ingress (R378). -/

def rowWuacfg (g : Guard) (f : Fields) : Row :=
  let stat := f.m.getLsbD 0
  let clr := f.m.getLsbD 1
  ⟨3, { Fields.zero with d := 255, a := if stat then 0 else 255, m := 3, w := if stat then 0 else 0xFFFF },
    if stat then [(f.d, 6)] else [(f.a, 6), (f.d, 6)],
    keep (stat || !clr) (.wuacfg g stat clr f.d f.a (f.w.setWidth 16))⟩

def rowSlotstat (g : Guard) (f : Fields) : Row :=
  let op := SlotOp.ofCode (sub8 f.m 0 2)
  let clr := f.m.getLsbD 4
  let reads := op == .get || op == .drops
  let binds := op == .bind
  ⟨2, { Fields.zero with d := if reads then 255 else 0, a := if binds then 255 else 0, b := if binds then 255 else 0,
                         m := 0x1F },
    if reads then [(f.d, 6)] else if binds then [(f.b, 6), (f.a, 6)] else [],
    keep (reads || !clr) (.slotstat g op (sub8 f.m 2 2) clr f.d f.a f.b)⟩

def walkerRow (major minor : Nat) (g : Guard) (f : Fields) : Option Row :=
  match major, minor with
  | 0x78, 0 => some ⟨3, { useDAB with w := 0xFFFF }, [(f.b, 6), (f.a, 6), (f.d, 6)],
      some (.wprog g f.d f.a f.b (f.w.setWidth 16))⟩
  | 0x78, 1 => some ⟨5, { Fields.zero with a := 255, b := 255, m := 3, w := syncMask }, [(f.b, 6)],
      some (.wlaunch g f.a f.b (sub8 f.m 0 2) (Sync.ofWord f.w))⟩
  | 0x78, 2 => some ⟨2, { useDAB with m := 3 }, [(f.b, 3), (f.a, 6)], some (.wtake g f.d f.a f.b (sub8 f.m 0 2))⟩
  | 0x78, 3 => some ⟨2, { useDA with m := 7 }, [(f.a, 6), (f.d, 6)],
      some (.wpoll g f.d f.a (sub8 f.m 0 2) (f.m.getLsbD 2))⟩
  | 0x79, 0 => some ⟨2, { Fields.zero with d := 255, m := 7 }, [(f.d, 6)],
      some (.wcancel g f.d (sub8 f.m 0 2) (f.m.getLsbD 2))⟩
  | 0x7C, 0 => some (rowWuacfg g f)
  | 0x7C, 1 => some ⟨6, { Fields.zero with a := 255, w := syncMask }, [(f.a, 6)],
      some (.wuarun g f.a (Sync.ofWord f.w))⟩
  | 0x7C, 2 => some ⟨2, { useDA with m := 3 }, [(f.a, 6), (f.d, 6)], some (.slotfree g f.d f.a (sub8 f.m 0 2))⟩
  | 0x7C, 3 => some (rowSlotstat g f)
  | _, _ => none

/-- The position of the opcode map (R58), or none when it is unassigned. -/
def positionRow (major minor : Nat) (g : Guard) (f : Fields) : Option Row :=
  if major ≤ 0x05 then controlRow major minor g f
  else if major ≤ 0x1C then intRow major minor g f
  else if major ≤ 0x34 then fpRow major minor g f
  else if major ≤ 0x4C then vpRow major minor g f
  else if major ≤ 0x5A then memRow major minor g f
  else if major ≤ 0x74 then matrixRow major minor g f
  else if major ≤ 0x7C then walkerRow major minor g f
  else if major = 0x7F then systemRow minor g f
  else none

/-! Heads (R42). -/

def headMajor (h : Half) : Nat := h.toNat / 512
def headT (h : Half) : Nat := h.toNat / 64 % 8
def headGuard (h : Half) : Guard := ⟨(h >>> 3).setWidth 3, h.getLsbD 2⟩
def headMinor (h : Half) : Nat := h.toNat % 4

/-- Checks of R44 on a head and its tail of headT halfwords. -/
def decodeCore (head : Half) (tail : List Half) : Except Reject Instr :=
  match positionRow (headMajor head) (headMinor head) (headGuard head) (fieldsOf tail) with
  | none => .error ⟨head, 0⟩
  | some r => r.decide head (fieldsOf tail) (headT head)

/-! Code lines (R34-R36): the 32 halfwords of a line. -/

def lineHalf (l : List Half) (i : Nat) : Half := l.getD i 0
def lineN (l : List Half) : Nat := (lineHalf l 0).toNat / 2048

/-- t₁ + … + tᵢ. -/
def lineTails (l : List Half) : Nat → Nat
  | 0 => 0
  | i + 1 => lineTails l i + headT (lineHalf l (i + 1))

/-- 1 + n + Σt. -/
def lineTotal (l : List Half) : Nat := 1 + lineN l + lineTails l (lineN l)

def lineReserved (l : List Half) : Bool := (lineHalf l 0).toNat % 2048 != 0

def lineWellFormed (l : List Half) : Bool :=
  decide (1 ≤ lineN l) && !lineReserved l && decide (lineTotal l ≤ 32)

/-- `%tval` of LINE_MALFORMED (R36). -/
def lineTval (l : List Half) : Nat := lineTotal l % 256 + 256 * lineN l + (if lineReserved l then 8192 else 0)

/-- The tail of instruction i of a well-formed line. -/
def lineTail (l : List Half) (i : Nat) : List Half :=
  (l.drop (32 - lineTails l i)).take (headT (lineHalf l i))

def decodeAt (l : List Half) (i : Nat) : Except Reject Instr := decodeCore (lineHalf l i) (lineTail l i)

/-! Walker words (R49, R216). -/

def wOp (w : BitVec 32) : Nat := w.toNat / 67108864
def wD (w : BitVec 32) : WReg := (w >>> 21).setWidth 5
def wA (w : BitVec 32) : WReg := (w >>> 16).setWidth 5
def wB (w : BitVec 32) : WReg := (w >>> 11).setWidth 5
def wFn (w : BitVec 32) (lo n : Nat) : BitVec n := (w >>> lo).setWidth n

/-- some i when no bit outside the mask is set. -/
def wUse (w mask : BitVec 32) (i : Instr) : Option Instr := keep (w &&& ~~~(mask ||| 0xFC000000) == 0) i

def maskD : BitVec 32 := 0x03E00000
def maskA : BitVec 32 := 0x001F0000
def maskB : BitVec 32 := 0x0000F800
def maskDAB : BitVec 32 := 0x03FFF800

def wBin (w : BitVec 32) (fn : BitVec 32) (mk : WBin → Instr) : Option Instr :=
  wUse w (maskDAB ||| fn) (mk ⟨wD w, wA w, wB w, w.getLsbD 0, w.getLsbD 1⟩)

def wCmpOf (w : BitVec 32) (fn : BitVec 32) (mk : WCmpOp → Instr) : Option Instr :=
  (Cond.ofCode (wFn w 2 3)).bind fun c =>
    wUse w (maskDAB ||| fn) (mk ⟨wD w, wA w, wB w, c, w.getLsbD 0, w.getLsbD 1⟩)

def wTestOf (w : BitVec 32) : WTest := ⟨wD w, wA w, wFn w 0 2, w.getLsbD 2, wFn w 2 2⟩

/-- Decodes a Walker word; none where the walk ends with reason 0x01 (R50, R70). -/
def decodeWalker (w : BitVec 32) : Option Instr :=
  match wOp w with
  | 0x01 => wUse w (maskA ||| 7) (.nfetch (wFn w 0 2) (w.getLsbD 2) (wA w))
  | 0x02 => wUse w (maskD ||| 0x3F) (.ndec (wD w) (wFn w 0 2) (wFn w 2 4))
  | 0x03 => wUse w (maskD ||| (if w.getLsbD 2 then 7 else maskA ||| 7))
      (.tbox ⟨wD w, wA w, wFn w 0 2, w.getLsbD 2, 0⟩)
  | 0x04 => wUse w (maskD ||| maskA ||| 0xF) (.ttri ⟨wD w, wA w, wFn w 0 2, false, wFn w 2 2⟩)
  | 0x05 => (DistFmt.ofCode (wFn w 7 2)).bind fun fmt =>
      let o : WDist := ⟨wD w, wA w, wFn w 0 2, w.getLsbD 2, wFn w 3 3, w.getLsbD 6, fmt, w.getLsbD 9⟩
      if o.wf then wUse w (maskD ||| maskA ||| 0x3FF) (.tdist o) else none
  | 0x06 => wUse w (maskDAB ||| 0xF) (.tkey ⟨wD w, wA w, wB w, wFn w 0 2, w.getLsbD 2, w.getLsbD 3⟩)
  | 0x07 => wUse w maskA (.spush (wA w))
  | 0x08 => wUse w (maskD ||| maskA) (.spop (wD w) (wA w))
  | 0x09 => wUse w maskDAB (.emit (wD w) (wA w) (wB w))
  | 0x0A => wUse w maskA (.relay (wA w))
  | 0x0B => wUse w 0 .ckpt
  | 0x0C => wUse w 0 .done
  | 0x10 => wUse w 0x03FFFFFF (.j (w.setWidth 26))
  | 0x11 => wUse w 0x03FFFFFF (.jz (wD w) (w.setWidth 21))
  | 0x12 => wUse w 0x03FFFFFF (.jnz (wD w) (w.setWidth 21))
  | 0x13 => wUse w 0x03FFFFFF (.jmask (wD w) (w.setWidth 21))
  | 0x18 => wBin w 3 .wadd
  | 0x19 => wBin w 3 .wsub
  | 0x1A => wBin w 3 .wand
  | 0x1B => wBin w 3 .wor
  | 0x1C => wBin w 3 .wshl
  | 0x1D => wBin w 3 .wshr
  | 0x1E => wCmpOf w 0x1F .wcmp
  | 0x1F => wBin w 3 .wmin
  | 0x20 => wBin w 3 .wmax
  | 0x21 => wUse w (maskD ||| maskA) (.wmov (wD w) (wA w))
  | 0x22 => wUse w (maskD ||| maskA ||| 0xFFFF) (.wli (wD w) (wA w) (w.setWidth 16))
  | 0x23 => wUse w (maskDAB ||| 0x1F) (.wsel (wD w) (wA w) (wB w) (w.setWidth 5))
  | 0x24 =>
      let o : WLd := ⟨wD w, wA w, wFn w 13 3, WldSize.ofCode (wFn w 11 2), w.setWidth 7⟩
      if o.wf then wUse w (maskD ||| maskA ||| 0xF87F) (.wld o) else none
  | 0x28 => wBin w 1 .wfadd
  | 0x29 => wBin w 1 .wfmul
  | 0x2A => wBin w 1 .wfmin
  | 0x2B => wBin w 1 .wfmax
  | 0x2C => wCmpOf w 0x1D .wfcmp
  | _ => none

/-! The encoder, from the same tables. -/

/-- imm16 of xalloc (R164). -/
def AllocSize.imm : AllocSize → BitVec 32
  | .words n => n.setWidth 32
  | .prec => 0x10

/-- The tail of t halfwords that holds the fields. -/
def halvesOf (t : Nat) (f : Fields) : List Half :=
  match t with
  | 0 => []
  | 1 => [f.a ++ f.d]
  | 2 => [f.a ++ f.d, f.m ++ f.b]
  | 3 => [f.a ++ f.d, f.m ++ f.b, loHalf f.w]
  | 4 => [f.a ++ f.d, f.m ++ f.b, loHalf f.w, hiHalf f.w]
  | 5 => [f.a ++ f.d, f.m ++ f.b, loHalf f.w, hiHalf f.w, f.h.setWidth 16]
  | 6 => [f.a ++ f.d, f.m ++ f.b, loHalf f.w, hiHalf f.w, f.h.setWidth 16, (f.h >>> 16).setWidth 16]
  | _ => [f.a ++ f.d, f.m ++ f.b, loHalf f.w, hiHalf f.w, f.h.setWidth 8 ++ f.e, (f.h >>> 8).setWidth 16,
      (f.h >>> 24).setWidth 16]

def mkHead (major : BitVec 7) (t : BitVec 3) (g : Guard) (minor : BitVec 2) : Half :=
  major ++ t ++ g.pred ++ BitVec.ofBool g.neg ++ minor

/-- Head and tail of a core instruction. -/
def coreHalves (major : BitVec 7) (minor : BitVec 2) (t : Nat) (g : Guard) (f : Fields) : List Half :=
  mkHead major (BitVec.ofNat 3 t) g minor :: halvesOf t f

def Guard.none : Guard := ⟨0, false⟩

def encIntBin (major : BitVec 7) (minor : BitVec 2) (g : Guard) (o : IntBin) : List Half :=
  coreHalves major minor 2 g { Fields.zero with d := o.d, a := o.a, b := o.b, m := intM o.uni 0 o.ty }

def encIntImm (major : BitVec 7) (minor : BitVec 2) (g : Guard) (o : IntImm) : List Half :=
  coreHalves major minor 3 g { Fields.zero with d := o.d, a := o.a, m := intM o.uni 0 o.ty, w := o.imm.setWidth 32 }

def encIntUn (major : BitVec 7) (minor : BitVec 2) (g : Guard) (o : IntUn) : List Half :=
  coreHalves major minor 2 g { Fields.zero with d := o.d, a := o.a, m := intM o.uni 0 o.ty }

def encField (minor : BitVec 2) (g : Guard) (o : IntField) : List Half :=
  coreHalves 0x19 minor 3 g
    { Fields.zero with d := o.d, a := o.a, b := o.b, m := intM o.uni 0 o.ty,
                       w := (0 : BitVec 17) ++ o.len ++ (0 : BitVec 1) ++ o.pos }

def encFpBin (major : BitVec 7) (minor : BitVec 2) (g : Guard) (o : FpBin) : List Half :=
  coreHalves major minor 2 g { Fields.zero with d := o.d, a := o.a, b := o.b, m := fpM o.nf o.rnd o.ty }

def encFpUn (major : BitVec 7) (minor : BitVec 2) (g : Guard) (o : FpUn) : List Half :=
  coreHalves major minor 2 g { Fields.zero with d := o.d, a := o.a, m := fpM o.nf o.rnd o.ty }

def encVpBin (major : BitVec 7) (minor : BitVec 2) (g : Guard) (o : VpBin) : List Half :=
  coreHalves major minor 2 g { Fields.zero with d := o.d, a := o.a, b := o.b, m := vpM o.nf o.rnd o.exact }

def encVpUn (major : BitVec 7) (minor : BitVec 2) (g : Guard) (o : VpUn) : List Half :=
  coreHalves major minor 2 g { Fields.zero with d := o.d, a := o.a, m := vpM o.nf o.rnd o.exact }

def encVpSign (minor : BitVec 2) (g : Guard) (o : VpSign) : List Half :=
  coreHalves 0x4A minor 2 g { Fields.zero with d := o.d, a := o.a, m := vpM o.nf .dyn false }

def encMem (minor : BitVec 2) (g : Guard) (o : MemOp) : List Half :=
  coreHalves 0x58 minor 3 g
    { Fields.zero with d := o.d, a := o.a, b := o.b, m := memM o.ord o.scope o.size.code, w := o.off.setWidth 32 }

def encScr (minor : BitVec 2) (g : Guard) (o : ScrOp) : List Half :=
  coreHalves 0x58 minor 3 g
    { Fields.zero with d := o.d, a := o.a, m := (0 : BitVec 5) ++ o.size.code, w := o.off.setWidth 32 }

def encAtom (minor : BitVec 2) (g : Guard) (o : AtomOps) : List Half :=
  coreHalves 0x5A minor 4 g
    { Fields.zero with d := o.d, a := o.a, b := o.b, m := memM o.ord o.scope o.size.code,
                       w := o.rect ++ o.op.code ++ o.cmp ++ o.count ++ o.off }

def encMma (major : BitVec 7) (minor : BitVec 2) (t : Nat) (g : Guard) (o : MmaOps) : List Half :=
  coreHalves major minor t g
    { d := o.t, a := o.a, b := o.b, e := o.e, w := o.sync.word, h := (0 : BitVec 8) ++ o.pb ++ o.pa,
      m := BitVec.ofBool o.ta ++ BitVec.ofBool o.tb ++ BitVec.ofBool o.wua ++ BitVec.ofBool o.zc ++ (0 : BitVec 4) }

def encAcc (minor : BitVec 2) (g : Guard) (o : AccOps) : List Half :=
  coreHalves 0x74 minor 6 g
    { Fields.zero with d := o.t, a := o.a, m := (0 : BitVec 5) ++ BitVec.ofBool o.tr ++ o.fmt.code, w := o.sync.word,
                       h := o.pitch.setWidth 40 }

/-! Walker layouts (R49). -/

def wWord (w : BitVec 32) : List Half := [loHalf w, hiHalf w]

def encWR (op : BitVec 6) (d a b : WReg) (fn : BitVec 11) : List Half := wWord (op ++ d ++ a ++ b ++ fn)
def encWI (op : BitVec 6) (d a : WReg) (imm : BitVec 16) : List Half := wWord (op ++ d ++ a ++ imm)
def encWB (op : BitVec 6) (a : WReg) (off : BitVec 21) : List Half := wWord (op ++ a ++ off)

def encWBin (op : BitVec 6) (o : WBin) : List Half :=
  encWR op o.d o.a o.b ((0 : BitVec 9) ++ BitVec.ofBool o.f1 ++ BitVec.ofBool o.f0)

def encWCmp (op : BitVec 6) (o : WCmpOp) : List Half :=
  encWR op o.d o.a o.b ((0 : BitVec 6) ++ o.cond.code ++ BitVec.ofBool o.f1 ++ BitVec.ofBool o.f0)

/-- The halfwords of an instruction, in ascending address order within its head and its tail (a Walker word's low
halfword first). The device's events have no encoding. -/
def encode : Instr → List Half
  | .nop g => coreHalves 0x00 0 0 g Fields.zero
  | .bra g off => coreHalves 0x00 1 4 g { Fields.zero with w := off }
  | .brx g a => coreHalves 0x00 2 1 g { Fields.zero with a := a }
  | .call g d off => coreHalves 0x00 3 4 g { Fields.zero with d := d, w := off }
  | .exit g => coreHalves 0x01 0 0 g Fields.zero
  | .ret g a => coreHalves 0x01 1 1 g { Fields.zero with a := a }
  | .yield g => coreHalves 0x01 2 0 g Fields.zero
  | .brk g imm => coreHalves 0x01 3 3 g { Fields.zero with w := imm.setWidth 32 }
  | .cvset g c mask => coreHalves 0x02 0 4 g { Fields.zero with d := c, w := mask }
  | .cvwait c => coreHalves 0x02 1 1 Guard.none { Fields.zero with d := c }
  | .trap g imm => coreHalves 0x02 2 3 g { Fields.zero with w := imm.setWidth 32 }
  | .vote g op d a => coreHalves 0x02 3 2 g { Fields.zero with d := d, a := a, m := (0 : BitVec 4) ++ op.code }
  | .semwait g d k dec thr =>
    coreHalves 0x03 0 3 g
      { Fields.zero with d := d, a := k, m := (0 : BitVec 7) ++ BitVec.ofBool dec, w := thr.setWidth 32 }
  | .semadd g k inc => coreHalves 0x03 1 3 g { Fields.zero with a := k, w := inc.setWidth 32 }
  | .semset g k val => coreHalves 0x03 2 3 g { Fields.zero with a := k, w := val.setWidth 32 }
  | .barArrive g sc b =>
    coreHalves 0x04 0 2 g { Fields.zero with b := b, m := (0 : BitVec 2) ++ sc.code ++ (0 : BitVec 3) }
  | .barWait g sc b =>
    coreHalves 0x04 1 2 g { Fields.zero with b := b, m := (0 : BitVec 2) ++ sc.code ++ (0 : BitVec 3) }
  | .waitm g ord sc d a b => coreHalves 0x04 2 2 g { Fields.zero with d := d, a := a, b := b, m := memM ord sc 4 }
  | .launch g d a => coreHalves 0x05 0 2 g { Fields.zero with d := d, a := a }
  | .add g o => encIntBin 0x10 0 g o
  | .addImm g o => encIntImm 0x10 1 g o
  | .sub g o => encIntBin 0x10 2 g o
  | .neg g o => encIntUn 0x10 3 g o
  | .mul g o => encIntBin 0x11 0 g o
  | .mulImm g o => encIntImm 0x11 1 g o
  | .mulh g o => encIntBin 0x11 2 g o
  | .mad g o =>
    coreHalves 0x11 3 3 g
      { Fields.zero with d := o.d, a := o.a, b := o.b, m := intM o.uni 0 o.ty, w := o.c.setWidth 32 }
  | .div g o => encIntBin 0x12 0 g o
  | .rem g o => encIntBin 0x12 1 g o
  | .min g o => encIntBin 0x12 2 g o
  | .max g o => encIntBin 0x12 3 g o
  | .abs g o => encIntUn 0x13 0 g o
  | .minImm g o => encIntImm 0x13 1 g o
  | .maxImm g o => encIntImm 0x13 2 g o
  | .and g o => encIntBin 0x14 0 g o
  | .andImm g o => encIntImm 0x14 1 g o
  | .or g o => encIntBin 0x14 2 g o
  | .orImm g o => encIntImm 0x14 3 g o
  | .xor g o => encIntBin 0x15 0 g o
  | .xorImm g o => encIntImm 0x15 1 g o
  | .not g o => encIntUn 0x15 2 g o
  | .shl g o => encIntBin 0x16 0 g o
  | .shlImm g o => encIntImm 0x16 1 g o
  | .shr g o => encIntBin 0x16 2 g o
  | .shrImm g o => encIntImm 0x16 3 g o
  | .sra g o => encIntBin 0x17 0 g o
  | .sraImm g o => encIntImm 0x17 1 g o
  | .clz g o => encIntUn 0x18 0 g o
  | .ctz g o => encIntUn 0x18 1 g o
  | .popc g o => encIntUn 0x18 2 g o
  | .brev g o => encIntUn 0x18 3 g o
  | .bfx g o => encField 0 g o
  | .bfi g o => encField 1 g o
  | .prmt g o =>
    coreHalves 0x19 2 3 g
      { Fields.zero with d := o.d, a := o.a, b := o.b, m := intM o.uni 0 .n32, w := o.sel.setWidth 32 }
  | .sel g o =>
    coreHalves 0x1A 0 3 g
      { Fields.zero with d := o.d, a := o.a, b := o.b, m := intM false 0 o.ty, w := o.p.setWidth 32 }
  | .cmp g o =>
    coreHalves 0x1A 1 2 g { Fields.zero with d := o.d, a := o.a, b := o.b, m := intM o.uni o.cond.code o.ty }
  | .cmpImm g o =>
    coreHalves 0x1A 2 3 g
      { Fields.zero with d := o.d, a := o.a, m := intM o.uni o.cond.code o.ty, w := o.imm.setWidth 32 }
  | .cvt g o =>
    coreHalves 0x1B 0 2 g
      { Fields.zero with d := o.d, a := o.a, b := (0 : BitVec 7) ++ BitVec.ofBool o.sat, m := o.dty.code ++ o.sty.code }
  | .lea g o =>
    coreHalves 0x1B 1 3 g
      { Fields.zero with d := o.d, a := o.a, b := o.b, m := intM o.uni 0 o.ty, w := o.sh.setWidth 32 }
  | .shfl g o => coreHalves 0x1B 2 2 g { Fields.zero with d := o.d, a := o.a, b := o.b, m := intM false 0 o.ty }
  | .mov g d a => coreHalves 0x1C 0 1 g { Fields.zero with d := d, a := a }
  | .movi g o => coreHalves 0x1C 1 4 g { Fields.zero with d := o.d, m := intM o.uni 0 o.ty, w := o.imm }
  | .mov64 g d a => coreHalves 0x1C 2 1 g { Fields.zero with d := d, a := a }
  | .movFile g o =>
    coreHalves 0x1C 3 2 g
      { Fields.zero with d := o.d, a := o.a, m := (0 : BitVec 4) ++ o.af.code ++ o.df.code }
  | .fadd g o => encFpBin 0x30 0 g o
  | .fsub g o => encFpBin 0x30 1 g o
  | .fmul g o => encFpBin 0x30 2 g o
  | .fma g o =>
    coreHalves 0x30 3 3 g
      { Fields.zero with d := o.d, a := o.a, b := o.b, m := fpM o.nf o.rnd o.ty, w := o.c.setWidth 32 }
  | .fdiv g o => encFpBin 0x31 0 g o
  | .fsqrt g o => encFpUn 0x31 1 g o
  | .frcp g o => encFpUn 0x31 2 g o
  | .frsq g o => encFpUn 0x31 3 g o
  | .fmin g o => encFpBin 0x32 0 g o
  | .fmax g o => encFpBin 0x32 1 g o
  | .fabs g o => encFpUn 0x32 2 g o
  | .fneg g o => encFpUn 0x32 3 g o
  | .fcmp g o =>
    coreHalves 0x33 0 3 g
      { Fields.zero with d := o.d, a := o.a, b := o.b, m := fpM o.nf .dyn o.ty, w := o.cond.code.setWidth 32 }
  | .fclass g o => encFpUn 0x33 1 g o
  | .fcvt g o =>
    coreHalves 0x33 2 3 g
      { Fields.zero with d := o.d, a := o.a, m := fpM o.nf o.rnd o.dty, w := o.sty.code.setWidth 32 }
  | .fround g o => encFpUn 0x33 3 g o
  | .fsfn g o =>
    coreHalves 0x34 0 3 g
      { Fields.zero with d := o.d, a := o.a, m := fpM o.nf o.rnd o.ty, w := o.fn.code.setWidth 32 }
  | .xadd g o => encVpBin 0x48 0 g o
  | .xsub g o => encVpBin 0x48 1 g o
  | .xmul g o => encVpBin 0x48 2 g o
  | .xfma g o =>
    coreHalves 0x48 3 3 g
      { Fields.zero with d := o.d, a := o.a, b := o.b, m := vpM o.nf o.rnd o.exact, w := o.c.setWidth 32 }
  | .xdiv g o => encVpBin 0x49 0 g o
  | .xsqrt g o => encVpUn 0x49 1 g o
  | .xcmp g o =>
    coreHalves 0x49 2 3 g
      { Fields.zero with d := o.d, a := o.a, b := o.b, m := vpM o.nf .dyn false, w := o.cond.code.setWidth 32 }
  | .xround g o => encVpUn 0x49 3 g o
  | .xneg g o => encVpSign 0 g o
  | .xabs g o => encVpSign 1 g o
  | .xmov g d a => coreHalves 0x4A 2 1 g { Fields.zero with d := d, a := a }
  | .xcvt g o =>
    coreHalves 0x4A 3 3 g
      { Fields.zero with d := o.d, a := o.a, m := vpM o.nf o.rnd o.exact,
                         w := (0 : BitVec 27) ++ BitVec.ofBool o.fromVp ++ o.ty.code }
  | .xld g o =>
    coreHalves 0x4B 0 3 g
      { Fields.zero with d := o.d, a := o.a, m := vpM o.nf o.rnd o.exact, w := o.off.setWidth 32 }
  | .xldStride g o =>
    coreHalves 0x4B 1 3 g
      { Fields.zero with d := o.d, a := o.a, b := o.b, m := vpM o.nf o.rnd o.exact, w := o.stride.setWidth 32 }
  | .xst g o =>
    coreHalves 0x4B 2 3 g { Fields.zero with d := o.d, a := o.a, m := vpM o.nf .dyn false, w := o.off.setWidth 32 }
  | .xstStride g o =>
    coreHalves 0x4B 3 3 g
      { Fields.zero with d := o.d, a := o.a, b := o.b, m := vpM o.nf .dyn false, w := o.stride.setWidth 32 }
  | .xnext g d a => coreHalves 0x4C 0 2 g { Fields.zero with d := d, a := a }
  | .xalloc g d e =>
    coreHalves 0x4C 1 3 g { Fields.zero with d := d, w := e.imm }
  | .xframe g a => match a with
    | some r => coreHalves 0x4C 2 3 g { Fields.zero with a := r, w := 1 }
    | none => coreHalves 0x4C 2 3 g Fields.zero
  | .xunframe g => coreHalves 0x4C 3 0 g Fields.zero
  | .ld g o => encMem 0 g o
  | .st g o => encMem 1 g o
  | .lds g o => encScr 2 g o
  | .sts g o => encScr 3 g o
  | .bst g o =>
    coreHalves 0x59 0 4 g
      { Fields.zero with d := o.d, a := o.a, b := o.b, m := memM o.ord o.scope o.size.code,
                         w := o.rect ++ (0 : BitVec 16) ++ o.off }
  | .prf g l2 a off =>
    coreHalves 0x59 1 3 g
      { Fields.zero with d := (0 : BitVec 7) ++ BitVec.ofBool l2, a := a, w := off.setWidth 32 }
  | .pushm g d n => coreHalves 0x59 2 3 g { Fields.zero with d := d, w := n.setWidth 32 }
  | .popm g d n => coreHalves 0x59 3 3 g { Fields.zero with d := d, w := n.setWidth 32 }
  | .atom g o => encAtom 0 g o
  | .red g o => encAtom 1 g o
  | .near g o => encAtom 2 g o
  | .fence g ord sc b => coreHalves 0x5A 3 2 g { Fields.zero with b := b, m := memM ord sc 0 }
  | .mmaF16 g o => encMma 0x70 0 6 g o
  | .mmaBf16 g o => encMma 0x70 1 6 g o
  | .mmaE4m3 g o => encMma 0x70 2 6 g o
  | .mmaE5m2 g o => encMma 0x70 3 6 g o
  | .mmaS8 g o => encMma 0x71 0 6 g o
  | .mmaMxf4 g o => encMma 0x71 1 7 g o
  | .mmaDpt g o => encMma 0x71 2 7 g o
  | .mmaF16Sp g o => encMma 0x72 0 7 g o
  | .mmaBf16Sp g o => encMma 0x72 1 7 g o
  | .mmaE4m3Sp g o => encMma 0x72 2 7 g o
  | .mmaE5m2Sp g o => encMma 0x72 3 7 g o
  | .mmaS8Sp g o => encMma 0x73 0 7 g o
  | .mmaMxf4Sp g o => encMma 0x73 1 7 g o
  | .mmaDptSp g o => encMma 0x73 2 7 g o
  | .accZero g t sync => coreHalves 0x74 0 5 g { Fields.zero with d := t, w := sync.word }
  | .accLd g o => encAcc 1 g o
  | .accSt g o => encAcc 2 g o
  | .copy g o =>
    coreHalves 0x74 3 7 g
      { d := o.d, a := o.a, b := o.b, e := o.e, m := (0 : BitVec 6) ++ o.dir.code, w := o.sync.word,
        h := (0 : BitVec 8) ++ o.rows ++ o.bytes }
  | .wprog g d a b words => coreHalves 0x78 0 3 g { Fields.zero with d := d, a := a, b := b, w := words.setWidth 32 }
  | .wlaunch g a b q sync =>
    coreHalves 0x78 1 5 g { Fields.zero with a := a, b := b, m := (0 : BitVec 6) ++ q, w := sync.word }
  | .wtake g d a b q => coreHalves 0x78 2 2 g { Fields.zero with d := d, a := a, b := b, m := (0 : BitVec 6) ++ q }
  | .wpoll g d a q clr =>
    coreHalves 0x78 3 2 g { Fields.zero with d := d, a := a, m := (0 : BitVec 5) ++ BitVec.ofBool clr ++ q }
  | .wcancel g d q team =>
    coreHalves 0x79 0 2 g { Fields.zero with d := d, m := (0 : BitVec 5) ++ BitVec.ofBool team ++ q }
  | .wuacfg g stat clr d a off =>
    coreHalves 0x7C 0 3 g
      { Fields.zero with d := d, a := a, m := (0 : BitVec 6) ++ BitVec.ofBool clr ++ BitVec.ofBool stat,
                         w := off.setWidth 32 }
  | .wuarun g a sync => coreHalves 0x7C 1 6 g { Fields.zero with a := a, w := sync.word }
  | .slotfree g d a ring => coreHalves 0x7C 2 2 g { Fields.zero with d := d, a := a, m := (0 : BitVec 6) ++ ring }
  | .slotstat g op ring clr d a b =>
    coreHalves 0x7C 3 2 g
      { Fields.zero with d := d, a := a, b := b, m := (0 : BitVec 3) ++ BitVec.ofBool clr ++ ring ++ op.code }
  | .getc g uni d num =>
    coreHalves 0x7F 0 2 g { Fields.zero with d := d, a := num, m := BitVec.ofBool uni ++ (0 : BitVec 7) }
  | .setc g uni num a =>
    coreHalves 0x7F 1 2 g { Fields.zero with d := num, a := a, m := BitVec.ofBool uni ++ (0 : BitVec 7) }
  | .tret => coreHalves 0x7F 2 0 Guard.none Fields.zero
  | .halt => coreHalves 0x7F 3 0 Guard.none Fields.zero
  | .nfetch n pf a => encWR 0x01 0 a 0 ((0 : BitVec 8) ++ BitVec.ofBool pf ++ n)
  | .ndec d n k => encWR 0x02 d 0 0 ((0 : BitVec 5) ++ k ++ n)
  | .tbox o => encWR 0x03 o.d o.a 0 ((0 : BitVec 8) ++ BitVec.ofBool o.flag ++ o.n)
  | .ttri o => encWR 0x04 o.d o.a 0 ((0 : BitVec 7) ++ o.j ++ o.n)
  | .tdist o =>
    encWR 0x05 o.d o.a 0
      ((0 : BitVec 1) ++ BitVec.ofBool o.ip ++ o.fmt.code ++ BitVec.ofBool o.qh ++ o.src ++ BitVec.ofBool o.h ++ o.n)
  | .tkey o => encWR 0x06 o.d o.a o.b ((0 : BitVec 7) ++ BitVec.ofBool o.signed ++ BitVec.ofBool o.strict ++ o.n)
  | .spush a => encWR 0x07 0 a 0 0
  | .spop d a => encWR 0x08 d a 0 0
  | .emit d a b => encWR 0x09 d a b 0
  | .relay a => encWR 0x0A 0 a 0 0
  | .ckpt => encWR 0x0B 0 0 0 0
  | .done => encWR 0x0C 0 0 0 0
  | .j off => wWord ((0x10 : BitVec 6) ++ off)
  | .jz a off => encWB 0x11 a off
  | .jnz a off => encWB 0x12 a off
  | .jmask a off => encWB 0x13 a off
  | .wadd o => encWBin 0x18 o
  | .wsub o => encWBin 0x19 o
  | .wand o => encWBin 0x1A o
  | .wor o => encWBin 0x1B o
  | .wshl o => encWBin 0x1C o
  | .wshr o => encWBin 0x1D o
  | .wcmp o => encWCmp 0x1E o
  | .wmin o => encWBin 0x1F o
  | .wmax o => encWBin 0x20 o
  | .wmov d a => encWR 0x21 d a 0 0
  | .wli d a imm => encWI 0x22 d a imm
  | .wsel d a b c => encWR 0x23 d a b ((0 : BitVec 6) ++ c)
  | .wld o => encWI 0x24 o.d o.a (o.src ++ o.size.code ++ (0 : BitVec 4) ++ o.off)
  | .wfadd o => encWBin 0x28 o
  | .wfmul o => encWBin 0x29 o
  | .wfmin o => encWBin 0x2A o
  | .wfmax o => encWBin 0x2B o
  | .wfcmp o => encWCmp 0x2C o
  | _ => []

/-- Walker instructions (R69). -/
def Instr.isWalker : Instr → Bool
  | .nfetch _ _ _ => true
  | .ndec _ _ _ => true
  | .tbox _ => true
  | .ttri _ => true
  | .tdist _ => true
  | .tkey _ => true
  | .spush _ => true
  | .spop _ _ => true
  | .emit _ _ _ => true
  | .relay _ => true
  | .ckpt => true
  | .done => true
  | .j _ => true
  | .jz _ _ => true
  | .jnz _ _ => true
  | .jmask _ _ => true
  | .wadd _ => true
  | .wsub _ => true
  | .wand _ => true
  | .wor _ => true
  | .wshl _ => true
  | .wshr _ => true
  | .wcmp _ => true
  | .wmin _ => true
  | .wmax _ => true
  | .wmov _ _ => true
  | .wli _ _ _ => true
  | .wsel _ _ _ _ => true
  | .wld _ => true
  | .wfadd _ => true
  | .wfmul _ => true
  | .wfmin _ => true
  | .wfmax _ => true
  | .wfcmp _ => true
  | _ => false

/-- Core instructions: the 144 positions of R58. -/
def Instr.isCore (i : Instr) : Bool := !(encode i).isEmpty && !i.isWalker

/-- The word of a Walker instruction, low halfword first (R49). -/
def walkerWord (hs : List Half) : BitVec 32 :=
  match hs with
  | [lo, hi] => hi ++ lo
  | _ => 0

/-- A table row's word: 16 bits are a core head without a tail; 32 bits are a core head in [31:16] with a tail of one
halfword in [15:0], as the table's rows place them, or a Walker word. -/
def decodeTableWord (nbits w : Nat) : Option Instr :=
  if nbits = 16 then
    match decodeCore (BitVec.ofNat 16 w) [] with
    | .ok i => some i
    | .error _ => none
  else if nbits = 32 then
    match decodeCore (BitVec.ofNat 16 (w / 65536)) [BitVec.ofNat 16 w] with
    | .ok i => some i
    | .error _ => decodeWalker (BitVec.ofNat 32 w)
  else none

end Sys2Proof
end

