-- ==== Sys2Proof/Config.lean ====
section
/-! DEFINITION. What one implementation fixes and the values the spec leaves open (free values: opaque, no body, so that
nothing can be proved of what they are). -/
namespace Sys2Proof

/-- The free value of draw n, reduced by the reader to the width it needs (log 5). -/
opaque Config.freeValue : Nat → Nat
/-- The byte that draw n reads at an address whose byte no key of the read gives (R403, log 5). -/
opaque Config.staleByte : Nat → Nat → Byte
/-- The free choice of draw n among the alternatives the spec leaves open: the reader takes it modulo their number
(log 2, log 9). -/
opaque Config.choice : Nat → Nat
/-- Core cycles that pass over draw n's step, less one (log 7). -/
opaque Config.lapse : Nat → Nat
/-- Whether, at draw n's step, the register operands of group g's next instruction are available and its engine can accept
it (R258): a matter of time alone (log 21). -/
opaque Config.operandsReady : Nat → Nat → Bool
/-- How many of the writes that groups have made to host and peer memory reach their home slices at draw n's step (log 70). -/
opaque Config.homeReached : Nat → Nat
/-- Whether the host has AtomicOp Requester Enable of configuration space set at draw n's step (R400, log 60). -/
opaque Config.atomicRequester : Nat → Bool
/-- Corrections of source k's soft errors (R276, R414) over draw n's step (log 62). -/
opaque Config.corrections : Nat → Nat → Nat
/-- The identifier of tree t of the identity key, 16 bytes of it (R411, log 10). -/
opaque Config.identityId : Nat → Nat
/-- The secret of chain i of leaf q of tree t, 32 bytes of it (R411, log 10). -/
opaque Config.identitySecret : Nat → Nat → Nat → Nat
/-- The randomiser of the signature made with leaf q of tree t, 32 bytes of it (R411, log 10). -/
opaque Config.identityRandom : Nat → Nat → Nat
/-- The part of the SPDM responder's response to draw n's request (R410) that SPDM 1.3 fixes, or leaves to the device, and the
spec does not restate (log 10). -/
opaque Config.spdmResponse : Nat → List Byte → List Byte
/-- The bytes that the signature of a response covers, of the draw, the request and the response before its signature (R410,
R411, log 10). -/
opaque Config.spdmTranscript : Nat → List Byte → List Byte → List Byte
/-- What a message of draw n says where it is one of the secured session (R410, log 10). -/
opaque Config.spdmOpened : Nat → List Byte → Option (List Byte)
/-- Byte i of a response as the secured session carries it (R410, log 10). -/
opaque Config.spdmSealed : Nat → List Byte → Nat → Byte
/-- The bytes that the secured session adds to a message (R410, log 10). -/
opaque Config.sealLength : Nat
/-- The vendor's certificate (R410, log 10). -/
opaque Config.vendorCertificate : List Byte
/-- The certificates of slot 0 after the vendor's (R410, log 10). -/
opaque Config.deviceCertificates : List Byte
/-- HSS as an entry of SPDM's extended algorithm fields, four bytes (R410, log 10). -/
opaque Config.hssAlgorithm : Nat
/-- Whether draw n's FINISH completes the handshake (R410, log 10). -/
opaque Config.spdmFinished : Nat → List Byte → Bool
/-- The value type of measurement block m + 1 (R410, log 10). -/
opaque Config.measurementType : Nat → Byte
/-- The key operation of a vendor-defined request (R412): the partition, 0 install, 1 generate or 2 erase, and the key's bytes
(log 10). -/
opaque Config.keyRequest : List Byte → Option (Nat × Nat × List Byte)
/-- The code and the data of the SPDM ERROR that answers a request once no signature is left (R411, log 10). -/
opaque Config.signaturesSpent : Nat
/-- The selective IDE stream that draw n's request sets up or tears down through IDE_KM, if any (R391, R410, log 10). -/
opaque Config.spdmIde : Nat → List Byte → Option (Nat × Bool)
/-- The package power limit in W that configuration section 2 holds, whose place there the spec does not give (R417, log
11). -/
opaque Config.packageLimit : List Byte → Nat
/-- What draw n takes from the device's random source for a key (R412, log 10). -/
opaque Config.randomKey : Nat → Nat
/-- The fuses of the fused sites, in the layout of fusemap (R409, R413, log 11). -/
opaque Config.siteFuses : DWord
/-- The fused root key hash (R406, log 11). -/
opaque Config.rootKeyHash : List Byte
/-- The version word of the boot ROM (R409, log 11). -/
opaque Config.romVersion : Word
/-- The fused security version at manufacture (R406, log 11). -/
opaque Config.fusedSvn : Half
/-- The sense pins of the board power connector in watts, 0 when absent, and none on the bare package and known-good
die (R417, log 11). -/
opaque Config.boardSense : Option Nat
/-- The fitted memory in GiB: 128 on ZF960-WS (R1, R392, log 11). -/
def Config.fittedGiB : Nat := 128

end Sys2Proof
end

