-- ==== Sys2Proof/Machine/State.lean ====
section
/-! DEFINITION. The state of the device as plain data, and the state at device reset. -/
namespace Sys2Proof.Machine

open Sys2Proof

/-- Why the model stops a step. -/
inductive Fault where
  /-- Raised by Step and by every event when the device has removed its own power (R418): the spec gives it no further
  step. Safe: the model stops. -/
  | poweredOff
  /-- Raised by an event of the table when the state holds nothing that the event could be the event of (no such message,
  command, request or walk is under way): such an event cannot occur there. Safe: the model stops. -/
  | notEnabled
deriving DecidableEq, Repr

/-- Instructions without a meaning. -/
inductive Refusal where
  /-- Raised by Dispatch for an instruction not modelled yet, by its mnemonic. Safe: the model stops. -/
  | notModelled (mnemonic : String)
deriving DecidableEq, Repr

/-- A trap's cause and what it writes (R341): lane none leaves %tcause [13:8] 0, tpc none is the path's PC. -/
structure Trap where
  cause : Nat
  tval : Nat
  taddr : Nat
  lane : Option Nat
  tpc : Option Addr
deriving DecidableEq, Repr

/-- What a translation gives (R358-R361). -/
inductive Xlat where
  /-- location, physical or system address, address of the leaf entry, its value and its page size -/
  | ok (loc pa leafAt leaf size : Nat)
  /-- page fault with level, reason and last entry read (R346) -/
  | fault (level reason entry : Nat)
  /-- permission failure: location and class (R174) -/
  | perm (loc : Nat) (cls : Bool)
  /-- an uncorrectable error in a table entry (R276, log 66) -/
  | bad
deriving DecidableEq, Repr

/-- One aligned access: its lane (none for a group-uniform access), its address, its bytes and its translation. -/
structure LaneAt where
  lane : Option Nat
  va : Nat
  n : Nat
  x : Xlat
deriving DecidableEq, Repr

/-- An instruction that has issued and whose access is not yet performed whole (R258, R294): the n of its code line, the group
whose access of the same pair is performed first (R263), and the next identity when it issued: the requests made before bear
lower ones. -/
structure Issued where
  n : Nat
  instr : Instr
  behind : Option Nat
  next : Nat
deriving DecidableEq, Repr

/-- One path of a group (R93): its PC, its lanes, when the `semwait` it is at began (R105), and the trap that a failed request
left it to take when it next runs (R348, R399). Of the instruction at the PC: what its accesses have got so far (served: lines
by their number and key, local accesses of a store or an `atom` by 2^61 + place, atomics of others by 2^60 + lane), the requests
unanswered (asked), the accesses of a store or an `atom` whose checks are made (under, R173), whether it waits for an access
(waits), and the instruction itself once it has issued. -/
structure Path where
  id : Nat
  pc : Addr
  mask : Mask
  since : Option Nat
  failed : Option Trap
  served : List (Nat × List Byte)
  asked : List Nat
  under : List LaneAt
  waits : Bool
  issued : Option Issued
deriving DecidableEq, Repr

/-- Why a path is not running or ready (R93). -/
inductive Why where
  /-- waiting at a cvwait on cN (R100) -/
  | cv (c : Nat)
  /-- blocked in semwait on semaphore k (R105) -/
  | sem (k : Nat)
  /-- blocked at the team barrier: in bar.wait, or in a second bar.arrive (R106) -/
  | team (wait : Bool)
  /-- blocked at the rectangle barrier; none: until another rectangle's phase completes (R107) -/
  | rect (wait : Option Bool)
  /-- blocked in waitm, its cause to go to s[d] (R108) -/
  | waitm (d : Reg) (start : Nat)
  /-- blocked in halt (R114) -/
  | halt
  /-- blocked on a fault message (R348) -/
  | mail (req : Nat)
  /-- blocked in wcancel on acknowledgements of relayed walks; n counted so far (R240) -/
  | cancel (d : Reg) (n : Nat) (walks : List Nat)
  /-- blocked in slotstat.unbind (R379) -/
  | unbind (ring : Nat)
deriving DecidableEq, Repr

structure Parked where
  path : Path
  why : Why
deriving DecidableEq, Repr

/-- A window map entry (R18). -/
structure Win where
  base : Nat
  ext : Nat
deriving DecidableEq, Repr

/-- A caller's resident frame (R163): its map, its tags by register, its carry mask and its length. -/
structure Frame where
  map : Tbl Win
  tags : Tbl Mask
  carry : Mask
  len : Nat
deriving DecidableEq, Repr

/-- A convergence barrier (R100). -/
structure Conv where
  mask : Mask
  armed : Bool
deriving DecidableEq, Repr

/-- Arrival state at a barrier (R106). -/
inductive Bar where
  | idle | pending | completed
deriving DecidableEq, Repr

/-- A report an engine made for a group (R199), with the command's PC and sequence number. -/
structure Report where
  cause : Nat
  tval : Word
  taddr : DWord
  pc : Addr
  seq : Word
deriving DecidableEq, Repr

/-- A pending deferred write-back fault (R189). -/
structure Deferred where
  addr : Addr
  tval : Word
deriving DecidableEq, Repr

/-- Handler mode (R341, R342): the trapped path's mask and the stopped paths. -/
structure Handler where
  ret : Mask
  ready : List Path
  parked : List Parked
deriving DecidableEq, Repr

/-- A group (R9, R29). v is keyed 32·register + lane, win 32·word + lane; p holds a mask per predicate; frames holds the
resident callers, oldest first; spills the positions of the spilled records, newest first: the spill pointer leads it
(R163). -/
structure Group where
  live : Bool
  team : Nat
  num : Nat
  slot : Nat
  nv : Nat
  ns : Nat
  nw : Nat
  runOff : Nat
  v : Tbl Word
  vtag : Tbl Bool
  s : Tbl Word
  p : Tbl Mask
  win : Tbl Word
  xtag : Tbl Mask
  uninit : Bool
  prec : Tbl Byte
  round : Tbl Byte
  fflags : Tbl Byte
  xb : Nat
  ssp : Nat
  xmap : Tbl Win
  carry : Mask
  frames : List Frame
  depth : Nat
  spills : List Nat
  c : Tbl Conv
  run : Path
  ready : List Path
  parked : List Parked
  turn : Nat
  nextPath : Nat
  handler : Option Handler
  tcause : Word
  tval : Word
  tpc : DWord
  taddr : DWord
  wtimeout : Word
  sup : Bool
  reports : List Report
  deferred : Option Deferred
  monitor : Option Nat
  lastAcq : Nat
  barT : Bar
  barX : Bar
  passed : Nat
  halted : Bool
deriving DecidableEq, Repr

/-- A completion queue (R327, R328, R239): how many records it holds, its chunks of the pool, oldest first, the places already
used and emptied of the oldest, and the sticky overflow flag. -/
structure Cq where
  held : Nat
  chunks : List Nat
  skip : Nat
  ovf : Bool
deriving DecidableEq, Repr

/-- A team (R9, R20). -/
structure Team where
  live : Bool
  part : Nat
  core : Nat
  grid : Nat
  index : Nat
  cluster : Nat
  age : Nat
  base : Nat
  d : Nat
  t : Nat
  g : Nat
  groups : List Nat
  nsem : Nat
  sems : Tbl Half
  tvec : DWord
  enables : BitVec 5
  wspill : Nat
  cqs : Tbl Cq
  phase : Nat
  arrivedX : Bool
deriving DecidableEq, Repr

/-- A cluster and its Hurdle context (R252, R266). -/
structure Cluster where
  live : Bool
  rect : Word
  teams : List Nat
  hurdle : Bool
  openRect : Option Word
  arrived : List Nat
  phase : Nat
deriving DecidableEq, Repr

/-- What a command does once started (R205, R207-R209, R388); offsets are team-relative. -/
inductive CmdOp where
  | mma (fmt : MmaFmt) (sp : Bool) (o : MmaOps) (offA offB side : Nat)
  | zero (t : Nat)
  | accLd (t off : Nat) (fmt : AccFmt) (tr : Bool) (pitch : Nat)
  | accSt (t off : Nat) (fmt : AccFmt) (tr : Bool) (pitch : Nat)
  | copy (dir : CopyDir) (src dst sstr dstr bytes rows : Nat)
  | run (desc : List Byte)
deriving DecidableEq, Repr

/-- A command in a queue (R197, R198). mute: it signals nothing (R352); served: lines that a copy read from the host or
peers; moved: the words that a copy has moved. -/
structure Cmd where
  seq : Word
  group : Nat
  team : Nat
  pc : Addr
  sync : Sync
  op : CmdOp
  started : Bool
  mute : Bool
  served : List (Nat × List Byte)
  moved : Nat
deriving DecidableEq, Repr

/-- A range-lock entry, in physical scratchpad bytes (R180, R200). -/
structure Lock where
  idx : Nat
  seq : Word
  lo : Nat
  hi : Nat
  dst : Bool
deriving DecidableEq, Repr

/-- A registration of the Walker program table (R236); since is the time at which it was made. -/
structure Prog where
  code : Addr
  words : Nat
  descs : List DWord
  since : Nat
deriving DecidableEq, Repr

/-- Where a hosted walk came from (R334). -/
structure Origin where
  device : Nat
  part : Nat
  core : Nat
  ctx : Nat
  queue : Nat
  team : Nat
  group : Nat
  lane : Nat
  serial : Word
deriving DecidableEq, Repr

/-- An intake entry (R316, R336): team and group are 0 for a hosted walk, whose body came with it. -/
structure Intake where
  query : Addr
  team : Nat
  group : Nat
  lane : Nat
  queue : Nat
  seq : Word
  pid : Nat
  prog : Prog
  acq : Nat
  hosted : Option (Origin × WalkBody)
deriving DecidableEq, Repr

/-- A wlaunch whose walks have not all ended (R237). left counts walks not ended; queries is emptied when they enter the
intake. -/
structure WCmd where
  seq : Word
  group : Nat
  team : Nat
  pc : Addr
  sync : Sync
  queue : Nat
  pid : Nat
  prog : Prog
  acq : Nat
  queries : List (Nat × Addr)
  entered : Bool
  left : Nat
deriving DecidableEq, Repr

/-- What a walk does once its release is performed (R230-R233, R217, R333). -/
inductive After where
  | next
  | again
  | relay (device : Nat)
  | fetchRelay (device : Nat)
  | home
  | finish
  | fault (cause reason : Nat) (word : Word)
deriving DecidableEq, Repr

/-- Context states (R315) with what a waiting walk waits for. -/
inductive WalkWait where
  | ready
  /-- the node line at addr for nb[n] (R224) -/
  | node (n : BitVec 2) (addr : Addr)
  /-- a code line of local memory (R319) -/
  | code (line : Nat)
  /-- a line of local memory that a core owns (R297) -/
  | home (line : Nat)
  /-- a reply of the pager (R349) -/
  | mail (req : Nat)
  /-- lines of host or peer memory (R274) -/
  | remote (reqs : List Nat)
  /-- room in its queue (R329) -/
  | room (a : After)
  /-- a walk answer of a device; the end of its busy time; its ended, fault or home message (R336) -/
  | answer (device : Nat)
  | busy (device until_ : Nat)
  | away (device : Nat)
  /-- a hosted walk's release message is unanswered, or was answered full -/
  | released (a : After) (full : Bool)
  /-- a hosted walk is to go home once its release is answered (R337) -/
  | goHome (a : After)
deriving DecidableEq, Repr

/-- A walk in Walker context key = 64·core + context (R212, R315). acq: the last system-scope acquire it counts (R274). Node
buffers are keyed 128·n + byte; due is the checkpoint of a hosted walk's release that its origin has not answered (R337). -/
structure Walk where
  live : Bool
  wait : WalkWait
  qb : List Byte
  w : Tbl DWord
  nb : Tbl Byte
  stack : List DWord
  resident : Nat
  emits : List Record
  cp : WalkBody
  due : Option WalkBody
  pc : Addr
  queue : Nat
  team : Nat
  group : Nat
  lane : Nat
  seq : Word
  pid : Nat
  prog : Prog
  serial : Word
  cancel : Bool
  hosted : Option Origin
  acq : Nat
  served : List (Nat × List Byte)
deriving DecidableEq, Repr

/-- A ring context (R372). -/
structure Ring where
  bound : Bool
  team : Nat
  base : Nat
  slots : Nat
  size : Nat
  sem : Nat
  produce : Nat
  consume : Nat
  filled : Nat
  freed : Half
  skipped : Half
  overflow : Bool
  tooLong : Bool
  semSat : Bool
  dropped : Nat
  gap : Nat
  epoch : Nat
  unbinding : Bool
deriving DecidableEq, Repr

/-- L1 line states (R293). -/
inductive L1State where
  | s | p | e | m | is_ | im | sm | ei | mi
deriving DecidableEq, Repr

structure L1Line where
  line : Nat
  st : L1State
deriving DecidableEq, Repr

/-- A baton entry (R299): pending holds the destination cores still to answer. -/
structure Baton where
  group : Nat
  line : Nat
  set : Word
  pending : List Nat
deriving DecidableEq, Repr

/-- A cached leaf translation (R362): page base and size, the leaf entry and where it lies. -/
structure TlbEnt where
  page : Nat
  size : Nat
  leaf : DWord
  at_ : Nat
deriving DecidableEq, Repr

/-- A core of one partition context (R9, R15, R24, R197). The scratchpad is keyed by physical byte, tiles by
4096·t + 64·i + j; serials holds each Walker context's relay serial (R336); engineUse the time at which each engine last
accepted an instruction of a slot (R259), keyed 8·slot + engine, and 32 for the VP datapath. -/
structure Core where
  scr : Tbl Byte
  tiles : Tbl Word
  mew : Nat
  specmiss : Word
  seq : Word
  locks : List Lock
  tileQ : List Cmd
  copyQ : List Cmd
  runQ : List Cmd
  wcmds : List WCmd
  intake : List Intake
  lastWalk : Nat
  serials : Tbl Word
  rings : Tbl Ring
  wuaCfg : Option (List Byte)
  wuaStat : BitVec 3
  batons : List Baton
  l1 : List L1Line
  halted : Bool
  engineUse : Tbl Nat
deriving DecidableEq, Repr

/-- Operands that the Matrix Engine read from scratchpad (R309), and the team-relative offset of the first error in them. -/
structure Stage where
  bytes : List Byte
  err : Option Nat
deriving DecidableEq, Repr

/-- A quad's engines in one partition context (R312, R381). running and wuaRun name the core and the sequence number of the
command that the Matrix Engine and the Warm-up Array chose; ptr, count and turnW are p, n and w of R264. buf is the running
buffer: the rows that a `wua` command has received, then the command's whole operands; own is what the running command has
read from scratchpad before its staging ends, ahead what was staged for another command (R310). streamErr is the offset of
the word that the array's run found uncorrectable (R388). -/
structure Quad where
  running : Option (Nat × Word)
  staged : Bool
  own : Option Stage
  buf : List Byte
  cursor : Nat
  rows : Nat
  ptr : Nat
  count : Nat
  turnW : Nat
  ahead : Option (Nat × Word × Stage)
  wuaRun : Option (Nat × Word)
  wuaTurn : Nat
  stream : List Byte
  streamErr : Option Nat
deriving DecidableEq, Repr

/-- Directory states (R296). -/
inductive DirState where
  | i | s | e
deriving DecidableEq, Repr

/-- What a busy home does when its last answer has arrived (R297, R298): the grant of a request; a fill of the node cache; the
write of a `bst` and its pushes, then the end of the pushes with what each destination answered; the entry after a read; the
operation that the home performs; the end of an eviction (R270). held: every answer has come, and the access of an agent without
a copy comes next. -/
inductive HomeThen where
  | grant (core : Nat) (excl : Bool) (keep : List Nat)
  | node (keep : List Nat)
  | push (sender : Nat) (dests : List Nat) (keep : List Nat) (job : HomeJob)
  | pushed (sender : Nat) (results : List (Nat × Nat))
  | settle (st : DirState) (keep : List Nat) (node : Bool)
  | perform (req : Instr)
  | hold (g : AgentId) (write : Bool) (st : DirState) (keep : List Nat)
  | held (g : AgentId) (write : Bool)
  | evict
deriving DecidableEq, Repr

/-- A directory entry (R296): busy holds the answers still awaited, nodeAgent that of the node cache, and what follows; waiting
the requests held back. -/
structure Dir where
  st : DirState
  sharers : List Nat
  node : Bool
  owner : Nat
  busy : Option (List Nat × HomeThen)
  waiting : List Instr
deriving DecidableEq, Repr

/-- A home copy of a peer or host line (R275). -/
structure HomeCopy where
  data : List Byte
  filled : Nat
deriving DecidableEq, Repr

/-- Units that hold an uncorrectable error (R276, R352). control: a c register, path, window map or other live control state
of a group; walker: the Walker context storage of a walk; shadow: what the context of a key has in shadow storage; l1: an
8-byte word of a core's L1, by address / 8; l2: a sector of a dirty line that a slice of L2 holds; node and copy: a line of the
node cache and a home copy; sem, locks and queue: a semaphore of a team, the range-lock table and the command queues of a core. -/
inductive Poison where
  | mem (sector : Nat)
  | scr (core word : Nat)
  | vreg (group reg lane : Nat)
  | win (group word lane : Nat)
  | sreg (group reg : Nat)
  | preg (group reg : Nat)
  | tile (core elem : Nat)
  | stage (quad : Nat)
  | control (group : Nat)
  | walker (w : Nat)
  | shadow (ctxKey : Nat)
  | l1 (core word : Nat)
  | l2 (sector : Nat)
  | node (line : Nat)
  | copy (line : Nat)
  | sem (team k : Nat)
  | locks (core : Nat)
  | queue (core : Nat)
deriving DecidableEq, Repr

/-- Who waits for a fault message or an answer (R348, R349, R394); boot: firmware that launches a pager (R402); flush: the
zero-length read behind a partition's writes to the host (R394); prefetch: no one (R178). -/
inductive Who where
  | path (g path lane : Nat)
  | copy (core : Nat) (seq : Word)
  | walk (w : Nat)
  | grid (g : Nat)
  | store (g : Nat)
  | queue (b n : Nat)
  | boot (b : Nat)
  | flush (b : Nat)
  | prefetch
  | notice
deriving DecidableEq, Repr

def Who.isPath : Who → Bool
  | .path _ _ _ => true
  | _ => false

/-- A fault message (R346): the words written to its slot, its ticket once it is reserved (R347), and how far it is. -/
structure Mail where
  live : Bool
  reserved : Bool
  who : Who
  part : Nat
  ctx : Nat
  box : Nat
  size : Nat
  ticket : Nat
  posted : Bool
  kind : Nat
  level : Nat
  reason : Nat
  address : DWord
  access : Word
  grid : Word
  team : Word
  wher : Word
  pc : DWord
  entry : DWord
  seqno : Word
deriving DecidableEq, Repr

/-- An atomic operation that its owner performs (R185). -/
structure AskAtomic where
  op : AtomOp
  size : Size
  operand : DWord
  cmp : DWord
deriving DecidableEq, Repr

/-- A request whose answer is outstanding (R394, R399): n bytes at a system address of location 1 or 2, by a port where it goes
to a peer (R397) under the `peermap` entry that stood when it was made; at location 0 a `bst` or `red` that its home has not
performed (R183, R298). grid: the grid for which it is made, 0 for none (R249). sent: the request has reached its home slice
(R189); stale: a write of the partition to the line followed this read (R275). -/
structure Remote where
  live : Bool
  who : Who
  part : Nat
  grid : Nat
  loc : Nat
  addr : Nat
  n : Nat
  write : Option (List Byte)
  atomic : Option AskAtomic
  tval : Word
  va : Addr
  entry : Word
  port : Nat
  sent : Bool
  stale : Bool
deriving DecidableEq, Repr

/-- States of a grid (R246-R249). -/
inductive GridState where
  | accepted
  | waiting
  | eligible
  | ending (status detail : Nat)
  /-- its status word is stored; its counter is not yet incremented -/
  | signalling
deriving DecidableEq, Repr

/-- A live grid (R247). rec_ holds the record's eight 64-bit words, desc the descriptor's sixteen; placed and retired count
teams; sector is the sector of its wait counter, hit whether it was written since the last read, polled the time of that
read (R248); since the time of its acceptance (R40); served: lines that the dispatcher read from the host or peers for it. -/
structure Grid where
  live : Bool
  part : Nat
  ctx : Nat
  id : Word
  rec_ : List DWord
  desc : List DWord
  prio : Nat
  age : Nat
  st : GridState
  placed : Nat
  retired : Nat
  pager : Bool
  noSignal : Bool
  sector : Option Nat
  hit : Bool
  polled : Nat
  since : Nat
  served : List (Nat × List Byte)
deriving DecidableEq, Repr

/-- A launch queue (R243); served: the line of the record at its head, read from the host or a peer. -/
structure Queue where
  base : DWord
  ctl : Word
  head : Word
  tail : Word
  stat : Word
  served : List (Nat × List Byte)
deriving DecidableEq, Repr

/-- A partition (R243, R327, R332, R344, R397, R401). closing: a release or a reset has begun and ends its grids (R402); gridCount: the next `%grid` value (R247); swap: how far a swap is
(R355): 1 requested, 2 groups stop, 3 cores halted, 4 exchange; served: lines read for a pager launch (R402). -/
structure Part where
  pastat : Nat
  paerr : Nat
  pacfg : Word
  pamem : Word
  papool : Word
  paimg : DWord
  key : Option (List Byte)
  keyGen : Bool
  queues : Tbl Queue
  cqfree : Nat
  ptbase0 : DWord
  ptbase1 : DWord
  pgcfg : Word
  live : Nat
  swap : Option Nat
  closing : Bool
  tlbreq : Word
  tlbdone : Word
  tlbq : List DWord
  mcstat : Word
  mccount : Half
  mcaddr : DWord
  mcgrid : Word
  peermap : Tbl Word
  peerrej : Tbl Word
  ualrej : Word
  pushref : Tbl Word
  pushins : Tbl Word
  rlyctl : Tbl Word
  rlyhost : Tbl Word
  hostTurn : Nat
  nextAge : Nat
  gridCount : Word
  served : List (Nat × List Byte)
deriving DecidableEq, Repr

/-- A partition context (R353); resumed: the time of its latest assignment or restore (R259). -/
structure Ctx where
  pagerq : DWord
  progs : Tbl Prog
  intake : List (List DWord × Nat)
  turn : Nat
  hasRun : Bool
  resumed : Nat
deriving DecidableEq, Repr

/-- A held line (R377): the frame without its CRC, and the `igstrm` entry that governs it (R368). -/
structure Held where
  frame : List Byte
  entry : DWord
  dropped : Bool
deriving DecidableEq, Repr

/-- An ingress port (R368). -/
structure Port where
  ctl : Word
  link : Bool
  lock : BitVec 4
  fcint : Word
  cw : DWord
  cwcor : DWord
  cwunc : DWord
  crc : Word
  stale : Word
  hold : Word
  strm : Tbl DWord
  held : List Held
deriving DecidableEq, Repr

/-- The management page (R401, R404) beside the partitions' registers; fwcmd is the `fwreccmd` command that runs, 0 none; flashing
the image that a command is writing to flash, flashTorn whether a write of flash has begun and not ended (R408); ide the
selective IDE streams that are set up (R391); leaf the next leaf index of the identity key (R411); session 1 in an SPDM
handshake, 2 in a session (R410); largeOut, chunkOut, largeIn and chunkIn what CHUNK_GET and CHUNK_SEND still carry, with the
numbers of their next parts; keyReply the response of a key operation that is asked for and not done (R412). -/
structure Mgmt where
  devnum : Word
  ualEnable : Tbl Bool
  ualUp : Tbl Bool
  ualSec : Tbl Bool
  fwstate : Nat
  fwerr : Nat
  fwver : Half
  fwsvn : Half
  fwrecaddr : DWord
  fwreclen : Word
  fwresult : Nat
  fwcmd : Nat
  fusemap : DWord
  dumpbase : DWord
  dumpstat : Word
  eccor : Tbl Word
  pwrnow : Word
  pwrlim : Word
  tempnow : Word
  coreClk : Nat
  meshClk : Nat
  spdmctl : Word
  fwmr : Tbl (BitVec 256)
  spdmbuf : List Byte
  flash : Option (List Byte)
  image : Option (List Byte)
  flashing : Option (List Byte)
  flashTorn : Bool
  leaf : Nat
  atomicEnable : Bool
  ide : Tbl Bool
  session : Nat
  largeOut : List Byte
  chunkOut : Nat
  largeIn : List Byte
  chunkIn : Nat
  keyReply : Option (List Byte)
deriving DecidableEq, Repr

/-- What the device sends out of its package (R391-R399, R371, R334). -/
inductive Out where
  | msix (vector : Nat)
  | relay (toDevice toPart port : Nat) (bytes : List Byte)
  | remote (req : Nat) (loc port addr n : Nat) (write : Option (List Byte))
  | atomic (req : Nat) (loc port addr : Nat) (op : AtomOp) (size : Size) (operand cmp : DWord)
  | frame (port : Nat) (bytes : List Byte)
  | data (bytes : List Byte)
  | unsupported
  | answered (device req : Nat) (bytes : List Byte)
  | refused (device req : Nat)
  | linkDown
deriving DecidableEq, Repr

/-- A relay message that waits: the traffic of its pair moves to another port once every request on the failed one has been
answered (R397). -/
structure RelayHeld where
  part : Nat
  device : Nat
  toPart : Nat
  bytes : List Byte
deriving DecidableEq, Repr

/-- A relay message that is to be answered: by which port it went, its type, and the walk that it names by the words at 0x04 and
0x1C of its header (R334, R397). -/
structure RelayOpen where
  part : Nat
  device : Nat
  port : Nat
  type : Nat
  origin : Nat
  serial : Nat
deriving DecidableEq, Repr

/-- Which agent moves next: a group, a walk, an event of the opcode table, or the host by an access to BAR0 (R392). -/
inductive Turn where
  | group (g : Nat)
  | walk (w : Nat)
  | event (i : Instr)
  | bar0Read (off n : Nat)
  | bar0Write (off : Nat) (bytes : List Byte)
deriving DecidableEq, Repr

/-- The device. cur and curWalk name the group and the walk that the step runs and curN the n of the code line it fetched:
the model's own. mem is local memory by physical address; dir and copies are keyed by line; keyTag by byte; tlbs
by translation unit (R362): 4·core, 4·quad + 1, 4·context + 2 for the dispatcher; stamps the time at which each 64-byte code
line was last written (R40), keyed by address / 64, for a system address of location k with k·2^42 added; l2 the lines that
the home slices hold (R269), by line; nodeMiss the lines that the node cache has asked for (R318). -/
structure State where
  agenda : List Turn
  flight : List Instr
  tick : Nat
  now : Nat
  nextId : Nat
  off : Bool
  cur : Nat
  curWalk : Nat
  curN : Nat
  groups : Tbl Group
  teams : Tbl Team
  clusters : Tbl Cluster
  cores : Tbl Core
  quads : Tbl Quad
  walks : Tbl Walk
  parts : Tbl Part
  ctxs : Tbl Ctx
  grids : Tbl Grid
  mem : List Host.Cell
  dir : Tbl Dir
  nodeLines : List Nat
  nodeMiss : List Nat
  copies : Tbl HomeCopy
  l2 : List Nat
  stamps : Tbl Nat
  poison : List Poison
  keyTag : Tbl Nat
  tlbs : Tbl (List TlbEnt)
  mails : Tbl Mail
  remotes : Tbl Remote
  relayHeld : List RelayHeld
  relayOpen : List RelayOpen
  ports : Tbl Port
  mgmt : Mgmt
  out : List Out
deriving DecidableEq, Repr

/-! What an unlisted key of each table reads as. -/

def Path.none : Path :=
  { id := 0, pc := 0, mask := 0, since := .none, failed := .none, served := [], asked := [], under := [], waits := false,
    issued := .none }

def Win.none : Win := { base := 0, ext := 0 }

def Conv.none : Conv := { mask := 0, armed := false }

def Group.none : Group :=
  { live := false, team := 0, num := 0, slot := 0, nv := 0, ns := 0, nw := 0, runOff := 0, v := [], vtag := [], s := [],
    p := [], win := [], xtag := [], uninit := false, prec := [], round := [], fflags := [], xb := 0, ssp := 0, xmap := [],
    carry := 0, frames := [], depth := 0, spills := [], c := [], run := Path.none, ready := [], parked := [], turn := 0,
    nextPath := 1, handler := Option.none, tcause := 0, tval := 0, tpc := 0, taddr := 0, wtimeout := 0, sup := false,
    reports := [], deferred := Option.none, monitor := Option.none, lastAcq := 0, barT := .idle, barX := .idle,
    passed := 0, halted := false }

def Cq.none : Cq := { held := 0, chunks := [], skip := 0, ovf := false }

def Team.none : Team :=
  { live := false, part := 0, core := 0, grid := 0, index := 0, cluster := 0, age := 0, base := 0, d := 0, t := 0, g := 0,
    groups := [], nsem := 0, sems := [], tvec := 0, enables := 0, wspill := 0, cqs := [], phase := 0, arrivedX := false }

def Cluster.none : Cluster :=
  { live := false, rect := 0, teams := [], hurdle := false, openRect := Option.none, arrived := [], phase := 0 }

def Ring.none : Ring :=
  { bound := false, team := 0, base := 0, slots := 0, size := 0, sem := 0, produce := 0, consume := 0, filled := 0,
    freed := 0, skipped := 0, overflow := false, tooLong := false, semSat := false, dropped := 0, gap := 0, epoch := 0,
    unbinding := false }

/-- A core as a new partition context finds it (R15, R29): tiles +0.0, mew 1. -/
def Core.none : Core :=
  { scr := [], tiles := [], mew := 1, specmiss := 0, seq := 0, locks := [], tileQ := [], copyQ := [], runQ := [],
    wcmds := [], intake := [], lastWalk := 63, serials := [], rings := [], wuaCfg := Option.none, wuaStat := 0, batons := [],
    l1 := [], halted := false, engineUse := [] }

def Quad.none : Quad :=
  { running := Option.none, staged := false, own := Option.none, buf := [], cursor := 0, rows := 0, ptr := 0, count := 0,
    turnW := 0, ahead := Option.none, wuaRun := Option.none, wuaTurn := 0, stream := [], streamErr := Option.none }

def WalkBody.none : WalkBody := { qb := [], w := [], stack := [], pc := 0 }

def Prog.none : Prog := { code := 0, words := 0, descs := [], since := 0 }

def Walk.none : Walk :=
  { live := false, wait := .ready, qb := [], w := [], nb := [], stack := [], resident := 0, emits := [],
    cp := WalkBody.none, due := Option.none, pc := 0, queue := 0, team := 0, group := 0, lane := 0, seq := 0, pid := 0, prog := Prog.none,
    serial := 0, cancel := false, hosted := Option.none, acq := 0, served := [] }

def Dir.none : Dir := { st := .i, sharers := [], node := false, owner := 0, busy := Option.none, waiting := [] }

def HomeCopy.none : HomeCopy := { data := [], filled := 0 }

def Mail.none : Mail :=
  { live := false, reserved := false, who := .notice, part := 0, ctx := 0, box := 0, size := 0, ticket := 0, posted := false, kind := 0,
    level := 0, reason := 0, address := 0, access := 0, grid := 0, team := 0, wher := 0, pc := 0, entry := 0, seqno := 0 }

def Remote.none : Remote :=
  { live := false, who := .notice, part := 0, grid := 0, loc := 0, addr := 0, n := 0, write := Option.none, atomic := Option.none, tval := 0,
    va := 0, entry := 0, port := 0, sent := false, stale := false }

def Grid.none : Grid :=
  { live := false, part := 0, ctx := 0, id := 0, rec_ := [], desc := [], prio := 0, age := 0, st := .accepted, placed := 0,
    retired := 0, pager := false, noSignal := false, sector := Option.none, hit := false, polled := 0, since := 0, served := [] }

def Queue.none : Queue := { base := 0, ctl := 0, head := 0, tail := 0, stat := 0, served := [] }

def Ctx.none : Ctx := { pagerq := 0, progs := [], intake := [], turn := 0, hasRun := false, resumed := 0 }

def Part.none : Part :=
  { pastat := 0, paerr := 0, pacfg := 0, pamem := 0, papool := 0, paimg := 0, key := Option.none, keyGen := false,
    queues := [], cqfree := 0, ptbase0 := 0, ptbase1 := 0, pgcfg := 0, live := 0, swap := Option.none, closing := false, tlbreq := 0,
    tlbdone := 0, tlbq := [], mcstat := 0, mccount := 0, mcaddr := 0, mcgrid := 0, peermap := [], peerrej := [],
    ualrej := 0, pushref := [], pushins := [], rlyctl := [], rlyhost := [], hostTurn := 0, nextAge := 0, gridCount := 0,
    served := [] }

def Port.none : Port :=
  { ctl := 0, link := false, lock := 0, fcint := 0, cw := 0, cwcor := 0, cwunc := 0, crc := 0, stale := 0, hold := 0,
    strm := [], held := [] }

/-- The management page at device reset: start-up state 0 and measurements 0 (R407, R409); clocks at the rated 2.6 and
2.2 GHz in units of 20 MHz (00_scope.md, Headline figures); all else log 3. -/
def Mgmt.reset : Mgmt :=
  { devnum := 0, ualEnable := [], ualUp := [], ualSec := [], fwstate := 0, fwerr := 0, fwver := 0, fwsvn := Config.fusedSvn,
    fwrecaddr := 0, fwreclen := 0, fwresult := 0, fwcmd := 0, fusemap := 0, dumpbase := 0, dumpstat := 0, eccor := [], pwrnow := 0,
    pwrlim := 0, tempnow := 0, coreClk := 130, meshClk := 110, spdmctl := 0, fwmr := [], spdmbuf := List.replicate 2048 0,
    flash := Option.none, image := Option.none, flashing := Option.none, flashTorn := false, leaf := 0, atomicEnable := false,
    ide := [], session := 0, largeOut := [], chunkOut := 0, largeIn := [], chunkIn := 0,
    keyReply := none }

/-- The device right after device reset (R407): start-up state 0, no partition assigned, nothing running. -/
def State.reset : State :=
  { agenda := [], flight := [], tick := 0, now := 0, nextId := 1, off := false, cur := 0, curWalk := 0, curN := 0, groups := [],
    teams := [], clusters := [], cores := [], quads := [], walks := [], parts := [], ctxs := [], grids := [], mem := [],
    dir := [], nodeLines := [], nodeMiss := [], copies := [], l2 := [], stamps := [], poison := [], keyTag := [], tlbs := [], mails := [], remotes := [], relayHeld := [], relayOpen := [], ports := [],
    mgmt := Mgmt.reset, out := [] }

end Sys2Proof.Machine
end

