-- ==== Sys2Proof/Machine/Table.lean ====
section
/-! DEFINITION. Reading and writing sparse tables; bytes of a little-endian value. -/
namespace Sys2Proof.Machine

open Sys2Proof

/-- The first entry of key k. -/
def Tbl.find {α : Type} (t : Tbl α) (k : Nat) : Option α :=
  match t with
  | [] => none
  | (j, v) :: r => if j = k then some v else Tbl.find r k

/-- Key k of table t, whose unlisted keys read as d. -/
def Tbl.get {α : Type} (d : α) (t : Tbl α) (k : Nat) : α :=
  match Tbl.find t k with
  | some v => v
  | none => d

/-- t with key k listed with v, keys kept rising. -/
def Tbl.put {α : Type} (t : Tbl α) (k : Nat) (v : α) : Tbl α :=
  match t with
  | [] => [(k, v)]
  | (j, w) :: r =>
    if k < j then (k, v) :: (j, w) :: r
    else if j = k then (k, v) :: r
    else (j, w) :: Tbl.put r k v

/-- t without key k. -/
def Tbl.erase {α : Type} (t : Tbl α) (k : Nat) : Tbl α :=
  t.filter fun e => !(e.1 == k)

/-- t with key k reading as v, no entry being equal to d: the canonical form. -/
def Tbl.set {α : Type} [DecidableEq α] (d : α) (t : Tbl α) (k : Nat) (v : α) : Tbl α :=
  if v = d then Tbl.erase t k else Tbl.put t k v

/-- Keys strictly rising from lo. -/
def Tbl.risingFrom {α : Type} (lo : Nat) (t : Tbl α) : Bool :=
  match t with
  | [] => true
  | (j, _) :: r => decide (lo ≤ j) && Tbl.risingFrom (j + 1) r

/-- The canonical form: keys strictly rising and no entry equal to d. -/
def Tbl.wf {α : Type} [DecidableEq α] (d : α) (t : Tbl α) : Bool :=
  Tbl.risingFrom 0 t && t.all fun e => decide (e.2 ≠ d)

/-- Drops the keys from lo to hi - 1: they read as the unlisted value. -/
def Tbl.clear {α : Type} (t : Tbl α) (lo hi : Nat) : Tbl α :=
  t.filter fun e => decide (e.1 < lo) || decide (hi ≤ e.1)

/-- What a byte of local memory that nothing has written reads as (log 4). -/
def Memory.unlisted : Byte := 0

abbrev Memory := List Host.Cell

/-- One byte of local memory. -/
def Memory.read (m : Memory) (a : Nat) : Byte := Tbl.get Memory.unlisted m a

/-- Local memory with one byte written. -/
def Memory.write (m : Memory) (a : Nat) (b : Byte) : Memory := Tbl.set Memory.unlisted m a b

/-- The canonical form of local memory. -/
def Memory.wf (m : Memory) : Bool := Tbl.wf Memory.unlisted m

/-- n bytes from address a of a byte table, lowest address first. -/
def Tbl.bytes (t : Tbl Byte) (a n : Nat) : List Byte :=
  match n with
  | 0 => []
  | k + 1 => Tbl.get 0 t a :: Tbl.bytes t (a + 1) k

/-- A byte table with bytes written from address a upward. -/
def Tbl.setBytes (t : Tbl Byte) (a : Nat) (bs : List Byte) : Tbl Byte :=
  match bs with
  | [] => t
  | b :: r => Tbl.setBytes (Tbl.set 0 t a b) (a + 1) r

/-- The little-endian value of bytes (R6). -/
def leValue (bs : List Byte) : Nat :=
  match bs with
  | [] => 0
  | b :: r => b.toNat + 256 * leValue r

/-- The n little-endian bytes of v (R6). -/
def leBytes (n v : Nat) : List Byte :=
  match n with
  | 0 => []
  | k + 1 => BitVec.ofNat 8 v :: leBytes k (v / 256)

/-- Bits hi to lo of x (R6). -/
def bits (x hi lo : Nat) : Nat := x / 2 ^ lo % 2 ^ (hi + 1 - lo)

/-- The value of the low w bits of x read as two's complement. -/
def signedOf (w x : Nat) : Int :=
  if x % 2 ^ w < 2 ^ (w - 1) then (x % 2 ^ w : Nat) else (x % 2 ^ w : Nat) - (2 ^ w : Nat)

/-- An integer modulo 2^w. -/
def wrapTo (w : Nat) (x : Int) : Nat := (x % (2 ^ w : Nat)).toNat

/-- The lanes of a mask, ascending. -/
def lanesOf (m : Mask) : List Nat := (List.range 32).filter fun l => m.getLsbD l

/-- The mask of one lane. -/
def laneBit (l : Nat) : Mask := BitVec.ofNat 32 (2 ^ l)

/-- The mask of the lanes for which f holds. -/
def maskOf (f : Nat → Bool) : Mask :=
  (List.range 32).foldl (fun m l => if f l then m ||| laneBit l else m) 0

/-- Element i of a list, or d. -/
def nthD {α : Type} (d : α) (l : List α) (i : Nat) : α :=
  match l, i with
  | [], _ => d
  | a :: _, 0 => a
  | _ :: r, k + 1 => nthD d r k

/-- n divided by k and rounded up. -/
def ceilDiv (n k : Nat) : Nat := (n + k - 1) / k

end Sys2Proof.Machine
end

