-- ==== Sys2Proof/Machine/Access.lean ====
section
/-! DEFINITION. Reaching the holders of state, the registers of a group, local memory, and translation (R358-R361). -/
namespace Sys2Proof.Machine

open Sys2Proof

/-! Holders (R9). -/

def State.group (s : State) (g : Nat) : Group := Tbl.get Group.none s.groups g
def State.setGroup (s : State) (g : Nat) (x : Group) : State := { s with groups := Tbl.put s.groups g x }
def State.team (s : State) (t : Nat) : Team := Tbl.get Team.none s.teams t
def State.setTeam (s : State) (t : Nat) (x : Team) : State := { s with teams := Tbl.put s.teams t x }
def State.cluster (s : State) (c : Nat) : Cluster := Tbl.get Cluster.none s.clusters c
def State.setCluster (s : State) (c : Nat) (x : Cluster) : State := { s with clusters := Tbl.put s.clusters c x }
def State.core (s : State) (c : Nat) : Core := Tbl.get Core.none s.cores c
def State.setCore (s : State) (c : Nat) (x : Core) : State := { s with cores := Tbl.put s.cores c x }
def State.quad (s : State) (q : Nat) : Quad := Tbl.get Quad.none s.quads q
def State.setQuad (s : State) (q : Nat) (x : Quad) : State := { s with quads := Tbl.put s.quads q x }
def State.walk (s : State) (w : Nat) : Walk := Tbl.get Walk.none s.walks w
def State.setWalk (s : State) (w : Nat) (x : Walk) : State := { s with walks := Tbl.put s.walks w x }
def State.part (s : State) (b : Nat) : Part := Tbl.get Part.none s.parts b
def State.setPart (s : State) (b : Nat) (x : Part) : State := { s with parts := Tbl.put s.parts b x }
def State.queue (s : State) (b n : Nat) : Queue := Tbl.get Queue.none (s.part b).queues n
def State.setLq (s : State) (b n : Nat) (q : Queue) : State :=
  s.setPart b { s.part b with queues := Tbl.put (s.part b).queues n q }
def Queue.enabled (q : Queue) : Bool := q.ctl.getLsbD 8
def Queue.stopped (q : Queue) : Bool := q.stat.getLsbD 8
def State.ctx (s : State) (k : Nat) : Ctx := Tbl.get Ctx.none s.ctxs k
def State.setCtx (s : State) (k : Nat) (x : Ctx) : State := { s with ctxs := Tbl.put s.ctxs k x }
def State.grid (s : State) (g : Nat) : Grid := Tbl.get Grid.none s.grids g
def State.setGrid (s : State) (g : Nat) (x : Grid) : State := { s with grids := Tbl.put s.grids g x }
def State.mail (s : State) (m : Nat) : Mail := Tbl.get Mail.none s.mails m
def State.setMail (s : State) (m : Nat) (x : Mail) : State := { s with mails := Tbl.put s.mails m x }
def State.remote (s : State) (m : Nat) : Remote := Tbl.get Remote.none s.remotes m
def State.setRemote (s : State) (m : Nat) (x : Remote) : State := { s with remotes := Tbl.put s.remotes m x }
def State.port (s : State) (p : Nat) : Port := Tbl.get Port.none s.ports p
def State.setPort (s : State) (p : Nat) (x : Port) : State := { s with ports := Tbl.put s.ports p x }
def State.dirOf (s : State) (l : Nat) : Dir := Tbl.get Dir.none s.dir l
def State.setDir (s : State) (l : Nat) (x : Dir) : State := { s with dir := Tbl.put s.dir l x }

/-- Core number of logical (lx, ly) in a context. -/
def coreOf (ctx lx ly : Nat) : Nat := 256 * ctx + 16 * ly + lx
def coreX (c : Nat) : Nat := c % 16
def coreY (c : Nat) : Nat := c / 16 % 16
def coreCtx (c : Nat) : Nat := c / 256
/-- The partition of a core (R5). -/
def corePart (c : Nat) : Nat := coreX c / 4
/-- The key of a core's partition context. -/
def ctxKeyOf (c : Nat) : Nat := 2 * corePart c + coreCtx c

/-- The group that the step runs, its team and core. -/
def State.cg (s : State) : Group := s.group s.cur
def State.setCg (s : State) (x : Group) : State := s.setGroup s.cur x
def State.ct (s : State) : Team := s.team s.cg.team
def State.setCt (s : State) (x : Team) : State := s.setTeam s.cg.team x
def State.coreId (s : State) : Nat := s.ct.core
def State.cc (s : State) : Core := s.core s.coreId
def State.setCc (s : State) (x : Core) : State := s.setCore s.coreId x
def State.partId (s : State) : Nat := s.ct.part
def State.ctxKey (s : State) : Nat := ctxKeyOf s.coreId

/-- Physical row of the fused site of a column, from the published map (R2, R413). -/
def State.fusedRow (s : State) (px : Nat) : Nat := s.mgmt.fusemap.toNat / 16 ^ px % 16

/-- Physical row of logical (lx, ly) (R3). -/
def State.physRow (s : State) (lx ly : Nat) : Nat := if ly < s.fusedRow lx then ly else ly + 1

/-- `%quad` of a core (R4). -/
def State.quadOf (s : State) (c : Nat) : Nat := 4 * coreX c + s.physRow (coreX c) (coreY c) / 4

/-- Key of a core's quad in its context. -/
def State.quadKey (s : State) (c : Nat) : Nat := 64 * coreCtx c + s.quadOf c

/-- The live cores of a quad key by ascending physical row (R264). -/
def State.quadCores (s : State) (k : Nat) : List Nat :=
  ((List.range 15).map fun ly => coreOf (k / 64) (k % 64 / 4) ly).filter fun c => s.quadOf c == k % 64

/-! Free values and choices (log 2, log 5). -/

/-- The free value of the next draw. -/
def State.free (s : State) : Nat := Config.freeValue s.tick
def State.choose (s : State) : Nat := Config.choice s.tick
def State.drawn (s : State) : State := { s with tick := s.tick + 1 }

def State.emit (s : State) (o : Out) : State := { s with out := s.out ++ [o] }
def State.post (s : State) (i : Instr) : State := { s with flight := s.flight ++ [i] }

/-! Registers of a group. -/

def Group.vreg (g : Group) (r l : Nat) : Word := Tbl.get 0 g.v (32 * r + l)
def Group.vTagged (g : Group) (r l : Nat) : Bool := Tbl.get false g.vtag (32 * r + l)
/-- Writes a v register of a lane with its tag. -/
def Group.setVT (g : Group) (r l : Nat) (w : Word) (tag : Bool) : Group :=
  { g with v := Tbl.set 0 g.v (32 * r + l) w, vtag := Tbl.set false g.vtag (32 * r + l) tag }
def Group.sreg (g : Group) (r : Nat) : Word := Tbl.get 0 g.s r
def Group.setS (g : Group) (r : Nat) (w : Word) : Group := { g with s := Tbl.set 0 g.s r w }
/-- A predicate's lanes; p0 is true (R14). -/
def Group.pred (g : Group) (r : Nat) : Mask := if r = 0 then 0xFFFFFFFF else Tbl.get 0 g.p r
/-- Writes the predicate in the given lanes; p0 discards the write (R14). -/
def Group.setP (g : Group) (r : Nat) (lanes val : Mask) : Group :=
  if r = 0 then g else { g with p := Tbl.set 0 g.p r ((g.pred r &&& ~~~lanes) ||| (val &&& lanes)) }
/-- A window-area word of a lane. -/
def Group.winWord (g : Group) (w l : Nat) : Word := Tbl.get 0 g.win (32 * w + l)
def Group.setWin (g : Group) (w l : Nat) (x : Word) : Group := { g with win := Tbl.set 0 g.win (32 * w + l) x }
def Group.xwin (g : Group) (x : Nat) : Win := Tbl.get Win.none g.xmap x
def Group.conv (g : Group) (c : Nat) : Conv := Tbl.get Conv.none g.c c
def Group.setConv (g : Group) (c : Nat) (x : Conv) : Group := { g with c := Tbl.set Conv.none g.c c x }
def Group.precOf (g : Group) (l : Nat) : Nat := (Tbl.get 39 g.prec l).toNat
def Group.roundOf (g : Group) (l : Nat) : Nat := (Tbl.get 0 g.round l).toNat
def Group.sticky (g : Group) (l : Nat) : Nat := (Tbl.get 0 g.fflags l).toNat

/-- The lanes of a guard (R43). -/
def Group.guarded (g : Group) (gd : Guard) : Mask :=
  g.run.mask &&& (if gd.neg then ~~~(g.pred gd.pred.toNat) else g.pred gd.pred.toNat)

/-- The lowest lane of a mask, 0 for none. -/
def lowLane (m : Mask) : Nat :=
  match lanesOf m with
  | [] => 0
  | l :: _ => l

/-! Local memory in bytes (R6, R171). -/

def readBytes (m : Memory) (a n : Nat) : List Byte :=
  match n with
  | 0 => []
  | k + 1 => Memory.read m a :: readBytes m (a + 1) k

def writeBytes (m : Memory) (a : Nat) (bs : List Byte) : Memory :=
  match bs with
  | [] => m
  | b :: r => writeBytes (Memory.write m a b) (a + 1) r

/-- A write of one instruction or command: physical address and bytes. -/
structure Put where
  addr : Nat
  data : List Byte
deriving DecidableEq, Repr

def putAll (m : Memory) (ps : List Put) : Memory :=
  match ps with
  | [] => m
  | p :: r => putAll (writeBytes m p.addr p.data) r

/-- Whether the writes cover every byte from lo to lo + n - 1 (R352). -/
def covers (ps : List Put) (lo n : Nat) : Bool :=
  (List.range n).all fun i => ps.any fun p => decide (p.addr ≤ lo + i) && decide (lo + i < p.addr + p.data.length)

/-- The 32-byte sectors that the writes touch. -/
def putSectors (ps : List Put) : List Nat :=
  (ps.map fun p => (List.range ((p.addr + p.data.length + 31) / 32 - p.addr / 32)).map fun i => p.addr / 32 + i).flatten

/-- The path at the head of the ready list becomes running when none is (R257). -/
def Group.fill (g : Group) : Group :=
  if g.run.mask = 0 then
    match g.ready with
    | [] => { g with run := Path.none }
    | p :: r => { g with run := p, ready := r, turn := 0 }
  else g

/-- Parked paths that match join the tail of the ready list (R257), in the order in which they parked where one event releases
several: DESIGN CHOICE, R106 gives no order (log 68). In handler mode those of the stopped paths join the list they resume
with (R342). -/
def Group.wakeWhere (hit : Parked → Bool) (g : Group) : Group :=
  let woken (l : List Parked) : List Path := (l.filter hit).map fun q => q.path
  let left (l : List Parked) : List Parked := l.filter fun q => !hit q
  let h := g.handler.map fun h => { h with ready := h.ready ++ woken h.parked, parked := left h.parked }
  { g with ready := g.ready ++ woken g.parked, parked := left g.parked, handler := h }.fill

def Parked.isWaitm (q : Parked) : Bool :=
  match q.why with
  | .waitm _ _ => true
  | _ => false

/-- The group's parked paths, the stopped ones of handler mode included. -/
def Group.allParked (g : Group) : List Parked :=
  g.parked ++ (match g.handler with
    | some h => h.parked
    | Option.none => [])

/-- A waitm path completed with its cause in s[d] (R109). -/
def Group.wakeMonitor (g : Group) (cause : Nat) : Group :=
  let g1 := g.allParked.foldl
    (fun (x : Group) q => match q.why with
      | .waitm d _ => x.setS d.toNat (BitVec.ofNat 32 cause)
      | _ => x) g
  { g1 with monitor := Option.none }.wakeWhere Parked.isWaitm

/-- Whether a group's context is in the cores: that of the other context, its monitor with it, stands in shadow storage
(R356). -/
def State.inCore (s : State) (g : Group) : Bool := (s.part (s.team g.team).part).live == coreCtx (s.team g.team).core

/-- Completes the waitm of every group whose monitor watches a sector written (R109, cause 1), and notes the write for
the grids whose wait counter lies there (R248). -/
def State.wakeSectors (s : State) (secs : List Nat) : State :=
  { s with
    groups := s.groups.map fun e =>
      match e.2.monitor with
      | some m => if secs.contains m && s.inCore e.2 then (e.1, e.2.wakeMonitor 1) else e
      | none => e
    grids := s.grids.map fun e =>
      match e.2.sector with
      | some m => if secs.contains m then (e.1, { e.2 with hit := true }) else e
      | none => e }

/-- The tag of a byte whose sector was last written under another key than the byte was: it holds no defined value under
any key (R403). -/
def lostKey : Nat := 9

/-- The code lines that writes touch take the time of the writes (R40). -/
def stampLines (t : Tbl Nat) (base now : Nat) (ps : List Put) : Tbl Nat :=
  ps.foldl
    (fun t p => (List.range ((p.addr + p.data.length + 63) / 64 - p.addr / 64)).foldl
      (fun t i => Tbl.put t ((base + p.addr) / 64 + i) now) t) t

/-- The key tags of the bytes of the sectors that writes under a key touch: the bytes written carry the key, and a byte
beside them that carried another is lost (R403). -/
def retag (t : Tbl Nat) (key : Nat) (ps : List Put) : Tbl Nat :=
  if key = 0 ∧ t = [] then []
  else
    (putSectors ps).foldl
      (fun t k => (List.range 32).foldl
        (fun t i =>
          let a := 32 * k + i
          if covers ps a 1 then Tbl.set 0 t a key
          else if Tbl.get 0 t a = key then t else Tbl.set 0 t a lostKey) t) t

/-- Performs the writes of one instruction or command on local memory: the bytes, the errors they clear (R352), the
key they are written under (R403) and the monitors they wake (R109). -/
def State.putKeyed (s : State) (key : Nat) (ps : List Put) : State :=
  let secs := putSectors ps
  { s with
    mem := putAll s.mem ps,
    poison := s.poison.filter fun q => match q with
      | .mem k => !covers ps (32 * k) 32
      | .l2 k => !covers ps (32 * k) 32
      | _ => true,
    stamps := stampLines s.stamps 0 s.now ps,
    keyTag := retag s.keyTag key ps }.wakeSectors secs

/-- The key tag of an access through a leaf: 0 plaintext, else one more than the partition (R403). -/
def keyOf (b leaf : Nat) : Nat := if bits leaf 49 48 = 1 then b + 1 else 0

/-- Whether the bytes were all written under the key (R403); unwritten memory carries key 0. -/
def State.keyMatches (s : State) (key a n : Nat) : Bool :=
  (List.range n).all fun i => Tbl.get 0 s.keyTag (a + i) == key

/-- The key that the sector of an address was last written under. -/
def State.sectorKey (s : State) (a : Nat) : Nat :=
  (((List.range 32).map fun i => Tbl.get 0 s.keyTag (32 * (a / 32) + i)).find? fun k => k != lostKey).getD 0

/-- n bytes read under a key: what they hold, or free bytes where they were written under another (R403). -/
def State.readKeyed (s : State) (key a n : Nat) : List Byte :=
  if s.keyMatches key a n then readBytes s.mem a n
  else (List.range n).map fun i =>
    if Tbl.get 0 s.keyTag (a + i) = key then Memory.read s.mem (a + i) else Config.staleByte s.tick (a + i)

/-- Whether a byte of the range lies in a sector with an uncorrectable error, of memory or of a dirty line in L2 (R276). -/
def State.memPoisoned (s : State) (a n : Nat) : Bool :=
  s.poison.any fun q => match q with
    | .mem k => decide (a < 32 * k + 32) && decide (32 * k < a + n)
    | .l2 k => decide (a < 32 * k + 32) && decide (32 * k < a + n)
    | _ => false

/-- A page-table entry, read in plaintext. -/
def State.entryAt (s : State) (a : Nat) : Nat := leValue (s.readKeyed 0 a 8)

/-! Partition memory (R402). -/

def State.partBase (s : State) (b : Nat) : Nat := (s.part b).pamem.toNat % 256 * 2 ^ 30
def State.partSize (s : State) (b : Nat) : Nat := ((s.part b).pamem.toNat / 256 % 256 + 1) * 2 ^ 30
def State.poolSize (s : State) (b : Nat) : Nat := (s.part b).papool.toNat % 65536 * 4096
def State.poolBase (s : State) (b : Nat) : Nat := s.partBase b + s.partSize b - s.poolSize b

/-- Whether n bytes at a lie in the partition's mappable memory. -/
def State.mappable (s : State) (b a n : Nat) : Bool :=
  decide (s.partBase b ≤ a) && decide (a + n ≤ s.partBase b + s.partSize b - s.poolSize b)

def State.confidential (s : State) (b : Nat) : Bool := (s.part b).pacfg.getLsbD 0

/-! Translation (R358-R361). -/

/-- What an access needs of its page: r, w, x; class checks of an atomic (R185) and its system scope; plain marks the
forms that location 3 admits, and sup a supervisor group (R361). -/
structure Need where
  r : Bool
  w : Bool
  x : Bool
  atomic : Bool
  sys : Bool
  plain : Bool
  sup : Bool
deriving DecidableEq, Repr

def Need.read : Need := ⟨true, false, false, false, false, false, false⟩
def Need.write : Need := ⟨false, true, false, false, false, false, false⟩
def Need.both : Need := ⟨true, true, false, false, false, false, false⟩
def Need.fetch : Need := ⟨false, false, true, false, false, false, false⟩

/-- Page size of a leaf at a level (R358). -/
def pageSize (lvl : Nat) : Nat := if lvl = 1 then 2 ^ 31 else if lvl = 2 then 2 ^ 24 else 2 ^ 17

/-- The index of an address at a level (R358). -/
def levelIndex (va lvl : Nat) : Nat :=
  match lvl with
  | 0 => bits va 47 40
  | 1 => bits va 39 31
  | 2 => bits va 30 24
  | _ => bits va 23 17

/-- Malformed entries: step 3 of R360 and key ids 2 and 3 of R403. -/
def entryMalformed (e lvl : Nat) (confidential : Bool) : Bool :=
  let leaf := bits e 1 1 == 1
  bits e 63 50 != 0 || bits e 11 11 != 0 || (!leaf && (bits e 49 48 != 0 || bits e 10 2 != 0)) ||
    bits e 6 5 == 3 || (leaf && lvl == 0) || (!leaf && lvl == 3) ||
    (leaf && (if confidential then decide (2 ≤ bits e 49 48) else bits e 49 48 != 0))

def frameOf (e : Nat) : Nat := bits e 47 12 * 4096

/-- The layout of `%tval` for memory faults (R174, R340). -/
def accessWord (loc kind op scope size : Nat) (cls : Bool) : Nat :=
  2 ^ 18 * loc + (if cls then 2 ^ 17 else 0) + 4096 * kind + 256 * op + 8 * scope + size

/-- Permission checks of R361 and R185 on a leaf. -/
def leafCheck (e : Nat) (n : Need) : Option Xlat :=
  let loc := bits e 8 7
  let cls := bits e 6 5
  if (n.r && bits e 2 2 == 0) || (n.w && bits e 3 3 == 0) || (n.x && bits e 4 4 == 0) then some (.perm loc false)
  else if loc = 3 ∧ (n.sup && n.plain) = false then some (.perm loc false)
  else if n.atomic && (cls == 2 || (cls == 1 && n.sys)) then some (.perm loc true)
  else none

/-- The walk from level lvl at table t; fuel counts the levels left. -/
def State.walkTable (s : State) (b va : Nat) (n : Need) (lvl t : Nat) : Nat → Xlat
  | 0 => .fault lvl 1 0
  | fuel + 1 =>
    let at_ := t + 8 * levelIndex va lvl
    let e := s.entryAt at_
    if s.memPoisoned at_ 8 then .bad
    else if bits e 0 0 = 0 then .fault lvl 0 e
    else if entryMalformed e lvl (s.confidential b) then .fault lvl 1 e
    else if bits e 1 1 = 0 then
      if s.mappable b (frameOf e) 4096 then s.walkTable b va n (lvl + 1) (frameOf e) fuel
      else .fault lvl 2 e
    else
      let size := pageSize lvl
      if frameOf e % size ≠ 0 then .fault lvl 1 e
      else if bits e 8 7 = 0 ∧ s.mappable b (frameOf e) size = false then .fault lvl 2 e
      else if bits e 8 7 = 3 ∧ (frameOf e ≠ 0 ∨ bits e 49 48 ≠ 0) then .fault lvl 1 e
      else
        match leafCheck e n with
        | some x => x
        | none => .ok (bits e 8 7) (frameOf e + va % size) at_ e size

/-- Translation of a virtual address of a partition context (R358, R360). -/
def State.translate (s : State) (b ctx va : Nat) (n : Need) : Xlat :=
  let base := if ctx = 0 then (s.part b).ptbase0.toNat else (s.part b).ptbase1.toNat
  if base % 2 = 0 then .fault 0 0 0
  else if s.mappable b (bits base 47 12 * 4096) 4096 then s.walkTable b (va % 2 ^ 48) n 0 (bits base 47 12 * 4096) 4
  else .fault 0 2 0

/-! TLBs (R362). A translation may use an entry that its units hold although the tables have changed since (log 12). -/

def coreUnit (cid : Nat) : Nat := 4 * cid
def quadUnit (qk : Nat) : Nat := 4 * qk + 1
def dispUnit (ctxKey : Nat) : Nat := 4 * ctxKey + 2

def State.tlb (s : State) (u : Nat) : List TlbEnt := Tbl.get [] s.tlbs u

/-- What the units hold for an address. -/
def State.tlbHit (s : State) (us : List Nat) (va : Nat) : Option TlbEnt :=
  (us.flatMap s.tlb).find? fun e => va / e.size * e.size == e.page

/-- The translation that an entry gives; none where its permissions fail, and the tables are read again (R362). -/
def TlbEnt.xlat (e : TlbEnt) (va : Nat) (n : Need) : Option Xlat :=
  match leafCheck e.leaf.toNat n with
  | none => some (.ok (bits e.leaf.toNat 8 7) (frameOf e.leaf.toNat + va % e.size) e.at_ e.leaf.toNat e.size)
  | some _ => none

/-- Translation through TLBs: by a held entry or from the tables, a free choice for each page. -/
def State.translateVia (s : State) (us : List Nat) (b ctx va : Nat) (n : Need) : Xlat :=
  match s.tlbHit us (va % 2 ^ 48) with
  | some e =>
    if s.choose.testBit (va % 2 ^ 48 / 2 ^ 17) then (e.xlat (va % 2 ^ 48) n).getD (s.translate b ctx va n)
    else s.translate b ctx va n
  | none => s.translate b ctx va n

/-- A unit of the given capacity takes a complete leaf translation, for a free choice of one that it drops (log 9). -/
def State.fillTlb (s : State) (u cap va : Nat) (x : Xlat) : State :=
  match x with
  | .ok _ _ at_ leaf size =>
    let page := va % 2 ^ 48 / size * size
    let l := (s.tlb u).filter fun e => !(e.page == page && e.size == size)
    let l1 := if cap ≤ l.length then l.eraseIdx (s.choose % l.length) else l
    { s with tlbs := Tbl.put s.tlbs u (⟨page, size, BitVec.ofNat 64 leaf, at_⟩ :: l1) }
  | _ => s

/-- Units of a core's groups, in the order they are asked, and of its engines and walks. -/
def State.coreUnits (s : State) (cid : Nat) : List Nat := [coreUnit cid, quadUnit (s.quadKey cid)]
def State.engineUnits (s : State) (cid : Nat) : List Nat := [quadUnit (s.quadKey cid)]

/-- Capacities (R362): 64 entries and 2048. -/
def State.fillCore (s : State) (cid va : Nat) (x : Xlat) : State :=
  (s.fillTlb (coreUnit cid) 64 va x).fillTlb (quadUnit (s.quadKey cid)) 2048 va x
def State.fillQuad (s : State) (cid va : Nat) (x : Xlat) : State := s.fillTlb (quadUnit (s.quadKey cid)) 2048 va x

/-- Sets the accessed bit, and the dirty bit for a write, in the leaf entries (R360). -/
def State.markLeaf (s : State) (x : Xlat) (w : Bool) : State :=
  match x with
  | .ok _ _ at_ _ _ =>
    let e := s.entryAt at_
    let e' := e ||| 512 ||| (if w then 1024 else 0)
    if e' = e then s else s.putKeyed 0 [⟨at_, leBytes 8 e'⟩]
  | _ => s

def State.markLeaves (s : State) (xs : List Xlat) (w : Bool) : State := xs.foldl (fun t x => t.markLeaf x w) s

/-! Scratchpad bytes of a core (R20), by physical byte. -/

def Core.scrBytes (c : Core) (a n : Nat) : List Byte := Tbl.bytes c.scr a n
def Core.setScr (c : Core) (a : Nat) (bs : List Byte) : Core := { c with scr := Tbl.setBytes c.scr a bs }

def putScr (c : Core) (ps : List Put) : Core := ps.foldl (fun x p => x.setScr p.addr p.data) c

/-- Performs writes on a core's scratchpad, clearing the errors they overwrite whole (R352). -/
def State.putScratch (s : State) (cid : Nat) (ps : List Put) : State :=
  { s.setCore cid (putScr (s.core cid) ps) with
    poison := s.poison.filter fun q => match q with
      | .scr c k => !(c == cid && covers ps (8 * k) 8)
      | _ => true }

def State.scrPoisoned (s : State) (cid a n : Nat) : Bool :=
  s.poison.any fun q => match q with
    | .scr c k => c == cid && decide (a < 8 * k + 8) && decide (8 * k < a + n)
    | _ => false

/-- The system scope's atomic path (R400): whether a path carries an atomic. -/
def State.carries (s : State) (b loc sysAddr : Nat) (op : AtomOp) (isRed : Bool) (scope : Scope) : Bool :=
  match loc with
  | 0 => true
  | 1 =>
    let pm := Tbl.get 0 (s.part b).peermap (sysAddr / 2 ^ 45)
    !(pm.getLsbD 8 && scope == .s)
  | 2 => s.mgmt.atomicEnable && (if isRed then op == .add else (op == .add || op == .xchg || op == .cas))
  | _ => false

/-! Causes (R339). -/

def causeIllegal : Nat := 0x01
def causeLine : Nat := 0x02
def causeMisalignedReg : Nat := 0x03
def causeRegRange : Nat := 0x04
def causeUninit : Nat := 0x05
def causePrec : Nat := 0x06
def causeVpFormat : Nat := 0x07
def causeFp : Nat := 0x08
def causePage : Nat := 0x10
def causePerm : Nat := 0x11
def causeAtomic : Nat := 0x12
def causeMisaligned : Nat := 0x13
def causeData : Nat := 0x14
def causeScratch : Nat := 0x15
def causeBaton : Nat := 0x16
def causeAcc : Nat := 0x20
def causeLocked : Nat := 0x21
def causeSparse : Nat := 0x22
def causeEngine : Nat := 0x23
def causeSem : Nat := 0x24
def causeTrapInsn : Nat := 0x38
def causeBreak : Nat := 0x39

/-- Whether a partition's live context is ctx and it runs: assigned, not stopped (R352), not in a swap (R355), its grids not
ended by firmware (R402). -/
def State.runsCtx (s : State) (b ctx : Nat) : Bool :=
  let p := s.part b
  p.pastat == 2 && p.live == ctx && p.swap.isNone && !p.closing

end Sys2Proof.Machine
end

