-- ==== Sys2Proof/Machine/Cache.lean ====
section
/-! DEFINITION. The lines of local memory that L1s and home slices hold (R269-R271, R293, R294): what an L1 serves at once, what
it asks its home for, and what an access at the home waits for (R297). Data stands in local memory throughout (log 8). -/
namespace Sys2Proof.Machine

open Sys2Proof

/-! Lines of an L1. -/

def State.l1State (s : State) (cid line : Nat) : Option L1State :=
  ((s.core cid).l1.find? fun e => e.line == line).map fun e => e.st

def Core.setL1 (c : Core) (line : Nat) (st : Option L1State) : Core :=
  let rest := c.l1.filter fun e => e.line != line
  match st with
  | some x => { c with l1 := rest ++ [⟨line, x⟩] }
  | Option.none => { c with l1 := rest }

def State.l1Set (s : State) (cid line : Nat) (st : L1State) : State := s.setCore cid ((s.core cid).setL1 line (some st))

/-- The errors of an L1's words in a line are gone (R276, R303). -/
def State.l1Forget (s : State) (cid line : Nat) : State :=
  { s with poison := s.poison.filter fun q => match q with
      | .l1 c w => !(c == cid && w / 16 == line)
      | _ => true }

/-- Whether a word of n bytes at a holds an error in an L1 (R276). -/
def State.l1Error (s : State) (cid a n : Nat) : Bool :=
  s.poison.any fun q => match q with
    | .l1 c w => c == cid && decide (a < 8 * w + 8) && decide (8 * w < a + n)
    | _ => false

/-- A line has left the L1 of a core: monitors on its sectors complete with cause 2 (R109). -/
def State.lineLeft (s : State) (cid line : Nat) : State :=
  { s with groups := s.groups.map fun e =>
      match e.2.monitor with
      | some m => if m / 4 = line ∧ (s.team e.2.team).core = cid then (e.1, e.2.wakeMonitor 2) else e
      | none => e }

/-- A line of an L1 becomes invalid. -/
def State.l1Clear (s : State) (cid line : Nat) : State :=
  (s.setCore cid ((s.core cid).setL1 line none)).l1Forget cid line

/-- An L1 drops a line: it has left. -/
def State.l1Drop (s : State) (cid line : Nat) : State := (s.l1Clear cid line).lineLeft cid line

/-- Whether the home takes copies of a line back for a write. -/
def State.takenForWrite (s : State) (line : Nat) : Bool :=
  match (s.dirOf line).busy with
  | some (_, .grant _ excl _) => excl
  | some (_, .push _ _ _ _) => true
  | some (_, .perform _) => true
  | some (_, .hold _ write _ _) => write
  | _ => false

/-- The home has taken a line from an L1. Of one taken for a write R109 does not say which wake comes, that of the line's leaving
(cause 2) or that of the write (cause 1), which follows: a free choice (DESIGN CHOICE, log 76). -/
def State.lineTaken (s : State) (cid line : Nat) : State :=
  if s.takenForWrite line && s.free % 2 == 0 then s else s.lineLeft cid line

/-- The ways of the set of a line that are in use (R270: set from physical address [13:7]; lines in EI or MI have left
it). -/
def Core.ways (c : Core) (line : Nat) : List L1Line :=
  c.l1.filter fun e => e.line % 128 == line % 128 && e.st != .ei && e.st != .mi

/-- Evicts a line (R293): clean copies silently, E and M through their notice. -/
def State.l1Evict (s : State) (cid : Nat) (e : L1Line) : State :=
  match e.st with
  | .e => ((s.l1Set cid e.line .ei).post (.homeEvictionNotice cid e.line false)).lineLeft cid e.line
  | .m => ((s.l1Set cid e.line .mi).post (.homeEvictionNotice cid e.line true)).lineLeft cid e.line
  | _ => s.l1Drop cid e.line

/-- The lines that may be evicted: none that a request holds. -/
def evictable (ws : List L1Line) : List L1Line :=
  ws.filter fun e => e.st == .s || e.st == .p || e.st == .e || e.st == .m

/-- One of a list of ways, a free choice among them: the spec names no algorithm of pseudo-LRU (R270, log 9). -/
def State.pickWay (s : State) (ws : List L1Line) : L1Line := nthD ⟨0, .s⟩ ws (s.choose % ws.length)

/-- Starts a miss in an L1: a way is freed when the set is full; while requests hold all of them the miss waits. -/
def State.l1Miss (s : State) (cid line : Nat) (st : L1State) (req : Instr) : State :=
  let ws := (s.core cid).ways line
  let vs := evictable ws
  if decide (8 ≤ ws.length) && vs.isEmpty then s
  else ((if 8 ≤ ws.length then s.l1Evict cid (s.pickWay vs) else s).l1Set cid line st).post req

/-- Whether a line holds a clean copy with an error, which is dropped when found (R276, R303). -/
def State.l1Spoilt (s : State) (cid line : Nat) : Bool :=
  (s.l1State cid line == some .s || s.l1State cid line == some .p) && s.l1Error cid (128 * line) 128

/-- Whether a state serves a load, or a store or `atom`, at once (R294). -/
def L1State.hits (st : L1State) (write : Bool) : Bool :=
  match st with
  | .m | .e => true
  | .s | .p | .sm => !write
  | _ => false

/-- Whether an L1 serves an access to a line at once. -/
def State.l1Hit (s : State) (cid line : Nat) (write : Bool) : Bool :=
  !s.l1Spoilt cid line && match s.l1State cid line with
    | some st => st.hits write
    | none => false

/-- What an access sends that the L1 does not serve (R294): nothing while a request for the line is under way. -/
def State.l1Ask (s : State) (cid line : Nat) (write : Bool) : State :=
  let s1 := if s.l1Spoilt cid line then s.l1Drop cid line else s
  match s1.l1State cid line with
  | none => if write then s1.l1Miss cid line .im (.homeGetm cid line) else s1.l1Miss cid line .is_ (.homeGets cid line)
  | some .s => if write then (s1.l1Set cid line .sm).post (.homeGetm cid line) else s1
  | some .p => if write then (s1.l1Set cid line .sm).post (.homeGetm cid line) else s1
  | some _ => s1

/-- A store or an atomic in the L1: E becomes M silently (R293). -/
def State.l1Dirty (s : State) (cid line : Nat) : State :=
  if s.l1State cid line = some .e then s.l1Set cid line .m else s

/-! At the home (R271, R296, R297). -/

/-- The node cache's slices as one agent of the messages of R292; a line has one slice (R274). -/
def nodeAgent : Nat := 2 ^ 20

/-- The home slice of a line: h(A) of R271. -/
def homeSlice (line : Nat) : Nat :=
  bits line 5 0 ^^^ bits line 11 6 ^^^ bits line 17 12 ^^^ bits line 23 18 ^^^ bits line 29 24 ^^^ bits line 35 30 ^^^
    bits line 40 36

/-- The GDDR7 channel of a physical address, granules of 256 bytes over 16 channels (R276). No rule gives a
channel a state or an effect of its own: it decides only where a sector lies. -/
def memChannel (pa : Nat) : Nat := bits pa 11 8 ^^^ bits pa 15 12 ^^^ bits pa 19 16 ^^^ bits pa 23 20

/-- The agent outside whose access an event is. -/
def outsideOf (i : Instr) : Option AgentId :=
  match i with
  | .hostBar2Read _ _ _ | .hostBar2Write _ _ _ | .hostAtomicop _ _ _ _ _ _ => some .host
  | .peerRequest device _ _ _ _ _ _ => some (.peer device)
  | _ => none

/-- Whether an agent for which a home holds a line still comes for it. -/
def State.comes (s : State) (g : AgentId) (line : Nat) : Bool :=
  match g with
  | .group g => (s.group g).live && (s.group g).run.waits && (s.part (s.team (s.group g).team).part).pastat == 2
  | .copy c seq => s.runsCtx (corePart c) (coreCtx c) && (s.core c).copyQ.any fun x => x.seq == seq && x.started
  | .walk w =>
    s.runsCtx (corePart (w / 64)) (coreCtx (w / 64)) && (s.walk w).live &&
      ((s.walk w).wait == .home line || (s.walk w).wait == .ready)
  | .queue b n => (s.queue b n).enabled && !(s.queue b n).stopped && s.runsCtx b (s.part b).live
  | .grid g =>
    let x := s.grid g
    x.live && (s.runsCtx x.part x.ctx || (s.part x.part).closing || (s.part x.part).pastat == 3)
  | .mail req => (s.mail req).live && s.runsCtx (s.mail req).part (s.mail req).ctx
  | .host => s.flight.any fun i => outsideOf i == some .host
  | .peer d => s.flight.any fun i => outsideOf i == some (.peer d)

/-- Whether an access of an agent that keeps no copy is performed at the home of a line now: a write when no copy is left, a read
when no core owns the line (R297); nothing waits there, or the home has taken the copies back for it and holds the line. -/
def State.homeFree (s : State) (g : AgentId) (line : Nat) (write : Bool) : Bool :=
  let d := s.dirOf line
  (match d.busy with
  | some (_, .held h _) => h == g
  | some _ => false
  | none => d.waiting.isEmpty) && (if write then d.st == .i else d.st != .e)

/-- The request that takes copies of a line back for an agent (R297). -/
def homeRequest (g : AgentId) (part line : Nat) (write : Bool) : Instr :=
  if write then .homeWrite g part (128 * line) [] else .homeRead g part (128 * line) 128

/-- Whether the request is under way. -/
def State.homeAsked (s : State) (g : AgentId) (part line : Nat) (write : Bool) : Bool :=
  let req := homeRequest g part line write
  s.flight.contains req || (s.dirOf line).waiting.contains req || match (s.dirOf line).busy with
    | some (_, .hold h w _ _) => h == g && w == write
    | _ => false

/-- Sends the request unless it is under way. -/
def State.askHome (s : State) (g : AgentId) (part line : Nat) (write : Bool) : State :=
  if s.homeAsked g part line write then s else s.post (homeRequest g part line write)

/-- The lowest line of an access that its home does not yet perform: an agent has its lines held in rising order, so that none
waits for another in a circle. -/
def State.homeHeld (s : State) (g : AgentId) (lines : List Nat) (write : Bool) : Option Nat :=
  ((lines.filter fun k => !s.homeFree g k write).foldl
    (fun (best : Option Nat) k => match best with
      | some b => some (if k < b then k else b)
      | none => some k) none)

/-- The home of a line holds it for no agent any more; what waits there is served before anything else (R296). -/
def State.unhold (s : State) (line : Nat) : State := s.setDir line { s.dirOf line with busy := none }

/-- The homes let go of the lines that they hold for an agent. -/
def State.letGo (s : State) (g : AgentId) (lines : List Nat) : State :=
  lines.foldl
    (fun t k => match (t.dirOf k).busy with
      | some (_, .held h _) => if h = g then t.unhold k else t
      | _ => t) s

/-- Homes let go of the lines for which no agent comes any more. -/
def State.letStale (s : State) : State :=
  s.dir.foldl
    (fun t e => match e.2.busy with
      | some (_, .held h _) => if s.comes h e.1 then t else t.unhold e.1
      | _ => t) s

/-- What an agent does at the homes of some lines: done once they perform it; until then the copies are taken back and it tries
again. -/
def State.atHomes (s : State) (g : AgentId) (part : Nat) (lines : List Nat) (write : Bool) (again : State → State)
    (go : Host.Outcome State Fault Refusal) : Host.Outcome State Fault Refusal :=
  match s.homeHeld g lines write with
  | none =>
    match go with
    | .next t => .next (t.letGo g lines)
    | o => o
  | some k =>
    if s.homeAsked g part k write then .fault .notEnabled
    else .next (again (s.askHome g part k write))

/-- The lines that n bytes from a touch. -/
def linesOf (a n : Nat) : List Nat := (List.range ((a + n + 127) / 128 - a / 128)).map fun i => a / 128 + i

/-! The node cache (R274, R318). -/

/-- Whether the node cache serves a line: a copy with an error is dropped when it is found (R276). -/
def State.nodeHas (s : State) (line : Nat) : Bool := s.nodeLines.contains line && !s.poison.contains (.node line)

/-- Whether a miss can be sent: none for the line is outstanding, and its slice has fewer than 64. -/
def State.nodeCanAsk (s : State) (line : Nat) : Bool :=
  !s.nodeHas line && !s.nodeMiss.contains line &&
    decide ((s.nodeMiss.filter fun k => homeSlice k % 32 == homeSlice line % 32).length < 64)

/-- Asks the home for a line that the node cache does not hold; misses to one line are merged (R318). -/
def State.askNode (s : State) (b line : Nat) : State :=
  if s.nodeCanAsk line then { s with nodeMiss := s.nodeMiss ++ [line] }.post (.nodeCacheFill b line) else s

/-! The lines that a home slice holds (R269). -/

/-- The line of a key of l2 or copies: a system address of the host or a peer hashes as itself (R271). -/
def keyLine (k : Nat) : Nat := k % 2 ^ 41

/-- Whether two lines fall in one set of one home slice: 1024 sets, the index a DESIGN CHOICE (log 69). -/
def sameL2Set (a b : Nat) : Bool :=
  homeSlice (keyLine a) == homeSlice (keyLine b) && keyLine a / 64 % 1024 == keyLine b / 64 % 1024

/-- The lines and home copies in the set of a line. -/
def State.l2Ways (s : State) (k : Nat) : List Nat :=
  (s.l2.filter (sameL2Set k)) ++ (s.copies.filter fun e => sameL2Set k e.1).map fun e => e.1

/-- Whether the slice can take a line without an eviction that sends messages. -/
def State.l2Room (s : State) (k : Nat) : Bool := s.l2.contains k || decide ((s.l2Ways k).length < 24)

/-- Whether a way may be replaced at once: a home copy, or a line of which no copy is recorded. -/
def State.l2Idle (s : State) (k : Nat) : Bool :=
  let d := s.dirOf k
  decide (2 ^ 41 ≤ k) || (d.busy.isNone && d.waiting.isEmpty && d.st == .i)

/-- A line or a home copy leaves its slice. -/
def State.l2Drop (s : State) (k : Nat) : State := { s with l2 := s.l2.filter (· != k), copies := Tbl.erase s.copies k }

/-- The slice makes room for a line without a message, if it can: the way replaced is a free choice (log 9). -/
def State.l2Make (s : State) (k : Nat) : Option State :=
  if s.l2Room k then some s
  else
    match (s.l2Ways k).filter s.l2Idle with
    | [] => none
    | v :: vs => some (s.l2Drop (nthD v (v :: vs) (s.choose % (vs.length + 1))))

end Sys2Proof.Machine
end

