-- ==== Sys2Proof/Machine/Remote.lean ====
section
/-! DEFINITION. Accesses to host and peer memory: paths, home copies and requests (R275, R394-R399). -/
namespace Sys2Proof.Machine

open Sys2Proof

/-- The number of the 128-byte line of a system address at location 1 or 2. -/
def remoteLine (loc sys : Nat) : Nat := loc * 2 ^ 41 + sys / 128

/-- The lines that n bytes touch. -/
def remoteLines (loc sys n : Nat) : List Nat :=
  (List.range ((sys + n + 127) / 128 - sys / 128)).map fun i => remoteLine loc sys + i

/-- Whether UALink port q is up and enabled. -/
def State.portUp (s : State) (q : Nat) : Bool := Tbl.get false s.mgmt.ualUp q

/-- The lowest port in the mask of a `peermap` entry that is up (R397). -/
def State.portIn (s : State) (entry : Word) : Option Nat :=
  ((List.range 4).filter fun q => entry.getLsbD (4 + q) && s.portUp q).head?

/-- The port of a pair. -/
def State.pathFor (s : State) (b d : Nat) : Option Nat := s.portIn (Tbl.get 0 (s.part b).peermap d)

/-- The port that carries what partition b sends to its paired partition of device d (R397): DEDUCED, none while the
partition's own entry is not enabled (log 65). -/
def State.portFor (s : State) (b d : Nat) : Option Nat :=
  if (Tbl.get 0 (s.part b).peermap d).getLsbD 0 then s.pathFor b d else none

/-- The device that a peer address names (R396). -/
def peerOf (sys : Nat) : Nat := bits sys 47 45

/-- A request to the host or a peer that has left. -/
def Remote.away (r : Remote) : Bool := r.live && r.sent && r.loc != 0

/-- Whether a request writes: all that local homes are asked are `bst` and `red`. -/
def Remote.writes (r : Remote) : Bool := r.loc == 0 || r.write.isSome || r.atomic.isSome

/-- A write to the host that has left: it is posted, and only a read behind it shows it performed (R394). -/
def Remote.posted (r : Remote) : Bool := r.away && r.loc == 2 && r.write.isSome

/-- The zero-length read behind them. -/
def Remote.isFlush (r : Remote) : Bool := r.loc == 2 && r.n == 0 && r.write.isNone && r.atomic.isNone

/-- Whether what partition b sends to device d waits: a request in flight on a port of the pair that went down, a relay message that
is to be answered among them, is not yet answered or ended (R397). -/
def State.pairHeld (s : State) (b d : Nat) : Bool :=
  (s.remotes.any fun e => e.2.away && e.2.part == b && e.2.loc == 1 && peerOf e.2.addr == d && !s.portUp e.2.port) ||
    s.relayOpen.any fun o => o.part == b && o.device == d && !s.portUp o.port

/-- Whether an access to location 1 or 2 has a path (R396, R399). -/
def State.reachable (s : State) (b loc sys : Nat) : Bool :=
  loc != 1 ||
    (bits sys 44 37 == 0 && bits sys 47 45 != s.mgmt.devnum.toNat % 8 && (s.portFor b (bits sys 47 45)).isSome)

/-- Whether a home copy may serve a reader whose last system-scope acquire is acq (R275): filled after it, and within
65536 mesh cycles. -/
def State.copyServes (s : State) (acq : Nat) (c : HomeCopy) : Bool :=
  decide (acq < c.filled) && decide ((s.now - c.filled) * s.mgmt.meshClk < 65536 * s.mgmt.coreClk)

/-- A line that answers brought the reader, or that a home copy without an error (R276) serves. -/
def State.lineOf (s : State) (served : List (Nat × List Byte)) (acq line : Nat) : Option (List Byte) :=
  match served.find? (fun e => e.1 == line) with
  | some e => some e.2
  | none =>
    match Tbl.find s.copies line with
    | some c => if s.copyServes acq c && !s.poison.contains (.copy line) then some c.data else none
    | none => none

/-- The lines of an access that are still to be read. -/
def State.linesMissing (s : State) (served : List (Nat × List Byte)) (acq loc sys n : Nat) : List Nat :=
  (remoteLines loc sys n).filter fun l => (s.lineOf served acq l).isNone

/-- n bytes of a system address from the lines at hand. -/
def State.remoteBytes (s : State) (served : List (Nat × List Byte)) (acq loc sys n : Nat) : List Byte :=
  (List.range n).map fun i =>
    nthD 0 ((s.lineOf served acq (remoteLine loc (sys + i))).getD []) ((sys + i) % 128)

/-- A request for one line, or an atomic at an address: the lane it serves and the trap that a refusal gives (R399). -/
structure Ask where
  lane : Nat
  loc : Nat
  addr : Nat
  tval : Nat
  va : Nat
  atomic : Option AskAtomic
deriving DecidableEq, Repr

/-- Bytes that the answer of a request holds: a line, or an atomic's old value. -/
def Ask.size (a : Ask) : Nat :=
  match a.atomic with
  | some x => if x.size = .n64 ∨ x.size = .s64 then 8 else 4
  | none => 128

/-- A saturating count. -/
def bump (w : Word) : Word := if w = 0xFFFFFFFF then w else w + 1

/-- Counts a refused request of the partition (R397, R399). -/
def State.countRefused (s : State) (b : Nat) : State := s.setPart b { s.part b with ualrej := bump (s.part b).ualrej }

/-- Home copies with written bytes (R275). -/
def updateCopies (t : Tbl HomeCopy) (loc sys : Nat) (bs : List Byte) : Tbl HomeCopy :=
  t.map fun e =>
    if (remoteLines loc sys bs.length).contains e.1 then
      let base := (e.1 - loc * 2 ^ 41) * 128
      (e.1, { e.2 with data := (e.2.data.zip (List.range 128)).map fun x =>
        if sys ≤ base + x.2 ∧ base + x.2 < sys + bs.length then nthD 0 bs (base + x.2 - sys) else x.1 })
    else e

/-- The lines of host or peer memory that a request reaches. -/
def Remote.lines (r : Remote) : List Nat := remoteLines r.loc r.addr r.n

/-- Reads of these lines that are in flight bring bytes older than the partition's write, and fill no copy (R275, R289). -/
def State.outdate (s : State) (lines : List Nat) : State :=
  { s with remotes := s.remotes.map fun e =>
      if e.2.write.isNone && e.2.atomic.isNone && e.2.lines.any lines.contains then (e.1, { e.2 with stale := true }) else e }

/-- What a write or an atomic does to the home copies when it reaches the home slice (R275): a write updates them, an atomic,
whose result the owner holds, drops them. -/
def State.reachHome (s : State) (r : Remote) : State :=
  match r.atomic, r.write with
  | some _, _ => { s.outdate r.lines with copies := s.copies.filter fun e => !r.lines.contains e.1 }
  | none, some bs =>
    { s.outdate r.lines with
      copies := updateCopies s.copies r.loc r.addr bs
      stamps := stampLines s.stamps (r.loc * 2 ^ 48) s.now [⟨r.addr, bs⟩] }
  | none, none => s

/-- What the request sends (R394, R395). -/
def Remote.out (r : Remote) (req : Nat) : Out :=
  match r.atomic with
  | some x => .atomic req r.loc r.port r.addr x.op x.size x.operand x.cmp
  | Option.none => .remote req r.loc r.port r.addr r.n r.write

/-- The request leaves, by the port of its pair, under the entry that governs it (R397). -/
def State.sendNow (s : State) (req : Nat) : State :=
  let r := s.remote req
  let r1 := { r with sent := true, port := if r.loc = 1 then (s.portIn r.entry).getD 0 else 0 }
  ((s.reachHome r).setRemote req r1).emit (r1.out req)

/-- The grid for which a requester makes an access, 0 where there is none (R249). -/
def State.gridOf (s : State) (who : Who) : Nat :=
  match who with
  | .path g _ _ => (s.team (s.group g).team).grid
  | .store g => (s.team (s.group g).team).grid
  | .copy c seq =>
    match (s.core c).copyQ.find? fun x => x.seq == seq with
    | some x => (s.team x.team).grid
    | none => 0
  | .walk w => (s.team (s.walk w).team).grid
  | .grid g => g
  | _ => 0

/-- A request is entered, to be sent later: the `peermap` entry that stands now governs it (R397). -/
def State.enter (s : State) (r : Remote) : State :=
  { s.setRemote s.nextId
      { r with
        live := true, grid := s.gridOf r.who,
        entry := if r.loc = 1 then Tbl.get 0 (s.part r.part).peermap (peerOf r.addr) else 0 } with nextId := s.nextId + 1 }

/-- Whether the traffic of the pair that a request belongs to waits. -/
def State.heldBack (s : State) (r : Remote) : Bool := r.loc == 1 && s.pairHeld r.part (peerOf r.addr)

/-- A request is entered and sent, unless the traffic of its pair waits. -/
def State.send (s : State) (r : Remote) : State :=
  if s.heldBack r then s.enter r else (s.enter r).sendNow s.nextId

/-- The requests that may leave, oldest first. -/
def State.unsent (s : State) : List Nat :=
  (s.remotes.filter fun e => e.2.live && e.2.loc != 0 && !e.2.sent && !s.heldBack e.2).map fun e => e.1

/-- The oldest n of these leave: when a write reaches its home is a matter of time alone (R189, log 70). -/
def State.sendSome (s : State) (n : Nat) (l : List Nat) : State :=
  match l with
  | [] => s
  | r :: rest => (r :: rest).take n |>.foldl State.sendNow s

/-- The request is answered. -/
def State.dropRemote (s : State) (req : Nat) : State := { s with remotes := Tbl.erase s.remotes req }

/-- The request of an Ask of partition b. -/
def Ask.request (a : Ask) (b : Nat) (who : Nat → Who) : Remote :=
  { Remote.none with
    who := who a.lane, part := b, loc := a.loc, addr := a.addr, n := a.size, atomic := a.atomic,
    tval := BitVec.ofNat 32 a.tval, va := BitVec.ofNat 48 a.va }

/-- Sends a request for partition b. -/
def State.askOne (s : State) (b : Nat) (who : Nat → Who) (a : Ask) : State := s.send (a.request b who)

def State.askAll (s : State) (b : Nat) (who : Nat → Who) (l : List Ask) : State := l.foldl (fun t a => t.askOne b who a) s

/-- The keys these requests get. -/
def State.askIds (s : State) (l : List Ask) : List Nat := (List.range l.length).map fun i => s.nextId + i

/-- A write of bytes by partition b to the host or a peer: who waits for its answer. -/
def writeRequest (b : Nat) (who : Who) (loc sys : Nat) (bs : List Byte) (tval va : Nat) : Remote :=
  { Remote.none with
    who := who, part := b, loc := loc, addr := sys, n := bs.length, write := some bs, tval := BitVec.ofNat 32 tval,
    va := BitVec.ofNat 48 va }

/-! Writes to the host are posted and get no answer: a zero-length read behind them shows that they are performed (R394). -/

/-- Whether a write to the host that has left, of one of those whom f names, is not known to be performed. -/
def State.hostWrites (s : State) (f : Who → Bool) : Bool := s.remotes.any fun e => e.2.posted && f e.2.who

def State.flushing (s : State) (b : Nat) : Bool := s.remotes.any fun e => e.2.live && e.2.who == .flush b

/-- The writes of partition b to the host that have not left leave, in order. -/
def State.sendHostWrites (s : State) (b : Nat) : State :=
  ((s.remotes.filter fun e => e.2.live && !e.2.sent && e.2.loc == 2 && e.2.part == b && e.2.write.isSome).map fun e =>
    e.1).foldl State.sendNow s

/-- Sends the zero-length read behind the writes of partition b: all that it has made before have left. -/
def State.askFlush (s : State) (b : Nat) : State :=
  if s.flushing b then s else (s.sendHostWrites b).send { Remote.none with who := .flush b, part := b, loc := 2 }

/-- The writes to the host of partition b that left before the read did are performed. -/
def State.flushed (s : State) (b req : Nat) : State :=
  { s with remotes := s.remotes.filter fun e => !(e.2.posted && e.2.part == b && decide (e.1 < req)) }

/-- An event that waits for writes to the host sends the read that shows them performed. -/
def State.orFlush (s : State) (b : Nat) (f : Who → Bool) : Host.Outcome State Fault Refusal :=
  if s.hostWrites f && !s.flushing b then .next (s.askFlush b) else .fault .notEnabled

end Sys2Proof.Machine
end

