-- ==== Sys2Proof/Machine/Mailbox.lean ====
section
/-! DEFINITION. The fault mailbox (R346-R350): where it lies, how a message comes into it, and the notices that expect no reply
(R189, R199, R249, R351). -/
namespace Sys2Proof.Machine

open Sys2Proof

/-! The fault mailbox (R346-R350). -/

/-- A place in a mailbox: its physical address, the key of its page and the translation. -/
structure MailAt where
  pa : Nat
  key : Nat
  x : Xlat

/-- Place of a virtual address in a mailbox page: local memory with read and write permission and atomic class 0. -/
def State.mailAddr (s : State) (b ctx va : Nat) : Option MailAt :=
  let x := s.translate b ctx va ⟨true, true, false, false, false, true, true⟩
  match x with
  | .ok 0 pa _ leaf _ => if bits leaf 6 5 = 0 then some ⟨pa, keyOf b leaf, x⟩ else none
  | _ => none

/-- A word of a mailbox; a write by the device to it, performed at its home. -/
def State.mailRead (s : State) (p : MailAt) (off n : Nat) : Nat := leValue (s.readKeyed p.key (p.pa + off) n)
def State.mailWrite (s : State) (p : MailAt) (l : List Put) : State := (s.markLeaf p.x true).putKeyed p.key l

inductive Box where
  | absent
  | unusable
  | ok (va size : Nat)
deriving DecidableEq, Repr

/-- The mailbox of a context: absent when `%pagerq` is 0 (R350). -/
def State.mailbox (s : State) (b ctx : Nat) : Box :=
  let q := (s.ctx (2 * b + ctx)).pagerq.toNat % 2 ^ 48 / 64 * 64
  if (s.ctx (2 * b + ctx)).pagerq = 0 then .absent
  else
    match s.mailAddr b ctx q with
    | none => .unusable
    | some p =>
      let sz := s.mailRead p 8 4 % 16
      if 1 ≤ sz ∧ sz ≤ 10 ∧ (s.mailAddr b ctx (q + 64 + 64 * 2 ^ sz - 1)).isSome then .ok q sz else .unusable

/-- The slot of a message. -/
def State.slotAt (s : State) (m : Mail) : Option MailAt :=
  s.mailAddr m.part m.ctx (m.box + 64 + 64 * (m.ticket % 2 ^ m.size))

/-- Takes a message for the mailbox at va: its ticket and its slot follow by mailboxSlotWrite (R347). The message's key is
s.nextId. -/
def State.postMail (s : State) (m : Mail) (va size : Nat) : State :=
  { s.setMail s.nextId { m with live := true, box := va, size := size, reserved := false, posted := false } with
    nextId := s.nextId + 1 }.post (.mailboxSlotWrite s.nextId)

/-- A notice, which expects no reply: discarded without a usable mailbox (R349, R350). -/
def State.postNotice (s : State) (m : Mail) : State :=
  match s.mailbox m.part m.ctx with
  | .ok va sz => s.postMail { m with who := .notice } va sz
  | _ => s

/-- The where word of a message (R346). -/
def whereWord (cid grp lane : Nat) : Word :=
  BitVec.ofNat 32 (coreX cid + 16 * coreY cid + 256 * (grp % 32) + 65536 * (lane % 32))

/-! Pending engine reports (R199) and deferred faults (R189) of groups that retire. -/

/-- A notice about group g (R346), its address and access words given. -/
def State.groupNotice (s : State) (g kind : Nat) (addr : Nat) (access : Word) (pc : Addr) (seq : Word) : State :=
  let x := s.group g
  let t := s.team x.team
  s.postNotice
    { Mail.none with
      part := t.part, ctx := coreCtx t.core, kind := kind, address := BitVec.ofNat 64 addr, access := access,
      grid := (s.grid t.grid).id, team := BitVec.ofNat 32 t.index, wher := whereWord t.core x.num 0,
      pc := pc.setWidth 64, seqno := seq }

/-- A dropped grid-end notice about the update at an address (R249, R346): loc is that of the leaf that translated it, 3 where no
leaf was reached (R174). -/
def State.droppedNotice (s : State) (gid addr loc : Nat) : State :=
  let x := s.grid gid
  s.postNotice
    { Mail.none with
      part := x.part, ctx := x.ctx, kind := 0x12, address := BitVec.ofNat 64 addr,
      access := BitVec.ofNat 32 (accessWord loc 15 0 0 0 false + 2 ^ 20), grid := x.id }

/-- The access word of an engine report: kind 14, an engine command (R340). Its location is that which ENGINE_FAULT names, 0 for
scratchpad as R174 has it; DESIGN CHOICE: 3 for the other causes, and [20] is 0, since R346 gives a report none (log 71). -/
def Report.access (r : Report) : Nat :=
  let l := bits r.tval.toNat 11 10
  accessWord (if r.cause = causeEngine then (if l = 3 then 0 else l) else 3) 14 0 0 0 false

/-- The notice of an engine report of a group that has retired (R199, R351). -/
def State.reportNotice (s : State) (g : Nat) (r : Report) : State :=
  s.groupNotice g 0x11 r.taddr.toNat (BitVec.ofNat 32 r.access) r.pc r.seq

/-- Adds a report to a group; of a retired one a notice goes to the pager. -/
def State.report (s : State) (g : Nat) (r : Report) : State :=
  let x := s.group g
  if x.live then s.setGroup g { x with reports := x.reports ++ [r] } else s.reportNotice g r

/-- The notice of the deferred fault of a group that retires (R189). -/
def State.deferredNotice (s : State) (g : Nat) : State :=
  match (s.group g).deferred with
  | some d => s.groupNotice g 0x10 d.addr.toNat (d.tval ||| 0x100000) 0 0
  | none => s

/-- What a group that retires leaves behind: its pending reports and its deferred fault go to the pager (R189, R199, R256). -/
def State.lastNotices (s : State) (g : Nat) : State :=
  ((s.group g).reports.foldl (fun t r => t.reportNotice g r) s).deferredNotice g

end Sys2Proof.Machine
end

