-- ==== Sys2Proof/Machine/Message.lean ====
section
/-! DEFINITION. Relay messages: their bytes (R6, R334, R335), and how they are sent (R397). -/
namespace Sys2Proof.Machine

open Sys2Proof

/-! Bytes, little-endian (R6). -/

/-- A completion record as it is stored (R234). -/
def recordBytes (r : Record) : List Byte :=
  leBytes 4 r.w0.toNat ++ leBytes 4 r.w1.toNat ++ leBytes 4 r.w2.toNat ++ leBytes 4 r.w3.toNat

/-- The record that 16 bytes are. -/
def recordOf (bs : List Byte) : Record :=
  let w (i : Nat) : Word := BitVec.ofNat 32 (leValue ((bs.drop (4 * i)).take 4))
  ⟨w 0, w 1, w 2, w 3⟩

/-- A walk body (R334): qb, w1 to w15, and the stack from the oldest entry. -/
def bodyBytes (b : WalkBody) : List Byte :=
  b.qb ++ (b.w.flatMap fun x => leBytes 8 x.toNat) ++ b.stack.flatMap fun x => leBytes 8 x.toNat

/-- The 64-byte header of a message (R334). -/
def headerBytes (type : Nat) (m : RelayMsg) : List Byte :=
  let depth := match m.body with
    | some b => b.stack.length
    | none => 0
  let pc := match m.body with
    | some b => b.pc.toNat
    | none => 0
  leBytes 4 (type + 2 ^ 8 + 2 ^ 16 * depth + 2 ^ 24 * m.answer) ++
    leBytes 4 (m.device + 2 ^ 4 * m.part + 2 ^ 8 * m.core + 2 ^ 16 * m.ctx + 2 ^ 24 * m.queue) ++
    leBytes 4 (m.team + 2 ^ 16 * m.group + 2 ^ 24 * m.lane) ++ leBytes 4 m.program ++ leBytes 8 m.code.toNat ++
    leBytes 4 (m.words - 1) ++ leBytes 4 m.serial.toNat ++ leBytes 8 pc ++ leBytes 8 (m.recs.length + 2 ^ 32 * m.word) ++
    List.replicate 16 0

/-- A whole message. -/
def messageBytes (type : Nat) (m : RelayMsg) : List Byte :=
  headerBytes type m ++ (match m.body with
    | some b => bodyBytes b
    | none => []) ++ m.recs.flatMap recordBytes

/-- Bits [hi:lo] of the 32-bit word at an offset of a message. -/
def fieldAt (bs : List Byte) (off hi lo : Nat) : Nat := bits (leValue ((bs.drop off).take 4)) hi lo

/-- The 64-bit word at an offset. -/
def dwordAt (bs : List Byte) (off : Nat) : DWord := BitVec.ofNat 64 (leValue ((bs.drop off).take 8))

/-- The walk body of a message (R334). -/
def bodyOf (bs : List Byte) : WalkBody :=
  { qb := (bs.drop 64).take 64, w := (List.range 15).map fun i => dwordAt bs (0x80 + 8 * i),
    stack := (List.range (fieldAt bs 0 21 16)).map fun i => dwordAt bs (0xF8 + 8 * i), pc := (dwordAt bs 0x20).setWidth 48 }

/-- The records of a message, in emit order (R334). -/
def recordsOf (bs : List Byte) : List Record :=
  (List.range (fieldAt bs 0x28 7 0)).map fun i => recordOf ((bs.drop (64 + 16 * i)).take 16)

def RelayIn.type (r : RelayIn) : Nat := fieldAt r.bytes 0 7 0

/-- The header and the body of a message that arrived: a walk body in types 1 and 10, records in types 3 and 7 (R334, R335). -/
def RelayIn.msg (r : RelayIn) : RelayMsg :=
  let f := fieldAt r.bytes
  { answer := f 0 31 24, device := f 4 2 0, part := f 4 5 4, core := f 4 13 8, ctx := f 4 21 16, queue := f 4 25 24,
    team := f 8 15 0, group := f 8 20 16, lane := f 8 28 24, program := f 0x0C 5 0, code := dwordAt r.bytes 0x10,
    words := f 0x18 15 0 + 1, serial := BitVec.ofNat 32 (f 0x1C 31 0), word := f 0x2C 31 0,
    body := if RelayIn.type r = 1 ∨ RelayIn.type r = 10 then some (bodyOf r.bytes) else none,
    recs := if RelayIn.type r = 3 ∨ RelayIn.type r = 7 then recordsOf r.bytes else [], src := r.src, srcPart := r.srcPart, port := r.port }

/-- Whether a message is of a type, in the version that R334 gives. -/
def RelayIn.isA (r : RelayIn) (type : Nat) : Bool := RelayIn.type r == type && fieldAt r.bytes 0 15 8 == 1

def RelayMsg.none : RelayMsg :=
  { answer := 0, device := 0, part := 0, core := 0, ctx := 0, queue := 0, team := 0, group := 0, lane := 0, program := 0,
    code := 0, words := 0, serial := 0, word := 0, body := Option.none, recs := [], src := 0, srcPart := 0, port := 0 }

/-- The fields that a message type uses, all others 0 (R334, R335): every type names the walk by its origin context and serial;
DEDUCED, the rest from what its receiver does (log 73). -/
def usedBy (type : Nat) (m : RelayMsg) : RelayMsg :=
  let id := { RelayMsg.none with device := m.device, part := m.part, core := m.core, ctx := m.ctx, serial := m.serial }
  match type with
  | 1 => { id with queue := m.queue, team := m.team, group := m.group, lane := m.lane, program := m.program, code := m.code,
                   words := m.words, body := m.body }
  | 2 => { id with answer := m.answer }
  | 3 => { id with recs := m.recs }
  | 4 => { id with answer := m.answer }
  | 7 => { id with answer := m.answer, word := m.word, recs := m.recs }
  | 10 => { id with body := m.body }
  | 11 => { id with answer := m.answer }
  | _ => id

/-! Sending (R333, R397). -/

/-- The partition of device d paired with partition b (R397). -/
def State.pairedPart (s : State) (b d : Nat) : Nat := (Tbl.get 0 (s.part b).peermap d).toNat / 2 % 4

/-- Whether a type of message is to be answered (R335, R336). -/
def relayAsks (type : Nat) : Bool := type == 1 || type == 3 || type == 8 || type == 9

/-- Whether a message of a type answers one of another: a walk, a release, a recall and a cancel (R336, R337). -/
def relayAnswers (type asked : Nat) : Bool :=
  (type == 2 && asked == 1) || (type == 4 && asked == 3) || (type == 11 && asked == 9) ||
    (asked == 8 && (type == 6 || type == 7 || type == 10))

/-- A message leaves by a port. -/
def State.emitRelay (s : State) (b d part port : Nat) (bs : List Byte) : State :=
  let type := fieldAt bs 0 7 0
  { s with
    relayOpen := if relayAsks type then
      s.relayOpen ++ [RelayOpen.mk b d port type (fieldAt bs 4 21 0) (fieldAt bs 0x1C 31 0)] else s.relayOpen }.emit (.relay d part port bs)

/-- What a message from a peer answers is open no more. -/
def State.heard (s : State) (b : Nat) (r : RelayIn) : State :=
  { s with
    relayOpen := s.relayOpen.filter fun o =>
      !(o.part == b && o.device == r.src && relayAnswers (RelayIn.type r) o.type && o.origin == fieldAt r.bytes 4 21 0 &&
        o.serial == fieldAt r.bytes 0x1C 31 0) }

/-- What a message of a type to partition b has happen. -/
def RelayIn.read (r : RelayIn) (type b : Nat) (s : State) (k : State → RelayMsg → Host.Outcome State Fault Refusal) :
    Host.Outcome State Fault Refusal :=
  if RelayIn.isA r type then k (s.heard b r) (RelayIn.msg r) else .fault .notEnabled

/-- Sends a message by a port, behind those of its pair that wait for requests on a port that went down. -/
def State.sendBytes (s : State) (b d part port : Nat) (bs : List Byte) : State :=
  if s.pairHeld b d || s.relayHeld.any (fun h => h.part == b && h.device == d) then
    { s with relayHeld := s.relayHeld ++ [⟨b, d, part, bs⟩] }
  else s.emitRelay b d part port bs

/-- Sends a message of a partition to its paired partition; with no port up the device is not reachable and R338 applies to the
walk. -/
def State.sendRelay (s : State) (b type d : Nat) (m : RelayMsg) : State :=
  match s.pathFor b d with
  | some q => s.sendBytes b d (s.pairedPart b d) q (messageBytes type (usedBy type m))
  | none => s

/-- The messages that wait no longer are sent, in order. -/
def State.sendHeld (s : State) (l : List RelayHeld) : State :=
  match l with
  | [] => s
  | h :: rest =>
    if s.pairHeld h.part h.device then State.sendHeld { s with relayHeld := s.relayHeld ++ [h] } rest
    else
      match s.pathFor h.part h.device with
      | some q => (s.emitRelay h.part h.device h.toPart q h.bytes).sendHeld rest
      | none => s.sendHeld rest

end Sys2Proof.Machine
end

