-- ==== Sys2Proof/Machine/Check.lean ====
section
/-! DEFINITION. Ending walks, commands and grids: cancellation (R240, R337) and machine checks (R352). -/
namespace Sys2Proof.Machine

open Sys2Proof

/-! Relay messages sent for a walk (R334). -/

/-- Index of a core within its band (R301). -/
def coreIndex (c : Nat) : Nat := 15 * (coreX c % 4) + coreY c

/-- The header of a message of the walk in context w: a local walk names this device, a hosted one its origin. -/
def State.walkMsg (s : State) (w : Nat) : RelayMsg :=
  let x := s.walk w
  let cid := w / 64
  match x.hosted with
  | some o =>
    { RelayMsg.none with device := o.device, part := o.part, core := o.core, ctx := o.ctx, queue := o.queue, team := o.team,
                         group := o.group, lane := o.lane, program := x.pid, serial := o.serial }
  | none =>
    { RelayMsg.none with device := s.mgmt.devnum.toNat % 8, part := corePart cid, core := coreIndex cid, ctx := w % 64,
                         queue := x.queue, team := (s.team x.team).index % 65536, group := (s.group x.group).num,
                         lane := x.lane, program := x.pid, code := x.prog.code.setWidth 64, words := x.prog.words,
                         serial := x.serial }

/-! Walks of a core. -/

/-- A wlaunch has one walk fewer to wait for (R237). -/
def Core.walkEnded (c : Core) (seq : Word) (n : Nat) : Core :=
  { c with wcmds := c.wcmds.map fun x => if x.seq = seq then { x with left := x.left - n } else x }

/-- Frees a context; a local walk counts as ended. -/
def State.freeWalk (s : State) (w : Nat) : State :=
  let x := s.walk w
  let s1 := { s with walks := Tbl.erase s.walks w }
  match x.hosted with
  | some _ => s1
  | none => s1.setCore (w / 64) ((s1.core (w / 64)).walkEnded x.seq 1)

/-- The context numbers of a core that hold a walk. -/
def State.walksOf (s : State) (cid : Nat) : List Nat :=
  (s.walks.filter fun e => e.1 / 64 == cid && e.2.live).map fun e => e.1

/-- Whether a peer may hold the walk (R336). -/
def Walk.relayed (x : Walk) : Option Nat :=
  match x.wait with
  | .away d => some d
  | .answer d => some d
  | _ => Option.none

/-- Cancels the walk in context w: freed at once, or a cancel message, sent once, when a peer may hold it. -/
def State.cancelWalk (s : State) (w : Nat) : State :=
  match (s.walk w).relayed with
  | some d => if (s.walk w).cancel then s else (s.setWalk w { s.walk w with cancel := true }).sendRelay (corePart (w / 64)) 9 d (s.walkMsg w)
  | none => s.freeWalk w

def State.cancelAll (s : State) (ws : List Nat) : State := ws.foldl State.cancelWalk s

/-- The walks a wcancel ends on a core (R240): in contexts, in the intake, and of commands not yet in the intake. -/
structure Doomed where
  contexts : List Nat
  intake : List Intake
  cmds : List WCmd

def State.doomed (s : State) (cid : Nat) (team : Nat) (grp : Option Nat) (queue : Option Nat) : Doomed :=
  let ok := fun (t g q : Nat) =>
    t == team && (match grp with
      | some x => x == g
      | none => true) && (match queue with
      | some x => x == q
      | none => true)
  { contexts := (s.walksOf cid).filter fun w =>
      let x := s.walk w
      x.hosted.isNone && ok x.team x.group x.queue
    intake := (s.core cid).intake.filter fun e => e.hosted.isNone && ok e.team e.group e.queue
    cmds := (s.core cid).wcmds.filter fun c => !c.entered && ok c.team c.group c.queue }

/-- How many walks these are. -/
def Doomed.count (d : Doomed) : Nat :=
  d.contexts.length + d.intake.length + (d.cmds.map fun c => c.queries.length).foldl (· + ·) 0

/-- Ends them. -/
def State.endDoomed (s : State) (cid : Nat) (d : Doomed) : State :=
  let c0 := s.core cid
  let c1 := { c0 with intake := c0.intake.filter fun e => !d.intake.contains e }
  let c2 := d.intake.foldl (fun c e => Core.walkEnded c e.seq 1) c1
  let gone (x : WCmd) : Bool := d.cmds.any fun y => y.seq == x.seq
  let stopCmd (x : WCmd) : WCmd := if gone x then { x with queries := [], left := 0, entered := true } else x
  (s.setCore cid { c2 with wcmds := c2.wcmds.map stopCmd }).cancelAll d.contexts

/-! Commands of a team. -/

/-- Whether an engine runs the command: the Matrix Engine or the Warm-up Array of the core's quad chose it, or the copy
is in progress (R352). -/
def State.cmdRuns (s : State) (cid : Nat) (c : Cmd) : Bool :=
  let q := s.quad (s.quadKey cid)
  match c.op with
  | .copy _ _ _ _ _ _ _ => c.started
  | .run _ => q.wuaRun == some (cid, c.seq)
  | _ => q.running == some (cid, c.seq)

/-- A queue without the team's idle commands; its running ones lose their signal. -/
def State.muteQueue (s : State) (cid team : Nat) (l : List Cmd) : List Cmd :=
  (l.filter fun c => c.team != team || s.cmdRuns cid c).map fun c => if c.team = team then { c with mute := true } else c

def Core.queued (c : Core) : List Cmd := c.tileQ ++ c.copyQ ++ c.runQ

/-- Locks of commands still queued (R200). -/
def Core.trimLocks (c : Core) : Core := { c with locks := c.locks.filter fun l => c.queued.any fun x => x.seq == l.seq }

def State.dropCommands (s : State) (cid team : Nat) : State :=
  let c := s.core cid
  s.setCore cid
    { c with
      tileQ := s.muteQueue cid team c.tileQ
      copyQ := s.muteQueue cid team c.copyQ
      runQ := s.muteQueue cid team c.runQ
      wcmds := c.wcmds.filter fun x => x.team != team }.trimLocks

/-- A group that issues nothing any more. -/
def Group.killed (g : Group) : Group :=
  { g with
    live := false, run := Path.none, ready := [], parked := [], handler := Option.none, reports := [],
    deferred := Option.none, monitor := Option.none }

/-- Ends a team (R352): what its groups leave goes to the pager (R351). -/
def State.killTeam (s : State) (t : Nat) : State :=
  let x := s.team t
  let s1 := x.groups.foldl (fun u g => (u.lastNotices g).setGroup g (u.group g).killed) s
  let s2 := s1.dropCommands x.core t
  s2.endDoomed x.core (s2.doomed x.core t none none)

def State.teamsOf (s : State) (gid : Nat) : List Nat :=
  (s.teams.filter fun e => e.2.live && e.2.grid == gid).map fun e => e.1

/-- Ends a grid with LAUNCH_ABORTED once its teams have retired (R352). -/
def State.abortGrid (s : State) (gid : Nat) : State :=
  let x := s.grid gid
  if x.live then (s.teamsOf gid).foldl State.killTeam (s.setGrid gid { x with st := .ending 5 0 }) else s

/-! Machine checks (R352). -/

/-- Counts a machine check and fills the registers of the first one (R344). -/
def State.noteCheck (s : State) (b ctx source cause addr : Nat) (fatal : Bool) (grid : Word) : State :=
  let p := s.part b
  let n : Half := if p.mccount = 0xFFFF then p.mccount else p.mccount + 1
  let first := p.mcstat.toNat % 256 == 0
  let stat := source + 256 * cause + (if fatal then 65536 else 0) + 131072 * ctx
  let p1 := { p with mccount := n }
  let p2 :=
    if first then { p1 with mcstat := BitVec.ofNat 32 stat, mcaddr := BitVec.ofNat 64 addr, mcgrid := grid } else p1
  (s.setPart b p2).emit (.msix b)

/-- A grid machine check: cause is 0 but for source 4, addr as mcaddr. -/
def State.gridCheck (s : State) (gid source cause addr : Nat) : State :=
  let x := s.grid gid
  (s.noteCheck x.part x.ctx source cause addr false x.id).abortGrid gid

/-- The live grids of a partition context. -/
def State.gridsOf (s : State) (b ctx : Nat) : List Nat :=
  (s.grids.filter fun e => e.2.live && e.2.part == b && e.2.ctx == ctx).map fun e => e.1

end Sys2Proof.Machine
end

