-- ==== Sys2Proof/Machine/Ops.lean ====
section
/-! DEFINITION. Paths and their scheduling (R93-R95, R257), taking an exception and returning from it (R341, R342),
page faults and the fault mailbox (R346-R350), semaphores, releases and the wrapper of every core instruction. -/
namespace Sys2Proof.Machine

open Sys2Proof

def Trap.plain (cause tval taddr : Nat) : Trap := ⟨cause, tval, taddr, none, none⟩
def Trap.onLane (cause tval taddr lane : Nat) : Trap := ⟨cause, tval, taddr, some lane, none⟩

/-- A page fault of a path: lane none for a fetch, access as [19:0] of the message word (R346). -/
structure PageFault where
  lane : Option Nat
  level : Nat
  reason : Nat
  entry : Nat
  addr : Nat
  taddr : Nat
  access : Nat
  writes : Bool
deriving DecidableEq, Repr

/-- A line of local memory with the key under which an access reads it (R403). -/
structure KeyedLine where
  line : Nat
  key : Nat
deriving DecidableEq, Repr

/-- Where a path keeps what it has read of the line. -/
def KeyedLine.at_ (k : KeyedLine) : Nat := 2 ^ 48 * (k.key + 1) + k.line

/-- Why an instruction of a group does not complete in this step. -/
inductive Stop where
  /-- takes a trap (R341) -/
  | trap (t : Trap)
  /-- takes the pending deferred fault (R189) -/
  | deferred (t : Trap)
  /-- page fault (R348) -/
  | page (f : PageFault)
  /-- the path stalls before the instruction issues (R197, R237, R299, R364, R388) -/
  | stall
  /-- the instruction waits for earlier accesses (R187, R188, R284) -/
  | wait
  /-- the path blocks at the instruction and executes it again when it wakes -/
  | block (w : Why)
  /-- the instruction waits for answers (R394) -/
  | ask (asks : List Ask)
  /-- an access to the host or a peer whose path cannot carry it (R399) -/
  | refused (t : Trap)
  /-- a read waits until its L1 serves each of these lines of local memory, read under a key (R294) -/
  | l1 (lines : List KeyedLine)
  /-- the access waits until the home of the line has taken copies of it back (R297) -/
  | home (write : Bool) (line : Nat)
  /-- a release at `.s` asks whether the writes to the host are performed (R394) -/
  | flush
  /-- the leaves of an access are marked before it is made (R360); then the stop -/
  | marked (xs : List Xlat) (write : Bool) (e : Stop)
deriving DecidableEq, Repr

/-- The first stop of a list of checks in order. -/
def firstStop : List (Option Stop) → Option Stop
  | [] => none
  | some e :: _ => some e
  | none :: r => firstStop r

/-- ILLEGAL_OP with a reason of R44, at execution. -/
def illegal (i : Instr) (reason : Nat) : Stop :=
  .trap (Trap.plain causeIllegal (((encode i).headD 0).toNat + 65536 * reason) 0)

/-- ILLEGAL_OP of a lane (R25). -/
def illegalLane (i : Instr) (reason lane : Nat) : Stop :=
  .trap (Trap.onLane causeIllegal (((encode i).headD 0).toNat + 65536 * reason) 0 lane)

/-- some e when the condition holds. -/
def stopIf (c : Bool) (e : Stop) : Option Stop := if c then some e else none

/-! Paths (R93-R95, R257). -/

/-- successor(PC) in the line fetched (R37). -/
def State.succ (s : State) : Addr :=
  let pc := s.cg.run.pc
  if pc.toNat % 64 / 2 < s.curN then pc + 2 else BitVec.ofNat 48 (pc.toNat / 64 * 64 + 66)

/-- The running path with a new PC, nothing left over from the instruction before. -/
def Path.at_ (p : Path) (pc : Addr) : Path := { Path.none with id := p.id, pc := pc, mask := p.mask }

/-- The running path goes on at pc, one more instruction of its turn issued (R94; pathTurnEnd ends the turn). -/
def Group.goOn (g : Group) (pc : Addr) : Group := { g with run := g.run.at_ pc, turn := g.turn + 1 }

/-- The running path gives way: it joins the tail of the ready list (R94, R257). -/
def Group.giveWay (g : Group) : Group := { g with run := Path.none, ready := g.ready ++ [g.run], turn := 0 }.fill

/-- The instruction completes and the path goes on at its successor (R37). -/
def State.advance (s : State) : State := s.setCg (s.cg.goOn s.succ)

/-- The running path ends and the given paths, of non-zero mask, join the ready list in order (R95, R257). -/
def Group.replaceRun (g : Group) (new : List (Addr × Mask)) : Group :=
  let live := new.filter fun e => e.2 != 0
  let paths := (live.zip (List.range live.length)).map fun e =>
    { Path.none with id := g.nextPath + e.2, pc := e.1.1, mask := e.1.2 }
  { g with run := Path.none, ready := g.ready ++ paths, turn := 0, nextPath := g.nextPath + live.length }.fill

/-- When a path's wait began, for the reason it waits now: a `semwait` that looks again keeps its first start (R105). -/
def Path.waitsSince (p : Path) (why : Why) (now : Nat) : Option Nat :=
  match why with
  | .sem _ => some (p.since.getD now)
  | _ => p.since

/-- The running path parks for a reason, its PC as given (R93). -/
def Group.park (g : Group) (why : Why) (pc : Addr) (now : Nat) : Group :=
  let p := { g.run.at_ pc with since := g.run.waitsSince why now }
  { g with run := Path.none, parked := g.parked ++ [Parked.mk p why], turn := 0 }.fill

def State.parkAt (s : State) (why : Why) (pc : Addr) : State := s.setCg (s.cg.park why pc s.now)

/-! Trap entry and return (R341, R342, R113). -/

/-- `%tcause` (R24). -/
def Trap.word (t : Trap) : Word :=
  BitVec.ofNat 32 (t.cause + (match t.lane with
    | some l => 256 * (l % 32) + 8192
    | none => 0))

/-- The group in its handler (R341): the four registers written, the trapped path's mask kept, the other paths stopped,
one path at `%tvec` + 2. -/
def Group.enterHandler (g : Group) (t : Trap) (tvec : DWord) : Group :=
  { g with
    tcause := t.word
    tval := BitVec.ofNat 32 t.tval
    tpc := (t.tpc.getD g.run.pc).setWidth 64
    taddr := BitVec.ofNat 64 (t.taddr % 2 ^ 48)
    handler := some { ret := g.run.mask, ready := g.ready, parked := g.parked }
    run := { Path.none with id := g.nextPath, pc := tvec.setWidth 48 + 2, mask := g.run.mask }
    ready := []
    parked := []
    turn := 0
    nextPath := g.nextPath + 1 }

/-- Takes a trap for the running path of the current group (R341): in handler mode, or without a handler, a grid machine
check of source 4. -/
def State.takeTrap (s : State) (t : Trap) : State :=
  if s.cg.handler.isSome || s.ct.tvec == 0 then
    s.gridCheck s.ct.grid 4 t.cause ((t.tpc.getD s.cg.run.pc).toNat)
  else s.setCg (s.cg.enterHandler t s.ct.tvec)

/-- Handler mode ends: the stopped paths resume in their states, and the given paths join the tail (R342). -/
def Group.leaveHandler (g : Group) (h : Handler) (back : List (Addr × Mask)) : Group :=
  { g with run := Path.none, ready := h.ready, parked := h.parked, handler := Option.none }.replaceRun back

/-- tret (R113, R342): the trapped path returns at `%tpc`. -/
def State.trapReturn (s : State) (h : Handler) : State :=
  s.setCg (s.cg.leaveHandler h [(s.cg.tpc.setWidth 48, h.ret)])

/-! Page faults of paths (R348). -/

/-- The lane field of a path's message, 32 where no lane is named. -/
def laneOr (l : Option Nat) : Nat := l.getD 32

def PageFault.trap (f : PageFault) : Trap := ⟨causePage, f.access, f.taddr, f.lane, none⟩

/-- The message of a path's page fault (R346, R348). -/
def State.faultMail (s : State) (f : PageFault) : Mail :=
  { Mail.none with
    who := .path s.cur s.cg.run.id (laneOr f.lane), part := s.partId, ctx := coreCtx s.coreId, kind := 1,
    level := f.level, reason := f.reason, address := BitVec.ofNat 64 f.addr,
    access := BitVec.ofNat 32 (f.access + if f.writes then 2 ^ 20 else 0), grid := (s.grid s.ct.grid).id,
    team := BitVec.ofNat 32 s.ct.index, wher := whereWord s.coreId s.cg.num (f.lane.getD 0),
    pc := s.cg.run.pc.setWidth 64, entry := BitVec.ofNat 64 f.entry }

/-- A page fault of the running path (R348, R350, R343): the message is posted and the path blocks. -/
def State.pageFault (s : State) (f : PageFault) : State :=
  if s.cg.sup then s.takeTrap f.trap
  else
    match s.mailbox s.partId (coreCtx s.coreId) with
    | .absent => s.takeTrap f.trap
    | .unusable => s.gridCheck s.ct.grid 6 0 f.addr
    | .ok va sz => (s.postMail (s.faultMail f) va sz).parkAt (.mail s.nextId) s.cg.run.pc

/-! Waiting for accesses (R294, R394): the path goes on running, and its group issues nothing (R94). -/

def State.setRun (s : State) (p : Path) : State := s.setCg { s.cg with run := p }

/-- The instruction waits. -/
def State.held (s : State) : State := s.setRun { s.cg.run with waits := true }

/-- The lines that the L1 serves now are read; for the others the L1 asks (R294). -/
def State.waitLines (s : State) (lines : List KeyedLine) : State :=
  let got := lines.filter fun k => s.l1Hit s.coreId k.line false
  let read (k : KeyedLine) : Nat × List Byte := (k.at_, s.readKeyed k.key (128 * k.line) 128)
  let s1 := s.setRun { s.cg.run with served := got.map read ++ s.cg.run.served, waits := true }
  (lines.filter fun k => !got.contains k).foldl (fun t k => t.l1Ask t.coreId k.line false) s1

/-- The instruction waits for the answers to requests. -/
def State.askPath (s : State) (asks : List Ask) : State :=
  (s.setRun { s.cg.run with asked := s.cg.run.asked ++ s.askIds asks, waits := true }).askAll s.partId
    (.path s.cur s.cg.run.id) asks

/-- A zero-length read goes to the host behind the writes of the partition, which leave before it (R394). -/
def State.flushPath (s : State) : State :=
  let s1 := s.sendHostWrites s.partId
  (s1.setRun { s1.cg.run with asked := s1.nextId :: s1.cg.run.asked, waits := true }).send
    { Remote.none with who := .path s1.cur s1.cg.run.id 32, part := s1.partId, loc := 2 }

/-- Effect of a stop. -/
def State.onStop (s : State) : Stop → State
  | .trap t => s.takeTrap t
  | .deferred t => (s.setCg { s.cg with deferred := none }).takeTrap t
  | .page f => s.pageFault f
  | .stall => s
  | .wait => s.held
  | .block w => s.parkAt w s.cg.run.pc
  | .ask asks => s.askPath asks
  | .refused t => (s.countRefused s.partId).takeTrap t
  | .l1 lines => s.waitLines lines
  | .home write line => s.held.askHome (.group s.cur) s.partId line write
  | .flush => s.flushPath
  | .marked xs write e => (s.markLeaves xs write).onStop e

/-- Every meaning of a core instruction: its first stop, or its effect. -/
def groupOp (s : State) (stop : Option Stop) (eff : State) : Host.Outcome State Fault Refusal :=
  match stop with
  | some e => .next (s.onStop e)
  | none => .next eff

/-! Semaphores (R104, R105). -/

def Team.sem (t : Team) (k : Nat) : Half := Tbl.get 0 t.sems k
def Team.setSem (t : Team) (k : Nat) (v : Half) : Team := { t with sems := Tbl.set 0 t.sems k v }

def Parked.onSem (k : Nat) (q : Parked) : Bool := q.why == .sem k

/-- Writes semaphore k of a team; paths blocked on it look again (R105). -/
def State.setSem (s : State) (t k : Nat) (v : Half) : State :=
  let s1 := s.setTeam t ((s.team t).setSem k v)
  (s.team t).groups.foldl (fun u g => u.setGroup g ((u.group g).wakeWhere (Parked.onSem k))) s1

/-- An engine's increment (R198): the saturated sum, and whether it passed 0xFFFF. -/
def State.signalSem (s : State) (t k inc : Nat) : State × Bool :=
  let v := ((s.team t).sem k).toNat + inc
  (s.setSem t k (if v ≤ 0xFFFF then BitVec.ofNat 16 v else 0xFFFF), decide (0xFFFF < v))

/-! Rectangles, scopes and releases (R186-R189). -/

structure Rect where
  x0 : Nat
  y0 : Nat
  x1 : Nat
  y1 : Nat
deriving DecidableEq, Repr

/-- The packing of `%clrect`. -/
def Rect.ofWord (w : Word) : Rect := ⟨bits w.toNat 3 0, bits w.toNat 7 4, bits w.toNat 11 8, bits w.toNat 15 12⟩

def Rect.has (r : Rect) (c : Nat) : Bool :=
  decide (r.x0 ≤ coreX c) && decide (coreX c ≤ r.x1) && decide (r.y0 ≤ coreY c) && decide (coreY c ≤ r.y1)

/-- The check of an `.x` rectangle (R186). -/
def rectOk (b : Nat) (w : Word) : Bool :=
  let r := Rect.ofWord w
  decide (w.toNat < 65536) && decide (r.x0 ≤ r.x1) && decide (r.y0 ≤ r.y1) && decide (r.y1 ≤ 14) &&
    decide (4 * b ≤ r.x0) && decide (r.x1 ≤ 4 * b + 3)

/-- Whether a core lies in a scope of the current group (R186). -/
def State.inScope (s : State) (scope : Scope) (rect : Word) (c : Nat) : Bool :=
  match scope with
  | .g => c == s.coreId
  | .t => c == s.coreId
  | .x => (Rect.ofWord rect).has c
  | .d => true
  | .s => true

/-- Whether a bst of the group still awaits a core of the scope (R192). -/
def State.batonPending (s : State) (scope : Scope) (rect : Word) : Bool :=
  s.cc.batons.any fun b => b.group == s.cur && b.pending.any (s.inScope scope rect)

/-- The next identity when the instruction issued: accesses made before it bear lower ones. -/
def State.issuedAt (s : State) : Nat :=
  match s.cg.run.issued with
  | some x => x.next
  | none => s.nextId

/-- Whether a request is one that a release at a scope waits for (R187): a write or a `red` of the group that its home has not
performed, a `red` that its owner has not; at `.s`, releases being cumulative (R283), every earlier write of the partition that
the host or a peer has not performed. -/
def State.accessOpen (s : State) (scope : Scope) (req : Nat) (r : Remote) : Bool :=
  (r.who == .store s.cur && (r.loc == 0 || !r.sent || r.atomic.isSome)) ||
    (scope == .s && r.part == s.partId && r.writes && !r.posted && !r.who.isPath && decide (req < s.issuedAt))

def State.earlierOpen (s : State) (scope : Scope) : Bool := s.remotes.any fun e => e.2.live && s.accessOpen scope e.1 e.2

/-- Whether a write of the partition to the host, made before the instruction issued, is not known to be performed (R394). -/
def State.earlierPosts (s : State) : Bool :=
  s.remotes.any fun e => e.2.posted && e.2.part == s.partId && decide (e.1 < s.issuedAt)

/-- The release of R187 at a scope: the deferred fault, or a wait until the accesses before it are performed there; at `.s` its
writes to the host are asked for (R394). -/
def State.releaseStop (s : State) (scope : Scope) (rect : Word) : Option Stop :=
  match s.cg.deferred with
  | some d => some (.deferred (Trap.plain causePerm d.tval.toNat d.addr.toNat))
  | none =>
    if s.batonPending scope rect || s.earlierOpen scope then some .wait
    else stopIf (scope == .s && s.earlierPosts) .flush

/-- Notes the time of a system-scope acquire (R275). -/
def State.noteAcquire (s : State) (scope : Scope) (acq : Bool) : State :=
  if acq && scope == .s then s.setCg { s.cg with lastAcq := s.now } else s

def Order.acquires (o : Order) : Bool := o == .acq || o == .ar
def Order.releases (o : Order) : Bool := o == .rel || o == .ar

/-! Range locks (R180, R200). -/

def Lock.meets (l : Lock) (a n : Nat) : Bool := decide (a ≤ l.hi) && decide (l.lo < a + n)

/-- The matching entry of lowest index; dstOnly for lds. -/
def Core.lockAt (c : Core) (a n : Nat) (dstOnly : Bool) : Option Lock :=
  c.locks.foldl
    (fun best l =>
      if l.meets a n && (!dstOnly || l.dst) then
        match best with
        | Option.none => some l
        | some b => if l.idx < b.idx then some l else some b
      else best) Option.none

/-- `%tval` of RANGE_LOCKED (R180). -/
def Lock.tval (l : Lock) : Nat := 256 * (l.seq.toNat % 2 ^ 24) + (if l.dst then 16 else 0) + l.idx

/-- The acquire table's free indices, lowest first (R180: 16 entries). -/
def Core.freeLocks (c : Core) : List Nat := (List.range 16).filter fun i => !(c.locks.any fun l => l.idx == i)

end Sys2Proof.Machine
end

