-- ==== Sys2Proof/Machine/Operands.lean ====
section
/-! DEFINITION. Register operands: the checks of R12, R13, R31 and R276 in the order of R48, reads and writes of lanes. -/
namespace Sys2Proof.Machine

open Sys2Proof

/-- A register operand: its file in the codes of R12, its first register, how many registers it occupies, whether it is a
64-bit pair (R13), whether the instruction reads it (R276) and whether it checks the marker of what it reads (R31). -/
structure Opnd where
  file : Nat
  reg : Nat
  n : Nat
  pair : Bool
  read : Bool
  tags : Bool
deriving DecidableEq, Repr

/-- v operand; wide is a pair. -/
def opV (r : Reg) (wide read : Bool) : Opnd := ⟨0, r.toNat, if wide then 2 else 1, wide, read, read⟩
def opS (r : Reg) (wide read : Bool) : Opnd := ⟨1, r.toNat, if wide then 2 else 1, wide, read, read⟩
def opX (r : Reg) (read : Bool) : Opnd := ⟨2, r.toNat, 1, false, read, read⟩
def opK (r : Reg) : Opnd := ⟨3, r.toNat, 1, false, false, false⟩
/-- A source whose bits the instruction copies or stores with no check of the marker (R31). -/
def Opnd.copied (o : Opnd) : Opnd := { o with tags := false }
/-- A run of v registers (R181, R184, R238). -/
def opRun (r n : Nat) (read : Bool) : Opnd := ⟨0, r, n, false, read, read⟩
/-- A v or s operand of an integer form (R117). -/
def opInt (uni : Bool) (r : Reg) (wide read : Bool) : Opnd := if uni then opS r wide read else opV r wide read

/-- The form of `%tval` for a register (R12): the number in [7:0], of 256 (a run past v255) its low eight bits (DEDUCED, log
24). -/
def regTval (file reg : Nat) : Nat := reg % 256 + 256 * file

/-- MISALIGNED_REG (R13). -/
def Opnd.misaligned (o : Opnd) : Option Stop :=
  stopIf (o.pair && o.reg % 2 == 1) (.trap (Trap.plain causeMisalignedReg (regTval o.file o.reg) 0))

/-- Whether a register lies beyond its count (R12); an x register when its entry has extent 0. -/
def State.beyond (s : State) (file r : Nat) : Bool :=
  match file with
  | 0 => decide (s.cg.nv ≤ r)
  | 1 => decide (s.cg.ns ≤ r)
  | 2 => (s.cg.xwin r).ext == 0
  | _ => decide (s.ct.nsem ≤ r)

/-- REG_RANGE, naming the lowest register beyond the count (R12). -/
def State.rangeStop (s : State) (o : Opnd) : Option Stop :=
  match ((List.range o.n).map fun i => o.reg + i).filter (s.beyond o.file) with
  | [] => none
  | r :: _ => some (.trap (Trap.plain causeRegRange (regTval o.file r) 0))

/-- Whether a lane of a register carries the marker (R30, R31). -/
def Group.tagged (g : Group) (file r l : Nat) : Bool :=
  match file with
  | 0 => g.vTagged r l
  | 2 => (Tbl.get 0 g.xtag r).getLsbD l
  | _ => false

/-- UNINIT_REG at the lowest lane that reads a tagged register (R31). -/
def State.uninitStop (s : State) (lanes : List Nat) (o : Opnd) : Option Stop :=
  if o.tags then
    let regs := (List.range o.n).map fun i => o.reg + i
    match lanes.filter (fun l => regs.any fun r => s.cg.tagged o.file r l) with
    | [] => none
    | l :: _ =>
      let r := (regs.filter fun r => s.cg.tagged o.file r l).headD o.reg
      some (.trap (Trap.onLane causeUninit (regTval o.file r) 0 l))
  else none

/-- Window-area words of an x register. -/
def Group.winRange (g : Group) (x : Nat) : List Nat := (List.range (g.xwin x).ext).map fun j => g.xb + (g.xwin x).base + j

/-- Whether a register read holds an uncorrectable error (R276). -/
def State.regPoisoned (s : State) (lanes : List Nat) (file r : Nat) : Bool :=
  s.poison.any fun q => match q with
    | .vreg g k l => file == 0 && g == s.cur && k == r && lanes.contains l
    | .sreg g k => file == 1 && g == s.cur && k == r
    | .win g k l => file == 2 && g == s.cur && (s.cg.winRange r).contains k && lanes.contains l
    | _ => false

/-- DATA_ERROR of a register operand (R276). -/
def State.poisonStop (s : State) (lanes : List Nat) (o : Opnd) : Option Stop :=
  if o.read && !lanes.isEmpty then
    match ((List.range o.n).map fun i => o.reg + i).filter (s.regPoisoned lanes o.file) with
    | [] => none
    | r :: _ => some (.trap (Trap.plain causeData (2 ^ 31 + regTval o.file r) 0))
  else none

/-- DATA_ERROR of predicates read (R276), file 5. -/
def State.predStop (s : State) (lanes : List Nat) (ps : List Nat) : Option Stop :=
  match ps.filter (fun p => s.poison.contains (.preg s.cur p)) with
  | [] => none
  | p :: _ => stopIf (!lanes.isEmpty) (.trap (Trap.plain causeData (2 ^ 31 + regTval 5 p) 0))

/-- DATA_ERROR of the guard's predicate (R276). -/
def State.guardStop (s : State) (g : Guard) : Option Stop := s.predStop (lanesOf s.cg.run.mask) [g.pred.toNat]

/-- The lanes of a guard, ascending (R43). -/
def State.lanes (s : State) (g : Guard) : List Nat := lanesOf (s.cg.guarded g)

/-- Checks of orders 5 to 7 of R48, then those of R276, which are of order 8; operands by descending tail bits. lanes are
those whose guard is true. -/
def State.operandStop (s : State) (lanes : List Nat) (ops : List Opnd) : Option Stop :=
  firstStop
    [firstStop (ops.map Opnd.misaligned), firstStop (ops.map s.rangeStop), firstStop (ops.map (s.uninitStop lanes)),
      firstStop (ops.map (s.poisonStop lanes))]

/-- The k operands of a synchronisation word, sigk before waitk (R46). -/
def syncOps (y : Sync) : List Opnd :=
  (if y.inc = 0 then [] else [opK y.sigk]) ++ (if y.thr = 0 then [] else [opK y.waitk])

/-- A group-uniform instruction (R43): its register checks whatever the guard; when a guarded lane exists its own checks
and its effect, else nothing. -/
def State.uniform (s : State) (g : Guard) (ops : List Opnd) (own : List (Option Stop)) (eff : State) :
    Host.Outcome State Fault Refusal :=
  let lanes := s.lanes g
  if lanes.isEmpty then groupOp s (firstStop [s.operandStop [] ops, s.guardStop g]) s.advance
  else groupOp s (firstStop (s.operandStop lanes ops :: s.guardStop g :: own)) eff

/-- The ends of the group's stack in the team's scratchpad (R20). -/
def State.stackLo (s : State) : Nat := s.ct.d + s.cg.num * s.ct.t
def State.stackHi (s : State) : Nat := s.ct.d + (s.cg.num + 1) * s.ct.t

/-! Reads. -/

/-- A 64-bit pair, low word in the even register (R13). -/
def Group.vpair (g : Group) (r l : Nat) : Nat := (g.vreg r l).toNat + 2 ^ 32 * (g.vreg (r + 1) l).toNat
def Group.spair (g : Group) (r : Nat) : Nat := (g.sreg r).toNat + 2 ^ 32 * (g.sreg (r + 1)).toNat

def Group.readV (g : Group) (wide : Bool) (r l : Nat) : Nat := if wide then g.vpair r l else (g.vreg r l).toNat
def Group.readS (g : Group) (wide : Bool) (r : Nat) : Nat := if wide then g.spair r else (g.sreg r).toNat

/-- A source of an integer form (R117). -/
def Group.readInt (g : Group) (uni wide : Bool) (r : Reg) (l : Nat) : Nat :=
  if uni then g.readS wide r.toNat else g.readV wide r.toNat l

/-! Writes. -/

def Group.writeLane (g : Group) (r : Nat) (wide : Bool) (l v : Nat) : Group :=
  let g1 := g.setVT r l (BitVec.ofNat 32 v) false
  if wide then g1.setVT (r + 1) l (BitVec.ofNat 32 (v / 2 ^ 32)) false else g1

/-- Writes a v register or pair in lanes. -/
def Group.writeLanes (g : Group) (r : Nat) (wide : Bool) (vals : List (Nat × Nat)) : Group :=
  vals.foldl (fun x e => x.writeLane r wide e.1 e.2) g

/-- Where a lane's value comes from: the register and the lane that hold it. -/
structure Source where
  lane : Nat
  reg : Nat
  from_ : Nat
deriving DecidableEq, Repr

/-- Copies bits and tags (R31), all reads before any write. -/
def Group.copyLane (old : Group) (d : Nat) (wide : Bool) (g : Group) (c : Source) : Group :=
  let g1 := g.setVT d c.lane (old.vreg c.reg c.from_) (old.vTagged c.reg c.from_)
  if wide then g1.setVT (d + 1) c.lane (old.vreg (c.reg + 1) c.from_) (old.vTagged (c.reg + 1) c.from_) else g1

def regCount (wide : Bool) : Nat := if wide then 2 else 1

/-- Drops the errors of words written whole (R276). -/
def State.cleanV (s : State) (r n : Nat) (lanes : List Nat) : State :=
  { s with poison := s.poison.filter fun q => match q with
      | .vreg g k l => !(g == s.cur && decide (r ≤ k) && decide (k < r + n) && lanes.contains l)
      | _ => true }

def State.writeV (s : State) (r : Nat) (wide : Bool) (vals : List (Nat × Nat)) : State :=
  (s.setCg (s.cg.writeLanes r wide vals)).cleanV r (regCount wide) (vals.map fun e => e.1)

/-- Copies into a v register or pair with its tags. -/
def State.copyV (s : State) (d : Nat) (wide : Bool) (cs : List Source) : State :=
  (s.setCg (cs.foldl (s.cg.copyLane d wide) s.cg)).cleanV d (regCount wide) (cs.map fun c => c.lane)

def Group.writeSreg (g : Group) (r : Nat) (wide : Bool) (v : Nat) : Group :=
  let g1 := g.setS r (BitVec.ofNat 32 v)
  if wide then g1.setS (r + 1) (BitVec.ofNat 32 (v / 2 ^ 32)) else g1

def State.writeS (s : State) (r : Nat) (wide : Bool) (v : Nat) : State :=
  { s.setCg (s.cg.writeSreg r wide v) with
    poison := s.poison.filter fun q => match q with
      | .sreg g k => !(g == s.cur && decide (r ≤ k) && decide (k < r + regCount wide))
      | _ => true }

/-- Writes a predicate in lanes; p0 discards it (R14). -/
def State.writeP (s : State) (p : Nat) (lanes val : Mask) : State :=
  { s.setCg (s.cg.setP p lanes val) with
    poison := s.poison.filter fun q => match q with
      | .preg g k => !(g == s.cur && k == p && lanes == 0xFFFFFFFF)
      | _ => true }

/-- An integer destination: the lanes' values, or the one value of a uniform form (R117). -/
def State.writeInt (s : State) (uni wide : Bool) (d : Reg) (vals : List (Nat × Nat)) : State :=
  if uni then
    match vals with
    | [] => s
    | e :: _ => s.writeS d.toNat wide e.2
  else s.writeV d.toNat wide vals

/-- The lanes an instruction acts in (R43): the guarded lanes, or one act when some guarded lane exists. -/
def actLanes (uni : Bool) (lanes : List Nat) : List Nat := if uni then lanes.take 1 else lanes

end Sys2Proof.Machine
end

