-- ==== Sys2Proof/Machine/Integer.lean ====
section
/-! DEFINITION. Integer, address and move instructions (R115-R133). -/
namespace Sys2Proof.Machine

open Sys2Proof

/-- Operand width of a type (R61). -/
def tyBits : Ty → Nat
  | .n8 => 8
  | .s8 => 8
  | .n16 => 16
  | .s16 => 16
  | .n64 => 64
  | .s64 => 64
  | _ => 32

/-- Types held in a pair (R13). -/
def is64 (t : Ty) : Bool := t == .n64 || t == .s64

/-- A value of w bits as its type reads it: sv or nv (R121). -/
def valueOf (sgn : Bool) (w x : Nat) : Int := if sgn then signedOf w x else (x % 2 ^ w : Nat)

/-- The imm16 extended to w bits (R116). -/
def immValue (w : Nat) (imm : BitVec 16) : Nat := wrapTo w imm.toInt

/-! Results on operands of w bits (R121-R126). -/

def intAdd (w a b : Nat) : Nat := (a + b) % 2 ^ w
def intSub (w a b : Nat) : Nat := wrapTo w ((a : Int) - b)
def intMul (w a b : Nat) : Nat := a * b % 2 ^ w
def intMulh (sgn : Bool) (w a b : Nat) : Nat := wrapTo w (valueOf sgn w a * valueOf sgn w b / (2 ^ w : Nat))
def intMin (sgn : Bool) (w a b : Nat) : Nat := if valueOf sgn w b < valueOf sgn w a then b else a
def intMax (sgn : Bool) (w a b : Nat) : Nat := if valueOf sgn w a < valueOf sgn w b then b else a
def intAbs (w a : Nat) : Nat := wrapTo w (signedOf w a).natAbs

/-- Division with the exceptional cases of R122. -/
def intDiv (sgn : Bool) (w a b : Nat) : Nat :=
  if b % 2 ^ w = 0 then (if sgn && decide (signedOf w a < 0) then 1 else 2 ^ w - 1)
  else wrapTo w (Int.tdiv (valueOf sgn w a) (valueOf sgn w b))

def intRem (sgn : Bool) (w a b : Nat) : Nat :=
  if b % 2 ^ w = 0 then a else wrapTo w (Int.tmod (valueOf sgn w a) (valueOf sgn w b))

def intNot (w a : Nat) : Nat := 2 ^ w - 1 - a % 2 ^ w

/-- Shifts by the whole amount (R123). -/
def intShl (w a n : Nat) : Nat := if w ≤ n then 0 else a * 2 ^ n % 2 ^ w
def intShr (w a n : Nat) : Nat := if w ≤ n then 0 else a % 2 ^ w / 2 ^ n
def intSra (w a n : Nat) : Nat :=
  if w ≤ n then (if signedOf w a < 0 then 2 ^ w - 1 else 0) else wrapTo w (signedOf w a / (2 ^ n : Nat))

/-- Bit counts (R124). -/
def intClz (w a : Nat) : Nat := if a % 2 ^ w = 0 then w else w - 1 - Nat.log2 (a % 2 ^ w)
def intCtz (w a : Nat) : Nat := ((List.range w).find? fun i => a.testBit i).getD w
def intPopc (w a : Nat) : Nat := ((List.range w).filter fun i => a.testBit i).length
def intBrev (w a : Nat) : Nat := (List.range w).foldl (fun r i => if a.testBit (w - 1 - i) then r + 2 ^ i else r) 0

/-- Bit fields (R125). -/
def intBfx (sgn : Bool) (w a pos len : Nat) : Nat :=
  let l := if len ≤ w then len else w
  let f := wrapTo l (valueOf sgn w a / (2 ^ pos : Nat))
  if l = 0 then 0 else if sgn then wrapTo w (signedOf l f) else f

def intBfi (w a b pos len : Nat) : Nat :=
  let l := if len ≤ w then len else w
  let mask := (2 ^ l - 1) * 2 ^ pos % 2 ^ w
  a - (a &&& mask) + b % 2 ^ l * 2 ^ pos % 2 ^ w

/-- Byte permutation (R126). -/
def intPrmt (a b sel : Nat) : Nat :=
  let ba := a % 2 ^ 32 + 2 ^ 32 * (b % 2 ^ 32)
  let byte (j : Nat) : Nat := if sel.testBit (12 + j) then 0 else bits ba (8 * bits sel (3 * j + 2) (3 * j) + 7) (8 * bits sel (3 * j + 2) (3 * j))
  byte 0 + 2 ^ 8 * byte 1 + 2 ^ 16 * byte 2 + 2 ^ 24 * byte 3

/-- Conditions on integers (R127). -/
def condInt (c : Cond) (x y : Int) : Bool :=
  match c with
  | .eq => x == y
  | .ne => x != y
  | .lt => decide (x < y)
  | .le => decide (x ≤ y)
  | .gt => decide (y < x)
  | .ge => decide (y ≤ x)

/-- Integer conversion (R129): the bits written, 8- and 16-bit results extended to 32. -/
def intCvt (dty sty : Ty) (sat : Bool) (x : Nat) : Nat :=
  let v := valueOf (Ty.signed sty) (tyBits sty) x
  let w := tyBits dty
  let lo : Int := if Ty.signed dty then -(2 ^ (w - 1) : Nat) else 0
  let hi : Int := if Ty.signed dty then (2 ^ (w - 1) : Nat) - 1 else (2 ^ w : Nat) - 1
  let y := if sat then (if v < lo then lo else if hi < v then hi else v) else valueOf (Ty.signed dty) w (wrapTo w v)
  wrapTo (if w < 32 then 32 else w) y

/-! The shape of the family: checks, then the result of each acting lane. -/

/-- An integer instruction with operands ops by descending tail bits and destination d; f gives each acting lane's
result. -/
def State.intOp (s : State) (g : Guard) (uni : Bool) (ops : List Opnd) (d : Reg) (wide : Bool) (f : Nat → Nat) :
    Host.Outcome State Fault Refusal :=
  let lanes := s.lanes g
  groupOp s (firstStop [s.operandStop lanes ops, s.guardStop g])
    (s.writeInt uni wide d ((actLanes uni lanes).map fun l => (l, f l))).advance

/-- Two register sources; shift amounts are single registers. -/
def State.intBin (s : State) (g : Guard) (o : IntBin) (amount : Bool) (f : Nat → Nat → Nat → Nat) :
    Host.Outcome State Fault Refusal :=
  let w := is64 o.ty
  let wb := w && !amount
  s.intOp g o.uni [opInt o.uni o.b wb true, opInt o.uni o.a w true, opInt o.uni o.d w false] o.d w fun l =>
    f (tyBits o.ty) (s.cg.readInt o.uni w o.a l) (s.cg.readInt o.uni wb o.b l)

/-- A register and an immediate; n gives the immediate's value. -/
def State.intImm (s : State) (g : Guard) (o : IntImm) (n : Nat) (f : Nat → Nat → Nat → Nat) :
    Host.Outcome State Fault Refusal :=
  let w := is64 o.ty
  s.intOp g o.uni [opInt o.uni o.a w true, opInt o.uni o.d w false] o.d w fun l =>
    f (tyBits o.ty) (s.cg.readInt o.uni w o.a l) n

/-- One source; the counts write a single register. -/
def State.intUn (s : State) (g : Guard) (o : IntUn) (count : Bool) (f : Nat → Nat → Nat) :
    Host.Outcome State Fault Refusal :=
  let w := is64 o.ty
  let wd := w && !count
  s.intOp g o.uni [opInt o.uni o.a w true, opInt o.uni o.d wd false] o.d wd fun l =>
    f (tyBits o.ty) (s.cg.readInt o.uni w o.a l)

def IntImm.value (o : IntImm) : Nat := immValue (tyBits o.ty) o.imm

/-! Arithmetic (R121, R122). -/

def execAdd (g : Guard) (o : IntBin) (s : State) : Host.Outcome State Fault Refusal := s.intBin g o false intAdd
def execAddImm (g : Guard) (o : IntImm) (s : State) : Host.Outcome State Fault Refusal := s.intImm g o (IntImm.value o) intAdd
def execSub (g : Guard) (o : IntBin) (s : State) : Host.Outcome State Fault Refusal := s.intBin g o false intSub
def execNeg (g : Guard) (o : IntUn) (s : State) : Host.Outcome State Fault Refusal := s.intUn g o false fun w a => intSub w 0 a
def execMul (g : Guard) (o : IntBin) (s : State) : Host.Outcome State Fault Refusal := s.intBin g o false intMul
def execMulImm (g : Guard) (o : IntImm) (s : State) : Host.Outcome State Fault Refusal := s.intImm g o (IntImm.value o) intMul
def execMulh (g : Guard) (o : IntBin) (s : State) : Host.Outcome State Fault Refusal :=
  s.intBin g o false (intMulh (Ty.signed o.ty))

def execMad (g : Guard) (o : IntTri) (s : State) : Host.Outcome State Fault Refusal :=
  let w := is64 o.ty
  s.intOp g o.uni
    [opInt o.uni o.c w true, opInt o.uni o.b w true, opInt o.uni o.a w true, opInt o.uni o.d w false] o.d w fun l =>
    intAdd (tyBits o.ty) (intMul (tyBits o.ty) (s.cg.readInt o.uni w o.a l) (s.cg.readInt o.uni w o.b l))
      (s.cg.readInt o.uni w o.c l)

def execDiv (g : Guard) (o : IntBin) (s : State) : Host.Outcome State Fault Refusal :=
  s.intBin g o false (intDiv (Ty.signed o.ty))
def execRem (g : Guard) (o : IntBin) (s : State) : Host.Outcome State Fault Refusal :=
  s.intBin g o false (intRem (Ty.signed o.ty))
def execMin (g : Guard) (o : IntBin) (s : State) : Host.Outcome State Fault Refusal :=
  s.intBin g o false (intMin (Ty.signed o.ty))
def execMax (g : Guard) (o : IntBin) (s : State) : Host.Outcome State Fault Refusal :=
  s.intBin g o false (intMax (Ty.signed o.ty))
def execAbs (g : Guard) (o : IntUn) (s : State) : Host.Outcome State Fault Refusal := s.intUn g o false intAbs
def execMinImm (g : Guard) (o : IntImm) (s : State) : Host.Outcome State Fault Refusal :=
  s.intImm g o (IntImm.value o) (intMin (Ty.signed o.ty))
def execMaxImm (g : Guard) (o : IntImm) (s : State) : Host.Outcome State Fault Refusal :=
  s.intImm g o (IntImm.value o) (intMax (Ty.signed o.ty))

/-! Logic, shifts and bits (R123-R126). -/

def execAnd (g : Guard) (o : IntBin) (s : State) : Host.Outcome State Fault Refusal := s.intBin g o false fun _ a b => a &&& b
def execAndImm (g : Guard) (o : IntImm) (s : State) : Host.Outcome State Fault Refusal :=
  s.intImm g o (IntImm.value o) fun _ a b => a &&& b
def execOr (g : Guard) (o : IntBin) (s : State) : Host.Outcome State Fault Refusal := s.intBin g o false fun _ a b => a ||| b
def execOrImm (g : Guard) (o : IntImm) (s : State) : Host.Outcome State Fault Refusal :=
  s.intImm g o (IntImm.value o) fun _ a b => a ||| b
def execXor (g : Guard) (o : IntBin) (s : State) : Host.Outcome State Fault Refusal := s.intBin g o false fun _ a b => a ^^^ b
def execXorImm (g : Guard) (o : IntImm) (s : State) : Host.Outcome State Fault Refusal :=
  s.intImm g o (IntImm.value o) fun _ a b => a ^^^ b
def execNot (g : Guard) (o : IntUn) (s : State) : Host.Outcome State Fault Refusal := s.intUn g o false intNot

def execShl (g : Guard) (o : IntBin) (s : State) : Host.Outcome State Fault Refusal := s.intBin g o true intShl
def execShlImm (g : Guard) (o : IntImm) (s : State) : Host.Outcome State Fault Refusal := s.intImm g o o.imm.toNat intShl
def execShr (g : Guard) (o : IntBin) (s : State) : Host.Outcome State Fault Refusal := s.intBin g o true intShr
def execShrImm (g : Guard) (o : IntImm) (s : State) : Host.Outcome State Fault Refusal := s.intImm g o o.imm.toNat intShr
def execSra (g : Guard) (o : IntBin) (s : State) : Host.Outcome State Fault Refusal := s.intBin g o true intSra
def execSraImm (g : Guard) (o : IntImm) (s : State) : Host.Outcome State Fault Refusal := s.intImm g o o.imm.toNat intSra

def execClz (g : Guard) (o : IntUn) (s : State) : Host.Outcome State Fault Refusal := s.intUn g o true intClz
def execCtz (g : Guard) (o : IntUn) (s : State) : Host.Outcome State Fault Refusal := s.intUn g o true intCtz
def execPopc (g : Guard) (o : IntUn) (s : State) : Host.Outcome State Fault Refusal := s.intUn g o true intPopc
def execBrev (g : Guard) (o : IntUn) (s : State) : Host.Outcome State Fault Refusal := s.intUn g o false intBrev

def execBfx (g : Guard) (o : IntField) (s : State) : Host.Outcome State Fault Refusal :=
  let w := is64 o.ty
  s.intOp g o.uni [opInt o.uni o.a w true, opInt o.uni o.d w false] o.d w fun l =>
    intBfx (Ty.signed o.ty) (tyBits o.ty) (s.cg.readInt o.uni w o.a l) o.pos.toNat o.len.toNat

def execBfi (g : Guard) (o : IntField) (s : State) : Host.Outcome State Fault Refusal :=
  let w := is64 o.ty
  s.intOp g o.uni [opInt o.uni o.b w true, opInt o.uni o.a w true, opInt o.uni o.d w false] o.d w fun l =>
    intBfi (tyBits o.ty) (s.cg.readInt o.uni w o.a l) (s.cg.readInt o.uni w o.b l) o.pos.toNat o.len.toNat

def execPrmt (g : Guard) (o : Prmt) (s : State) : Host.Outcome State Fault Refusal :=
  s.intOp g o.uni [opInt o.uni o.b false true, opInt o.uni o.a false true, opInt o.uni o.d false false] o.d false fun l =>
    intPrmt (s.cg.readInt o.uni false o.a l) (s.cg.readInt o.uni false o.b l) o.sel.toNat

/-! Compare, select, convert and address (R127-R130). -/

/-- Writes the lanes' answers into p[d] (R127). -/
def State.cmpWrite (s : State) (g : Guard) (d : Reg) (f : Nat → Bool) : State :=
  (s.writeP d.toNat (s.cg.guarded g) (maskOf fun l => (s.cg.guarded g).getLsbD l && f l)).advance

def execCmp (g : Guard) (o : CmpOp) (s : State) : Host.Outcome State Fault Refusal :=
  let w := is64 o.ty
  let v (r : Reg) (l : Nat) : Int := valueOf (Ty.signed o.ty) (tyBits o.ty) (s.cg.readInt o.uni w r l)
  groupOp s
    (firstStop [s.operandStop (s.lanes g) [opInt o.uni o.b w true, opInt o.uni o.a w true], s.guardStop g])
    (s.cmpWrite g o.d fun l => condInt o.cond (v o.a l) (v o.b l))

def execCmpImm (g : Guard) (o : CmpImm) (s : State) : Host.Outcome State Fault Refusal :=
  let w := is64 o.ty
  let sgn := Ty.signed o.ty
  let n := tyBits o.ty
  groupOp s (firstStop [s.operandStop (s.lanes g) [opInt o.uni o.a w true], s.guardStop g])
    (s.cmpWrite g o.d fun l =>
      condInt o.cond (valueOf sgn n (s.cg.readInt o.uni w o.a l)) (valueOf sgn n (immValue n o.imm)))

/-- `sel` copies the chosen source with its tags and reads no other (R128). -/
def execSel (g : Guard) (o : SelOp) (s : State) : Host.Outcome State Fault Refusal :=
  let w := is64 o.ty
  let lanes := s.lanes g
  let chosen (l : Nat) : Bool := (s.cg.pred o.p.toNat).getLsbD l
  let reads (r : Reg) (yes : Bool) : Option Stop :=
    s.poisonStop (lanes.filter fun l => chosen l == yes) (opV r w true)
  groupOp s
    (firstStop
      [s.operandStop lanes [opV o.b w false, opV o.a w false, opV o.d w false], s.guardStop g,
        s.predStop lanes [o.p.toNat], reads o.b false, reads o.a true])
    (s.copyV o.d.toNat w
      (lanes.map fun l => ⟨l, (if chosen l then o.a else o.b).toNat, l⟩)).advance

def execCvt (g : Guard) (o : CvtOp) (s : State) : Host.Outcome State Fault Refusal :=
  s.intOp g false [opV o.a (is64 o.sty) true, opV o.d (is64 o.dty) false] o.d (is64 o.dty) fun l =>
    intCvt o.dty o.sty o.sat (s.cg.readV (is64 o.sty) o.a.toNat l)

def execLea (g : Guard) (o : LeaOp) (s : State) : Host.Outcome State Fault Refusal :=
  let wb := is64 o.ty
  s.intOp g o.uni [opInt o.uni o.b wb true, opInt o.uni o.a true true, opInt o.uni o.d true false] o.d true fun l =>
    wrapTo 64
      (s.cg.readInt o.uni true o.a l +
        valueOf (Ty.signed o.ty) (tyBits o.ty) (s.cg.readInt o.uni wb o.b l) * (2 ^ o.sh.toNat : Nat))

/-! Shuffle and moves (R131-R133). -/

/-- The lane that a guarded lane of `shfl` reads. -/
def State.shflFrom (s : State) (lanes : List Nat) (b : Reg) (l : Nat) : Nat :=
  let k := (s.cg.vreg b.toNat l).toNat % 32
  if lanes.contains k then k else l

/-- shfl (R131): b is one register, odd or even, at every type: DEDUCED, since R131 reads v[b] and R115 does not list it (log
68). -/
def execShfl (g : Guard) (o : ShflOp) (s : State) : Host.Outcome State Fault Refusal :=
  let w := is64 o.ty
  let lanes := s.lanes g
  groupOp s
    (firstStop
      [s.operandStop lanes [opV o.b false true, (opV o.a w true).copied, opV o.d w false], s.guardStop g])
    (s.copyV o.d.toNat w (lanes.map fun l => ⟨l, o.a.toNat, s.shflFrom lanes o.b l⟩)).advance

/-- Copies a v register or pair in each guarded lane. -/
def State.movV (s : State) (g : Guard) (d a : Reg) (w : Bool) : Host.Outcome State Fault Refusal :=
  let lanes := s.lanes g
  groupOp s (firstStop [s.operandStop lanes [(opV a w true).copied, opV d w false], s.guardStop g])
    (s.copyV d.toNat w (lanes.map fun l => ⟨l, a.toNat, l⟩)).advance

def execMov (g : Guard) (d a : Reg) (s : State) : Host.Outcome State Fault Refusal := s.movV g d a false
def execMov64 (g : Guard) (d a : Reg) (s : State) : Host.Outcome State Fault Refusal := s.movV g d a true

def execMovi (g : Guard) (o : MoviOp) (s : State) : Host.Outcome State Fault Refusal :=
  let w := is64 o.ty
  s.intOp g o.uni [opInt o.uni o.d w false] o.d w fun _ => if o.ty = .s64 then wrapTo 64 o.imm.toInt else o.imm.toNat

/-- What a guarded lane reads of a `mov` (file) source. -/
def State.fileRead (s : State) (f : RFile) (a : Reg) (l : Nat) : Nat :=
  match f with
  | .v => (s.cg.vreg a.toNat l).toNat
  | .s => (s.cg.sreg a.toNat).toNat
  | .p => if (s.cg.pred a.toNat).getLsbD l then 1 else 0

/-- The value that an s destination receives (R132). -/
def State.fileGather (s : State) (f : RFile) (a : Reg) (m : Mask) : Nat :=
  match f with
  | .p => (m &&& s.cg.pred a.toNat).toNat
  | f => s.fileRead f a (lowLane m)

/-- Whether a guarded lane's p destination becomes true (R132). -/
def State.fileBit (s : State) (f : RFile) (a : Reg) (l : Nat) : Bool :=
  match f with
  | .s => (s.cg.sreg a.toNat).getLsbD l
  | f => s.fileRead f a l != 0

/-- The register operands of `mov` (file). -/
def fileOps (f : RFile) (r : Reg) (read : Bool) : List Opnd :=
  match f with
  | .v => [opV r false read]
  | .s => [opS r false read]
  | .p => []

def execMovFile (g : Guard) (o : MovFile) (s : State) : Host.Outcome State Fault Refusal :=
  let m := s.cg.guarded g
  let lanes := s.lanes g
  let preds := if o.af = .p then [o.a.toNat] else []
  match o.df with
  | .v =>
    let src := if o.af = .v then [(opV o.a false true).copied] else fileOps o.af o.a true
    groupOp s
      (firstStop [s.operandStop lanes (src ++ [opV o.d false false]), s.guardStop g, s.predStop lanes preds])
      (if o.af = .v then (s.copyV o.d.toNat false (lanes.map fun l => ⟨l, o.a.toNat, l⟩)).advance
      else (s.writeV o.d.toNat false (lanes.map fun l => (l, s.fileRead o.af o.a l))).advance)
  | .s =>
    let read := if o.af = .v then lanes.take 1 else lanes
    groupOp s
      (firstStop
        [s.operandStop read (fileOps o.af o.a true ++ [opS o.d false false]), s.guardStop g, s.predStop lanes preds])
      (if m = 0 then s.advance else (s.writeS o.d.toNat false (s.fileGather o.af o.a m)).advance)
  | .p =>
    groupOp s
      (firstStop [s.operandStop lanes (fileOps o.af o.a true), s.guardStop g, s.predStop lanes preds])
      (s.writeP o.d.toNat m (maskOf fun l => m.getLsbD l && s.fileBit o.af o.a l)).advance

end Sys2Proof.Machine
end

