-- ==== Sys2Proof/Machine/Regs.lean ====
section
/-! DEFINITION. The launch register page (R243, R301, R327, R332, R344, R397, R413) and the management page (R401, R404):
reads, and the behaviour of writes. -/
namespace Sys2Proof.Machine

open Sys2Proof

/-! Parts of words. -/

def lo32 (v : Nat) : Word := BitVec.ofNat 32 v
def hi32 (v : Nat) : Word := BitVec.ofNat 32 (v / 2 ^ 32)

/-- A half of a 64-bit register: the low one at an offset that is a multiple of 8. -/
def halfOf (off v : Nat) : Word := if off % 8 = 0 then lo32 v else hi32 v

/-- A 64-bit register with one half written. -/
def setHalf (off : Nat) (old : DWord) (v : Word) : DWord :=
  if off % 8 = 0 then BitVec.ofNat 64 (old.toNat / 2 ^ 32 * 2 ^ 32 + v.toNat)
  else BitVec.ofNat 64 (old.toNat % 2 ^ 32 + 2 ^ 32 * v.toNat)

/-! Queues (R243, R244). -/

def Queue.log2 (q : Queue) : Nat := q.ctl.toNat % 32
/-- Records waiting (R244). -/
def Queue.waiting (q : Queue) : Nat := (q.tail - q.head).toNat

/-- Stops a queue with an error (R244). -/
def Queue.stop (q : Queue) (err : Nat) : Queue := { q with stat := BitVec.ofNat 32 (256 + err) }

/-- A write of `lqtail` (R243, R244, R402). -/
def State.lqtail (s : State) (b n : Nat) (v : Word) : State :=
  let q := s.queue b n
  if (s.part b).pastat ≠ 2 then s
  else if q.enabled then
    let q1 := { q with tail := v }
    s.setLq b n (if !q.stopped && decide (2 ^ q.log2 < q1.waiting) then q1.stop 1 else q1)
  else s.setLq b n { q with tail := v, head := v }

/-- Reads for a requester that no longer wants their answers. -/
def State.forgetRead (s : State) (who : Who) : State :=
  { s with remotes := s.remotes.map fun e => if e.2.who == who then (e.1, { e.2 with who := .prefetch }) else e }

/-- A write of `lqctl` (R243, R244): a record read while the queue was enabled before is not used afterwards. -/
def State.lqctl (s : State) (b n : Nat) (v : Word) : State :=
  let q := s.queue b n
  let size := if q.enabled then q.ctl &&& 0x1F else v &&& 0x1F
  let q1 := { q with ctl := (v &&& 0x3100) ||| size }
  if v.getLsbD 8 then
    s.setLq b n
      (if size.toNat < 1 ∨ 16 < size.toNat then q1.stop 2
       else if !q1.stopped && decide (2 ^ q1.log2 < q1.waiting) then q1.stop 1
       else q1)
  else (s.setLq b n { q1 with stat := 0, served := [] }).forgetRead (.queue b n)

/-! Translation and context registers (R344, R355, R364). -/

/-- Whether a `tlbinv` value names a request (R344). -/
def tlbinvLegal (v : DWord) : Bool :=
  let n := v.toNat
  bits n 63 48 == 0 && bits n 16 5 == 0 && bits n 2 2 == 0 && bits n 4 3 != 3 && decide (bits n 1 0 < 2)

/-- Whether the request queue can take another entry (R364). -/
def State.tlbRoom (s : State) (b : Nat) : Bool := decide ((s.part b).tlbq.length < 16)

def State.tlbinv (s : State) (b : Nat) (v : DWord) : State :=
  let p := s.part b
  if tlbinvLegal v then s.setPart b { p with tlbreq := p.tlbreq + 1, tlbq := p.tlbq ++ [v] } else s

/-- A write of `ctxctl`: bit 8 requests a swap of an assigned partition unless one runs. -/
def State.ctxctl (s : State) (b : Nat) (v : Word) : State :=
  let p := s.part b
  if v.getLsbD 8 && p.swap.isNone && p.pastat == 2 then s.setPart b { p with swap := some 1 } else s

/-- Any write of `mcstat` (R344). -/
def State.mcstatClear (s : State) (b : Nat) : State :=
  s.setPart b { s.part b with mcstat := 0, mcaddr := 0, mcgrid := 0 }

/-! The launch register page. -/

/-- Live grids of the partition. -/
def State.liveGrids (s : State) (b : Nat) : Nat := (s.grids.filter fun e => e.2.live && e.2.part == b).length


/-- One 32-bit word of the launch register page. -/
def State.launchWord (s : State) (b off : Nat) : Word :=
  let p := s.part b
  if off < 0x100 then
    let q := s.queue b (off / 32)
    match off % 32 with
    | 0 => lo32 q.base.toNat
    | 4 => hi32 q.base.toNat
    | 8 => q.ctl
    | 16 => q.head
    | 20 => q.tail
    | 24 => q.stat
    | _ => 0
  else if 0x200 ≤ off ∧ off < 0x240 then
    Tbl.get 0 (if off % 8 = 0 then p.peermap else p.peerrej) ((off - 0x200) / 8)
  else if 0x800 ≤ off ∧ off < 0x9E0 then
    Tbl.get 0 (if off % 8 = 0 then p.pushref else p.pushins) ((off - 0x800) / 8)
  else if 0xC00 ≤ off ∧ off < 0x1000 then
    if off % 16 = 0 then Tbl.get 0 p.rlyctl ((off - 0xC00) / 16)
    else if off % 16 = 4 then Tbl.get 0 p.rlyhost ((off - 0xC00) / 16)
    else 0
  else
    match off with
    | 0x100 => BitVec.ofNat 32 (s.liveGrids b + 65536 * (s.ctx (2 * b + p.live)).intake.length)
    | 0x108 => if p.pastat = 0 then 0 else lo32 (s.poolBase b)
    | 0x10C => if p.pastat = 0 then 0 else hi32 (s.poolBase b)
    | 0x110 => if p.pastat = 0 then 0 else p.papool &&& 0xFFFF
    | 0x114 => BitVec.ofNat 32 p.cqfree
    | 0x118 => p.pgcfg
    | 0x188 => p.tlbreq
    | 0x18C => p.tlbdone
    | 0x190 => lo32 p.ptbase0.toNat
    | 0x194 => hi32 p.ptbase0.toNat
    | 0x198 => lo32 p.ptbase1.toNat
    | 0x19C => hi32 p.ptbase1.toNat
    | 0x1C0 => BitVec.ofNat 32 (p.live + if p.swap.isSome then 256 else 0)
    | 0x1D0 => p.mcstat
    | 0x1D4 => p.mccount.setWidth 32
    | 0x1D8 => lo32 p.mcaddr.toNat
    | 0x1DC => hi32 p.mcaddr.toNat
    | 0x1E0 => p.mcgrid
    | 0x240 => p.ualrej
    | 0x300 => lo32 s.mgmt.fusemap.toNat
    | 0x304 => hi32 s.mgmt.fusemap.toNat
    | _ => 0

def ptbaseMask : DWord := 0x0000FFFFFFFFF001
def lqbaseMask : DWord := 0x0000FFFFFFFFFFC0

/-- A 32-bit write to the launch register page. A count is cleared by writing 0 and by nothing else. -/
def State.launchWrite32 (s : State) (b off : Nat) (v : Word) : State :=
  let p := s.part b
  if off < 0x100 then
    let n := off / 32
    let q := s.queue b n
    match off % 32 with
    | 8 => s.lqctl b n v
    | 20 => s.lqtail b n v
    | k =>
      if (k = 0 ∨ k = 4) ∧ q.enabled = false then s.setLq b n { q with base := setHalf off q.base v &&& lqbaseMask } else s
  else if 0x200 ≤ off ∧ off < 0x240 then
    let d := (off - 0x200) / 8
    if off % 8 = 0 then s.setPart b { p with peermap := Tbl.set 0 p.peermap d (v &&& 0x3F7) }
    else if v = 0 then s.setPart b { p with peerrej := Tbl.set 0 p.peerrej d 0 }
    else s
  else if 0xC00 ≤ off ∧ off < 0x1000 then
    let n := (off - 0xC00) / 16
    if off % 16 = 0 then s.setPart b { p with rlyctl := Tbl.set 0 p.rlyctl n (v &&& 1) }
    else if off % 16 = 4 then s.setPart b { p with rlyhost := Tbl.set 0 p.rlyhost n v }
    else s
  else
    match off with
    | 0x180 => s.tlbinv b (v.setWidth 64)
    | 0x184 => s.tlbinv b (v.setWidth 64 <<< 32)
    | 0x190 => s.setPart b { p with ptbase0 := setHalf off p.ptbase0 v &&& ptbaseMask }
    | 0x194 => s.setPart b { p with ptbase0 := setHalf off p.ptbase0 v &&& ptbaseMask }
    | 0x198 => s.setPart b { p with ptbase1 := setHalf off p.ptbase1 v &&& ptbaseMask }
    | 0x19C => s.setPart b { p with ptbase1 := setHalf off p.ptbase1 v &&& ptbaseMask }
    | 0x1C0 => s.ctxctl b v
    | 0x1D0 => s.mcstatClear b
    | 0x240 => if v = 0 then s.setPart b { p with ualrej := 0 } else s
    | _ => s

/-- A write of 4 or 8 bytes to the launch register page. -/
def State.launchWrite (s : State) (b off : Nat) (w64 : Bool) (v : DWord) : State :=
  if w64 then
    if off = 0x180 then s.tlbinv b v
    else (s.launchWrite32 b off (lo32 v.toNat)).launchWrite32 b (off + 4) (hi32 v.toNat)
  else s.launchWrite32 b off (lo32 v.toNat)

/-- Whether a write must wait: `tlbinv` with its queue full (R364). -/
def State.launchWaits (s : State) (b off : Nat) (v : DWord) : Bool :=
  ((off == 0x180 && tlbinvLegal v) || (off == 0x184 && tlbinvLegal (v <<< 32))) && !s.tlbRoom b

/-- A register page read of n bytes through location 3: offsets 0x000 to 0xFFF, the rest 0 (R365). -/
def State.launchRead (s : State) (b off n : Nat) : Nat :=
  if 0x1000 ≤ off then 0
  else if n = 8 then (s.launchWord b off).toNat + 2 ^ 32 * (s.launchWord b (off + 4)).toNat
  else (s.launchWord b off).toNat

/-! The management page. -/

/-- Whether a partition command runs (R401). -/
def State.paRuns (s : State) (b : Nat) : Bool :=
  s.flight.any fun i => match i with
    | .partitionAssign k => k == b
    | .partitionRelease k => k == b
    | .partitionReset k => k == b
    | _ => false

/-- One 32-bit word of a partition's registers in the management page. -/
def State.paWord (s : State) (b k : Nat) : Word :=
  let p := s.part b
  match k with
  | 0x00 => p.pacfg
  | 0x04 => p.pamem
  | 0x08 => p.papool
  | 0x0C => if s.paRuns b then 1 else 0
  | 0x10 => BitVec.ofNat 32 (p.pastat + 256 * p.paerr)
  | 0x18 => lo32 p.paimg.toNat
  | 0x1C => hi32 p.paimg.toNat
  | 0x20 => BitVec.ofNat 32 ((if p.key.isSome then 1 else 0) + if p.keyGen then 2 else 0)
  | _ => 0

/-- One 32-bit word of the management page. -/
def State.mgmtWord (s : State) (off : Nat) : Word :=
  let m := s.mgmt
  if 0x40 ≤ off ∧ off < 0x60 ∧ off % 8 = 0 then
    let p := (off - 0x40) / 8
    BitVec.ofNat 32 ((if Tbl.get false m.ualEnable p then 1 else 0) + (if Tbl.get false m.ualUp p then 2 else 0) +
      (if Tbl.get false m.ualSec p then 4 else 0))
  else if 0x100 ≤ off ∧ off < 0x200 then s.paWord ((off - 0x100) / 0x40) ((off - 0x100) % 0x40)
  else if 0x440 ≤ off ∧ off < 0x458 then Tbl.get 0 m.eccor ((off - 0x440) / 4)
  else if 0x500 ≤ off ∧ off < 0x600 then
    lo32 ((Tbl.get 0 m.fwmr ((off - 0x500) / 32)).toNat / 2 ^ (8 * (off % 32)))
  else if 0x800 ≤ off ∧ off < 0x1000 then lo32 (leValue ((m.spdmbuf.drop (off - 0x800)).take 4))
  else
    match off with
    | 0x000 => m.devnum
    | 0x400 => BitVec.ofNat 32 (m.fwstate + 256 * m.fwerr + 65536 * m.fwver.toNat)
    | 0x404 => m.fwsvn.setWidth 32
    | 0x408 => lo32 m.fwrecaddr.toNat
    | 0x40C => hi32 m.fwrecaddr.toNat
    | 0x410 => m.fwreclen
    | 0x414 => BitVec.ofNat 32 ((if m.fwcmd = 0 then 0 else 1) + 256 * m.fwresult)
    | 0x418 => lo32 m.fusemap.toNat
    | 0x41C => hi32 m.fusemap.toNat
    | 0x420 => lo32 m.dumpbase.toNat
    | 0x424 => hi32 m.dumpbase.toNat
    | 0x428 => m.dumpstat
    | 0x460 => m.pwrnow
    | 0x464 => m.pwrlim
    | 0x468 => m.tempnow
    | 0x46C => BitVec.ofNat 32 (m.coreClk + 256 * m.meshClk)
    | 0x470 => m.spdmctl
    | _ => 0

def paimgMask : DWord := 0x0000FFFFFFFFFFC0
def recaddrMask : DWord := 0x0000FFFFFFFFF000
def dumpbaseMask : DWord := 0x0000FFFFFF000001

/-- A 32-bit write to a partition's registers in the management page (R401, R402, R407). -/
def State.paWrite (s : State) (b k : Nat) (v : Word) : State :=
  let p := s.part b
  if k = 0x0C then
    if s.mgmt.fwstate ≠ 4 ∨ s.paRuns b then s
    else
      match v.toNat % 4 with
      | 1 => s.post (.partitionAssign b)
      | 2 => s.post (.partitionRelease b)
      | 3 => s.post (.partitionReset b)
      | _ => s
  else if p.pastat ≠ 0 then s
  else
    match k with
    | 0x00 => s.setPart b { p with pacfg := v &&& 0x331 }
    | 0x04 => s.setPart b { p with pamem := v &&& 0xFFFF }
    | 0x08 => s.setPart b { p with papool := v &&& 0xFFFF }
    | 0x18 => s.setPart b { p with paimg := setHalf k p.paimg v &&& paimgMask }
    | 0x1C => s.setPart b { p with paimg := setHalf k p.paimg v &&& paimgMask }
    | _ => s

def State.setMgmt (s : State) (m : Mgmt) : State := { s with mgmt := m }

/-- Whether `fwreclen` names a length that an image may have (R404). -/
def recLenOk (n : Nat) : Bool := decide (4096 ≤ n) && decide (n ≤ 16777216) && n % 4096 == 0

/-- The read of the image in host memory (R408); a length that no image has is not read. -/
def State.readImage (s : State) : State :=
  let m := s.mgmt
  if recLenOk m.fwreclen.toNat then
    let n := m.fwreclen.toNat / 128
    { s with
      nextId := s.nextId + n
      out := s.out ++ (List.range n).map fun i => .remote (s.nextId + i) 2 0 (m.fwrecaddr.toNat + 128 * i) 128 none }
  else s

/-- A write of `fwreccmd` (R404, R408): the command begins with the read of the image, command 1 in state 1 (R407); in a state
from which it is not legal a command returns 0xFF. -/
def State.recCommand (s : State) (v : Word) : State :=
  let m := s.mgmt
  match if m.fwcmd = 0 then v.toNat % 4 else 0 with
  | 1 => if m.fwstate = 2 then (s.setMgmt { m with fwcmd := 1, fwstate := 1 }).readImage else s.setMgmt { m with fwresult := 0xFF }
  | 2 => if m.fwstate = 4 then (s.setMgmt { m with fwcmd := 2 }).readImage else s.setMgmt { m with fwresult := 0xFF }
  | _ => s

/-- A write of `spdmctl` (R404, R410). -/
def State.spdmWrite (s : State) (v : Word) : State :=
  if s.mgmt.spdmctl.getLsbD 31 then s
  else
    let s1 := s.setMgmt { s.mgmt with spdmctl := v &&& 0x80000FFF }
    if v.getLsbD 31 then s1.post .spdmRequest else s1

/-- Replaces n bytes of a list from position k. -/
def spliceBytes (l : List Byte) (k : Nat) (bs : List Byte) : List Byte :=
  l.take k ++ bs ++ l.drop (k + bs.length)

/-- A 32-bit write to the management page. -/
def State.mgmtWrite32 (s : State) (off : Nat) (v : Word) : State :=
  let m := s.mgmt
  if 0x40 ≤ off ∧ off < 0x60 ∧ off % 8 = 0 then
    let p := (off - 0x40) / 8
    s.setMgmt { m with
      ualEnable := Tbl.set false m.ualEnable p (v.getLsbD 0)
      ualUp := Tbl.set false m.ualUp p (Tbl.get false m.ualUp p && v.getLsbD 0) }
  else if 0x100 ≤ off ∧ off < 0x200 then s.paWrite ((off - 0x100) / 0x40) ((off - 0x100) % 0x40) v
  else if 0x440 ≤ off ∧ off < 0x458 then
    if v = 0 then s.setMgmt { m with eccor := Tbl.set 0 m.eccor ((off - 0x440) / 4) 0 } else s
  else if 0x800 ≤ off ∧ off < 0x1000 then
    s.setMgmt { m with spdmbuf := spliceBytes m.spdmbuf (off - 0x800) (leBytes 4 v.toNat) }
  else
    match off with
    | 0x000 =>
      if (List.range 4).all fun b => (s.part b).pastat == 0 then s.setMgmt { m with devnum := v &&& 7 } else s
    | 0x408 => if m.fwcmd = 0 then s.setMgmt { m with fwrecaddr := setHalf off m.fwrecaddr v &&& recaddrMask } else s
    | 0x40C => if m.fwcmd = 0 then s.setMgmt { m with fwrecaddr := setHalf off m.fwrecaddr v &&& recaddrMask } else s
    | 0x410 => if m.fwcmd = 0 then s.setMgmt { m with fwreclen := v &&& 0x1FFFFFF } else s
    | 0x414 => s.recCommand v
    | 0x420 => s.setMgmt { m with dumpbase := setHalf off m.dumpbase v &&& dumpbaseMask }
    | 0x424 => s.setMgmt { m with dumpbase := setHalf off m.dumpbase v &&& dumpbaseMask }
    | 0x428 => s.setMgmt { m with dumpstat := 0 }
    | 0x470 => s.spdmWrite v
    | _ => s

/-- The counters of corrected errors after a step in which count k corrections of source k were made (R414); they saturate. -/
def Mgmt.corrected (m : Mgmt) (count : Nat → Nat) : Mgmt :=
  { m with eccor := (List.range 6).foldl (fun t k => Tbl.set 0 t k
      (BitVec.ofNat 32 (if (Tbl.get 0 t k).toNat + count k < 2 ^ 32 then (Tbl.get 0 t k).toNat + count k else 2 ^ 32 - 1))) m.eccor }

/-- A write of 4 or 8 bytes to the management page. -/
def State.mgmtWrite (s : State) (off : Nat) (w64 : Bool) (v : DWord) : State :=
  let s1 := s.mgmtWrite32 off (lo32 v.toNat)
  if w64 then s1.mgmtWrite32 (off + 4) (hi32 v.toNat) else s1

end Sys2Proof.Machine
end

