-- ==== Sys2Proof/Machine/Reach.lean ====
section
/-! DEFINITION. Global memory as a group reaches it: translation of lanes, the checks of R173 in order, reading and writing
at each location, and coherence messages (R171-R177, R189, R361, R365). -/
namespace Sys2Proof.Machine

open Sys2Proof

/-- The fields of `%tval` that an access fixes (R174). -/
structure Acc where
  kind : Nat
  op : Nat
  scope : Nat
  size : Nat
deriving DecidableEq, Repr

def Acc.word (a : Acc) (loc : Nat) (cls : Bool) : Nat := accessWord loc a.kind a.op a.scope a.size cls

/-- Translation for the current group. -/
def State.xlate (s : State) (va : Nat) (need : Need) : Xlat :=
  s.translateVia (s.coreUnits s.coreId) s.partId (coreCtx s.coreId) va { need with sup := s.cg.sup }

/-- A trap of an access. -/
def LaneAt.trap (l : LaneAt) (cause tval : Nat) : Trap := ⟨cause, tval, l.va, l.lane, none⟩

/-- The first access that a check stops. -/
def firstLane (f : LaneAt → Option Stop) : List LaneAt → Option Stop
  | [] => none
  | l :: r =>
    match f l with
    | some e => some e
    | none => firstLane f r

/-- MISALIGNED_ADDR, checked before translation: location 3 (R174). -/
def misalignStop (a : Acc) (w : Nat) (ls : List LaneAt) : Option Stop :=
  firstLane (fun l => stopIf (l.va % w != 0) (.trap (l.trap causeMisaligned (a.word 3 false)))) ls

/-- PAGE_FAULT (R173, R174). -/
def pageStop (a : Acc) (writes : Bool) (ls : List LaneAt) : Option Stop :=
  firstLane (fun l => match l.x with
    | .fault lv r e => some (.page ⟨l.lane, lv, r, e, l.va, l.va, a.word 3 false, writes⟩)
    | _ => none) ls

/-- PERM_FAULT (R173, R185), and DATA_ERROR where a table entry cannot be read (R276, log 66). -/
def permStop (a : Acc) (ls : List LaneAt) : Option Stop :=
  firstLane (fun l => match l.x with
    | .perm loc cls => some (.trap (l.trap causePerm (a.word loc cls)))
    | .bad => some (.trap (l.trap causeData (a.word 3 false)))
    | _ => none) ls

/-- Whether bytes of local memory that a core reads hold an uncorrectable error: in their sectors, or in the words of an E or M
line of its L1 (R276). -/
def State.readPoisoned (s : State) (pa n : Nat) : Bool :=
  s.memPoisoned pa n ||
    ((s.l1State s.coreId (pa / 128) == some .e || s.l1State s.coreId (pa / 128) == some .m) && s.l1Error s.coreId pa n)

/-- DATA_ERROR of a read: an uncorrectable error (R276), or a path that cannot carry it (R399). -/
def State.dataStop (s : State) (a : Acc) (ls : List LaneAt) : Option Stop :=
  firstLane (fun l => match l.x with
    | .ok loc pa _ _ _ =>
      if loc = 0 then stopIf (s.readPoisoned pa l.n) (.trap (l.trap causeData (a.word 0 false)))
      else if loc = 3 then none
      else stopIf (!s.reachable s.partId loc pa) (.refused (l.trap causeData (a.word loc false)))
    | _ => none) ls

/-- The lines of host and peer memory that an access still needs. -/
def State.asksOf (s : State) (a : Acc) (l : LaneAt) : List Ask :=
  match l.x with
  | .ok loc pa _ _ _ =>
    if loc = 1 ∨ loc = 2 then
      (s.linesMissing s.cg.run.served s.cg.lastAcq loc pa l.n).map fun k =>
        ⟨l.lane.getD 32, loc, (k - loc * 2 ^ 41) * 128, a.word loc false, l.va, none⟩
    else []
  | _ => []

/-- Keeps one request for each line, the first. -/
def dedupAsks : List Ask → List Ask
  | [] => []
  | x :: r => x :: (dedupAsks r).filter fun y => !(y.loc == x.loc && y.addr == x.addr && y.atomic == none)

/-- The instruction waits for lines that are not at hand (R394). -/
def State.askStop (s : State) (a : Acc) (ls : List LaneAt) : Option Stop :=
  match dedupAsks ((ls.map (s.asksOf a)).flatten) with
  | [] => none
  | l => some (.ask l)

/-- The line of local memory that an access reaches. -/
def State.keyedLine (s : State) (l : LaneAt) : Option KeyedLine :=
  match l.x with
  | .ok 0 pa _ leaf _ => some ⟨pa / 128, keyOf s.partId leaf⟩
  | _ => none

/-- What the instruction has read of a line while it waited for others (R294). -/
def State.keptLine (s : State) (k : KeyedLine) : Option (List Byte) :=
  (s.cg.run.served.find? fun e => e.1 == k.at_).map fun e => e.2

/-- n bytes of local memory: of a line that was read before, or as memory holds them. -/
def State.localBytes (s : State) (key pa n : Nat) : List Byte :=
  match s.keptLine ⟨pa / 128, key⟩ with
  | some bs => (bs.drop (pa % 128)).take n
  | none => s.readKeyed key pa n

/-- The bytes that a translated read gives, little-endian value. -/
def State.readAt (s : State) (l : LaneAt) : Nat :=
  match l.x with
  | .ok 0 pa _ leaf _ => leValue (s.localBytes (keyOf s.partId leaf) pa l.n)
  | .ok 3 pa _ _ _ => s.launchRead s.partId pa l.n
  | .ok loc pa _ _ _ => leValue (s.remoteBytes s.cg.run.served s.cg.lastAcq loc pa l.n)
  | _ => 0

/-- Whether an access reaches the register page. -/
def LaneAt.isReg (l : LaneAt) : Bool :=
  match l.x with
  | .ok 3 _ _ _ _ => true
  | _ => false

/-- The place that an access reaches. -/
def LaneAt.place (l : LaneAt) : Option (Nat × Nat) :=
  match l.x with
  | .ok loc pa _ _ _ => some (loc, pa)
  | _ => none

/-- Whether an access reaches local memory. -/
def LaneAt.isLocal (l : LaneAt) : Bool :=
  match l.x with
  | .ok 0 _ _ _ _ => true
  | _ => false

/-- A deferred fault kept for the group: the lowest address stands (R189). -/
def Group.defer (g : Group) (va tval : Nat) : Group :=
  let d : Deferred := ⟨BitVec.ofNat 48 va, BitVec.ofNat 32 (tval + 65536)⟩
  match g.deferred with
  | some o => if o.addr.toNat ≤ d.addr.toNat then g else { g with deferred := some d }
  | Option.none => { g with deferred := some d }

/-- The lines of local memory that accesses reach, each once. -/
def localLines (ls : List LaneAt) : List Nat :=
  ls.foldl (fun acc l => match l.x with
    | .ok 0 pa _ _ _ => if acc.contains (pa / 128) then acc else acc ++ [pa / 128]
    | _ => acc) []

/-! What holds an access back. -/

/-- Whether an access is to memory that a request reaches. -/
def LaneAt.meets (l : LaneAt) (r : Remote) : Bool :=
  match l.x with
  | .ok loc pa _ _ _ => loc != 3 && (remoteLines loc pa l.n).any r.lines.contains
  | _ => false

/-- An access waits for the group's own earlier `bst` and `red` to the line, and for its earlier writes to the host or a peer
that have not reached the line's home (R284: program order of one group). -/
def State.ownStop (s : State) (ls : List LaneAt) : Option Stop :=
  stopIf (s.remotes.any fun e =>
    e.2.live && e.2.who == .store s.cur && (e.2.loc == 0 || !e.2.sent) && ls.any fun l => l.meets e.2) .wait

/-- The lines of local memory that a read still has to be served, each once. -/
def State.linesToRead (s : State) (ls : List LaneAt) : List KeyedLine :=
  ((ls.filterMap s.keyedLine).filter fun k => (s.keptLine k).isNone).foldl
    (fun acc k => if acc.contains k then acc else acc ++ [k]) []

/-- A read waits until its L1 serves every line that is left (R294). -/
def State.l1Stop (s : State) (ls : List LaneAt) : Option Stop :=
  stopIf (!(s.linesToRead ls).all fun k => s.l1Hit s.coreId k.line false) (.l1 (s.linesToRead ls))

/-- The home holds the access until no other copy is left, of a read until no core owns the line (R184, R297). -/
def State.homeStop (s : State) (write : Bool) (ls : List LaneAt) : Option Stop :=
  (s.homeHeld (.group s.cur) (localLines ls) write).map (Stop.home write)

/-- Stops of accesses whose translation has succeeded: the leaves are marked first (R360). -/
def markedStop (ls : List LaneAt) (write : Bool) (stops : List (Option Stop)) : Option Stop :=
  (firstStop stops).map (.marked (ls.map fun l => l.x) write)

/-! Stores. -/

/-- Of the writes of one instruction those of the highest lane for each place: the others never enter the coherence order
(R175). -/
def lastWrites : List (LaneAt × List Byte) → List (LaneAt × List Byte)
  | [] => []
  | w :: r => if r.any fun v => v.1.place == w.1.place then lastWrites r else w :: lastWrites r

/-- The writes to local memory under a key. -/
def State.localPuts (s : State) (key : Nat) (ws : List (LaneAt × List Byte)) : List Put :=
  ws.filterMap fun w => match w.1.x with
    | .ok 0 pa _ leaf _ => if keyOf s.partId leaf = key then some ⟨pa, w.2⟩ else none
    | _ => none

/-- The writes to local memory of one instruction, all at once for each key (R352). -/
def State.putLocal (s : State) (ws : List (LaneAt × List Byte)) : State :=
  let puts (t : State) (key : Nat) : State :=
    match s.localPuts key ws with
    | [] => t
    | ps => t.putKeyed key ps
  puts (puts s 0) (s.partId + 1)

/-- The words of an L1 that its core writes whole lose their errors (R352). -/
def State.l1Mended (s : State) (ps : List Put) : State :=
  { s with poison := s.poison.filter fun q => match q with
      | .l1 c w => !(c == s.coreId && covers ps (8 * w) 8)
      | _ => true }

/-- A write of one lane to the host or a peer, which its home has still to perform, or of a word of the register page; a write
that no path carries is discarded as a deferred fault (R189, R399). -/
def State.writeAt (s : State) (a : Acc) (l : LaneAt) (bs : List Byte) : State :=
  match l.x with
  | .ok 0 _ _ _ _ => s
  | .ok 3 pa _ _ _ =>
    if pa < 0x1000 then s.launchWrite s.partId pa (l.n == 8) (BitVec.ofNat 64 (leValue bs)) else s
  | .ok loc pa _ _ _ =>
    if s.reachable s.partId loc pa then
      s.enter (writeRequest s.partId (.store s.cur) loc pa bs (a.word loc false + 65536) l.va)
    else (s.countRefused s.partId).setCg ((s.countRefused s.partId).cg.defer l.va (a.word loc false))
  | _ => s

/-- The writes of one instruction that do not go to local memory. -/
def State.sendAll (s : State) (a : Acc) (ws : List (LaneAt × List Byte)) : State :=
  (lastWrites ws).foldl (fun t w => t.writeAt a w.1 w.2) s

/-- A register page access waits for the releases of `.ar` at `.s`, and a `tlbinv` for room (R364, R365). -/
def State.regPageStop (s : State) (ls : List LaneAt) (vals : List Nat) : Option Stop :=
  if ls.any LaneAt.isReg then
    firstStop
      [s.releaseStop .s 0,
        stopIf ((ls.zip vals).any fun e => match e.1.x with
          | .ok 3 pa _ _ _ => s.launchWaits s.partId pa (BitVec.ofNat 64 e.2)
          | _ => false) .stall]
  else none

/-- Marks the leaves, fills the TLBs and notes the acquire of accesses to the register page (R360, R362, R365). -/
def State.touched (s : State) (ls : List LaneAt) (writes : Bool) : State :=
  (ls.foldl (fun t l => t.fillCore s.coreId l.va l.x) (s.markLeaves (ls.map fun l => l.x) writes)).noteAcquire .s
    (ls.any LaneAt.isReg)

/-- What loads do beside their registers. -/
def State.loaded (s : State) (ls : List LaneAt) : State := s.touched ls false

/-- The L1's lines that an instruction writes become dirty (R293). -/
def State.l1Written (s : State) (ls : List LaneAt) : State := (localLines ls).foldl (fun t k => t.l1Dirty t.coreId k) s

/-! A store or an `atom` through the L1: each line's part is performed when the L1 serves the line, E or M (R294). -/

/-- Where a path notes that the access at place i of its instruction is performed, with what it gave. -/
def placeKey (i : Nat) : Nat := 2 ^ 61 + i

/-- The accesses to local memory that are not performed, with their places. -/
def State.openAt (s : State) (ls : List LaneAt) : List (Nat × LaneAt) :=
  ((List.range ls.length).zip ls).filter fun e =>
    e.2.isLocal && (s.cg.run.under.isEmpty || !s.cg.run.served.any fun x => x.1 == placeKey e.1)

/-- Notes what accesses gave. -/
def State.noted (s : State) (l : List (Nat × List Byte)) : State :=
  s.setRun { s.cg.run with served := l.map (fun e => (placeKey e.1, e.2)) ++ s.cg.run.served }

/-- Performs an instruction's accesses to local memory: all that are left, once the requests are answered and the L1 serves their
lines, and then what is to follow; else those whose lines it serves, while it asks for the others. -/
def State.access (s : State) (ls : List LaneAt) (asks : List Ask) (left : List (Nat × LaneAt))
    (perform : State → List (Nat × LaneAt) → State) (whole : State → State) : State :=
  let late := (localLines (left.map fun e => e.2)).filter fun k => !s.l1Hit s.coreId k true
  if asks.isEmpty && late.isEmpty then whole (perform s left)
  else
    let now := if asks.isEmpty then left.filter fun e => !(localLines [e.2]).any late.contains else []
    let s1 := perform s now
    (late.foldl (fun t k => t.l1Ask t.coreId k true) (s1.setRun { s1.cg.run with under := ls })).askPath asks

/-- The writes of a store that have the given places (R175, R352). -/
def State.storePart (ws : List (LaneAt × List Byte)) (s : State) (now : List (Nat × LaneAt)) : State :=
  let l := lastWrites (((List.range ws.length).zip ws).filterMap fun e =>
    if now.any fun x => x.1 == e.1 then some e.2 else none)
  ((((s.l1Written (now.map fun e => e.2)).putLocal l).l1Mended (s.localPuts 0 l ++ s.localPuts (s.partId + 1) l))).noted
    (now.map fun e => (e.1, []))

/-- What a store does: the leaves are marked, then the bytes are written (R175, R360). -/
def State.stored (s : State) (a : Acc) (ws : List (LaneAt × List Byte)) : State :=
  let ls := ws.map fun w => w.1
  let s1 := if s.cg.run.under.isEmpty then s.touched ls true else s
  s1.access ls [] (s1.openAt ls) (State.storePart ws) fun t => (t.sendAll a ws).advance

/-- Group-uniform read of n bytes in 8-byte words (R110, R236): lane none. -/
def State.uniAt (s : State) (va n w : Nat) : List LaneAt :=
  (List.range (n / w)).map fun i =>
    let a := (va + w * i) % 2 ^ 48
    ⟨none, a, w, s.xlate a Need.read⟩

/-- The last checks of a read through the L1 (R173, R294, R360, R365, R394). -/
def State.readStop (s : State) (a : Acc) (ls : List LaneAt) : Option Stop :=
  markedStop ls false [s.dataStop a ls, s.ownStop ls, s.askStop a ls, s.regPageStop ls [], s.l1Stop ls]

/-- The last checks of a write through the L1. -/
def State.writeStop (s : State) (ls : List LaneAt) (vals : List Nat) : Option Stop :=
  markedStop ls true [s.regPageStop ls vals, s.ownStop (ls.filter LaneAt.isLocal)]

/-- A store of the given accesses: no check is made again once they were made (R173). -/
def State.storeOp (s : State) (a : Acc) (stops : List (Option Stop)) (ws : List (LaneAt × List Byte)) :
    Host.Outcome State Fault Refusal :=
  if s.cg.run.under.isEmpty then groupOp s (firstStop stops) (s.stored a ws)
  else .next (s.stored a (s.cg.run.under.zip (ws.map fun w => w.2)))

/-- Checks of a group-uniform read (R173, R365). -/
def State.uniStop (s : State) (a : Acc) (ls : List LaneAt) : Option Stop :=
  firstStop [pageStop a false ls, permStop a ls, s.readStop a ls]

/-- Its bytes. -/
def State.uniBytes (s : State) (ls : List LaneAt) : List Byte := (ls.map fun l => leBytes l.n (s.readAt l)).flatten

end Sys2Proof.Machine
end

