-- ==== Sys2Proof/Machine/Num.lean ====
section
/-! DEFINITION. Exact numbers, rounding (R71, R72), flags (R73), and the number formats (R75-R92). -/
namespace Sys2Proof.Machine

open Sys2Proof

/-- A number as an operand or a result: fin is ±m·2^e with m above 0. -/
inductive Val where
  | nan (signalling : Bool)
  | inf (neg : Bool)
  | zero (neg : Bool)
  | fin (neg : Bool) (m : Nat) (e : Int)
deriving DecidableEq, Repr

/-- The five modes (R71). -/
inductive Mode where
  | rne | rtz | rup | rdn | rna
deriving DecidableEq, Repr

/-- Exception flags, bits 4 to 0 NV DZ OF UF NX (R73). -/
abbrev Flags := BitVec 5

def Flags.nv : Flags := 16
def Flags.dz : Flags := 8
def Flags.of : Flags := 4
def Flags.uf : Flags := 2
def Flags.nx : Flags := 1

/-- A result with the flags it raises. -/
structure Res where
  val : Val
  flags : Flags
deriving DecidableEq, Repr

/-- Parameters of round_f (R72). -/
structure Fmt where
  p : Nat
  emin : Int
  emax : Int
  subn : Bool
deriving DecidableEq, Repr

def Fmt.f16 : Fmt := ⟨11, -14, 15, true⟩
def Fmt.bf16 : Fmt := ⟨8, -126, 127, true⟩
def Fmt.f32 : Fmt := ⟨24, -126, 127, true⟩
def Fmt.f64 : Fmt := ⟨53, -1022, 1023, true⟩
/-- round_p (R72). -/
def Fmt.vp (p : Nat) : Fmt := ⟨p, -524287, 524288, false⟩

/-- An exact real before rounding. real: magnitude n·2^e, or strictly between n·2^e and (n+1)·2^e when more. -/
inductive Exact where
  | done (r : Res)
  | real (neg : Bool) (n : Nat) (e : Int) (more : Bool)
deriving DecidableEq, Repr

/-- m·2^k for an integer k that leaves no fraction. -/
def scaleNat (m : Nat) (k : Int) : Nat := if 0 ≤ k then m * 2 ^ k.toNat else m / 2 ^ (-k).toNat

/-- Whether the magnitude is rounded away from zero: rem of half-twice parts, more below them. -/
def roundsUp (mode : Mode) (neg odd : Bool) (rem half : Nat) (more : Bool) : Bool :=
  match mode with
  | .rtz => false
  | .rup => !neg
  | .rdn => neg
  | .rne => decide (half < rem) || (decide (rem = half) && (more || odd))
  | .rna => decide (half ≤ rem)

/-- A value below the smallest normal of a format without subnormals (R72). -/
def roundTiny (f : Fmt) (mode : Mode) (neg : Bool) (lg : Int) (power : Bool) : Res :=
  let up :=
    match mode with
    | .rtz => false
    | .rup => !neg
    | .rdn => neg
    | .rne => decide (lg = f.emin - 1) && !power
    | .rna => decide (lg = f.emin - 1)
  ⟨if up then .fin neg 1 f.emin else .zero neg, Flags.uf ||| Flags.nx⟩

/-- Overflow (R72). -/
def roundHuge (f : Fmt) (mode : Mode) (neg : Bool) : Res :=
  let toInf :=
    match mode with
    | .rne => true
    | .rna => true
    | .rup => !neg
    | .rdn => neg
    | .rtz => false
  ⟨if toInf then .inf neg else .fin neg (2 ^ f.p - 1) (f.emax - f.p + 1), Flags.of ||| Flags.nx⟩

/-- round_f (R72) of a non-zero real. -/
def roundReal (f : Fmt) (mode : Mode) (neg : Bool) (n : Nat) (e : Int) (more : Bool) : Res :=
  let lg : Int := Nat.log2 n + e
  if !f.subn && decide (lg < f.emin) then
    roundTiny f mode neg lg (decide (n = 2 ^ Nat.log2 n) && !more)
  else
    let q : Int := (if lg < f.emin then f.emin else lg) - f.p + 1
    let sh := (q - e).toNat
    let n' := if q < e then n * 2 ^ (e - q).toNat else n
    let lo := n' / 2 ^ sh
    let rem := n' % 2 ^ sh
    let inexact := decide (rem ≠ 0) || more
    let up := inexact && roundsUp mode neg (lo % 2 == 1) (2 * rem) (2 ^ sh) more
    let m := if up then lo + 1 else lo
    if m = 0 then ⟨.zero neg, Flags.nx ||| Flags.uf⟩
    else if f.emax < Nat.log2 m + q then roundHuge f mode neg
    else
      ⟨.fin neg m q,
        if inexact then (if f.subn && decide (lg < f.emin) then Flags.nx ||| Flags.uf else Flags.nx) else 0⟩

/-- Rounding once (R71). -/
def Exact.round (f : Fmt) (mode : Mode) (x : Exact) : Res :=
  match x with
  | .done r => r
  | .real neg n e more => if n = 0 ∧ more = false then ⟨.zero neg, 0⟩ else
      if n = 0 then roundReal f mode neg 1 (e - 2 * (f.p + 4)) true else roundReal f mode neg n e more

/-- Whether round would change the value. -/
def Res.inexact (r : Res) : Bool := decide (r.flags &&& (Flags.nx ||| Flags.of ||| Flags.uf) ≠ 0)

/-! Operations on numbers (R73, R76, R77, R137, R138). -/

def Val.isNan : Val → Bool
  | .nan _ => true
  | _ => false

def Val.isSnan : Val → Bool
  | .nan s => s
  | _ => false

def Val.neg : Val → Val
  | .nan s => .nan s
  | .inf n => .inf (!n)
  | .zero n => .zero (!n)
  | .fin n m e => .fin (!n) m e

def Val.sign : Val → Bool
  | .nan _ => false
  | .inf n => n
  | .zero n => n
  | .fin n _ _ => n

def quietNan (raise : Bool) : Exact := .done ⟨.nan false, if raise then Flags.nv else 0⟩

def exactZero (neg : Bool) : Exact := .done ⟨.zero neg, 0⟩

/-- ±m·2^e as an integer at exponent k ≤ e. -/
def alignInt (neg : Bool) (m : Nat) (e k : Int) : Int :=
  let v : Int := (m * 2 ^ (e - k).toNat : Nat)
  if neg then -v else v

/-- Sum of two finite non-zero values. -/
def addFin (mode : Mode) (na : Bool) (ma : Nat) (ea : Int) (nb : Bool) (mb : Nat) (eb : Int) : Exact :=
  let k := if ea ≤ eb then ea else eb
  let s := alignInt na ma ea k + alignInt nb mb eb k
  if s = 0 then exactZero (decide (mode = .rdn)) else .real (decide (s < 0)) s.natAbs k false

def Val.toExact (v : Val) : Exact :=
  match v with
  | .fin n m e => .real n m e false
  | v => .done ⟨v, 0⟩

def Val.add (mode : Mode) (a b : Val) : Exact :=
  match a, b with
  | .nan s, b => quietNan (s || b.isSnan)
  | a, .nan s => quietNan (s || a.isSnan)
  | .inf na, .inf nb => if na = nb then .done ⟨.inf na, 0⟩ else quietNan true
  | .inf na, _ => .done ⟨.inf na, 0⟩
  | _, .inf nb => .done ⟨.inf nb, 0⟩
  | .zero na, .zero nb => exactZero (if na = nb then na else decide (mode = .rdn))
  | .zero _, .fin n m e => .real n m e false
  | .fin n m e, .zero _ => .real n m e false
  | .fin na ma ea, .fin nb mb eb => addFin mode na ma ea nb mb eb

def Val.mul (a b : Val) : Exact :=
  match a, b with
  | .nan s, b => quietNan (s || b.isSnan)
  | a, .nan s => quietNan (s || a.isSnan)
  | .inf na, .zero _ => let _ := na; quietNan true
  | .zero _, .inf nb => let _ := nb; quietNan true
  | .inf na, b => .done ⟨.inf (na != b.sign), 0⟩
  | a, .inf nb => .done ⟨.inf (a.sign != nb), 0⟩
  | .zero na, b => exactZero (na != b.sign)
  | a, .zero nb => exactZero (a.sign != nb)
  | .fin na ma ea, .fin nb mb eb => .real (na != nb) (ma * mb) (ea + eb) false

/-- a·b + c (R137): 0 × ∞ raises NV whatever the addend (R73). -/
def Val.fma (mode : Mode) (a b c : Val) : Exact :=
  match Val.mul a b with
  | .real n m e _ => Val.add mode (.fin n m e) c
  | .done r =>
    match r.val with
    | .nan _ => quietNan (decide (r.flags &&& Flags.nv ≠ 0) || c.isSnan)
    | v => Val.add mode v c

/-- Quotient to at least p + 4 bits. -/
def divFin (p : Nat) (neg : Bool) (ma : Nat) (ea : Int) (mb : Nat) (eb : Int) : Exact :=
  let k := p + 4 + Nat.log2 mb
  let n := ma * 2 ^ k / mb
  .real neg n (ea - eb - k) (decide (ma * 2 ^ k % mb ≠ 0))

def Val.div (p : Nat) (a b : Val) : Exact :=
  match a, b with
  | .nan s, b => quietNan (s || b.isSnan)
  | a, .nan s => quietNan (s || a.isSnan)
  | .inf _, .inf _ => quietNan true
  | .zero _, .zero _ => quietNan true
  | .inf na, b => .done ⟨.inf (na != b.sign), 0⟩
  | a, .inf nb => exactZero (a.sign != nb)
  | .zero na, b => exactZero (na != b.sign)
  | a, .zero nb => .done ⟨.inf (a.sign != nb), Flags.dz⟩
  | .fin na ma ea, .fin nb mb eb => divFin p (na != nb) ma ea mb eb

/-- Bits i to 0 of the integer square root. -/
def isqrtFrom (n r : Nat) : Nat → Nat
  | 0 => if (r + 1) * (r + 1) ≤ n then r + 1 else r
  | i + 1 => isqrtFrom n (if (r + 2 ^ (i + 1)) * (r + 2 ^ (i + 1)) ≤ n then r + 2 ^ (i + 1) else r) i

/-- The integer square root, rounded down. -/
def isqrt (n : Nat) : Nat := isqrtFrom n 0 (Nat.log2 n / 2 + 1)

/-- √(m·2^e) to at least p + 4 bits. -/
def sqrtFin (p : Nat) (m : Nat) (e : Int) : Exact :=
  let k : Nat := 2 * (p + 4) + (if (e % 2 : Int) = 0 then 0 else 1)
  let n := m * 2 ^ k
  let r := isqrt n
  .real false r ((e - (k : Int)) / 2) (decide (r * r ≠ n))

def Val.sqrt (p : Nat) (a : Val) : Exact :=
  match a with
  | .nan s => quietNan s
  | .zero n => exactZero n
  | .inf n => if n then quietNan true else .done ⟨.inf false, 0⟩
  | .fin n m e => if n then quietNan true else sqrtFin p m e

def Val.recip (p : Nat) (a : Val) : Exact :=
  match a with
  | .nan s => quietNan s
  | .zero n => .done ⟨.inf n, Flags.dz⟩
  | .inf n => exactZero n
  | .fin n m e => divFin p n 1 0 m e

/-- 1/√a (R138). -/
def Val.rsqrt (p : Nat) (a : Val) : Exact :=
  match a with
  | .nan s => quietNan s
  | .zero n => .done ⟨.inf n, Flags.dz⟩
  | .inf n => if n then quietNan true else exactZero false
  | .fin n m e =>
    if n then quietNan true
    else
      let odd : Nat := if (e % 2 : Int) = 0 then 0 else 1
      let m' := m * 2 ^ odd
      let e' : Int := e - (odd : Int)
      let t := p + 4 + Nat.log2 m'
      let r := isqrt (2 ^ (2 * t) / m')
      .real false r (-(e' / 2) - (t : Int)) (decide (r * r * m' ≠ 2 ^ (2 * t)))

/-- The order of two values, none with a NaN; zeros are equal (R141). -/
def Val.cmp (a b : Val) : Option Ordering :=
  match a, b with
  | .nan _, _ => none
  | _, .nan _ => none
  | .inf na, .inf nb => some (if na = nb then .eq else if na then .lt else .gt)
  | .inf na, _ => some (if na then .lt else .gt)
  | _, .inf nb => some (if nb then .gt else .lt)
  | .zero _, .zero _ => some .eq
  | .zero _, .fin n _ _ => some (if n then .gt else .lt)
  | .fin n _ _, .zero _ => some (if n then .lt else .gt)
  | .fin na ma ea, .fin nb mb eb =>
    let k := if ea ≤ eb then ea else eb
    some (compare (alignInt na ma ea k) (alignInt nb mb eb k))

/-- A condition on two integers (R62, R127). -/
def Cond.holds (c : Cond) (o : Ordering) : Bool :=
  match c, o with
  | .eq, .eq => true
  | .ne, .lt => true
  | .ne, .gt => true
  | .lt, .lt => true
  | .le, .lt => true
  | .le, .eq => true
  | .gt, .gt => true
  | .ge, .gt => true
  | .ge, .eq => true
  | _, _ => false

/-- A condition on two values with its flags (R141, R73). -/
def Cond.onVals (c : Cond) (a b : Val) : Bool × Flags :=
  match Val.cmp a b with
  | some o => (Cond.holds c o, 0)
  | none =>
    let ordered := decide (c ≠ .eq) && decide (c ≠ .ne)
    (decide (c = .ne), if ordered || a.isSnan || b.isSnan then Flags.nv else 0)

/-- A value rounded to an integer under a mode, with whether it changed (R90, R144). -/
def roundInt (mode : Mode) (neg : Bool) (m : Nat) (e : Int) : Nat × Bool :=
  if 0 ≤ e then (m * 2 ^ e.toNat, false)
  else
    let sh := (-e).toNat
    let lo := m / 2 ^ sh
    let rem := m % 2 ^ sh
    let up := decide (rem ≠ 0) && roundsUp mode neg (lo % 2 == 1) (2 * rem) (2 ^ sh) false
    (if up then lo + 1 else lo, decide (rem ≠ 0))

/-- Conversion to an integer of w bits (R90): the bits and the flags. -/
def Val.toInt (mode : Mode) (w : Nat) (signed : Bool) (a : Val) : Nat × Flags :=
  let lo : Int := if signed then -(2 ^ (w - 1) : Nat) else 0
  let hi : Int := if signed then (2 ^ (w - 1) : Nat) - 1 else (2 ^ w : Nat) - 1
  match a with
  | .nan _ => (0, Flags.nv)
  | .inf n => (wrapTo w (if n then lo else hi), Flags.nv)
  | .zero _ => (0, 0)
  | .fin n m e =>
    let (k, ch) := roundInt mode n m e
    let i : Int := if n then -(k : Int) else k
    if i < lo then (wrapTo w lo, Flags.nv)
    else if hi < i then (wrapTo w hi, Flags.nv)
    else (wrapTo w i, if ch then Flags.nx else 0)

/-- An integer as an exact value. -/
def Val.ofInt (i : Int) : Val := if i = 0 then .zero false else .fin (decide (i < 0)) i.natAbs 0

/-- Rounding to an integral value in the own format (R144). -/
def Val.roundIntegral (mode : Mode) (a : Val) : Res :=
  match a with
  | .nan s => ⟨.nan false, if s then Flags.nv else 0⟩
  | .inf n => ⟨.inf n, 0⟩
  | .zero n => ⟨.zero n, 0⟩
  | .fin n m e =>
    let (k, ch) := roundInt mode n m e
    ⟨if k = 0 then .zero n else .fin n k 0, if ch then Flags.nx else 0⟩

/-- A value passed on unrounded as a conversion source (R76, R88). -/
def Val.forConvert (a : Val) : Exact :=
  match a with
  | .nan s => quietNan s
  | v => v.toExact

/-! Encodings of the IEEE and BF16 formats (R75, R78). -/

/-- Exponent and fraction widths of a format. -/
structure Enc where
  eb : Nat
  fb : Nat
deriving DecidableEq, Repr

def Enc.f16 : Enc := ⟨5, 10⟩
def Enc.bf16 : Enc := ⟨8, 7⟩
def Enc.f32 : Enc := ⟨8, 23⟩
def Enc.f64 : Enc := ⟨11, 52⟩
def Enc.e5m2 : Enc := ⟨5, 2⟩

def Enc.bias (c : Enc) : Nat := 2 ^ (c.eb - 1) - 1

def Enc.decode (c : Enc) (x : Nat) : Val :=
  let neg := x / 2 ^ (c.eb + c.fb) % 2 == 1
  let ex := x / 2 ^ c.fb % 2 ^ c.eb
  let fr := x % 2 ^ c.fb
  if ex = 2 ^ c.eb - 1 then
    if fr = 0 then .inf neg else .nan (decide (fr < 2 ^ (c.fb - 1)))
  else if ex = 0 then
    if fr = 0 then .zero neg else .fin neg fr (1 - (c.bias : Int) - c.fb)
  else .fin neg (2 ^ c.fb + fr) ((ex : Int) - c.bias - c.fb)

/-- The bits of a value that the format holds; the canonical quiet NaN for any NaN (R75). -/
def Enc.encode (c : Enc) (v : Val) : Nat :=
  let sb (n : Bool) : Nat := if n then 2 ^ (c.eb + c.fb) else 0
  match v with
  | .nan _ => (2 ^ c.eb - 1) * 2 ^ c.fb + 2 ^ (c.fb - 1)
  | .inf n => sb n + (2 ^ c.eb - 1) * 2 ^ c.fb
  | .zero n => sb n
  | .fin n m e =>
    let lg : Int := Nat.log2 m + e
    let emin : Int := 1 - (c.bias : Int)
    if lg < emin then sb n + scaleNat m (e - (emin - c.fb))
    else sb n + (lg + c.bias).toNat * 2 ^ c.fb + (scaleNat m ((c.fb : Int) - Nat.log2 m) - 2 ^ c.fb)

/-! Eight-bit and four-bit formats (R79-R83). -/

def decodeE4m3 (x : Nat) : Val :=
  let neg := x / 128 % 2 == 1
  let ex := x / 8 % 16
  let fr := x % 8
  if ex = 15 ∧ fr = 7 then .nan false
  else if ex = 0 then (if fr = 0 then .zero neg else .fin neg fr (-9))
  else .fin neg (8 + fr) ((ex : Int) - 10)

def decodeE5m2 (x : Nat) : Val := Enc.e5m2.decode x

def decodeE2m1 (x : Nat) : Val :=
  let neg := x / 8 % 2 == 1
  let ex := x / 2 % 4
  let fr := x % 2
  if ex = 0 then (if fr = 0 then .zero neg else .fin neg 1 (-1)) else .fin neg (2 + fr) ((ex : Int) - 2)

def decodeS8 (x : Nat) : Val := Val.ofInt (signedOf 8 x)

/-- Sixty-fourths of a DPT8 byte (R82). -/
def dpt64 (x : Nat) : Int :=
  let term (s k : Nat) : Int := if k = 7 then 0 else if s = 1 then -(64 / 2 ^ k : Nat) else (64 / 2 ^ k : Nat)
  term (x / 128 % 2) (x / 16 % 8) + term (x / 8 % 2) (x % 8)

def decodeDpt (x : Nat) : Val :=
  let v := dpt64 x
  if v = 0 then .zero false else .fin (decide (v < 0)) v.natAbs (-6)

/-- Rank of an encoding under R83: number of terms, then a ≤ b, then a; sign bits of zero terms 0. -/
def dptRank (x : Nat) : Nat :=
  let a := x / 16 % 8
  let b := x % 8
  let terms := (if a = 7 then 0 else 1) + (if b = 7 then 0 else 1)
  let stray := (if a = 7 ∧ x / 128 % 2 = 1 then 1 else 0) + (if b = 7 ∧ x / 8 % 2 = 1 then 1 else 0)
  ((terms * 4 + (if a ≤ b then 0 else 1)) * 8 + a) * 4 + stray

/-- The canonical byte of v sixty-fourths, if v is in the DPT8 value set (R83). -/
def dptCanonical (v : Int) : Option Nat :=
  (List.range 256).foldl
    (fun best x =>
      if dpt64 x = v then
        match best with
        | none => some x
        | some y => if dptRank x < dptRank y then some x else some y
      else best) none

/-- The value set in sixty-fourths, ascending magnitudes (R82). -/
def dptMags : List Nat := (List.range 129).filter fun k => (dptCanonical k).isSome

/-- An E8M0 scale: none for NaN (R80). -/
def scaleExp (x : Nat) : Option Int := if x = 255 then none else some ((x : Int) - 127)

/-! VP values (R84-R87). -/

/-- k(p) (R86). -/
def vpExtent (p : Nat) : Nat := Nat.max 2 (1 + ceilDiv (p - 7) 32)

/-- Value of the words of extent k, head first (R84, R85). -/
def vpDecode (ws : List Nat) : Val :=
  match ws with
  | [] => .nan true
  | h :: rest =>
    let neg := h / 2 ^ 31 % 2 == 1
    match h / 2 ^ 26 % 4 with
    | 0 =>
      let fb := 6 + 32 * rest.length
      let fr := rest.foldl (fun a w => a * 2 ^ 32 + w) (h % 64)
      .fin neg (2 ^ fb + fr) ((h / 64 % 2 ^ 20 : Nat) - (524287 : Int) - fb)
    | 1 => .zero neg
    | 2 => .inf neg
    | _ => .nan (h / 32 % 2 == 0)

/-- The low words of a fraction, most significant first. -/
def vpWords (fr : Nat) : Nat → List Nat
  | 0 => []
  | k + 1 => fr / 2 ^ (32 * k) % 2 ^ 32 :: vpWords fr k

/-- The words of a value at extent k, canonical NaN (R75, R84-R86). -/
def vpEncode (k : Nat) (v : Val) : List Nat :=
  let hd (neg : Bool) (cls : Nat) : Nat := (if neg then 2 ^ 31 else 0) + (k - 1) * 2 ^ 28 + cls * 2 ^ 26
  match v with
  | .nan _ => ((k - 1) * 2 ^ 28 + 0x0FFFFFE0) :: List.replicate (k - 1) 0
  | .inf n => hd n 2 :: List.replicate (k - 1) 0
  | .zero n => hd n 1 :: List.replicate (k - 1) 0
  | .fin n m e =>
    let fb := 6 + 32 * (k - 1)
    let lg := Nat.log2 m
    let fr := scaleNat m ((fb : Int) - lg) - 2 ^ fb
    (hd n 0 + ((lg : Int) + e + 524287).toNat * 64 + fr / 2 ^ (32 * (k - 1))) :: vpWords fr (k - 1)

/-! Matrix dot products (R91, R92) and walk distances (R228). -/

/-- One product as a value, or none for a product whose scale is NaN. -/
def dotHasNan (ps : List Exact) : Bool :=
  ps.any fun p => match p with
    | .done r => r.val.isNan
    | _ => false

def dotHasInf (neg : Bool) (ps : List Exact) : Bool :=
  ps.any fun p => match p with
    | .done r => decide (r.val = .inf neg)
    | _ => false

/-- E of R91: the largest floor(log2 |P|) of the non-zero products. -/
def dotTop (ps : List Exact) : Option Int :=
  ps.foldl
    (fun best p =>
      match p with
      | .real _ n e _ =>
        let lg : Int := Nat.log2 n + e
        match best with
        | none => some lg
        | some b => some (if b < lg then lg else b)
      | _ => best) none

/-- S of R91 in units of 2^q. -/
def dotSum (q : Int) (ps : List Exact) : Int :=
  ps.foldl
    (fun acc p =>
      match p with
      | .real neg n e _ =>
        let t : Int := (scaleNat n (e - q) : Nat)
        if neg then acc - t else acc + t
      | _ => acc) 0

/-- S + C with its one rounding to binary32 under rne (R91, R228). -/
def sumOnto (s : Int) (q : Int) (c : Val) : Val :=
  if s = 0 then c
  else
    match c with
    | .fin n m e =>
      let k := if q ≤ e then q else e
      let t := alignInt (decide (s < 0)) s.natAbs q k + alignInt n m e k
      if t = 0 then .zero false else (roundReal Fmt.f32 .rne (decide (t < 0)) t.natAbs k false).val
    | .zero _ => (roundReal Fmt.f32 .rne (decide (s < 0)) s.natAbs q false).val
    | v => v

/-- The value of an output element (R91, R92). -/
def dot (ps : List Exact) (c : Val) : Val :=
  if c.isNan || dotHasNan ps then .nan false
  else
    let pi := dotHasInf false ps || decide (c = .inf false)
    let ni := dotHasInf true ps || decide (c = .inf true)
    if pi && ni then .nan false
    else if pi then .inf false
    else if ni then .inf true
    else
      match dotTop ps with
      | none => c
      | some top => sumOnto (dotSum (top - 59) ps) (top - 59) c

/-- Sum of exact terms onto an accumulator without truncation (R228). DESIGN CHOICE: an infinite accumulator counts among the
infinities of opposite sign, which R228 does not say (log 78). -/
def exactSum (ps : List Exact) (c : Val) : Val :=
  if c.isNan || dotHasNan ps then .nan false
  else
    let pi := dotHasInf false ps || decide (c = .inf false)
    let ni := dotHasInf true ps || decide (c = .inf true)
    if pi && ni then .nan false
    else if pi then .inf false
    else if ni then .inf true
    else
      let low := ps.foldl (fun (b : Int) p => match p with
        | .real _ _ e _ => if e < b then e else b
        | _ => b) 0
      sumOnto (dotSum low ps) low c

/-! Conversions into the narrow formats by the Warm-up Array (R88, R89, R385), under rne. x is ±n·2^e. The overflow
flag of the output is the second component. -/

/-- Magnitude n·2^e rounded to nearest even with p bits and least exponent emin. -/
def nearest (p : Nat) (emin : Int) (neg : Bool) (n : Nat) (e : Int) : Res :=
  roundReal ⟨p, emin, 1000000, true⟩ .rne neg n e false

/-- n·2^e compared with c. -/
def magAbove (v : Val) (c : Nat) : Bool :=
  match v with
  | .fin _ m e => if 0 ≤ e then decide (c < m * 2 ^ e.toNat) else decide (c * 2 ^ (-e).toNat < m)
  | _ => false

def toE4m3 (neg : Bool) (n : Nat) (e : Int) : Nat × Bool :=
  let s := if neg then 128 else 0
  match n with
  | 0 => (0, false)
  | _ =>
    let v := (nearest 4 (-6) neg n e).val
    if magAbove v 448 then (s + 0x7E, true)
    else
      match v with
      | .fin _ m k =>
        let lg : Int := Nat.log2 m + k
        if lg < -6 then (s + scaleNat m (k + 9), false)
        else (s + (lg + 7).toNat * 8 + (scaleNat m (3 - (Nat.log2 m : Int)) - 8), false)
      | _ => (s, false)

/-- FP16 and E5M2 outputs: mode 0 gives the largest finite, mode 1 infinity (R385). -/
def toSmallFloat (f : Fmt) (c : Enc) (wrap : Bool) (neg : Bool) (n : Nat) (e : Int) : Nat × Bool :=
  match n with
  | 0 => (0, false)
  | _ =>
    let r := roundReal f .rne neg n e false
    if r.flags &&& Flags.of ≠ 0 then
      (c.encode (if wrap then .inf neg else .fin neg (2 ^ f.p - 1) (f.emax - f.p + 1)), true)
    else (c.encode r.val, false)

/-- INT8 outputs (R89, R385). -/
def toS8 (wrap : Bool) (neg : Bool) (n : Nat) (e : Int) : Nat × Bool :=
  let (k, _) := roundInt .rne neg n e
  let i : Int := if neg then -(k : Int) else k
  if i < -128 then (if wrap then wrapTo 8 i else 0x80, true)
  else if 127 < i then (if wrap then wrapTo 8 i else 0x7F, true)
  else (wrapTo 8 i, false)

/-- The member of the DPT8 value set nearest to n·2^e, ties to the larger magnitude (R89); beyond 2 it is 2. -/
def toDpt (neg : Bool) (n : Nat) (e : Int) : Nat × Bool :=
  let k : Int := if e < -6 then e else -6
  let x := n * 2 ^ (e - k).toNat
  let unit := 2 ^ ((-6 : Int) - k).toNat
  let best := dptMags.foldl
    (fun b c =>
      let db := if x ≤ b * unit then b * unit - x else x - b * unit
      let dc := if x ≤ c * unit then c * unit - x else x - c * unit
      if dc ≤ db then c else b) 0
  let v : Int := if neg then -(best : Int) else best
  match dptCanonical v with
  | some b => (b, decide (128 * unit < x))
  | none => (0x77, decide (128 * unit < x))

end Sys2Proof.Machine
end

