-- ==== Sys2Proof/Machine/Flags.lean ====
section
/-! DEFINITION. Rounding mode of a lane, sticky flags and FP_TRAP (R71, R73, R74). -/
namespace Sys2Proof.Machine

open Sys2Proof

def modeOf : Nat → Mode
  | 0 => .rne
  | 1 => .rtz
  | 2 => .rup
  | 3 => .rdn
  | _ => .rna

/-- The mode in force in a lane (R71): the suffix, else `%round`. -/
def Group.mode (g : Group) (r : Rnd) (l : Nat) : Mode :=
  match r with
  | .dyn => modeOf (g.roundOf l)
  | .rne => .rne
  | .rtz => .rtz
  | .rup => .rup
  | .rdn => .rdn
  | .rna => .rna

/-- Flags a lane would raise. -/
structure LaneFlags where
  lane : Nat
  flags : Flags
deriving DecidableEq, Repr

/-- FP_TRAP (R74): the lowest lane that would raise an enabled flag. -/
def State.fpStop (s : State) (nf : Bool) (fs : List LaneFlags) : Option Stop :=
  let hits := fs.filter fun f => f.flags &&& s.ct.enables != 0
  if nf then none
  else
    match hits with
    | [] => none
    | f :: _ =>
      let en := hits.foldl (fun a h => a ||| (h.flags &&& s.ct.enables)) (0 : Flags)
      some (.trap (Trap.onLane causeFp (f.flags.toNat + 256 * en.toNat) 0 f.lane))

/-- Sets the sticky bits (R73). -/
def Group.raise (g : Group) (fs : List LaneFlags) : Group :=
  fs.foldl
    (fun x f => { x with fflags := Tbl.set 0 x.fflags f.lane (Tbl.get 0 x.fflags f.lane ||| f.flags.setWidth 8) }) g

def State.raiseFlags (s : State) (nf : Bool) (fs : List LaneFlags) : State := if nf then s else s.setCg (s.cg.raise fs)

/-! Elements of the IEEE and BF16 types (R78, R134). -/

def Ty.fmt : Ty → Fmt
  | .f16 => Fmt.f16
  | .bf16 => Fmt.bf16
  | .f64 => Fmt.f64
  | _ => Fmt.f32

def Ty.enc : Ty → Enc
  | .f16 => Enc.f16
  | .bf16 => Enc.bf16
  | .f64 => Enc.f64
  | _ => Enc.f32

/-- Types of two elements a register. -/
def Ty.packed (t : Ty) : Bool := t == .f16 || t == .bf16

/-- Types held in a pair (R13). -/
def Ty.wide (t : Ty) : Bool := t == .f64 || t == .n64 || t == .s64

/-- Bits of a result with its flags. -/
structure FpOut where
  bits : Nat
  flags : Flags
deriving DecidableEq, Repr

/-- An exact result rounded to a type. -/
def fpRound (t : Ty) (m : Mode) (x : Exact) : FpOut :=
  let r := x.round (Ty.fmt t) m
  ⟨(Ty.enc t).encode r.val, r.flags⟩

/-- A function of elements on the elements of its operands: both of a packed type, the flags ORed (R78). -/
def onElements (t : Ty) (f : Nat → Nat → Nat → FpOut) (a b c : Nat) : FpOut :=
  if Ty.packed t then
    let lo := f (a % 65536) (b % 65536) (c % 65536)
    let hi := f (a / 65536 % 65536) (b / 65536 % 65536) (c / 65536 % 65536)
    ⟨lo.bits + 65536 * hi.bits, lo.flags ||| hi.flags⟩
  else f a b c

/-- Smaller or larger of two elements, −0 below +0 (R139). -/
def minMaxBits (c : Enc) (isMax : Bool) (x y : Nat) : FpOut :=
  let a := c.decode x
  let b := c.decode y
  let nv : Flags := if a.isSnan || b.isSnan then Flags.nv else 0
  if a.isNan && b.isNan then ⟨c.encode (.nan false), nv⟩
  else if a.isNan then ⟨y, nv⟩
  else if b.isNan then ⟨x, nv⟩
  else
    let below := match Val.cmp a b with
      | some .lt => true
      | some .eq => a.sign && !b.sign
      | _ => false
    ⟨if below != isMax then x else y, nv⟩

end Sys2Proof.Machine
end

