-- ==== Sys2Proof/Machine/VpCore.lean ====
section
/-! DEFINITION. Windows as operands and destinations of variable-precision instructions: reading, writing and the traps of
R149 to R152. -/
namespace Sys2Proof.Machine

open Sys2Proof

/-- Word j of the window of x register r in a lane (R18). -/
def Group.xword (g : Group) (r l j : Nat) : Nat := (g.winWord (g.xb + (g.xwin r).base + j) l).toNat

/-- The extent that a head states, 0 for extent code 0 (R84, R151). -/
def statedExtent (head : Nat) : Nat := if bits head 30 28 = 0 then 0 else bits head 30 28 + 1

def Group.stated (g : Group) (r l : Nat) : Nat := statedExtent (g.xword r l 0)

/-- The words of a value in a window, head first (R149). -/
def Group.xwords (g : Group) (r l : Nat) : List Nat := (List.range (g.stated r l)).map (g.xword r l)

/-- An x operand read at its full stored precision (R87). -/
def Group.xval (g : Group) (r : Reg) (l : Nat) : Val := vpDecode (g.xwords r.toNat l)

/-- VP_FORMAT of register operands, named by descending tail bits, at the lowest lane (R149, R151). -/
def State.vpFormatStop (s : State) (lanes : List Nat) (xs : List Reg) : Option Stop :=
  let bad (l : Nat) (r : Reg) : Bool := s.cg.stated r.toNat l == 0 || decide ((s.cg.xwin r.toNat).ext < s.cg.stated r.toNat l)
  match lanes.filter fun l => xs.any (bad l) with
  | [] => none
  | l :: _ =>
    let r := ((xs.filter (bad l)).headD 0).toNat
    some (.trap (Trap.onLane causeVpFormat (2 ^ 28 + 4096 * s.cg.stated r l + 256 * (s.cg.xwin r).ext + r) 0 l))

/-- A value to be written to a window in a lane: its words, flags, whether rounding changed it and the precision that would
hold it (R150), whether it carries the marker, and the address of its element. -/
structure VpOut where
  lane : Nat
  words : List Nat
  flags : Flags
  changed : Bool
  pneed : Nat
  tag : Bool
  addr : Nat
deriving DecidableEq, Repr

/-- pneed of R150. -/
def pneedOf : Exact → Nat
  | .done _ => 0
  | .real _ n e more =>
    let lg : Int := Nat.log2 n + e
    let len := Nat.log2 n + 1 - ((List.range (Nat.log2 n + 1)).find? fun i => n.testBit i).getD 0
    let p := if len < 8 then 8 else len
    if more || n = 0 || decide (231 < p) || decide (lg < -524287) || decide (524288 < lg) then 0 else p

/-- round_p at a precision, written at extent k(p) (R86, R153). -/
def vpRound (p : Nat) (m : Mode) (x : Exact) (l : Nat) : VpOut :=
  let r := x.round (Fmt.vp p) m
  let changed := match x with
    | .real _ _ _ _ => r.inexact
    | .done _ => false
  ⟨l, vpEncode (vpExtent p) r.val, r.flags, changed, pneedOf x, false, 0⟩

/-- The result of a rounding instruction in a lane. -/
def Group.vpResult (g : Group) (rnd : Rnd) (l : Nat) (f : Mode → Exact) : VpOut :=
  vpRound (g.precOf l) (g.mode rnd l) (f (g.mode rnd l)) l

/-- PREC_EXHAUSTED (R150): `%tval`. -/
def precTval (kind pneed kw e d : Nat) : Nat := 2 ^ 24 * pneed + 65536 * kind + 4096 * kw + 256 * e + d

/-- PREC_EXHAUSTED of the window kind, then of the exact kind, at the lowest lane. -/
def State.precStop (s : State) (d : Reg) (exact : Bool) (outs : List VpOut) : Option Stop :=
  let e := (s.cg.xwin d.toNat).ext
  let trap (kind : Nat) (o : VpOut) : Stop :=
    .trap (Trap.onLane causePrec (precTval kind (if kind = 1 then o.pneed else 0) o.words.length e d.toNat) o.addr o.lane)
  match outs.filter fun o => decide (e < o.words.length) with
  | o :: _ => some (trap 0 o)
  | [] =>
    match outs.filter fun o => exact && o.changed with
    | o :: _ => some (trap 1 o)
    | [] => none

/-- Writes words 0 to kw − 1 of a window in a lane; the tag becomes the value's (R150). -/
def Group.writeX (g : Group) (d : Nat) (o : VpOut) : Group :=
  let at_ := g.xb + (g.xwin d).base
  let g1 := (o.words.zip (List.range o.words.length)).foldl
    (fun (x : Group) w => x.setWin (at_ + w.2) o.lane (BitVec.ofNat 32 w.1)) g
  let t := Tbl.get 0 g.xtag d
  { g1 with xtag := Tbl.set 0 g1.xtag d (if o.tag then t ||| laneBit o.lane else t &&& ~~~(laneBit o.lane)) }

/-- Drops the errors of window words written whole (R276). -/
def State.cleanWin (s : State) (at_ n : Nat) (lanes : List Nat) : State :=
  { s with poison := s.poison.filter fun q => match q with
      | .win g k l => !(g == s.cur && decide (at_ ≤ k) && decide (k < at_ + n) && lanes.contains l)
      | _ => true }

def State.writeXs (s : State) (d : Nat) (outs : List VpOut) : State :=
  outs.foldl
    (fun t o => (t.setCg (t.cg.writeX d o)).cleanWin (t.cg.xb + (t.cg.xwin d).base) o.words.length [o.lane]) s

/-- An instruction that writes a window: xs are the x operands checked by R149, own its memory causes. -/
def State.vpWrite (s : State) (g : Guard) (ops : List Opnd) (xs : List Reg) (own : List (Option Stop)) (d : Reg)
    (nf exact : Bool) (outs : List VpOut) (s1 : State) : Host.Outcome State Fault Refusal :=
  let lanes := s.lanes g
  let flags := outs.map fun o => (⟨o.lane, o.flags⟩ : LaneFlags)
  groupOp s
    (firstStop
      ([s.operandStop lanes ops, s.guardStop g, s.vpFormatStop lanes xs] ++ own ++
        [s.precStop d exact outs, s.fpStop nf flags]))
    ((s1.raiseFlags nf flags).writeXs d.toNat outs).advance

end Sys2Proof.Machine
end

