-- ==== Sys2Proof/Machine/VpMem.lean ====
section
/-! DEFINITION. Variable-precision loads and stores (R158-R162). -/
namespace Sys2Proof.Machine

open Sys2Proof

/-- An access of one lane. -/
def State.laneAt (s : State) (l va n : Nat) (need : Need) : LaneAt := ⟨some l, va, n, s.xlate va need⟩

/-- Translation and permission in one step: the lowest access that fails either (R158 steps 1 and 3). -/
def reachStop (a : Acc) (writes : Bool) (ls : List LaneAt) : Option Stop :=
  firstLane (fun l => firstStop [pageStop a writes [l], permStop a [l]]) ls

/-- Words j0 to k − 1 of a value at va. -/
def State.vpWordsAt (s : State) (l va j0 k : Nat) (need : Need) : List LaneAt :=
  (List.range (k - j0)).map fun j => s.laneAt l ((va + 4 * (j0 + j)) % 2 ^ 48) 4 need

/-- Addresses of the elements (R158). -/
def State.vpAddr (s : State) (a : Reg) (off : BitVec 16) (l : Nat) : Nat :=
  wrapTo 48 ((s.cg.vpair a.toNat l : Nat) + off.toInt)
def State.vpAddrStride (s : State) (a b : Reg) (stride : BitVec 16) (l : Nat) : Nat :=
  (s.cg.vpair a.toNat l + 4 * stride.toNat * (s.cg.vreg b.toNat l).toNat) % 2 ^ 48

/-- Whether the word has a path on which it can be read. -/
def State.hasPath (s : State) (l : LaneAt) : Bool :=
  match l.x with
  | .ok loc pa _ _ _ => loc == 0 || (loc != 3 && s.reachable s.partId loc pa)
  | _ => false

/-- Whether it reads without a data error. -/
def State.readsClean (s : State) (a : Acc) (l : LaneAt) : Bool := s.hasPath l && (s.dataStop a [l]).isNone

/-- A value as a load finds it: its lane, its address, its head and its further words. -/
structure VpAt where
  lane : Nat
  va : Nat
  head : LaneAt
  rest : List LaneAt
deriving DecidableEq, Repr

/-- The words that the head of a value in memory states; a head that cannot be read states no further word. -/
def State.vpAt (s : State) (a : Acc) (l va : Nat) : VpAt :=
  let h := s.laneAt l va 4 Need.read
  ⟨l, va, h, if s.readsClean a h then s.vpWordsAt l va 1 (statedExtent (s.readAt h)) Need.read else []⟩

/-- VP_FORMAT of a head in memory (R151, R158 step 2). -/
def State.headStop (s : State) (a : Acc) (hs : List LaneAt) : Option Stop :=
  firstLane (fun h =>
    stopIf (s.readsClean a h && statedExtent (s.readAt h) == 0) (.trap (h.trap causeVpFormat (2 ^ 29)))) hs

def vpLoadAcc : Acc := ⟨6, 0, 0, 4⟩
def vpStoreAcc : Acc := ⟨7, 0, 0, 4⟩
def vpNextAcc : Acc := ⟨8, 0, 0, 4⟩

/-- The value read in a lane: its words when they fit the window, else rounded to the lane's precision (R159). -/
def State.vpLoaded (s : State) (rnd : Rnd) (d : Reg) (v : VpAt) : VpOut :=
  let ws := s.readAt v.head :: v.rest.map s.readAt
  if ws.length ≤ (s.cg.xwin d.toNat).ext then ⟨v.lane, ws, 0, false, 0, false, v.va⟩
  else { s.cg.vpResult rnd v.lane fun _ => (vpDecode ws).forConvert with addr := v.va }

def State.vpLoad (s : State) (g : Guard) (ops : List Opnd) (nf exact : Bool) (rnd : Rnd) (d : Reg) (addr : Nat → Nat) :
    Host.Outcome State Fault Refusal :=
  let a := vpLoadAcc
  let vs := (s.lanes g).map fun l => s.vpAt a l (addr l)
  let heads := vs.map fun v => v.head
  let rest := (vs.map fun v => v.rest).flatten
  let all := (vs.map fun v => v.head :: v.rest).flatten
  s.vpWrite g (ops ++ [opX d false]) []
    [misalignStop a 4 heads, reachStop a false heads,
      markedStop heads false
        [s.ownStop heads, s.askStop a (heads.filter s.hasPath), s.l1Stop heads, s.headStop a heads],
      reachStop a false rest, s.readStop a all]
    d nf exact (vs.map (s.vpLoaded rnd d)) (s.loaded all)

def execXld (g : Guard) (o : XldOp) (s : State) : Host.Outcome State Fault Refusal :=
  s.vpLoad g [opV o.a true true] o.nf o.exact o.rnd o.d (s.vpAddr o.a o.off)

def execXldStride (g : Guard) (o : XldStride) (s : State) : Host.Outcome State Fault Refusal :=
  s.vpLoad g [opV o.b false true, opV o.a true true] o.nf o.exact o.rnd o.d (s.vpAddrStride o.a o.b o.stride)

/-- Stores the words that the window's head states (R160). -/
def State.vpStore (s : State) (g : Guard) (ops : List Opnd) (d : Reg) (addr : Nat → Nat) :
    Host.Outcome State Fault Refusal :=
  let a := vpStoreAcc
  let lanes := s.lanes g
  let heads := lanes.map fun l => s.laneAt l (addr l) 4 Need.write
  let words (l : Nat) : List (LaneAt × List Byte) :=
    let ws := s.cg.xwords d.toNat l
    (s.vpWordsAt l (addr l) 0 ws.length Need.write).zip (ws.map (leBytes 4))
  let puts := (lanes.map words).flatten
  s.storeOp a
    [s.operandStop lanes (ops ++ [(opX d true).copied]), s.guardStop g, s.vpFormatStop lanes [d],
      misalignStop a 4 heads, reachStop a true heads, reachStop a true (puts.map fun p => p.1),
      s.writeStop (puts.map fun p => p.1) []]
    puts

def execXst (g : Guard) (o : XstOp) (s : State) : Host.Outcome State Fault Refusal :=
  s.vpStore g [opV o.a true true] o.d (s.vpAddr o.a o.off)

def execXstStride (g : Guard) (o : XstStride) (s : State) : Host.Outcome State Fault Refusal :=
  s.vpStore g [opV o.b false true, opV o.a true true] o.d (s.vpAddrStride o.a o.b o.stride)

/-- The address of the next element of a packed array (R161). -/
def execXnext (g : Guard) (d a : Reg) (s : State) : Host.Outcome State Fault Refusal :=
  let c := vpNextAcc
  let lanes := s.lanes g
  let hs := lanes.map fun l => s.laneAt l (s.vpAddr a 0 l) 4 Need.read
  groupOp s
    (firstStop
      [s.operandStop lanes [opV a true true, opV d true false], s.guardStop g, misalignStop c 4 hs, pageStop c false hs,
        permStop c hs, s.readStop c hs, markedStop hs false [s.headStop c hs]])
    ((s.loaded hs).writeV d.toNat true
      (hs.map fun h => (h.lane.getD 0, (h.va + 4 * statedExtent (s.readAt h)) % 2 ^ 48))).advance

end Sys2Proof.Machine
end

