-- ==== Sys2Proof/Machine/Memory.lean ====
section
/-! DEFINITION. Loads, stores, scratchpad, stack and fences (R170-R181, R186-R193). -/
namespace Sys2Proof.Machine

open Sys2Proof

/-- Bytes that a size moves (R171). -/
def sizeBytes (z : Size) : Nat := 2 ^ (z.code.toNat / 2)

def size64 (z : Size) : Bool := z == .n64 || z == .s64

/-- A value read, extended to 32 bits for the sizes below (R177). -/
def extendRead (z : Size) (v : Nat) : Nat :=
  match z with
  | .s8 => wrapTo 32 (signedOf 8 v)
  | .s16 => wrapTo 32 (signedOf 16 v)
  | _ => v

/-- The register operand of an `.x` rectangle (R186). -/
def rectOps (scope : Scope) (r : Reg) : List Opnd := if scope = .x then [opS r false true] else []

/-- The rectangle word of a scope, 0 where the scope has none. -/
def State.rectWord (s : State) (scope : Scope) (r : Reg) : Word := if scope = .x then s.cg.sreg r.toNat else 0

/-- The check of an `.x` rectangle, reported at the lowest guarded lane (R173, R186). -/
def State.rectStop (s : State) (i : Instr) (lanes : List Nat) (scope : Scope) (r : Reg) : Option Stop :=
  stopIf (!lanes.isEmpty && scope == .x && !rectOk s.partId (s.cg.sreg r.toNat)) (illegalLane i 4 (lanes.headD 0))

/-- A global address: the pair in a with an offset (R171). -/
def State.globalAt (s : State) (a : Reg) (off : Int) (l : Nat) : Nat := wrapTo 48 ((s.cg.vpair a.toNat l : Nat) + off)

/-- The release of an instruction that acts in some lane (R187). -/
def State.orderStop (s : State) (lanes : List Nat) (ord : Order) (scope : Scope) (rect : Word) : Option Stop :=
  if !lanes.isEmpty && Order.releases ord then s.releaseStop scope rect else none

/-! ld and st (R177). -/

def memAcc (kind op : Nat) (scope : Scope) (z : Size) : Acc := ⟨kind, op, scope.code.toNat, z.code.toNat⟩

/-- The accesses of `ld` and `st`: the register page admits sizes of 4 and 8 bytes (R361). -/
def State.memLanes (s : State) (o : MemOp) (lanes : List Nat) (need : Need) : List LaneAt :=
  lanes.map fun l =>
    s.laneAt l (s.globalAt o.a o.off.toInt l) (sizeBytes o.size) { need with plain := decide (4 ≤ sizeBytes o.size) }

def execLd (g : Guard) (o : MemOp) (s : State) : Host.Outcome State Fault Refusal :=
  let a := memAcc 0 0 o.scope o.size
  let lanes := s.lanes g
  let w := size64 o.size
  let ls := s.memLanes o lanes Need.read
  groupOp s
    (firstStop
      [s.operandStop lanes (rectOps o.scope o.b ++ [opV o.a true true, opV o.d w false]), s.guardStop g,
        s.rectStop (.ld g o) lanes o.scope o.b, misalignStop a (sizeBytes o.size) ls, pageStop a false ls,
        permStop a ls, s.readStop a ls])
    (((s.loaded ls).noteAcquire o.scope (Order.acquires o.ord && !lanes.isEmpty)).writeV o.d.toNat w
      (ls.map fun l => (l.lane.getD 0, extendRead o.size (s.readAt l)))).advance

/-- The bytes that a store takes from its data register or pair. -/
def State.storeBytes (s : State) (d : Reg) (z : Size) (l : Nat) : List Byte :=
  leBytes (sizeBytes z) (s.cg.readV (size64 z) d.toNat l)

/-- The writes of a store, by ascending lane: the highest lane's bytes stand (R175). -/
def State.storeWrites (s : State) (d : Reg) (z : Size) (ls : List LaneAt) : List (LaneAt × List Byte) :=
  ls.map fun l => (l, s.storeBytes d z (l.lane.getD 0))

def execSt (g : Guard) (o : MemOp) (s : State) : Host.Outcome State Fault Refusal :=
  let a := memAcc 1 0 o.scope o.size
  let lanes := s.lanes g
  let ls := s.memLanes o lanes Need.write
  let ws := s.storeWrites o.d o.size ls
  s.storeOp a
    [s.operandStop lanes (rectOps o.scope o.b ++ [opV o.a true true, (opV o.d (size64 o.size) true).copied]), s.guardStop g,
      s.rectStop (.st g o) lanes o.scope o.b, misalignStop a (sizeBytes o.size) ls, pageStop a true ls,
      permStop a ls, s.orderStop lanes o.ord o.scope (s.rectWord o.scope o.b),
      s.writeStop ls (ws.map fun w => leValue w.2)]
    ws

/-! Baton stores (R190-R193). -/

/-- The rectangle that a destination set names (R191). -/
def State.setRect (s : State) (w : Word) : Word :=
  if w.getLsbD 31 then (s.cluster s.ct.cluster).rect else w

/-- Whether a destination set word is legal (R191). -/
def State.setOk (s : State) (w : Word) : Bool :=
  let r := Rect.ofWord (s.setRect w)
  (if w.getLsbD 31 then decide (w.toNat = 2 ^ 31) else decide (w.toNat < 65536)) &&
    rectOk s.partId (s.setRect w) && decide ((r.x1 - r.x0 + 1) * (r.y1 - r.y0 + 1) ≤ 12)

/-- The destination cores in the order of the pending mask (R299). -/
def State.setCores (s : State) (w : Word) : List Nat :=
  let r := Rect.ofWord (s.setRect w)
  ((List.range (r.y1 - r.y0 + 1)).map fun j =>
    (List.range (r.x1 - r.x0 + 1)).map fun i => coreOf (coreCtx s.coreId) (r.x0 + i) (r.y0 + j)).flatten

/-- The writes of a `bst` to a line of local memory. -/
def State.homePuts (s : State) (line : Nat) (ws : List (LaneAt × List Byte)) : List HomePut :=
  ws.filterMap fun w => match w.1.x with
    | .ok 0 pa _ leaf _ => if pa / 128 = line then some ⟨w.1.va, pa, keyOf s.partId leaf, w.2⟩ else none
    | _ => none

/-- What a home performs for the current group is entered: a request that its home has not performed, of access word tval. -/
def State.enterHome (s : State) (addr va tval : Nat) : State :=
  s.enter { Remote.none with
    who := .store s.cur, part := s.partId, addr := addr, n := 1, va := BitVec.ofNat 48 va,
    tval := BitVec.ofNat 32 (tval + 65536) }

/-- Takes a baton entry for a line and sends its write to the home (R298, R299). -/
def State.pushBaton (s : State) (a : Acc) (set : Word) (dests : List Nat) (ws : List (LaneAt × List Byte)) (line : Nat) :
    State :=
  let ps := s.homePuts line ws
  let va := (ps.map fun p => p.va).headD 0
  ((s.setCc { s.cc with batons := s.cc.batons ++ [⟨s.cur, line, set, dests⟩] }).enterHome (128 * line) va (a.word 0 false)).post
    (.bstHomeWrite s.coreId line ⟨dests, ⟨s.nextId, 0, ps⟩⟩)

def execBst (g : Guard) (o : BstOp) (s : State) : Host.Outcome State Fault Refusal :=
  let a := memAcc 2 0 o.scope o.size
  let lanes := s.lanes g
  let set := s.cg.sreg o.b.toNat
  let ls := lanes.map fun l => s.laneAt l (s.globalAt o.a o.off.toInt l) (sizeBytes o.size) Need.write
  let ws := s.storeWrites o.d o.size ls
  let lines := localLines ls
  let dests := s.setCores set
  groupOp s
    (firstStop
      [s.operandStop lanes
          (rectOps o.scope o.rect ++ [opS o.b false true, opV o.a true true, (opV o.d (size64 o.size) true).copied]), s.guardStop g,
        s.rectStop (.bst g o) lanes o.scope o.rect,
        stopIf (!lanes.isEmpty && !s.setOk set) (.trap (Trap.onLane causeBaton set.toNat 0 (lanes.headD 0))),
        misalignStop a (sizeBytes o.size) ls, pageStop a true ls, permStop a ls,
        s.orderStop lanes o.ord o.scope (s.rectWord o.scope o.rect),
        markedStop ls true [stopIf (decide (64 < s.cc.batons.length + lines.length)) .stall]])
    (lines.foldl (fun t k => t.pushBaton a set dests (lastWrites ws) k) ((s.touched ls true).sendAll a ws)).advance

/-! Prefetch (R178). -/

/-- Keeps the first of each line. -/
def dedupNat : List Nat → List Nat
  | [] => []
  | x :: r => x :: (dedupNat r).filter (· != x)

/-- Counts speculative misses (R24). -/
def Core.countMisses (c : Core) (n : Nat) : Core :=
  { c with specmiss := if 2 ^ 32 ≤ c.specmiss.toNat + n then 0xFFFFFFFF else c.specmiss + BitVec.ofNat 32 n }

/-- The request for a line of the host or a peer that no home copy holds and that some path reaches: it goes to the home L2 at
either level. -/
def State.prefetchAsks (s : State) (l : LaneAt) : List Ask :=
  match l.x with
  | .ok loc pa _ _ _ =>
    if (loc = 1 ∨ loc = 2) ∧ s.reachable s.partId loc pa then
      (s.linesMissing [] s.cg.lastAcq loc pa l.n).map fun k => ⟨32, loc, (k - loc * 2 ^ 41) * 128, 0, l.va, none⟩
    else []
  | _ => []

def execPrf (g : Guard) (l2 : Bool) (a : Reg) (off : BitVec 16) (s : State) : Host.Outcome State Fault Refusal :=
  let lanes := s.lanes g
  let vas := dedupNat (lanes.map fun l => s.globalAt a off.toInt l / 128)
  let ls := vas.map fun v => s.laneAt 0 (128 * v) 128 Need.read
  let missed := ls.filter fun l => match l.x with
    | .ok _ _ _ _ _ => false
    | _ => true
  let s1 := s.setCc (s.cc.countMisses missed.length)
  let s2 := if l2 then s1 else (localLines ls).foldl (fun t k => t.l1Ask t.coreId k false) s1
  let s3 := s2.askAll s.partId (fun _ => .prefetch) (dedupAsks ((ls.map s.prefetchAsks).flatten))
  groupOp s (firstStop [s.operandStop lanes [opV a true true], s.guardStop g]) s3.advance

/-! Scratchpad (R179, R180). -/

/-- A scratchpad access of one lane: its team-relative offset. -/
def State.scrAt (s : State) (o : ScrOp) (l : Nat) : Nat := wrapTo 32 ((s.cg.vreg o.a.toNat l).toNat + o.off.toInt)

/-- The first lane that a check of its offset stops. -/
def scrCheck (l : List (Nat × Nat)) (bad : Nat → Option Trap) : Option Stop :=
  match l.filterMap fun e => (bad e.2).map fun t => ({ t with taddr := e.2, lane := some e.1 } : Trap) with
  | [] => none
  | t :: _ => some (.trap t)

def trapIf (c : Bool) (cause tval : Nat) : Option Trap := if c then some (Trap.plain cause tval 0) else none

/-- Checks of `lds` and `sts` in order. -/
def State.scrStop (s : State) (tval w : Nat) (load : Bool) (l : List (Nat × Nat)) : Option Stop :=
  let base := s.ct.base
  firstStop
    [scrCheck l fun o => trapIf (o % w != 0) causeMisaligned tval,
      scrCheck l fun o => trapIf (decide (s.ct.d < o + w)) causeScratch tval,
      scrCheck l fun o => (s.cc.lockAt (base + o) w load).map fun k => Trap.plain causeLocked k.tval 0,
      scrCheck l fun o => trapIf (load && s.scrPoisoned s.coreId (base + o) w) causeData tval]

def execLds (g : Guard) (o : ScrOp) (s : State) : Host.Outcome State Fault Refusal :=
  let lanes := s.lanes g
  let w := sizeBytes o.size
  let l := lanes.map fun l => (l, s.scrAt o l)
  groupOp s
    (firstStop
      [s.operandStop lanes [opV o.a false true, opV o.d (size64 o.size) false], s.guardStop g,
        s.scrStop (accessWord 0 9 0 0 o.size.code.toNat false) w true l])
    (s.writeV o.d.toNat (size64 o.size)
      (l.map fun e => (e.1, extendRead o.size (leValue (s.cc.scrBytes (s.ct.base + e.2) w))))).advance

def execSts (g : Guard) (o : ScrOp) (s : State) : Host.Outcome State Fault Refusal :=
  let lanes := s.lanes g
  let l := lanes.map fun l => (l, s.scrAt o l)
  groupOp s
    (firstStop
      [s.operandStop lanes [opV o.a false true, (opV o.d (size64 o.size) true).copied], s.guardStop g,
        s.scrStop (accessWord 0 10 0 0 o.size.code.toNat false) (sizeBytes o.size) false l])
    (s.putScratch s.coreId (l.map fun e => ⟨s.ct.base + e.2, s.storeBytes o.d o.size e.1⟩)).advance

/-! The stack (R181, R22). -/

/-- SCRATCH_RANGE of a stack instruction. DESIGN CHOICE: a `%ssp` that would lie below 0 is reported modulo 2^48, an encoding that
the spec does not give it (log 78). -/
def stackRange (kind : Nat) (taddr : Int) : Stop :=
  .trap (Trap.plain causeScratch (accessWord 0 kind 0 0 4 false) (wrapTo 48 taddr))

/-- The first word of a list of team-relative offsets that lies outside the group's stack (R21). -/
def State.offStack (s : State) (os : List Nat) : Option Nat :=
  os.find? fun o => decide (o < s.stackLo) || decide (s.stackHi < o + 4)

/-- SCRATCH_RANGE at a word outside the stack, which R21 gives where `%ssp` itself lies outside it (log 58). -/
def State.stackWords (s : State) (kind : Nat) (os : List Nat) : Option Stop :=
  (s.offStack os).map fun o => stackRange kind o

def execPushm (g : Guard) (d : Reg) (n : BitVec 5) (s : State) : Host.Outcome State Fault Refusal :=
  let k := n.toNat + 1
  let lanes := s.lanes g
  let at_ := s.cg.ssp - 128 * k
  let new : Int := (s.cg.ssp : Int) - (128 * k : Nat)
  let word (j l : Nat) : Put := ⟨s.ct.base + at_ + 128 * j + 4 * l, leBytes 4 (s.cg.vreg (d.toNat + j) l).toNat⟩
  let puts := ((List.range k).map fun j => lanes.map (word j)).flatten
  let s1 := s.putScratch s.coreId puts
  s.uniform g [(opRun d.toNat k true).copied]
    [stopIf (decide (new < (s.stackLo : Nat))) (stackRange 11 new), s.stackWords 11 (puts.map fun p => p.addr - s.ct.base)]
    (s1.setCg { s1.cg with ssp := at_ }).advance

def execPopm (g : Guard) (d : Reg) (n : BitVec 5) (s : State) : Host.Outcome State Fault Refusal :=
  let k := n.toNat + 1
  let lanes := s.lanes g
  let new := s.cg.ssp + 128 * k
  let at_ (j l : Nat) : Nat := s.ct.base + s.cg.ssp + 128 * j + 4 * l
  let words := lanes.flatMap fun l => (List.range k).map fun j => (l, s.cg.ssp + 128 * j + 4 * l)
  let s1 := (List.range k).foldl
    (fun t j => t.writeV (d.toNat + j) false (lanes.map fun l => (l, leValue (s.cc.scrBytes (at_ j l) 4)))) s
  s.uniform g [opRun d.toNat k false]
    [stopIf (decide (s.stackHi < new)) (stackRange 12 new), s.stackWords 12 (words.map fun e => e.2),
      scrCheck words fun o => trapIf (s.scrPoisoned s.coreId (s.ct.base + o) 4) causeData (accessWord 0 12 0 0 4 false)]
    (s1.setCg { s1.cg with ssp := new }).advance

/-! Fence (R188). -/

/-- fence: every earlier load and atomic of the group is performed by then, since its instructions are performed in the order in
which they issue. -/
def execFence (g : Guard) (ord : Order) (scope : Scope) (b : Reg) (s : State) : Host.Outcome State Fault Refusal :=
  let lanes := s.lanes g
  s.uniform g (rectOps scope b)
    [s.rectStop (.fence g ord scope b) lanes scope b, s.orderStop lanes ord scope (s.rectWord scope b)]
    (s.noteAcquire scope (Order.acquires ord)).advance

end Sys2Proof.Machine
end

