-- ==== Sys2Proof/Machine/Atomics.lean ====
section
/-! DEFINITION. Atomics (R182-R185, R400) and the near-data ALU (R273). -/
namespace Sys2Proof.Machine

open Sys2Proof

/-- The value that an operation writes, none when it writes nothing (R182). -/
def atomicResult (op : AtomOp) (z : Size) (old b c : Nat) : Option Nat :=
  let w := 8 * sizeBytes z
  let sgn := z == .s32 || z == .s64
  match op with
  | .add => some (intAdd w old b)
  | .min => some (intMin sgn w old b)
  | .max => some (intMax sgn w old b)
  | .and => some (old &&& b)
  | .or => some (old ||| b)
  | .xor => some (old ^^^ b)
  | .xchg => some b
  | .cas => if old = c then some b else none
  | .gather => none

/-- One indivisible operation on local memory (R175): the state after and the old value. -/
def State.rmw (s : State) (key pa : Nat) (op : AtomOp) (z : Size) (b c : Nat) : State × Nat :=
  let n := sizeBytes z
  let old := leValue (s.readKeyed key pa n)
  match atomicResult op z old b c with
  | some v => (s.putKeyed key [⟨pa, leBytes n v⟩], old)
  | none => (s, old)

/-! Lanes of an atomic. -/

/-- The accesses of an atomic. -/
def State.atomLanes (s : State) (o : AtomOps) (lanes : List Nat) (need : Need) : List LaneAt :=
  lanes.map fun l => s.laneAt l (s.globalAt o.a o.off.toInt l) (sizeBytes o.size) need

/-- Read and write permission with the class checks of R185. -/
def atomNeed (scope : Scope) : Need := { Need.both with atomic := true, sys := scope == .s }

/-- The operand of a lane. -/
def State.atomOperand (s : State) (o : AtomOps) (r : Reg) (l : Nat) : Nat :=
  s.cg.readV (size64 o.size) r.toNat l % 2 ^ (8 * sizeBytes o.size)

/-- ATOMIC_PATH: an operation that its path cannot carry (R184, R400). -/
def State.pathStop (s : State) (a : Acc) (o : AtomOps) (isRed near : Bool) (ls : List LaneAt) : Option Stop :=
  firstLane (fun l => match l.x with
    | .ok loc pa _ _ _ =>
      stopIf (loc != 0 && (near || !s.carries s.partId loc pa o.op isRed o.scope))
        (.trap (l.trap causeAtomic (a.word loc false)))
    | _ => none) ls

/-- Where the answer of a lane's remote atomic stands. -/
def atomKey (lane : Nat) : Nat := 2 ^ 60 + lane

/-- The requests of the lanes whose operation is the host's or a peer's. -/
def State.atomAsks (s : State) (a : Acc) (o : AtomOps) (ls : List LaneAt) : List Ask :=
  ls.filterMap fun l => match l.x with
    | .ok loc pa _ _ _ =>
      let lane := l.lane.getD 0
      if loc = 0 then none
      else
        some ⟨lane, loc, pa, a.word loc false, l.va,
          some ⟨o.op, o.size, BitVec.ofNat 64 (s.atomOperand o o.b lane), BitVec.ofNat 64 (s.atomOperand o o.cmp lane)⟩⟩
    | _ => none

/-- One lane's operation in local memory. -/
def State.atomLocal (s0 : State) (o : AtomOps) (s : State) (l : LaneAt) : State × Nat :=
  match l.x with
  | .ok 0 pa _ leaf _ =>
    let lane := l.lane.getD 0
    s.rmw (keyOf s0.partId leaf) pa o.op o.size (s0.atomOperand o o.b lane) (s0.atomOperand o o.cmp lane)
  | _ => (s, 0)

/-- The operations of the given accesses by ascending lane (R175), and the old values with their places. -/
def State.atomPart (o : AtomOps) (s : State) (now : List (Nat × LaneAt)) : State :=
  let r := now.foldl
    (fun (acc : State × List (Nat × List Byte)) e =>
      let x := s.atomLocal o acc.1 e.2
      (x.1, acc.2 ++ [(e.1, leBytes 8 x.2)])) (s, [])
  r.1.noted r.2

/-- The old value of each lane: its operation's here, or its answer. -/
def State.atomOlds (s : State) (ls : List LaneAt) : List (Nat × Nat) :=
  ((List.range ls.length).zip ls).map fun e =>
    let key := if e.2.isLocal then placeKey e.1 else atomKey (e.2.lane.getD 0)
    (e.2.lane.getD 0, match s.cg.run.served.find? fun x => x.1 == key with
      | some x => leValue x.2
      | none => 0)

/-- Operands of `atom` and of `near` reductions by descending tail bits (R66, R170). -/
def atomRegs (o : AtomOps) (result : Bool) : List Opnd :=
  let w := size64 o.size
  rectOps o.scope o.rect ++ (if o.op = .cas then [opV o.cmp w true] else []) ++ [opV o.b w true, opV o.a true true] ++
    (if result then [opV o.d w false] else [])

/-- The stops of `atom` and of the `near` reductions in order; near ones are performed at the home, which takes every copy
back (R184). -/
def State.atomStop (s : State) (i : Instr) (g : Guard) (o : AtomOps) (a : Acc) (near : Bool) (lanes : List Nat)
    (ls : List LaneAt) : Option Stop :=
  firstStop
    [s.operandStop lanes (atomRegs o true), s.guardStop g, s.rectStop i lanes o.scope o.rect,
      misalignStop a (sizeBytes o.size) ls, pageStop a true ls, permStop a ls, s.pathStop a o false near ls,
      s.orderStop lanes o.ord o.scope (s.rectWord o.scope o.rect),
      markedStop ls true [s.dataStop a ls, s.ownStop ls, if near then s.homeStop true ls else none]]

/-- The old values go to d. -/
def State.atomDone (ls : List LaneAt) (o : AtomOps) (s : State) : State :=
  ((s.noteAcquire o.scope (Order.acquires o.ord && !ls.isEmpty)).writeV o.d.toNat (size64 o.size) (s.atomOlds ls)).advance

/-- `atom`: the lanes of the host and of peers first, then those of local memory through the L1. -/
def State.atomAccess (s : State) (o : AtomOps) (a : Acc) (ls : List LaneAt) : State :=
  let first := s.cg.run.under.isEmpty
  let s1 := if first then s.touched ls true else s
  s1.access ls (if first then s.atomAsks a o ls else []) (s1.openAt ls)
    (fun t now => State.atomPart o (t.l1Written (now.map fun e => e.2)) now) (State.atomDone ls o)

/-- `atom` and the `near` reductions: no check is made again once they were made (R173). -/
def State.atomOld (s : State) (i : Instr) (g : Guard) (o : AtomOps) (kind : Nat) (near : Bool) :
    Host.Outcome State Fault Refusal :=
  let a := memAcc kind o.op.code.toNat o.scope o.size
  let lanes := s.lanes g
  if s.cg.run.under.isEmpty then
    let ls := s.atomLanes o lanes (atomNeed o.scope)
    let s1 := s.touched ls true
    groupOp s (s.atomStop i g o a near lanes ls)
      (if near then (State.atomDone ls o (State.atomPart o s1 (s1.openAt ls))).letGo (.group s.cur) (localLines ls)
      else s.atomAccess o a ls)
  else .next (s.atomAccess o a s.cg.run.under)

def execAtom (g : Guard) (o : AtomOps) (s : State) : Host.Outcome State Fault Refusal := s.atomOld (.atom g o) g o 3 false

/-! red (R183). -/

/-- One lane of a `red`: sent to the home, or to the home slice of host or peer memory, which sends it on; or kept as a deferred
fault (R399). -/
def State.redLane (s0 : State) (a : Acc) (o : AtomOps) (s : State) (l : LaneAt) : State :=
  let b := BitVec.ofNat 64 (s0.atomOperand o o.b (l.lane.getD 0))
  match l.x with
  | .ok 0 pa _ leaf _ =>
    (s.enterHome pa l.va (a.word 0 false)).post
      (.nearDataOp s0.coreId o.op o.size pa ⟨b, ⟨s.nextId, keyOf s0.partId leaf, []⟩⟩)
  | .ok loc pa _ _ _ =>
    if s.reachable s.partId loc pa then
      s.enter (Ask.request ⟨l.lane.getD 0, loc, pa, a.word loc false + 65536, l.va, some ⟨o.op, o.size, b, 0⟩⟩ s.partId
        fun _ => .store s.cur)
    else (s.countRefused s.partId).setCg ((s.countRefused s.partId).cg.defer l.va (a.word loc false))
  | _ => s

def execRed (g : Guard) (o : AtomOps) (s : State) : Host.Outcome State Fault Refusal :=
  let a := memAcc 4 o.op.code.toNat o.scope o.size
  let lanes := s.lanes g
  let ls := s.atomLanes o lanes (atomNeed o.scope)
  groupOp s
    (firstStop
      [s.operandStop lanes (atomRegs o false), s.guardStop g, s.rectStop (.red g o) lanes o.scope o.rect,
        misalignStop a (sizeBytes o.size) ls, pageStop a true ls, permStop a ls, s.pathStop a o true false ls,
        s.orderStop lanes o.ord o.scope (s.rectWord o.scope o.rect)])
    (ls.foldl (s.redLane a o) (s.touched ls true)).advance

/-! near (R184). -/

/-- How many registers a gather writes. -/
def gatherRegs (o : AtomOps) : Nat := (o.count.toNat + 1) * regCount (size64 o.size)

/-- MISALIGNED_ADDR of a gather: an element, or the whole gather across a line. -/
def gatherAlign (a : Acc) (w n : Nat) (ls : List LaneAt) : Option Stop :=
  firstLane (fun l =>
    stopIf (l.va % w != 0 || decide (128 < l.va % 128 + w * n)) (.trap (l.trap causeMisaligned (a.word 3 false)))) ls

/-- Writes the elements of a lane upward from d. -/
def State.writeGather (s : State) (o : AtomOps) (l : LaneAt) (v : Nat) : State :=
  let w := sizeBytes o.size
  (List.range (o.count.toNat + 1)).foldl
    (fun t i => t.writeV (o.d.toNat + i * regCount (size64 o.size)) (size64 o.size)
      [(l.lane.getD 0, v / 2 ^ (8 * w * i) % 2 ^ (8 * w))]) s

def State.nearGather (s : State) (g : Guard) (o : AtomOps) : Host.Outcome State Fault Refusal :=
  let a := memAcc 5 o.op.code.toNat o.scope o.size
  let lanes := s.lanes g
  let w := sizeBytes o.size
  let n := o.count.toNat + 1
  let ls := lanes.map fun l => s.laneAt l (s.globalAt o.a o.off.toInt l) (w * n) Need.read
  let s2 := ls.foldl (fun t l => t.writeGather o l (s.readAt l)) (s.touched ls false)
  groupOp s
    (firstStop
      [s.operandStop lanes
          (rectOps o.scope o.rect ++ [opV o.a true true, ⟨0, o.d.toNat, gatherRegs o, size64 o.size, false, false⟩]), s.guardStop g,
        s.rectStop (.near g o) lanes o.scope o.rect, gatherAlign a w n ls, pageStop a false ls, permStop a ls,
        s.pathStop a o false true ls, s.orderStop lanes o.ord o.scope (s.rectWord o.scope o.rect),
        markedStop ls false [s.dataStop a ls, s.ownStop ls, s.homeStop false ls]])
    ((s2.noteAcquire o.scope (Order.acquires o.ord && !lanes.isEmpty)).advance.letGo (.group s.cur) (localLines ls))

def execNear (g : Guard) (o : AtomOps) (s : State) : Host.Outcome State Fault Refusal :=
  if o.op = .gather then s.nearGather g o else s.atomOld (.near g o) g o 5 true

end Sys2Proof.Machine
end

