-- ==== Sys2Proof/Machine/Matrix.lean ====
section
/-! DEFINITION. Issue of the matrix, accumulator and copy commands (R195-R209). What a command does once it has started is in
Engines.lean. -/
namespace Sys2Proof.Machine

open Sys2Proof

/-! Scratchpad operands of commands. -/

/-- An operand range in the team's data area: its start, the bytes from there to its last byte, and whether the command
writes it (R200). -/
structure Area where
  start : Nat
  len : Nat
  dst : Bool
deriving DecidableEq, Repr

/-- Bytes from the first of rows to the last of them. -/
def spanOf (rows pitch len : Nat) : Nat := (rows - 1) * pitch + len

/-- The pitch of a field in 8-byte units, 0 being the row length. -/
def pitchOf (field row : Nat) : Nat := if field = 0 then row else 8 * field

/-! Geometry of the matrix forms (R203). -/

/-- K, element size in half bytes, stored rows of A and B, metadata bytes of a row and scale blocks of a row. -/
structure Geo where
  k : Nat
  half : Nat
  aLen : Nat
  aRows : Nat
  bLen : Nat
  bRows : Nat
  mrow : Nat
  nb : Nat
deriving DecidableEq, Repr

/-- Half bytes of an element. -/
def mmaHalf : MmaFmt → Nat
  | .f16 => 4
  | .bf16 => 4
  | .mxf4 => 1
  | _ => 2

/-- Whether a form has scales. -/
def mmaScaled (f : MmaFmt) : Bool := f == .mxf4 || f == .dpt

def mmaGeo (f : MmaFmt) (sp : Bool) (o : MmaOps) : Geo :=
  let k := 256 / mmaHalf f * (if sp then 2 else 1)
  let aLen := f.rowA o.ta
  let bLen := f.rowB sp o.tb
  { k := k, half := mmaHalf f, aLen := aLen, aRows := 8192 / aLen, bLen := bLen,
    bRows := (if sp then 16384 else 8192) / bLen, mrow := if sp then k / 8 else 0,
    nb := if mmaScaled f then k / 32 else 0 }

/-- Bytes of the side area: metadata, A scales, B scales. -/
def Geo.sideLen (g : Geo) : Nat := 64 * g.mrow + 128 * g.nb

/-- The source ranges of an `mma` in the order A, B, side. -/
def mmaAreas (f : MmaFmt) (sp : Bool) (o : MmaOps) (offA offB side : Nat) : List Area :=
  let g := mmaGeo f sp o
  (if o.wua then [] else [⟨offA, spanOf g.aRows (pitchOf o.pa.toNat g.aLen) g.aLen, false⟩]) ++
    ⟨offB, spanOf g.bRows (pitchOf o.pb.toNat g.bLen) g.bLen, false⟩ ::
      (if g.sideLen = 0 then [] else [⟨side, g.sideLen, false⟩])

/-- The tile that a command names. -/
def CmdOp.tile : CmdOp → Option Nat
  | .mma _ _ o _ _ _ => some o.t.toNat
  | .zero t => some t
  | .accLd t _ _ _ _ => some t
  | .accSt t _ _ _ _ => some t
  | .copy _ _ _ _ _ _ _ => none
  | .run _ => none

/-! Checks at issue (R197). -/

/-- `%tval` of a memory fault of an engine command (R340). -/
def engineWord (loc : Nat) : Nat := accessWord loc 14 0 0 0 false

/-- MISALIGNED_ADDR at the first value that is no multiple of u; each value comes with its location field. -/
def unitStop (u : Nat) (l : List (Nat × Nat)) : Option Stop :=
  match l.filter fun e => e.1 % u != 0 with
  | [] => none
  | e :: _ => some (.trap (Trap.plain causeMisaligned (engineWord e.2) e.1))

/-- SCRATCH_RANGE at the first range that leaves the data area (R21). -/
def State.areaStop (s : State) (l : List Area) : Option Stop :=
  match l.filter fun a => decide (s.ct.d < a.start + a.len) with
  | [] => none
  | a :: _ => some (.trap (Trap.plain causeScratch (engineWord 0) a.start))

/-- ACC_BUSY when another group owns the tile (R201); `%taddr` is 0: DESIGN CHOICE, the spec names no value (log 24). -/
def State.tileStop (s : State) (op : CmdOp) : Option Stop :=
  match s.cc.tileQ.filter fun c => op.tile.isSome && c.op.tile == op.tile with
  | [] => none
  | c :: _ =>
    stopIf (c.group != s.cur) (.trap (Trap.plain causeAcc (256 * (c.seq.toNat % 2 ^ 24) + op.tile.getD 0) 0))

/-- The path stalls while the queue is full or the lock table lacks entries. -/
def State.queueStop (s : State) (op : CmdOp) (areas : List Area) : Option Stop :=
  let full := match op with
    | .copy _ _ _ _ _ _ _ => decide (16 ≤ s.cc.copyQ.length)
    | .run _ => decide (4 ≤ s.cc.runQ.length)
    | _ => decide (8 ≤ s.cc.tileQ.length)
  stopIf (full || decide (s.cc.freeLocks.length < areas.length)) .stall

/-- The range-lock entries of a command, the lowest free indices in order (R180, R200). -/
def Core.locksFor (c : Core) (base : Nat) (areas : List Area) : List Lock :=
  (c.freeLocks.zip areas).map fun e => ⟨e.1, c.seq, base + e.2.start, base + e.2.start + e.2.len - 1, e.2.dst⟩

/-- The command enters its queue with the next sequence number and its locks (R197). -/
def State.enqueue (s : State) (op : CmdOp) (areas : List Area) (sync : Sync) : State :=
  let c := s.cc
  let cmd : Cmd :=
    { seq := c.seq, group := s.cur, team := s.cg.team, pc := s.cg.run.pc, sync := sync, op := op, started := false,
      mute := false, served := [], moved := 0 }
  let c1 := { c with seq := c.seq + 1, locks := c.locks ++ c.locksFor s.ct.base areas }
  s.setCc (match op with
    | .copy _ _ _ _ _ _ _ => { c1 with copyQ := c.copyQ ++ [cmd] }
    | .run _ => { c1 with runQ := c.runQ ++ [cmd] }
    | _ => { c1 with tileQ := c.tileQ ++ [cmd] })

/-- Issue of a command: its operand registers, the values whose alignment is checked, highest tail bits first, and its
ranges in the order of their checks and of their lock entries. -/
def State.issue (s : State) (g : Guard) (ops : List Opnd) (u : Nat) (units : List (Nat × Nat)) (checked areas : List Area)
    (op : CmdOp) (sync : Sync) : Host.Outcome State Fault Refusal :=
  s.uniform g ops
    [unitStop u units, s.areaStop checked, s.tileStop op, s.queueStop op areas, s.releaseStop .t 0]
    (s.enqueue op areas sync).advance

/-! mma (R202-R206). -/

def State.issueMma (s : State) (f : MmaFmt) (sp : Bool) (g : Guard) (o : MmaOps) : Host.Outcome State Fault Refusal :=
  let hasSide := f.side sp
  let at_ (r : Reg) : Nat := (s.cg.sreg r.toNat).toNat
  let offA := if o.wua then 0 else at_ o.a
  let side := if hasSide then at_ o.e else 0
  let areas := mmaAreas f sp o offA (at_ o.b) side
  let ops := (if hasSide then [opS o.e false true] else []) ++ syncOps o.sync ++
    opS o.b false true :: (if o.wua then [] else [opS o.a false true])
  s.issue g ops 8 (areas.reverse.map fun a => (a.start, 0)) areas.reverse areas (.mma f sp o offA (at_ o.b) side) o.sync

def execMmaF16 (g : Guard) (o : MmaOps) (s : State) : Host.Outcome State Fault Refusal := s.issueMma .f16 false g o
def execMmaBf16 (g : Guard) (o : MmaOps) (s : State) : Host.Outcome State Fault Refusal := s.issueMma .bf16 false g o
def execMmaE4m3 (g : Guard) (o : MmaOps) (s : State) : Host.Outcome State Fault Refusal := s.issueMma .e4m3 false g o
def execMmaE5m2 (g : Guard) (o : MmaOps) (s : State) : Host.Outcome State Fault Refusal := s.issueMma .e5m2 false g o
def execMmaS8 (g : Guard) (o : MmaOps) (s : State) : Host.Outcome State Fault Refusal := s.issueMma .s8 false g o
def execMmaMxf4 (g : Guard) (o : MmaOps) (s : State) : Host.Outcome State Fault Refusal := s.issueMma .mxf4 false g o
def execMmaDpt (g : Guard) (o : MmaOps) (s : State) : Host.Outcome State Fault Refusal := s.issueMma .dpt false g o
def execMmaF16Sp (g : Guard) (o : MmaOps) (s : State) : Host.Outcome State Fault Refusal := s.issueMma .f16 true g o
def execMmaBf16Sp (g : Guard) (o : MmaOps) (s : State) : Host.Outcome State Fault Refusal := s.issueMma .bf16 true g o
def execMmaE4m3Sp (g : Guard) (o : MmaOps) (s : State) : Host.Outcome State Fault Refusal := s.issueMma .e4m3 true g o
def execMmaE5m2Sp (g : Guard) (o : MmaOps) (s : State) : Host.Outcome State Fault Refusal := s.issueMma .e5m2 true g o
def execMmaS8Sp (g : Guard) (o : MmaOps) (s : State) : Host.Outcome State Fault Refusal := s.issueMma .s8 true g o
def execMmaMxf4Sp (g : Guard) (o : MmaOps) (s : State) : Host.Outcome State Fault Refusal := s.issueMma .mxf4 true g o
def execMmaDptSp (g : Guard) (o : MmaOps) (s : State) : Host.Outcome State Fault Refusal := s.issueMma .dpt true g o

/-! Accumulator moves (R207, R208). -/

def execAccZero (g : Guard) (t : Reg) (sync : Sync) (s : State) : Host.Outcome State Fault Refusal :=
  s.issue g (syncOps sync) 8 [] [] [] (.zero t.toNat) sync

/-- The 64 stored rows of an accumulator move at off. -/
def accArea (o : AccOps) (off : Nat) (dst : Bool) : Area :=
  let row := 64 * o.fmt.bytes
  ⟨off, spanOf 64 (pitchOf o.pitch.toNat row) row, dst⟩

def State.issueAcc (s : State) (g : Guard) (o : AccOps) (store : Bool) : Host.Outcome State Fault Refusal :=
  let off := (s.cg.sreg o.a.toNat).toNat
  let pitch := pitchOf o.pitch.toNat (64 * o.fmt.bytes)
  let area := accArea o off store
  let op := if store then CmdOp.accSt o.t.toNat off o.fmt o.tr pitch else .accLd o.t.toNat off o.fmt o.tr pitch
  s.issue g (syncOps o.sync ++ [opS o.a false true]) 8 [(off, 0)] [area] [area] op o.sync

def execAccLd (g : Guard) (o : AccOps) (s : State) : Host.Outcome State Fault Refusal := s.issueAcc g o false
def execAccSt (g : Guard) (o : AccOps) (s : State) : Host.Outcome State Fault Refusal := s.issueAcc g o true

/-! copy (R209). -/

def copyFromGlobal (d : CopyDir) : Bool := d == .gs || d == .gg
def copyToGlobal (d : CopyDir) : Bool := d == .sg || d == .gg

/-- The side of a copy: bits [47:0] of a pair on the global side, else one register. -/
def State.copySide (s : State) (global : Bool) (r : Reg) : Nat :=
  if global then s.cg.spair r.toNat % 2 ^ 48 else (s.cg.sreg r.toNat).toNat

def execCopy (g : Guard) (o : CopyOps) (s : State) : Host.Outcome State Fault Refusal :=
  let gsrc := copyFromGlobal o.dir
  let gdst := copyToGlobal o.dir
  let src := s.copySide gsrc o.a
  let dst := s.copySide gdst o.d
  let sstr := (s.cg.sreg o.b.toNat).toNat
  let dstr := (s.cg.sreg o.e.toNat).toNat
  let bytes := o.bytes.toNat
  let rows := o.rows.toNat + 1
  let loc (global : Bool) : Nat := if global then 3 else 0
  let units := [(bytes, loc (gsrc && gdst)), (dstr, loc gdst), (sstr, loc gsrc), (src, loc gsrc), (dst, loc gdst)]
  let areas := (if gsrc then [] else [⟨src, spanOf rows sstr bytes, false⟩]) ++
    (if gdst then [] else [⟨dst, spanOf rows dstr bytes, true⟩])
  let ops := opS o.e false true :: (syncOps o.sync ++ [opS o.b false true, opS o.a gsrc true, opS o.d gdst true])
  s.issue g ops 4 units areas areas (.copy o.dir src dst sstr dstr bytes rows) o.sync

end Sys2Proof.Machine
end

