-- ==== Sys2Proof/Machine/Engines.lean ====
section
/-! DEFINITION. What engine commands do once issued: start (R198), arbitration (R264), staging (R309), blocks (R308), tile
moves (R207, R208), completion (R311) and the copy engine (R209). -/
namespace Sys2Proof.Machine

open Sys2Proof

/-- Whether a core's context is live and its partition runs: not stopped (R352), not in a swap (R355). -/
def State.active (s : State) (cid : Nat) : Bool :=
  s.runsCtx (corePart cid) (coreCtx cid)

/-- Quad key of a core. -/
def State.quadAt (s : State) (cid : Nat) : Nat := s.quadKey cid

/-- k[waitk] ≥ thr (R198, R46). -/
def State.waitMet (s : State) (c : Cmd) : Bool :=
  decide (c.sync.thr.toNat ≤ ((s.team c.team).sem c.sync.waitk.toNat).toNat) || c.sync.thr == 0

/-- Marks a command of a core started. -/
def startIn (seq : Word) (l : List Cmd) : List Cmd := l.map fun c => if c.seq = seq then { c with started := true } else c

def Core.startCmd (c : Core) (seq : Word) : Core :=
  { c with tileQ := startIn seq c.tileQ, copyQ := startIn seq c.copyQ, runQ := startIn seq c.runQ }

/-- Removes a command with its range-lock entries (R198). -/
def Core.dropCmd (c : Core) (seq : Word) : Core :=
  { c with
    tileQ := c.tileQ.filter fun x => x.seq != seq
    copyQ := c.copyQ.filter fun x => x.seq != seq
    runQ := c.runQ.filter fun x => x.seq != seq
    locks := c.locks.filter fun l => l.seq != seq }

/-- Removes a command and its locks from a core. -/
def State.endCmd (s : State) (cid : Nat) (seq : Word) : State := s.setCore cid ((s.core cid).dropCmd seq)

/-- `%tval` of ENGINE_FAULT (R209). -/
def engineFault (seq : Word) (reason loc : Nat) : Nat := 65536 * (seq.toNat % 65536) + 4096 * reason + 1024 * loc

/-- A report about a command (R199). -/
def Cmd.report (c : Cmd) (cause tval taddr : Nat) : Report :=
  ⟨cause, BitVec.ofNat 32 tval, BitVec.ofNat 64 taddr, c.pc, c.seq⟩

/-- The signal of a completed command (R198); none when it was muted (R352) or names no increment (R46). -/
def State.signalCmd (s : State) (c : Cmd) : State :=
  if c.mute || c.sync.inc == 0 then s
  else
    let r := s.signalSem c.team c.sync.sigk.toNat c.sync.inc.toNat
    if r.2 then
      r.1.report c.group (c.report causeSem (c.sync.sigk.toNat + 512 + 65536 * (c.seq.toNat % 65536)) c.pc.toNat)
    else r.1

/-! Arbitration of the Matrix Engine (R264, R389). -/

def CmdOp.wua : CmdOp → Bool
  | .mma _ _ o _ _ _ => o.wua
  | _ => false

/-- Whether the array's run of the core holds undelivered bytes (R389). -/
def Quad.feeds (q : Quad) (cid : Nat) : Bool :=
  match q.wuaRun with
  | some (c, _) => c == cid && !q.stream.isEmpty
  | .none => false

/-- The head of a core's tile queue that may start and be chosen. -/
def State.readyHead (s : State) (qk cid : Nat) : Option Cmd :=
  match (s.core cid).tileQ with
  | [] => none
  | c :: _ => if (c.started || s.waitMet c) && (!c.op.wua || (s.quad qk).feeds cid) then some c else none

/-- The turns that R264 looks at from core p with n commands of its turn done: p, the others in order, p again. -/
def turnsFrom (p n k : Nat) : List (Nat × Nat) := (p % k, n) :: (List.range k).map fun i => ((p + 1 + i) % k, 0)

/-- A choice of R264: the core's place p among the quad's cores, the commands n of its turn so far, w of the turn, the core
and the command. -/
structure Choice where
  ptr : Nat
  count : Nat
  turnW : Nat
  core : Nat
  cmd : Cmd
deriving DecidableEq, Repr

/-- w of a turn: read when the turn starts, kept while it lasts (R264). DESIGN CHOICE: a turn that a save cuts goes on with the w
that it has read, which R312's table does not list (log 78). -/
def State.turnLimit (s : State) (qk cid n : Nat) : Nat := if n = 0 then (s.core cid).mew else (s.quad qk).turnW

/-- The command that R264 chooses when the engine is idle. -/
def State.nextChoice (s : State) (qk : Nat) : Option Choice :=
  let q := s.quad qk
  let cs := s.quadCores qk
  if cs.isEmpty then none
  else
    ((turnsFrom q.ptr q.count cs.length).filterMap fun t =>
      let cid := nthD 0 cs t.1
      let w := s.turnLimit qk cid t.2
      if t.2 < w then (s.readyHead qk cid).map fun c => Choice.mk t.1 t.2 w cid c else none).head?

/-- What was staged ahead for the command that the engine takes; nothing where the prediction was wrong (R310). -/
def Quad.foreseen (q : Quad) (cid : Nat) (seq : Word) : Option Stage :=
  match q.ahead with
  | some (c, n, st) => if c = cid ∧ n = seq then some st else Option.none
  | Option.none => Option.none

/-- The engine takes a command: it has started; only what was staged ahead for it is at hand. -/
def State.choose1 (s : State) (qk : Nat) (c : Choice) : State :=
  let q := s.quad qk
  (s.setCore c.core ((s.core c.core).startCmd c.cmd.seq)).setQuad qk
    { q with
      running := some (c.core, c.cmd.seq), staged := false, own := q.foreseen c.core c.cmd.seq, buf := [], cursor := 0,
      rows := 0, ptr := c.ptr, count := c.count + 1, turnW := c.turnW, ahead := none }

/-- One choice of R264 when the engine is idle. DESIGN CHOICE: where no head can start, the pointer stays and its core has a fresh
turn, R264's loop not saying where an idle spell leaves it (log 78). -/
def State.arbitrate (s : State) (qk : Nat) : State :=
  if (s.quad qk).running.isSome || (s.quadCores qk).isEmpty then s
  else
    match s.nextChoice qk with
    | some c => s.choose1 qk c
    | none => s.setQuad qk { s.quad qk with count := 0, ahead := none }

/-- The engine without its running command. -/
def State.idleEngine (s : State) (qk : Nat) : State :=
  s.setQuad qk { s.quad qk with running := none, staged := false, own := none, buf := [], cursor := 0, rows := 0 }

/-- A command leaves the Matrix Engine, which then chooses its next (R264, R311). -/
def State.releaseEngine (s : State) (qk : Nat) : State := (s.idleEngine qk).arbitrate qk

/-- A tile command ends without a signal and with a report (R199). -/
def State.failTile (s : State) (qk cid : Nat) (c : Cmd) (cause tval taddr : Nat) : State :=
  ((s.endCmd cid c.seq).report c.group (c.report cause tval taddr)).releaseEngine qk

/-- The command that the Matrix Engine of a quad runs. -/
def State.running (s : State) (qk : Nat) : Option (Nat × Cmd) :=
  match (s.quad qk).running with
  | .none => .none
  | some (cid, seq) => ((s.core cid).tileQ.find? fun c => c.seq == seq).map fun c => (cid, c)

/-! Warm-up Array runs: the choice of R381. -/

/-- The core whose head run the idle array takes: the first in turn whose head can start. -/
def State.arrayPick (s : State) (qk : Nat) : Option (Nat × Cmd × Nat) :=
  let q := s.quad qk
  let cs := s.quadCores qk
  if q.wuaRun.isSome || cs.isEmpty then none
  else
    ((List.range cs.length).filterMap fun i =>
      let p := (q.wuaTurn + i) % cs.length
      let cid := nthD 0 cs p
      match (s.core cid).runQ with
      | c :: _ => if s.waitMet c then some (cid, c, (p + 1) % cs.length) else none
      | [] => none).head?

/-! Copies start in issue order, at most four in progress (R198). -/

def State.copyStarts (s : State) (cid : Nat) : Option Cmd :=
  let q := (s.core cid).copyQ
  if 4 ≤ (q.filter fun c => c.started).length then none
  else
    match q.filter fun c => !c.started with
    | [] => none
    | c :: _ => if s.waitMet c then some c else none

/-! Operand staging (R309). -/

/-- First error in scratchpad ranges of a command: its team-relative offset. The ranges stand in the order A, B, side: which
of several words `%taddr` names is a DESIGN CHOICE, R205 says nothing of it (log 68). -/
def State.scrError (s : State) (cid base : Nat) (l : List (Nat × Nat)) : Option Nat :=
  match l.filter fun e => s.scrPoisoned cid (base + e.1) e.2 with
  | [] => none
  | e :: _ =>
    ((List.range e.2).filter fun i => s.scrPoisoned cid (base + e.1 + i) 1).head?.map fun i => e.1 + i

/-- The stored rows of an operand: offset and length of each. -/
def rowsAt (off rows pitch len : Nat) : List (Nat × Nat) := (List.range rows).map fun i => (off + i * pitch, len)

/-- The rows that staging of a command reads. -/
def stageRows : CmdOp → List (Nat × Nat)
  | .mma f sp o offA offB side =>
    let g := mmaGeo f sp o
    (if o.wua then [] else rowsAt offA g.aRows (pitchOf o.pa.toNat g.aLen) g.aLen) ++
      rowsAt offB g.bRows (pitchOf o.pb.toNat g.bLen) g.bLen ++
      (if g.sideLen = 0 then [] else [(side, g.sideLen)])
  | .accLd _ off fmt _ pitch => rowsAt off 64 pitch (64 * fmt.bytes)
  | _ => []

/-- Bytes of rows one after another. -/
def State.gatherRows (s : State) (cid base : Nat) (l : List (Nat × Nat)) : List Byte :=
  (l.map fun e => (s.core cid).scrBytes (base + e.1) e.2).flatten

/-- Whether a tile or the stage holds an error that the command reads (R276). -/
def State.tileError (s : State) (qk cid : Nat) (op : CmdOp) : Bool :=
  let reads := match op with
    | .mma _ _ o _ _ _ => !o.zc
    | .accSt _ _ _ _ _ => true
    | _ => false
  s.poison.any fun e => match e with
    | .tile c k => c == cid && reads && some (k / 4096) == op.tile
    | .stage q => q == qk
    | _ => false

/-- A metadata nibble (R204). -/
def nibbleOf (side : List Byte) (g : Geo) (row grp : Nat) : Nat :=
  let b := (nthD 0 side (row * g.mrow + grp / 2)).toNat
  if grp % 2 = 0 then b % 16 else b / 16

/-- The lowest row and group whose nibble gives one position twice (R206). -/
def badNibble (side : List Byte) (g : Geo) : Option (Nat × Nat) :=
  if g.mrow = 0 then none
  else
    ((List.range 64).flatMap fun i =>
      let row := (side.drop (i * g.mrow)).take g.mrow
      ((List.range (g.k / 4)).filter fun n =>
        let x := nibbleOf row { g with mrow := 0 } 0 n
        x % 4 == x / 4).map fun n => (i, n)).head?

/-- Metadata and scales of a staged buffer. -/
def sideOf (g : Geo) (buf : List Byte) : List Byte := buf.drop (8192 + g.bRows * g.bLen)

/-- Staging ends for a command whose bytes are at hand. -/
def State.staged (s : State) (qk cid : Nat) (c : Cmd) (buf : List Byte) : State :=
  let done := s.setQuad qk { s.quad qk with staged := true, own := none, buf := buf, cursor := 0 }
  match c.op with
  | .mma f sp o _ _ _ =>
    match badNibble (sideOf (mmaGeo f sp o) buf) (mmaGeo f sp o) with
    | some (row, grp) =>
      s.failTile qk cid c causeSparse
        (65536 * (c.seq.toNat % 65536) + 16384 * o.t.toNat + 256 * row + grp) c.pc.toNat
    | none => done
  | _ => done

/-- The operands of a command as its scratchpad holds them now (R309). -/
def State.readStage (s : State) (cid : Nat) (c : Cmd) : Stage :=
  let base := (s.team c.team).base
  ⟨s.gatherRows cid base (stageRows c.op), s.scrError cid base (stageRows c.op)⟩

/-- Whether a `wua` command still lacks rows of A (R309). -/
def Quad.lacksRows (q : Quad) (c : Cmd) : Bool := c.op.wua && decide (q.rows < 64)

/-- Whether the Warm-up Array has a row of A for the running command: 128 bytes. -/
def Quad.hasRow (q : Quad) (c : Cmd) : Bool := q.lacksRows c && decide (128 ≤ q.stream.length)

/-- The running command receives one row of A (R309, R389). -/
def Quad.takeRow (q : Quad) : Quad :=
  { q with buf := q.buf ++ q.stream.take 128, rows := q.rows + 1, stream := q.stream.drop 128 }

/-- Step 4 of R311 ends when the whole of A and the scratchpad operands are at hand: the checks of R309, in its order. -/
def State.endStaging (s : State) (qk cid : Nat) (c : Cmd) : State :=
  let q := s.quad qk
  match if q.lacksRows c then none else q.own with
  | none => s
  | some st =>
    match st.err with
    | some off => s.failTile qk cid c causeEngine (engineFault c.seq 2 3) off
    | none =>
      if s.tileError qk cid c.op then s.failTile qk cid c causeEngine (engineFault c.seq 2 3) (s.free / 4)
      else s.staged qk cid c (q.buf ++ st.bytes)

/-- Whether the running command is in step 4 of R311: it has operands, and they are not all at hand. -/
def Quad.staging (q : Quad) (c : Cmd) : Bool := !q.staged && !(stageRows c.op).isEmpty

/-- Whether step 4 can go on: operands to read from scratchpad, or a row at hand. -/
def Quad.canStage (q : Quad) (c : Cmd) : Bool := q.staging c && (q.own.isNone || q.hasRow c || !q.lacksRows c)

/-- One event of step 4: a row of A, or the reads from scratchpad; which comes first is open where
both can (DESIGN CHOICE, log 2). -/
def State.stageStep (s : State) (qk cid : Nat) (c : Cmd) : State :=
  let q := s.quad qk
  if q.hasRow c && (q.own.isSome || s.free % 4 / 2 == 0) then s.setQuad qk q.takeRow
  else if q.own.isNone then s.setQuad qk { q with own := some (s.readStage cid c) }
  else s

/-- The command that the engine may stage in its other buffer: the one that R264 would choose if the running command ended
now, where it has started and takes no A from the Warm-up Array (R310). -/
def State.aheadPick (s : State) (qk cid : Nat) (c : Cmd) : Option Choice :=
  if (s.quad qk).ahead.isSome then none
  else
    (((s.endCmd cid c.seq).idleEngine qk).nextChoice qk).filter fun x =>
      x.cmd.started && !x.cmd.op.wua && !(stageRows x.cmd.op).isEmpty

/-- A command is staged ahead (R310): its operands are read, an error in them only noted. -/
def State.stageAhead (s : State) (qk : Nat) (x : Choice) : State :=
  s.setQuad qk { s.quad qk with ahead := some (x.core, x.cmd.seq, s.readStage x.core x.cmd) }

/-- Whether the next read is for the other buffer: which comes first is open where the running command can
stage too (DESIGN CHOICE, log 2). -/
def State.readsAhead (s : State) (qk cid : Nat) (c : Cmd) : Option Choice :=
  if (s.quad qk).canStage c && s.free % 2 == 0 then none else s.aheadPick qk cid c

/-- operandStagingDone: a step of the staging of the running command (R309), or of the command that is expected next
(R310). -/
def execOperandStagingDone (q : Nat) (s : State) : Host.Outcome State Fault Refusal :=
  match s.running q with
  | none => .fault .notEnabled
  | some (cid, c) =>
    if s.active cid then
      match s.readsAhead q cid c with
      | some x => .next (s.stageAhead q x)
      | none => if (s.quad q).canStage c then .next ((s.stageStep q cid c).endStaging q cid c) else .fault .notEnabled
    else .fault .notEnabled

/-! Blocks (R204, R205, R307, R308). -/

/-- The value of an element code. -/
def mmaElem (f : MmaFmt) (x : Nat) : Val :=
  match f with
  | .f16 => Enc.f16.decode x
  | .bf16 => Enc.bf16.decode x
  | .e4m3 => decodeE4m3 x
  | .e5m2 => decodeE5m2 x
  | .s8 => decodeS8 x
  | .mxf4 => decodeE2m1 x
  | .dpt => decodeDpt x

/-- The element codes of a run of bytes; half is the element size in half bytes (R80: the low nibble first). -/
def codesOf (half : Nat) : List Byte → List Nat
  | [] => []
  | [x] => if half = 1 then [x.toNat % 16, x.toNat / 16] else [x.toNat]
  | x :: y :: r =>
    match half with
    | 1 => x.toNat % 16 :: x.toNat / 16 :: codesOf half (y :: r)
    | 2 => x.toNat :: codesOf half (y :: r)
    | _ => (x.toNat + 256 * y.toNat) :: codesOf half r

/-- Element i of a stored row. -/
def codeAt (half : Nat) (row : List Byte) (i : Nat) : Nat :=
  match half with
  | 1 => let x := (nthD 0 row (i / 2)).toNat; if i % 2 = 0 then x % 16 else x / 16
  | 2 => (nthD 0 row i).toNat
  | _ => (nthD 0 row (2 * i)).toNat + 256 * (nthD 0 row (2 * i + 1)).toNat

/-- Rows of len bytes of an operand. -/
def rowsOf (len : Nat) (bs : List Byte) : Nat → List (List Byte)
  | 0 => []
  | n + 1 => bs.take len :: rowsOf len (bs.drop len) n

/-- The codes of one line of an operand along k: stored row i, or element i of every stored row when K-major. -/
def lineCodes (kMajor : Bool) (half len rows : Nat) (bs : List Byte) (i : Nat) : List Nat :=
  if kMajor then (rowsOf len bs rows).map fun r => codeAt half r i
  else codesOf half ((bs.drop (i * len)).take len)

/-- The logical positions of the elements of row i of A: all of them, or those that its nibbles name (R204). -/
def rowPositions (sp : Bool) (g : Geo) (side : List Byte) (i : Nat) : List Nat :=
  if sp then
    let row := (side.drop (i * g.mrow)).take g.mrow
    (List.range (g.k / 4)).flatMap fun n =>
      let x := nibbleOf row { g with mrow := 0 } 0 n
      [4 * n + x % 4, 4 * n + x / 4]
  else List.range g.k

/-- A product under the two scales of its block (R307); a NaN scale makes it NaN (R92). -/
def scaleProduct (p : Exact) (sa sb : Nat) : Exact :=
  match scaleExp sa, scaleExp sb with
  | some x, some y =>
    match p with
    | .real n m e more => .real n m (e + x + y) more
    | d => d
  | _, _ => .done ⟨.nan false, 0⟩

/-- The products of output (i, j) from the line of A with its positions and the line of B. -/
def products (f : MmaFmt) (g : Geo) (side : List Byte) (i j : Nat) (a : List (Nat × Nat)) (b : List Nat) : List Exact :=
  a.map fun e =>
    let p := Val.mul (mmaElem f e.2) (mmaElem f (nthD 0 b e.1))
    if g.nb = 0 then p
    else
      scaleProduct p (nthD 0 side (64 * g.mrow + i * g.nb + e.1 / 32)).toNat
        (nthD 0 side (64 * g.mrow + 64 * g.nb + j * g.nb + e.1 / 32)).toNat

def tileKey (t i j : Nat) : Nat := 4096 * t + 64 * i + j
def Core.tile (c : Core) (t i j : Nat) : Word := Tbl.get 0 c.tiles (tileKey t i j)
def Core.setTile (c : Core) (t i j : Nat) (w : Word) : Core := { c with tiles := Tbl.set 0 c.tiles (tileKey t i j) w }

/-- C of an element (R205). -/
def mmaC (o : MmaOps) (w : Word) : Val := if o.zc then .zero false else Enc.f32.decode w.toNat

/-- The 64 results of block b as (i, j, word). -/
def blockResults (f : MmaFmt) (sp : Bool) (o : MmaOps) (buf : List Byte) (core : Core) (b : Nat) : List (Nat × Nat × Word) :=
  let g := mmaGeo f sp o
  let bBytes := (buf.drop 8192).take (g.bRows * g.bLen)
  let side := sideOf g buf
  let rows := (List.range 8).map fun r =>
    let i := 8 * (b % 8) + r
    (i, (rowPositions sp g side i).zip (lineCodes o.ta g.half g.aLen g.aRows (buf.take 8192) i))
  let cols := (List.range 8).map fun c =>
    let j := 8 * (b / 8) + c
    (j, lineCodes o.tb g.half g.bLen g.bRows bBytes j)
  rows.flatMap fun x => cols.map fun y =>
    let c := core.tile o.t.toNat x.1 y.1
    (x.1, y.1, BitVec.ofNat 32 (Enc.f32.encode (dot (products f g side x.1 y.1 x.2 y.2) (mmaC o c))))

/-- Tile elements written whole lose their errors (R352). -/
def State.cleanTile (s : State) (cid t : Nat) (l : List (Nat × Nat × Word)) : State :=
  { s with poison := s.poison.filter fun e => match e with
      | .tile c k => !(c == cid && l.any fun x => tileKey t x.1 x.2.1 == k)
      | _ => true }

def State.writeTile (s : State) (cid t : Nat) (l : List (Nat × Nat × Word)) : State :=
  (s.setCore cid (l.foldl (fun c x => c.setTile t x.1 x.2.1 x.2.2) (s.core cid))).cleanTile cid t l

/-- mmaBlockStep: one block at the cursor (R308). -/
def execMmaBlockStep (q : Nat) (s : State) : Host.Outcome State Fault Refusal :=
  match s.running q with
  | some (cid, c) =>
    match c.op with
    | .mma f sp o _ _ _ =>
      let x := s.quad q
      if x.staged && decide (x.cursor < 64) && s.active cid then
        let s1 := s.writeTile cid o.t.toNat (blockResults f sp o x.buf (s.core cid) x.cursor)
        .next (s1.setQuad q { x with cursor := x.cursor + 1 })
      else .fault .notEnabled
    | _ => .fault .notEnabled
  | none => .fault .notEnabled

/-! Tile moves (R207, R208). -/

/-- All 64 × 64 index pairs. -/
def tileIndices : List (Nat × Nat) := (List.range 64).flatMap fun i => (List.range 64).map fun j => (i, j)

def accDecode (fmt : AccFmt) (x : Nat) : Nat :=
  match fmt with
  | .f32 => x
  | .f16 => Enc.f32.encode (Enc.f16.decode x)
  | .bf16 => Enc.f32.encode (Enc.bf16.decode x)

def accEncode (fmt : AccFmt) (w : Word) : Nat :=
  let v := (Enc.f32.decode w.toNat).forConvert
  match fmt with
  | .f32 => w.toNat
  | .f16 => Enc.f16.encode (v.round Fmt.f16 .rne).val
  | .bf16 => Enc.bf16.encode (v.round Fmt.bf16 .rne).val

/-- The tile that staged rows give. -/
def accLoaded (fmt : AccFmt) (tr : Bool) (buf : List Byte) : List (Nat × Nat × Word) :=
  let w := fmt.bytes
  let rows := rowsOf (64 * w) buf 64
  (rows.zip (List.range 64)).flatMap fun r => (List.range 64).map fun c =>
    let v := BitVec.ofNat 32 (accDecode fmt (leValue ((r.1.drop (w * c)).take w)))
    if tr then (c, r.2, v) else (r.2, c, v)

/-- The rows that a tile gives, as writes at team-relative offsets. -/
def accStored (core : Core) (t off : Nat) (fmt : AccFmt) (tr : Bool) (pitch base : Nat) : List Put :=
  (List.range 64).map fun r =>
    ⟨base + off + r * pitch,
      (List.range 64).flatMap fun c =>
        leBytes fmt.bytes (accEncode fmt (if tr then core.tile t c r else core.tile t r c))⟩

/-- The effect of step 5 of R311 for the moves. -/
def State.moveTile (s : State) (qk cid : Nat) (c : Cmd) : State :=
  match c.op with
  | .zero t => s.writeTile cid t (tileIndices.map fun e => (e.1, e.2, 0))
  | .accLd t _ fmt tr _ => s.writeTile cid t (accLoaded fmt tr (s.quad qk).buf)
  | .accSt t off fmt tr pitch => s.putScratch cid (accStored (s.core cid) t off fmt tr pitch (s.team c.team).base)
  | _ => s

/-- Whether the running command has nothing left before its completion. DESIGN CHOICE: the cursor of a command whose last block is
done stands at 64, and a save keeps that; R312's cursor has 6 bits (log 78). -/
def State.tileDone (s : State) (qk : Nat) (c : Cmd) : Bool :=
  match c.op with
  | .mma _ _ _ _ _ _ => (s.quad qk).staged && (s.quad qk).cursor == 64
  | .accLd _ _ _ _ _ => (s.quad qk).staged
  | _ => true

/-- tileCommandComplete: locks removed, then the signal; the engine chooses its next command (R311, R264). -/
def execTileCommandComplete (q : Nat) (s : State) : Host.Outcome State Fault Refusal :=
  match s.running q with
  | some (cid, c) =>
    if s.tileDone q c && s.active cid then
      if (match c.op with
          | .accSt _ _ _ _ _ => s.tileError q cid c.op
          | _ => false) then
        .next (s.failTile q cid c causeEngine (engineFault c.seq 2 3) s.free)
      else .next ((((s.moveTile q cid c).endCmd cid c.seq).signalCmd c).releaseEngine q)
    else .fault .notEnabled
  | none => .fault .notEnabled

/-! The copy engine (R209, R349). -/

inductive CopyStop where
  | page (level reason entry va : Nat) (writes : Bool)
  | fault (reason loc addr : Nat)
  | path (loc addr : Nat)
  | ask (loc sys va : Nat)
  /-- the home takes copies of a line back first (R297) -/
  | home (line : Nat) (write : Bool)
deriving DecidableEq, Repr

/-- Whether an address lies in a row of a block. -/
def inRows (global : Bool) (start stride bytes rows a : Nat) : Bool :=
  let d := if global then (a + 2 ^ 48 - start) % 2 ^ 48 else a - start
  let r := if stride = 0 then 0 else if rows - 1 < d / stride then rows - 1 else d / stride
  (global || decide (start ≤ a)) && decide (d - r * stride < bytes)

/-- A copy as an agent at the homes. -/
def Cmd.agent (c : Cmd) (cid : Nat) : AgentId := .copy cid c.seq

/-- A read of one word by a copy; once its address is translated, its leaf is marked before all else (R360). -/
def State.copyRead (s : State) (cid : Nat) (c : Cmd) (global : Bool) (a : Nat) : State × Except CopyStop (List Byte) :=
  let base := (s.team c.team).base
  let b := corePart cid
  if global then
    let x := s.translateVia (s.engineUnits cid) b (coreCtx cid) a Need.read
    let s1 := (s.markLeaf x false).fillQuad cid a x
    match x with
    | .fault level reason entry => (s, .error (.page level reason entry a false))
    | .perm loc _ => (s, .error (.fault 1 loc a))
    | .bad => (s, .error (.fault 2 0 a))
    | .ok 0 pa _ leaf _ =>
      if s.memPoisoned pa 4 then (s1, .error (.fault 2 0 a))
      else if s.homeFree (c.agent cid) (pa / 128) false then
        (s1.letGo (c.agent cid) [pa / 128], .ok (s1.readKeyed (keyOf b leaf) pa 4))
      else (s1, .error (.home (pa / 128) false))
    | .ok loc pa _ _ _ =>
      if s.reachable b loc pa then
        let acq := (s.group c.group).lastAcq
        (s1, if (s.linesMissing c.served acq loc pa 4).isEmpty then .ok (s.remoteBytes c.served acq loc pa 4)
          else .error (.ask loc pa a))
      else (s1, .error (.path loc a))
  else
    (s, if s.scrPoisoned cid (base + a) 4 then .error (.fault 2 3 a) else .ok ((s.core cid).scrBytes (base + a) 4))

/-- The errors of units that a copy has written whole with its word at a are gone (R352): a sector of local memory, a word of the
scratchpad. -/
def State.copyMended (s : State) (cid at_ : Nat) (global : Bool) (covered : Bool) : State :=
  if covered then
    { s with poison := s.poison.filter fun q => match q with
        | .mem k => !(global && k == at_ / 32)
        | .l2 k => !(global && k == at_ / 32)
        | .scr c k => !(!global && c == cid && k == at_ / 8)
        | _ => true }
  else s

/-- A write of one word by a copy; whole tells whether the copy writes the n bytes that end with this word. -/
def State.copyWrite (s : State) (cid : Nat) (c : Cmd) (global : Bool) (a : Nat) (whole : Nat → Bool) (bs : List Byte) :
    State × Option CopyStop :=
  let b := corePart cid
  if global then
    let x := s.translateVia (s.engineUnits cid) b (coreCtx cid) a Need.write
    let s1 := (s.markLeaf x true).fillQuad cid a x
    match x with
    | .fault level reason entry => (s, some (.page level reason entry a true))
    | .perm loc _ => (s, some (.fault 1 loc a))
    | .bad => (s, some (.fault 2 0 a))
    | .ok 0 pa _ leaf _ =>
      if s.homeFree (c.agent cid) (pa / 128) true then
        let s2 := (s1.putKeyed (keyOf b leaf) [⟨pa, bs⟩]).copyMended cid pa true (pa % 32 == 28 && whole 32)
        (s2.letGo (c.agent cid) [pa / 128], none)
      else (s1, some (.home (pa / 128) true))
    | .ok loc pa _ _ _ =>
      if s.reachable b loc pa then
        (s1.send (writeRequest b (.copy cid c.seq) loc pa bs (engineFault c.seq 3 loc) a), none)
      else (s1, some (.path loc a))
  else
    let at_ := (s.team c.team).base + a
    ((s.putScratch cid [⟨at_, bs⟩]).copyMended cid at_ false (at_ % 8 == 4 && whole 8), none)

/-- A copy's word n: read, then written; a destination that also lies in the source ranges ends with a free value. -/
def State.copyWord (s : State) (cid : Nat) (c : Cmd) (n : Nat) : State × Option CopyStop :=
  match c.op with
  | .copy dir src dst sstr dstr bytes rows =>
    let gs := copyFromGlobal dir
    let gd := copyToGlobal dir
    let r := n / (bytes / 4)
    let k := n % (bytes / 4)
    let wrap (g : Bool) (x : Nat) : Nat := if g then x % 2 ^ 48 else x
    let sa := wrap gs (src + r * sstr + 4 * k)
    let da := wrap gd (dst + r * dstr + 4 * k)
    let d := s.copyRead cid c gs sa
    match d.2 with
    | .error e => (d.1, some e)
    | .ok bs =>
      let open_ := gs == gd && inRows gs src sstr bytes rows da
      let whole (n : Nat) : Bool :=
        (List.range (n / 4)).all fun i => inRows gd dst dstr bytes rows (wrap gd ((if gd then da + 2 ^ 48 else da) - 4 * i))
      d.1.copyWrite cid c gd da whole (if open_ then leBytes 4 (s.free / 2 ^ (32 * n)) else bs)
  | _ => (s, none)

/-- The words of a copy, n of total left, in ascending order: DESIGN CHOICE, R209 moves them in any order (log 77). The state, why
it stopped and how many are left. -/
def State.copyWords (s : State) (cid : Nat) (c : Cmd) (total : Nat) : Nat → State × Option CopyStop × Nat
  | 0 => (s, none, 0)
  | n + 1 =>
    let d := s.copyWord cid c (total - (n + 1))
    match d.2 with
    | some e => (d.1, some e, n + 1)
    | none => d.1.copyWords cid c total n

def CmdOp.words : CmdOp → Nat
  | .copy _ _ _ _ _ bytes rows => bytes / 4 * rows
  | _ => 0

/-- Changes a copy in its queue. -/
def State.setCopy (s : State) (cid : Nat) (seq : Word) (f : Cmd → Cmd) : State :=
  let c := s.core cid
  s.setCore cid { c with copyQ := c.copyQ.map fun x => if x.seq = seq then f x else x }

/-- Whether a copy waits for the pager, the host or a peer: its writes to the host are asked for at its end (R394). -/
def State.copyWaits (s : State) (cid : Nat) (seq : Word) : Bool :=
  (s.mails.any fun e => e.2.live && e.2.who == .copy cid seq) ||
    s.remotes.any fun e => e.2.live && e.2.who == .copy cid seq && !e.2.posted

/-- A copy ends by ENGINE_FAULT (R209). -/
def State.failCopy (s : State) (cid : Nat) (c : Cmd) (reason loc addr : Nat) : State :=
  (s.endCmd cid c.seq).report c.group (c.report causeEngine (engineFault c.seq reason loc) addr)

/-- The message of a copy's page fault (R346, R349). -/
def State.copyMail (s : State) (cid : Nat) (c : Cmd) (level reason entry va : Nat) (writes : Bool) : Mail :=
  let t := s.team c.team
  { Mail.none with
    who := .copy cid c.seq, part := corePart cid, ctx := coreCtx cid, kind := 2, level := level, reason := reason,
    address := BitVec.ofNat 64 va, access := BitVec.ofNat 32 (engineWord 3 + if writes then 2 ^ 20 else 0),
    grid := (s.grid t.grid).id, team := BitVec.ofNat 32 t.index, wher := whereWord cid (s.group c.group).num 0,
    pc := c.pc.setWidth 64, entry := BitVec.ofNat 64 entry, seqno := c.seq }

/-- A copy's page fault: failed at once without a mailbox (R350), and for a supervisor group, whose faults never reach the mailbox
(R343). -/
def State.copyPage (s : State) (cid : Nat) (c : Cmd) (level reason entry va : Nat) (writes : Bool) : State :=
  if (s.group c.group).sup then s.failCopy cid c 0 0 va
  else
    match s.mailbox (corePart cid) (coreCtx cid) with
    | .absent => s.failCopy cid c 0 0 va
    | .unusable => s.gridCheck (s.team c.team).grid 6 0 va
    | .ok mva size => s.postMail (s.copyMail cid c level reason entry va writes) mva size

def State.stopCopy (s : State) (cid : Nat) (c : Cmd) : CopyStop → State
  | .page level reason entry va writes => s.copyPage cid c level reason entry va writes
  | .fault reason loc addr => s.failCopy cid c reason loc addr
  | .path loc addr => (s.countRefused (corePart cid)).failCopy cid c 3 loc addr
  | .ask loc sys va =>
    s.askAll (corePart cid) (fun _ => .copy cid c.seq)
      ((s.linesMissing c.served (s.group c.group).lastAcq loc sys 4).map fun l =>
        ⟨0, loc, (l - loc * 2 ^ 41) * 128, engineFault c.seq 3 loc, va, none⟩)
  | .home line write => s.askHome (c.agent cid) (corePart cid) line write

/-- Whether a copy that got as far as word n is stopped by a home that takes copies back already. -/
def State.copyStuck (s : State) (cid : Nat) (c : Cmd) (n : Nat) (e : CopyStop) : Bool :=
  match e with
  | .home line write => n == c.moved && s.homeAsked (c.agent cid) (corePart cid) line write
  | _ => false

/-- copyComplete: the words that are left, then, once every write has been answered, locks removed and the signal. -/
def execCopyComplete (cid : Nat) (seq : Word) (s : State) : Host.Outcome State Fault Refusal :=
  match (s.core cid).copyQ.find? fun c => c.seq == seq && c.started with
  | none => .fault .notEnabled
  | some c =>
    if s.active cid && !s.copyWaits cid seq then
      let total := c.op.words
      let r := s.copyWords cid c total (total - c.moved)
      let s1 := r.1.setCopy cid seq fun x => { x with moved := total - r.2.2 }
      match r.2.1 with
      | some e => if s.copyStuck cid c (total - r.2.2) e then .fault .notEnabled else .next (s1.stopCopy cid c e)
      | none =>
        if s1.copyWaits cid seq then .next s1
        else if s1.hostWrites (· == .copy cid seq) then
          if c.moved = total then s.orFlush (corePart cid) (· == .copy cid seq) else .next s1
        else .next ((s1.endCmd cid seq).signalCmd c)
    else .fault .notEnabled

end Sys2Proof.Machine
end

