-- ==== Sys2Proof/Machine/Warmup.lean ====
section
/-! DEFINITION. The Warm-up Array (R381-R390) and the lane side of slot rings (R378-R380). -/
namespace Sys2Proof.Machine

open Sys2Proof

/-! Configuration blocks (R382-R386). -/

def wuaByteAt (l : List Byte) (i : Nat) : Nat := (nthD 0 l i).toNat
def wordAt (l : List Byte) (i : Nat) : Nat := leValue ((l.drop i).take 4)

/-- Sources that an operation uses (R384): 3 a, b and c; 2 a and b; 1 a. -/
def elemUses (op : Nat) : Nat :=
  match op with
  | 0 => 0
  | 4 => 3
  | 8 => 3
  | 11 => 3
  | 1 => 2
  | 2 => 2
  | 3 => 2
  | 5 => 2
  | 6 => 2
  | _ => 1

/-- The bits of the parameter word that an operation reads. -/
def elemParamMask (op : Nat) : Nat :=
  match op with
  | 3 => 0x1F
  | 4 => 0x1F
  | 7 => 0x3F
  | 9 => 0x1F
  | 10 => 0x7FF
  | 12 => 7
  | 13 => 7
  | _ => 0

/-- The factor of binning and decimation. -/
def elemFactor (op param : Nat) : Nat := if op = 12 ∨ op = 13 then 2 ^ (param % 8) else 1

/-- Whether a source code is legal for element n. -/
def sourceLegal (n code : Nat) : Bool :=
  decide (code ≤ 5) || (decide (16 ≤ code) && decide (code < 32) && decide ((code - 16) / 4 < n / 4))

/-- The rate of a source, none for a constant; rates are those of the elements so far. -/
def sourceRate (rates : List Nat) (code : Nat) : Option Nat :=
  if 16 ≤ code then some (nthD 1 rates (code - 16)) else if code = 1 ∨ code = 2 ∨ code = 3 then some 1 else none

/-- A failing byte: offset and reason. -/
abbrev CfgBad := Nat × Nat

def badIf (c : Bool) (off reason : Nat) : List CfgBad := if c then [(off, reason)] else []

/-- Checks of an element descriptor; rates and delay total of the elements below it. -/
def elemChecks (l : List Byte) (n : Nat) (rates : List Nat) (delays : Nat) : List CfgBad :=
  let at_ := 0x40 + 16 * n
  let op := wuaByteAt l at_ % 16
  let used := elemUses op
  let src := fun (i : Nat) => wuaByteAt l (at_ + 1 + i)
  let param := wordAt l (at_ + 12)
  let rs := (List.range used).map fun i => (i, sourceRate rates (src i))
  let first := (rs.filterMap fun e => e.2).head?
  badIf (decide (16 ≤ wuaByteAt l at_)) at_ 2 ++ badIf (decide (14 ≤ op)) at_ 3 ++
    ((List.range 3).flatMap fun i =>
      badIf (if i < used then !sourceLegal n (src i) else src i != 0) (at_ + 1 + i) 4 ++
        badIf (decide (i < used) && (sourceRate rates (src i)).isSome && sourceRate rates (src i) != first) (at_ + 1 + i) 5) ++
    ((List.range 4).flatMap fun i =>
      badIf (wuaByteAt l (at_ + 12 + i) &&& (elemParamMask op / 256 ^ i % 256) != wuaByteAt l (at_ + 12 + i)) (at_ + 12 + i) 2 ++
        (if i = 0 then
          badIf ((op == 12 || op == 13) && (param % 8 == 0 || decide (4 < param % 8))) (at_ + 12) 6 ++
            badIf (op == 10 &&
              (param % 2048 == 0 || decide (1024 < param % 2048) || decide (2048 < delays + param % 2048))) (at_ + 12) 6 ++
            badIf (decide (16 < first.getD 1 * elemFactor op param)) (at_ + 12) 5
        else []))

/-- The rate of element n. -/
def elemRate (l : List Byte) (n : Nat) (rates : List Nat) : Nat :=
  let at_ := 0x40 + 16 * n
  let op := wuaByteAt l at_ % 16
  let rs := (List.range (elemUses op)).filterMap fun i => sourceRate rates (wuaByteAt l (at_ + 1 + i))
  rs.headD 1 * elemFactor op (wordAt l (at_ + 12))

/-- The rates of the first n elements. -/
def elemRates (l : List Byte) (n : Nat) : List Nat := (List.range n).foldl (fun rs i => rs ++ [elemRate l i rs]) []

/-- Total delay of the first n elements. -/
def delayTotal (l : List Byte) (n : Nat) : Nat :=
  (List.range n).foldl
    (fun t i => if wuaByteAt l (0x40 + 16 * i) % 16 = 10 then t + wordAt l (0x40 + 16 * i + 12) % 2048 else t) 0

/-- Checks of an output descriptor (R385). -/
def outChecks (l : List Byte) (o : Nat) : List CfgBad :=
  let at_ := 0x140 + 16 * o
  let b := fun i => wuaByteAt l (at_ + i)
  let fmt := b 1 % 8
  badIf (decide (32 ≤ b 0)) at_ 2 ++ badIf (decide (8 ≤ b 1)) (at_ + 1) 2 ++ badIf (decide (5 ≤ fmt)) (at_ + 1) 7 ++
    badIf (decide (2 ≤ b 2)) (at_ + 2) 2 ++ badIf (b 2 % 2 == 1 && (fmt == 1 || fmt == 3)) (at_ + 2) 7 ++
    badIf (decide (32 ≤ b 3)) (at_ + 3) 2 ++ badIf (fmt != 3 && b 4 != 0) (at_ + 4) 2 ++
    (List.range 11).flatMap fun i => badIf (b (5 + i) != 0) (at_ + 5 + i) 2

/-- Bytes from lo on that must be 0. -/
def zeroChecks (l : List Byte) (lo n : Nat) : List CfgBad :=
  (List.range n).flatMap fun i => badIf (wuaByteAt l (lo + i) != 0) (lo + i) 2

/-- The checks of a block in ascending offset (R386). -/
def blockChecks (l : List Byte) : List CfgBad :=
  badIf (wuaByteAt l 0 != 1) 0 1 ++ badIf (wuaByteAt l 1 != 0) 1 2 ++ badIf (decide (8 ≤ wuaByteAt l 2)) 2 2 ++
    badIf (wuaByteAt l 3 != 0) 3 2 ++ zeroChecks l 4 60 ++
    ((List.range 16).flatMap fun n => elemChecks l n (elemRates l n) (delayTotal l n)) ++
    ((List.range 2).flatMap fun o => outChecks l o) ++ zeroChecks l 0x160 160

/-- What s[d] gets from a load. -/
def loadCode (l : List Byte) : Nat :=
  match blockChecks l with
  | [] => 0
  | (off, reason) :: _ => 2 ^ 31 + 65536 * reason + off

/-! wuacfg (R386). -/

/-- Checks of a scratchpad range read at issue: its alignment to 8, the data area, and its errors. -/
def State.descStops (s : State) (off len : Nat) : List (Option Stop) :=
  [unitStop 8 [(off, 0)], s.areaStop [⟨off, len, false⟩]]

def State.descError (s : State) (off len : Nat) : Option Stop :=
  (s.scrError s.coreId s.ct.base [(off, len)]).map fun a => .trap (Trap.plain causeData (engineWord 0) a)

def State.lockedStop (s : State) (off len : Nat) : Option Stop :=
  (s.cc.lockAt (s.ct.base + off) len true).map fun k => .trap (Trap.plain causeLocked k.tval off)

def State.wuaStatus (s : State) : Nat :=
  s.cc.wuaStat.toNat + (if s.cc.wuaCfg.isSome then 256 else 0) + 65536 * s.cc.runQ.length

def execWuacfg (g : Guard) (stat clr : Bool) (d a : Reg) (off : BitVec 16) (s : State) : Host.Outcome State Fault Refusal :=
  if stat then
    let s1 := s.writeS d.toNat false s.wuaStatus
    s.uniform g [opS d false false] [] (if clr then s1.setCc { s1.cc with wuaStat := 0 } else s1).advance
  else
    let at_ := wrapTo 32 ((s.cg.sreg a.toNat).toNat + off.toInt)
    let block := s.cc.scrBytes (s.ct.base + at_) 1024
    let code := loadCode block
    let s1 := if code = 0 then s.setCc { s.cc with wuaCfg := some block } else s
    s.uniform g [opS a false true, opS d false false]
      (s.descStops at_ 1024 ++
        [s.lockedStop at_ 1024, s.descError at_ 1024, stopIf (!s.cc.runQ.isEmpty) .stall])
      (s1.writeS d.toNat false code).advance

/-! Runs (R387, R388). -/

/-- What a run descriptor holds. -/
structure RunDesc where
  x : Nat
  beats : Nat
  rows : Nat
  xstr : Nat
  y0 : Nat
  y1 : Nat
  ystr : Nat
  out0 : Nat
  out1 : Nat
deriving DecidableEq, Repr

def RunDesc.of (l : List Byte) : RunDesc :=
  { x := wordAt l 0, beats := wordAt l 4 % 65536, rows := wordAt l 4 / 65536 + 1, xstr := wordAt l 8, y0 := wordAt l 12,
    y1 := wordAt l 16, ystr := wordAt l 20, out0 := wordAt l 24, out1 := wordAt l 28 }

/-- Whether an element of the configuration reads a source code. -/
def usesSource (cfg : List Byte) (code : Nat) : Bool :=
  (List.range 16).any fun n =>
    let at_ := 0x40 + 16 * n
    (List.range (elemUses (wuaByteAt cfg at_ % 16))).any fun i => wuaByteAt cfg (at_ + 1 + i) == code

def outEnabled (cfg : List Byte) (o : Nat) : Bool := wuaByteAt cfg (0x140 + 16 * o) / 16 % 2 == 1
def outFormat (cfg : List Byte) (o : Nat) : Nat := wuaByteAt cfg (0x141 + 16 * o) % 8
def outRate (cfg : List Byte) (o : Nat) : Nat := nthD 1 (elemRates cfg 16) (wuaByteAt cfg (0x140 + 16 * o) % 16)

/-- Bytes that output o of a run of n beats gives. -/
def outLen (cfg : List Byte) (o n : Nat) : Nat := 16 * n / outRate cfg o * (if outFormat cfg o = 0 then 2 else 1)

def RunDesc.out (r : RunDesc) (o : Nat) : Nat := if o = 0 then r.out0 else r.out1
def RunDesc.toEngine (r : RunDesc) (o : Nat) : Bool := r.out o / 2 ^ 31 % 2 == 1
def RunDesc.n (r : RunDesc) : Nat := r.beats * r.rows

/-- The ranges of a run in the order of R388. -/
def runAreas (cfg : List Byte) (r : RunDesc) : List Area :=
  let y (used : Bool) (off : Nat) : List Area := if used then [⟨off, spanOf r.rows r.ystr (32 * r.beats), false⟩] else []
  ⟨r.x, spanOf r.rows (if r.rows = 1 then 0 else r.xstr) (32 * r.beats), false⟩ ::
    (y (usesSource cfg 2) r.y0 ++ y (usesSource cfg 3) r.y1 ++
      (List.range 2).flatMap fun o =>
        if outEnabled cfg o && !r.toEngine o then [⟨r.out o % 2 ^ 19, outLen cfg o r.n, true⟩] else [])

/-- The fields that must be multiples of 32, those that the run ignores left out. -/
def runUnits (cfg : List Byte) (r : RunDesc) : List (Nat × Nat) :=
  let y0 := usesSource cfg 2
  let y1 := usesSource cfg 3
  [(r.x, 0)] ++ (if r.rows = 1 then [] else [(r.xstr, 0)]) ++ (if y0 then [(r.y0, 0)] else []) ++
    (if y1 then [(r.y1, 0)] else []) ++ [(r.ystr, 0)]

/-- The third check of R388. -/
def runIllegal (cfg : Option (List Byte)) (l : List Byte) (r : RunDesc) : Bool :=
  let c := cfg.getD []
  let outs := (List.range 2).filter fun o => outEnabled c o
  let engine := outs.filter fun o => r.toEngine o
  cfg.isNone || r.beats == 0 || decide (4096 < r.beats) || decide (4096 < r.rows) ||
    ((l.drop 0x20).any fun b => b != 0) || (outs.any fun o => r.out o / 2 ^ 19 % 2 ^ 12 != 0) ||
    (outs.any fun o => r.n % outRate c o != 0) || decide (1 < engine.length) ||
    engine.any fun o => outLen c o r.n % 8192 != 0

def execWuarun (g : Guard) (a : Reg) (sync : Sync) (s : State) : Host.Outcome State Fault Refusal :=
  let at_ := (s.cg.sreg a.toNat).toNat
  let l := s.cc.scrBytes (s.ct.base + at_) 64
  let r := RunDesc.of l
  let cfg := s.cc.wuaCfg.getD []
  let areas := runAreas cfg r
  s.uniform g (syncOps sync ++ [opS a false true])
    (s.descStops at_ 64 ++
      [s.descError at_ 64, unitStop 32 (runUnits cfg r), s.areaStop areas,
        stopIf (runIllegal s.cc.wuaCfg l r) (illegal (.wuarun g a sync) 4), s.queueStop (.run l) areas, s.releaseStop .t 0])
    (s.enqueue (.run l) areas sync).advance

/-! What a run computes (R383-R385). -/

/-- A value clamped to 32 bits with whether it changed (R384). -/
def sat32 (v : Int) : Int × Bool :=
  if v < -(2 ^ 31 : Int) then (-(2 ^ 31 : Int), true) else if (2 ^ 31 : Int) ≤ v then (2 ^ 31 - 1, true) else (v, false)

/-- A sequence with whether any element saturated. -/
def satAll (l : List Int) : List Int × Bool := (l.map fun v => (sat32 v).1, l.any fun v => (sat32 v).2)

/-- Element i of a sequence. -/
def seqAt (l : List Int) (i : Nat) : Int := nthD 0 l i

def zip2 (f : Int → Int → Int) (a b : List Int) : List Int := (a.zip b).map fun e => f e.1 e.2
def zip3 (f : Int → Int → Int → Int) (a b c : List Int) : List Int := (a.zip (b.zip c)).map fun e => f e.1 e.2.1 e.2.2

def minInt (a b : Int) : Int := if a ≤ b then a else b
def maxInt (a b : Int) : Int := if a ≤ b then b else a

/-- Sums of runs of f elements. -/
def binSums (f : Nat) : Nat → List Int → List Int
  | 0, _ => []
  | n + 1, l => ((l.take f).foldl (· + ·) 0) :: binSums f n (l.drop f)

/-- The first of each run of f elements. -/
def packed (f : Nat) : Nat → List Int → List Int
  | 0, _ => []
  | n + 1, l => l.headD 0 :: packed f n (l.drop f)

/-- The shift count of operation 7, two's complement in 6 bits. -/
def shiftBy (param : Nat) (a : Int) : Int :=
  let n := signedOf 6 param
  if 0 ≤ n then a * (2 ^ n.toNat : Nat) else a / (2 ^ (-n).toNat : Nat)

/-- One element's sequence from those of its sources (R384). -/
def elemSeq (cfg : List Byte) (op param : Nat) (a b c : List Int) : List Int × Bool :=
  let sh : Int := (2 ^ (param % 32) : Nat)
  let look (v : Int) : Int :=
    signedOf 16 (leValue ((cfg.drop (0x200 + 2 * (minInt (maxInt (v / sh) 0) 255).toNat)).take 2))
  match op with
  | 1 => satAll (zip2 (· + ·) a b)
  | 2 => satAll (zip2 (· - ·) a b)
  | 3 => satAll (zip2 (fun x y => x * y / sh) a b)
  | 4 => satAll (zip3 (fun x y z => x * y / sh + z) a b c)
  | 5 => (zip2 minInt a b, false)
  | 6 => (zip2 maxInt a b, false)
  | 7 => satAll (a.map (shiftBy param))
  | 8 => (zip3 (fun x y z => minInt (maxInt x y) z) a b c, false)
  | 9 => (a.map look, false)
  | 10 => ((List.replicate (16 * (param % 2048)) 0 ++ a).take a.length, false)
  | 11 => (zip3 (fun x y z => if x ≠ 0 then y else z) a b c, false)
  | 12 => satAll (binSums (2 ^ (param % 8)) (a.length / 2 ^ (param % 8)) a)
  | 13 => (packed (2 ^ (param % 8)) (a.length / 2 ^ (param % 8)) a, false)
  | _ => (a.map fun _ => 0, false)

/-- The three inputs of a run, each extended to 32 bits. -/
structure RunIn where
  x : List Int
  y0 : List Int
  y1 : List Int

/-- The sequence of a source code; constants take the length given. -/
def sourceSeq (inp : RunIn) (k0 k1 : Int) (seqs : List (List Int)) (len code : Nat) : List Int :=
  match code with
  | 1 => inp.x
  | 2 => inp.y0
  | 3 => inp.y1
  | 4 => List.replicate len k0
  | 5 => List.replicate len k1
  | 0 => List.replicate len 0
  | _ => nthD [] seqs (code - 16)

/-- Adds element n to the sequences, with the internal-saturation flag. -/
def addElem (cfg : List Byte) (inp : RunIn) (acc : List (List Int) × Bool) (n : Nat) : List (List Int) × Bool :=
  let at_ := 0x40 + 16 * n
  let op := wuaByteAt cfg at_ % 16
  let codes := (List.range (elemUses op)).map fun i => wuaByteAt cfg (at_ + 1 + i)
  let k0 := signedOf 32 (wordAt cfg (at_ + 4))
  let k1 := signedOf 32 (wordAt cfg (at_ + 8))
  let varying := codes.filter fun c => c != 0 && c != 4 && c != 5
  let len := match varying with
    | c :: _ => (sourceSeq inp k0 k1 acc.1 0 c).length
    | [] => inp.x.length
  let src (i : Nat) : List Int := sourceSeq inp k0 k1 acc.1 len (nthD 0 codes i)
  let r := elemSeq cfg op (wordAt cfg (at_ + 12)) (src 0) (src 1) (src 2)
  (acc.1 ++ [r.1], acc.2 || r.2)

/-- The sixteen sequences. -/
def runSeqs (cfg : List Byte) (inp : RunIn) : List (List Int) × Bool := (List.range 16).foldl (addElem cfg inp) ([], false)

/-- One element converted (R385): its code and whether it overflowed. -/
def convertOut (fmt fs scale : Nat) (wrap : Bool) (v : Int) : Nat × Bool :=
  let neg := decide (v < 0)
  let n := v.natAbs
  let e : Int := -(fs : Int)
  match fmt with
  | 0 => toSmallFloat Fmt.f16 Enc.f16 wrap neg n e
  | 1 => toE4m3 neg n e
  | 2 => toSmallFloat ⟨3, -14, 15, true⟩ Enc.e5m2 wrap neg n e
  | 3 => toDpt neg n (e - ((scale : Int) - 127))
  | _ => toS8 wrap neg n e

/-- The bytes of output o and its overflow flag. -/
def outBytes (cfg : List Byte) (seqs : List (List Int)) (o : Nat) : List Byte × Bool :=
  let at_ := 0x140 + 16 * o
  let fmt := outFormat cfg o
  let rs := (nthD [] seqs (wuaByteAt cfg at_ % 16)).map
    (convertOut fmt (wuaByteAt cfg (at_ + 3) % 32) (wuaByteAt cfg (at_ + 4)) (wuaByteAt cfg (at_ + 2) % 2 == 1))
  (rs.flatMap fun r => leBytes (if fmt = 0 then 2 else 1) r.1, rs.any fun r => r.2)

/-- The 16-bit elements of bytes. -/
def elems16 (signed : Bool) : List Byte → List Int
  | a :: b :: r =>
    let v := a.toNat + 256 * b.toNat
    (if signed then signedOf 16 v else (v : Int)) :: elems16 signed r
  | _ => []

/-- The rows that a run reads of one input, each of 32·B bytes. -/
def inputRows (r : RunDesc) (off str : Nat) : List (Nat × Nat) := rowsAt off r.rows str (32 * r.beats)

def xRows (r : RunDesc) : List (Nat × Nat) := inputRows r r.x (if r.rows = 1 then 0 else r.xstr)

/-- The rows that a run reads. -/
def runRows (cfg : List Byte) (r : RunDesc) : List (Nat × Nat) :=
  xRows r ++ (if usesSource cfg 2 then inputRows r r.y0 r.ystr else []) ++
    (if usesSource cfg 3 then inputRows r r.y1 r.ystr else [])

def State.runInputs (s : State) (cid base : Nat) (cfg : List Byte) (r : RunDesc) : RunIn :=
  let bits_ := wuaByteAt cfg 2
  let read (signed used : Bool) (rows : List (Nat × Nat)) : List Int :=
    if used then elems16 signed (s.gatherRows cid base rows) else List.replicate (16 * r.n) 0
  { x := read (bits_ % 2 == 1) true (xRows r), y0 := read (bits_ / 2 % 2 == 1) (usesSource cfg 2) (inputRows r r.y0 r.ystr),
    y1 := read (bits_ / 4 % 2 == 1) (usesSource cfg 3) (inputRows r r.y1 r.ystr) }

/-- The scratchpad ranges that beat k of a run reads. -/
def beatRows (cfg : List Byte) (r : RunDesc) (k : Nat) : List (Nat × Nat) :=
  let row (off str : Nat) : Nat × Nat := (off + k / r.beats * str + 32 * (k % r.beats), 32)
  row r.x (if r.rows = 1 then 0 else r.xstr) :: ((if usesSource cfg 2 then [row r.y0 r.ystr] else []) ++
    if usesSource cfg 3 then [row r.y1 r.ystr] else [])

/-- The first beat of a run that meets an error, with the offset of the word; none where no beat does. -/
def State.badBeat (s : State) (cid base : Nat) (cfg : List Byte) (r : RunDesc) : Option (Nat × Nat) :=
  if (s.scrError cid base (runRows cfg r)).isNone then none
  else ((List.range r.n).filterMap fun k => (s.scrError cid base (beatRows cfg r k)).map fun off => (k, off)).head?

/-- The beats whose outputs a run gives: all of them, or a free number of those before the beat that meets an error. -/
def State.runBeats (s : State) (r : RunDesc) : Option (Nat × Nat) → Nat
  | some (k, _) => s.free % (k + 1)
  | none => r.n

/-- The inputs of the first n beats. -/
def RunIn.upTo (inp : RunIn) (n : Nat) : RunIn :=
  { x := inp.x.take (16 * n), y0 := inp.y0.take (16 * n), y1 := inp.y1.take (16 * n) }

/-- A run that the array has chosen: it reads its inputs, writes its scratchpad outputs and its status flags, and holds
the bytes of its Matrix Engine output (R389). A run that meets an error gives the outputs of a free number of the beats
before it, and keeps where it met it (R388). -/
def State.performRun (s : State) (qk cid : Nat) (c : Cmd) (desc : List Byte) : State :=
  let cfg := (s.core cid).wuaCfg.getD []
  let r := RunDesc.of desc
  let base := (s.team c.team).base
  let bad := s.badBeat cid base cfg r
  let inp := (s.runInputs cid base cfg r).upTo (s.runBeats r bad)
  let seqs := runSeqs cfg inp
  let outs := ((List.range 2).filter fun o => outEnabled cfg o).map fun o => (o, outBytes cfg seqs.1 o)
  let flag (o : Nat) : Bool := outs.any fun e => e.1 == o && e.2.2
  let stat : BitVec 3 := BitVec.ofBool seqs.2 ++ BitVec.ofBool (flag 1) ++ BitVec.ofBool (flag 0)
  let puts := (outs.filter fun e => !r.toEngine e.1).map fun e => (⟨base + r.out e.1 % 2 ^ 19, e.2.1⟩ : Put)
  let stream := ((outs.filter fun e => r.toEngine e.1).map fun e => e.2.1).flatten
  let s1 := s.putScratch cid puts
  (s1.setCore cid { s1.core cid with wuaStat := (s1.core cid).wuaStat ||| stat }).setQuad qk
    { s.quad qk with stream := stream, streamErr := bad.map fun e => e.2 }

/-- The array takes a run (R381). -/
def State.startRun (s : State) (qk cid : Nat) (c : Cmd) (turn : Nat) : State :=
  let s1 := (s.setCore cid ((s.core cid).startCmd c.seq)).setQuad qk
    { s.quad qk with wuaRun := some (cid, c.seq), wuaTurn := turn }
  match c.op with
  | .run desc => (s1.performRun qk cid c desc).arbitrate qk
  | _ => s1

/-- engineCommandStart (R198): a tile command at the head of its queue, the next copy, or the run that the array picks. -/
def execEngineCommandStart (cid : Nat) (seq : Word) (s : State) : Host.Outcome State Fault Refusal :=
  let qk := s.quadKey cid
  let c := s.core cid
  let tile := c.tileQ.head?.filter fun x => x.seq == seq && !x.started && s.waitMet x
  let copy_ := (s.copyStarts cid).filter fun x => x.seq == seq
  let run := (s.arrayPick qk).filter fun e => e.1 == cid && e.2.1.seq == seq
  if s.active cid then
    match tile, copy_, run with
    | some _, _, _ => .next ((s.setCore cid (c.startCmd seq)).arbitrate qk)
    | none, some _, _ => .next (s.setCore cid (c.startCmd seq))
    | none, none, some e => .next (s.startRun qk cid e.2.1 e.2.2)
    | none, none, none => .fault .notEnabled
  else .fault .notEnabled

/-- The `wua` command of the core that still stages from its run (R389). -/
def State.fed (s : State) (qk cid : Nat) : Option Cmd :=
  match s.running qk with
  | some (c1, c) => if c1 = cid ∧ c.op.wua ∧ (s.quad qk).staging c then some c else none
  | none => none

/-- A `wua` command that still stages from a run that ended by fault ends too (R389). R389 says nothing of `%taddr`: a free
value (DESIGN CHOICE, log 5). -/
def State.endFed (s : State) (qk cid : Nat) : State :=
  match s.fed qk cid with
  | some c => s.failTile qk cid c causeEngine (engineFault c.seq 2 3) s.free
  | none => s

/-- Whether a run can complete: every byte taken, or, of a run whose team ended (R352), no command left to take them; and the
last command has staged (R389). -/
def State.runDrained (s : State) (qk cid : Nat) (c : Cmd) : Bool :=
  ((s.quad qk).stream.isEmpty || c.mute) && (s.fed qk cid).isNone

/-- wuaRunComplete: locks removed, then the signal, once the Matrix Engine has taken every byte (R388, R389). -/
def execWuaRunComplete (qk : Nat) (s : State) : Host.Outcome State Fault Refusal :=
  let q := s.quad qk
  match q.wuaRun with
  | none => .fault .notEnabled
  | some (cid, seq) =>
    match (s.core cid).runQ.find? fun c => c.seq == seq with
    | none => .fault .notEnabled
    | some c =>
      let ended := s.setQuad qk { q with wuaRun := none, stream := [], streamErr := none }
      if s.active cid then
        match q.streamErr with
        | some off =>
          .next (((ended.endCmd cid seq).report c.group (c.report causeEngine (engineFault seq 2 3) off)).endFed qk cid)
        | none => if s.runDrained qk cid c then .next ((ended.endCmd cid seq).signalCmd c) else .fault .notEnabled
      else .fault .notEnabled

/-! Slot rings (R372, R379, R380). -/

def Core.ring (c : Core) (r : Nat) : Ring := Tbl.get Ring.none c.rings r
def Core.setRing (c : Core) (r : Nat) (x : Ring) : Core := { c with rings := Tbl.set Ring.none c.rings r x }
def State.ring (s : State) (r : Nat) : Ring := s.cc.ring r
def State.setRing (s : State) (r : Nat) (x : Ring) : State := s.setCc (s.cc.setRing r x)

/-- Bytes of a slot. -/
def Ring.slotBytes (r : Ring) : Nat := 1024 * r.size

/-- `slotstat.get` (R379). -/
def Ring.word (r : Ring) : Nat :=
  r.epoch * 2 ^ 24 + (if r.bound then 2 ^ 19 else 0) + (if r.semSat then 2 ^ 18 else 0) + (if r.tooLong then 2 ^ 17 else 0) +
    (if r.overflow then 2 ^ 16 else 0) + 256 * (r.slots - r.filled) + r.filled

def Ring.clearFlags (r : Ring) : Ring := { r with semSat := false, tooLong := false, overflow := false }

/-- The next epoch: 1 to 255, never 0 (R372). -/
def nextEpoch (e : Nat) : Nat := if e = 255 then 1 else e + 1

/-- ILLEGAL_OP for a ring that the team has not bound. -/
def State.ringStop (s : State) (i : Instr) (r : Nat) : Option Stop :=
  stopIf (!((s.ring r).bound && (s.ring r).team == s.cg.team)) (illegal i 4)

/-- The checks of a bind in order. -/
def State.bindStops (s : State) (i : Instr) (r base cfg : Nat) : List (Option Stop) :=
  let slots := cfg % 64 + 1
  let size := cfg / 256 % 16 + 1
  let sem := cfg / 65536 % 256
  [stopIf (bits cfg 7 6 != 0 || bits cfg 15 12 != 0 || bits cfg 31 24 != 0 || (s.ring r).bound) (illegal i 4),
    stopIf (decide (s.ct.nsem ≤ sem)) (.trap (Trap.plain causeRegRange (regTval 3 sem) 0)), unitStop 64 [(base, 0)],
    s.areaStop [⟨base, slots * (1024 * size), true⟩]]

/-- The ring that a bind makes. -/
def State.boundRing (s : State) (r base cfg : Nat) : Ring :=
  { Ring.none with
    bound := true, team := s.cg.team, base := base, slots := cfg % 64 + 1, size := cfg / 256 % 16 + 1,
    sem := cfg / 65536 % 256, epoch := nextEpoch (s.ring r).epoch }

def execSlotstat (g : Guard) (op : SlotOp) (ring : BitVec 2) (clr : Bool) (d a b : Reg) (s : State) :
    Host.Outcome State Fault Refusal :=
  let i := Instr.slotstat g op ring clr d a b
  let r := ring.toNat
  let x := s.ring r
  match op with
  | .get =>
    let s1 := if clr then s.setRing r x.clearFlags else s
    s.uniform g [opS d false false] [s.ringStop i r] (s1.writeS d.toNat false x.word).advance
  | .drops =>
    let s1 := if clr then s.setRing r { x with dropped := 0 } else s
    s.uniform g [opS d false false] [s.ringStop i r] (s1.writeS d.toNat false x.dropped).advance
  | .bind =>
    let base := (s.cg.sreg a.toNat).toNat
    let cfg := (s.cg.sreg b.toNat).toNat
    s.uniform g [opS b false true, opS a false true] (s.bindStops i r base cfg)
      (s.setRing r (s.boundRing r base cfg)).advance
  | .unbind =>
    let s1 := s.setRing r { x with unbinding := true }
    s.uniform g [] [s.ringStop i r] (s1.parkAt (.unbind r) s.succ)

/-- The lowest lock entry that meets a slot of those to be freed, with the slot's offset. -/
def State.slotLock (s : State) (x : Ring) (n : Nat) : Option (Lock × Nat) :=
  ((List.range n).filterMap fun i =>
    let off := x.base + (x.consume + i) % x.slots * x.slotBytes
    (s.cc.lockAt (s.ct.base + off) x.slotBytes false).map fun k => (k, off)).foldl
    (fun best e => match best with
      | none => some e
      | some b => if e.1.idx < b.1.idx then some e else some b) none

def execSlotfree (g : Guard) (d a : Reg) (ring : BitVec 2) (s : State) : Host.Outcome State Fault Refusal :=
  let r := ring.toNat
  let x := s.ring r
  let want := (s.cg.sreg a.toNat).toNat
  let n := if want < x.filled then want else x.filled
  let x1 := { x with consume := (x.consume + n) % x.slots, filled := x.filled - n, freed := x.freed + BitVec.ofNat 16 n }
  s.uniform g [opS a false true, opS d false false]
    [s.ringStop (.slotfree g d a ring) r,
      (s.slotLock x n).map fun e => .trap (Trap.plain causeLocked e.1.tval e.2), s.releaseStop .t 0]
    ((s.setRing r x1).writeS d.toNat false n).advance

end Sys2Proof.Machine
end

