-- ==== Sys2Proof/Machine/Ingress.lean ====
section
/-! DEFINITION. The ingress ports: frames (R369-R371), delivery into rings (R374), held lines (R377), flow control (R371,
R375), link and codeword events and the ingress register page (R366-R368). -/
namespace Sys2Proof.Machine

open Sys2Proof

/-! CRC-32 of IEEE 802.3 (R369; its parameters log 14). -/

def crcBit (c : Word) : Word := if c.getLsbD 0 then (c >>> 1) ^^^ 0xEDB88320 else c >>> 1

def crcByte (c : Word) (b : Byte) : Word := (List.range 8).foldl (fun x _ => crcBit x) (c ^^^ b.setWidth 32)

def crc32 (l : List Byte) : Word := ~~~(l.foldl crcByte 0xFFFFFFFF)

/-! Counters saturate (R367). -/

def bumpD (w : DWord) : DWord := if w = 0xFFFFFFFFFFFFFFFF then w else w + 1

def State.countCrc (s : State) (p : Nat) : State := s.setPort p { s.port p with crc := bump (s.port p).crc }
def State.countStale (s : State) (p : Nat) : State := s.setPort p { s.port p with stale := bump (s.port p).stale }

/-! Line frames (R370). -/

/-- The fields of a line frame's header; payload is its pixels. -/
structure Line where
  stream : Nat
  epoch : Nat
  frame : Nat
  number : Nat
  format : Nat
  pixels : Nat
  stamp : List Byte
  payload : Nat
deriving DecidableEq, Repr

/-- Width of a pixel. -/
def pixelBits (format : Nat) : Nat := if format = 0 then 8 else if format = 1 then 10 else if format = 2 then 12 else 16

/-- The header and pixels of a frame without its CRC. -/
def Line.of (l : List Byte) : Line :=
  { stream := wordAt l 0 / 65536 % 64, epoch := wordAt l 0 / 2 ^ 24, frame := wordAt l 4, number := wordAt l 8 % 65536,
    format := wordAt l 8 / 65536 % 4, pixels := wordAt l 12 % 65536, stamp := (l.drop 16).take 8,
    payload := leValue (l.drop 24) }

/-- The tests of R369 on a received frame. -/
def lineFrameOk (frame : List Byte) (uncorrectable : Bool) : Bool :=
  let n := frame.length
  let body := frame.take (n - 4)
  let x := Line.of body
  !uncorrectable && decide (28 ≤ n) && crc32 body == BitVec.ofNat 32 (wordAt frame (n - 4)) &&
    wuaByteAt frame 0 == 1 && wuaByteAt frame 1 == 1 && wordAt frame 0 / 2 ^ 22 % 4 == 0 && decide (wordAt frame 8 < 2 ^ 18) &&
    decide (wordAt frame 12 < 2 ^ 16) && n == 28 + ceilDiv (x.pixels * pixelBits x.format) 8

/-! Delivery (R373, R374). -/

/-- An entry of `igstrm`: core, ring and enable. -/
structure Stream where
  core : Nat
  ring : Nat
  on : Bool
deriving DecidableEq, Repr

def Stream.of (e : DWord) : Stream :=
  let n := e.toNat
  ⟨coreOf (bits n 12 12) (bits n 3 0) (bits n 7 4), bits n 9 8, bits n 16 16 == 1⟩

def State.strmOf (s : State) (p n : Nat) : DWord := Tbl.get 0 (s.port p).strm n
def State.stream (s : State) (p n : Nat) : Stream := Stream.of (s.strmOf p n)

/-- Pixels that a slot holds (R373). -/
def Ring.pixels (r : Ring) : Nat := (r.slotBytes - 64) / 2

/-- Slots that a line of c pixels takes. -/
def Ring.need (r : Ring) (c : Nat) : Nat := if ceilDiv c r.pixels = 0 then 1 else ceilDiv c r.pixels

def Ring.dropLine (r : Ring) (q : Nat) : Ring :=
  { r with
    dropped := if r.dropped < 2 ^ 32 - 1 then r.dropped + 1 else r.dropped
    gap := if r.gap < 0xFFFF then r.gap + 1 else r.gap
    skipped := r.skipped + BitVec.ofNat 16 q }

/-- The header of a piece (R373). -/
def slotHeader (x : Line) (port piece q here gap : Nat) : List Byte :=
  leBytes 4 x.frame ++
    leBytes 4 (x.number + 65536 * x.format + (if piece + 1 < q then 2 ^ 18 else 0) + 2 ^ 24 * piece) ++
    leBytes 4 (here + 65536 * x.pixels) ++
    leBytes 4 ((if piece = 0 then gap else 0) + 65536 * x.stream + 2 ^ 22 * port) ++ x.stamp ++ List.replicate 40 0

/-- The pixels of a piece and the zeros to the next multiple of 32 bytes. -/
def piecePixels (x : Line) (per piece : Nat) : List Byte :=
  let w := pixelBits x.format
  let here := if x.pixels - piece * per < per then x.pixels - piece * per else per
  ((List.range here).flatMap fun i => leBytes 2 (x.payload / 2 ^ ((piece * per + i) * w) % 2 ^ w)) ++
    List.replicate (32 * ceilDiv (2 * here) 32 - 2 * here) 0

/-- The writes of a line, pixels before header in each slot. -/
def linePuts (x : Line) (port : Nat) (r : Ring) (base q : Nat) : List Put :=
  (List.range q).flatMap fun i =>
    let slot := base + r.base + (r.produce + i) % r.slots * r.slotBytes
    let here := if x.pixels - i * r.pixels < r.pixels then x.pixels - i * r.pixels else r.pixels
    [⟨slot + 64, piecePixels x r.pixels i⟩, ⟨slot, slotHeader x port i q here r.gap⟩]

/-- Changes a ring of a core. -/
def State.setRingAt (s : State) (cid n : Nat) (r : Ring) : State := s.setCore cid ((s.core cid).setRing n r)

/-- Whether a stream's ring takes the line: enabled, bound, and of the line's epoch. -/
def State.ringTakes (s : State) (e : Stream) (x : Line) : Bool :=
  let r := (s.core e.core).ring e.ring
  e.on && r.bound && r.epoch == x.epoch

/-- Whether the core's context is live and no swap holds it: from step 2 of a swap to its step 5 (R377). -/
def State.ringLive (s : State) (e : Stream) : Bool :=
  let p := s.part (corePart e.core)
  p.live == coreCtx e.core && (p.swap.isNone || p.swap == some 1)

/-- The delivery of a line to its ring. -/
def State.deliver (s : State) (port : Nat) (e : Stream) (x : Line) : State :=
  let r := (s.core e.core).ring e.ring
  let q := r.need x.pixels
  if r.slots < q then s.setRingAt e.core e.ring ({ r with tooLong := true }.dropLine q)
  else if r.slots - r.filled < q then s.setRingAt e.core e.ring ({ r with overflow := true }.dropLine q)
  else
    let k := ((s.team r.team).sem r.sem).toNat + q
    let r1 := { r with
      produce := (r.produce + q) % r.slots, filled := r.filled + q, gap := 0, semSat := r.semSat || decide (0xFFFF < k) }
    ((s.putScratch e.core (linePuts x port r (s.team r.team).base q)).setRingAt e.core e.ring r1).setSem r.team r.sem
      (if k ≤ 0xFFFF then BitVec.ofNat 16 k else 0xFFFF)

/-- Bytes that the hold buffer of a port holds. -/
def Port.heldBytes (p : Port) : Nat := (p.held.map fun h => if h.dropped then 0 else h.frame.length).foldl (· + ·) 0

/-- A line goes into the 1 MiB hold buffer, or is dropped there (R377). -/
def State.hold (s : State) (port : Nat) (frame : List Byte) : State :=
  let p := s.port port
  let e := s.strmOf port (Line.of frame).stream
  if p.heldBytes + frame.length ≤ 2 ^ 20 then s.setPort port { p with held := p.held ++ [⟨frame, e, false⟩] }
  else s.setPort port { p with held := p.held ++ [⟨frame, e, true⟩], hold := bump p.hold }

/-- A held line: delivered under R374, or charged to its ring as a drop (R377). -/
def State.deliverHeld (s : State) (port : Nat) (h : Held) : State :=
  let x := Line.of h.frame
  let e := Stream.of h.entry
  if s.ringTakes e x then
    if h.dropped then
      let r := (s.core e.core).ring e.ring
      s.setRingAt e.core e.ring (r.dropLine (r.need x.pixels))
    else s.deliver port e x
  else s.countStale port

/-- Whether a held line may be delivered. -/
def State.heldReady (s : State) (h : Held) : Bool := s.ringLive (Stream.of h.entry)

/-- Delivers the held lines whose context is live, in arrival order. -/
def State.deliverReady (s : State) (port : Nat) : State :=
  let hs := (s.port port).held
  let s1 := s.setPort port { s.port port with held := hs.filter fun h => !s.heldReady h }
  (hs.filter s.heldReady).foldl (fun t h => t.deliverHeld port h) s1

/-- Whether a port receives: enabled and its link up (R366, R368). -/
def State.portOn (s : State) (p : Nat) : Bool := (s.port p).ctl.getLsbD 0 && (s.port p).link

/-- ingressLineFrame: fec marks a frame with a byte of an uncorrectable codeword. -/
def execIngressLineFrame (port : Nat) (frame : List Byte) (fec : Bool) (s : State) : Host.Outcome State Fault Refusal :=
  if s.portOn port then
    if lineFrameOk frame fec then
      let body := frame.take (frame.length - 4)
      let x := Line.of body
      let s1 := s.deliverReady port
      let e := s1.stream port x.stream
      .next (if s1.ringTakes e x then (if s1.ringLive e then s1.deliver port e x else s1.hold port body)
        else s1.countStale port)
    else .next (s.countCrc port)
  else .next s

/-- ingressFcFrame: dropped and counted in `igcrc` (R369). -/
def execIngressFcFrame (port : Nat) (frame : List Byte) (s : State) : Host.Outcome State Fault Refusal :=
  let _ := frame
  .next (if s.portOn port then s.countCrc port else s)

/-- heldLineDelivery: the first held line whose context is live (R377). -/
def execHeldLineDelivery (port : Nat) (s : State) : Host.Outcome State Fault Refusal :=
  match (s.port port).held.find? s.heldReady with
  | none => .fault .notEnabled
  | some h => .next ((s.setPort port { s.port port with held := (s.port port).held.erase h }).deliverHeld port h)

/-! Flow control (R371, R375). -/

/-- The limit advertised for a ring. -/
def Ring.limit (r : Ring) : Nat := (r.slots + r.freed.toNat + r.skipped.toNat) % 65536

/-- The entry of a stream; of a ring that is not bound the spec gives the epoch only, and the rest is free. -/
def State.fcEntry (s : State) (port n : Nat) : List Byte :=
  let e := s.stream port n
  let r := (s.core e.core).ring e.ring
  let x := s.free / 2 ^ (26 * n)
  if r.bound then
    leBytes 8 (2 ^ 40 * (r.slots - 1) + 2 ^ 32 * (r.size - 1) + 2 ^ 24 * r.epoch + 65536 * n + r.limit)
  else leBytes 8 (2 ^ 40 * (x % 64) + 2 ^ 32 * (x / 64 % 16) + 65536 * n + x / 1024 % 65536)

/-- Lists of at most sixteen. -/
def chunks16 (l : List Nat) : Nat → List (List Nat)
  | 0 => []
  | n + 1 => if l.isEmpty then [] else l.take 16 :: chunks16 (l.drop 16) n

/-- A flow-control frame. -/
def fcFrame (entries : List (List Byte)) : List Byte :=
  let body := leBytes 4 (2 + 256 + 65536 * entries.length) ++ entries.flatten
  body ++ leBytes 4 (crc32 body).toNat

/-- flowControlSend: an entry for every enabled stream (R371). -/
def execFlowControlSend (port : Nat) (s : State) : Host.Outcome State Fault Refusal :=
  let on := (List.range 64).filter fun n => (s.stream port n).on
  if (s.port port).ctl.getLsbD 0 && !on.isEmpty then
    .next ((chunks16 on 4).foldl (fun t l => t.emit (.frame port (fcFrame (l.map (s.fcEntry port))))) s)
  else .fault .notEnabled

/-! Unbinding (R377, R379). -/

def Parked.onUnbind (r : Nat) (q : Parked) : Bool := q.why == .unbind r

/-- ringUnbindComplete: no line is being written, since lines are delivered whole in one step. -/
def execRingUnbindComplete (c ring : Nat) (s : State) : Host.Outcome State Fault Refusal :=
  let r := (s.core c).ring ring
  if r.unbinding then
    let s1 := s.setRingAt c ring { r with bound := false, unbinding := false }
    .next ((s.team r.team).groups.foldl (fun t g => t.setGroup g ((t.group g).wakeWhere (Parked.onUnbind ring))) s1)
  else .fault .notEnabled

/-! Link and codewords (R366, R368). -/

def execIngressLinkChange (port : Nat) (lock : BitVec 4) (aligned : Bool) (s : State) : Host.Outcome State Fault Refusal :=
  .next (s.setPort port { s.port port with lock := lock, link := lock == 15 && aligned })

def execIngressFecCodeword (port : Nat) (corrected uncorrectable : Bool) (s : State) : Host.Outcome State Fault Refusal :=
  let p := s.port port
  .next (s.setPort port
    { p with
      cw := bumpD p.cw
      cwcor := if corrected then bumpD p.cwcor else p.cwcor
      cwunc := if uncorrectable then bumpD p.cwunc else p.cwunc })

/-! The ingress register page (R367, R368). -/

/-- One 32-bit word of the page. -/
def State.portWord (s : State) (port off : Nat) : Nat :=
  let p := s.port port
  let half (w : DWord) : Nat := if off % 8 = 0 then w.toNat % 2 ^ 32 else w.toNat / 2 ^ 32
  if 0x100 ≤ off ∧ off < 0x300 then half (Tbl.get 0 p.strm ((off - 0x100) / 8))
  else
    match off with
    | 0x000 => p.ctl.toNat
    | 0x004 => (if p.link then 1 else 0) + 16 * p.lock.toNat
    | 0x008 => p.fcint.toNat
    | 0x010 => half p.cw
    | 0x014 => half p.cw
    | 0x018 => half p.cwcor
    | 0x01C => half p.cwcor
    | 0x020 => half p.cwunc
    | 0x024 => half p.cwunc
    | 0x028 => p.crc.toNat
    | 0x02C => p.stale.toNat
    | 0x030 => p.hold.toNat
    | _ => 0

def strmMask : DWord := 0x113FF

/-- A write of 32 bits: counters are cleared by writing 0. -/
def Port.write32 (p : Port) (off : Nat) (v : Word) : Port :=
  let half (w : DWord) : DWord :=
    if off % 8 = 0 then BitVec.ofNat 64 (w.toNat / 2 ^ 32 * 2 ^ 32 + v.toNat)
    else BitVec.ofNat 64 (w.toNat % 2 ^ 32 + 2 ^ 32 * v.toNat)
  if 0x100 ≤ off ∧ off < 0x300 then
    let n := (off - 0x100) / 8
    { p with strm := Tbl.set 0 p.strm n (half (Tbl.get 0 p.strm n) &&& strmMask) }
  else
    match off with
    | 0x000 => { p with ctl := v &&& 1 }
    | 0x008 => { p with fcint := v &&& 0xFFFF }
    | 0x010 => if v = 0 then { p with cw := 0 } else p
    | 0x018 => if v = 0 then { p with cwcor := 0 } else p
    | 0x020 => if v = 0 then { p with cwunc := 0 } else p
    | 0x028 => if v = 0 then { p with crc := 0 } else p
    | 0x02C => if v = 0 then { p with stale := 0 } else p
    | 0x030 => if v = 0 then { p with hold := 0 } else p
    | _ => p

def State.portWrite (s : State) (port off : Nat) (w64 : Bool) (v : DWord) : State :=
  let p := (s.port port).write32 off (BitVec.ofNat 32 v.toNat)
  if w64 ∧ v ≠ 0 ∧ 0x010 ≤ off ∧ off < 0x028 then s
  else s.setPort port (if w64 then p.write32 (off + 4) (BitVec.ofNat 32 (v.toNat / 2 ^ 32)) else p)

end Sys2Proof.Machine
end

