-- ==== Sys2Proof/Machine/Barrier.lean ====
section
/-! DEFINITION. Convergence barriers (R100), team and rectangle barriers (R106, R107) and the end of lanes and groups (R98,
R342, R256). -/
namespace Sys2Proof.Machine

open Sys2Proof

/-! Convergence barriers. -/

def Parked.onCv (n : Nat) (q : Parked) : Bool := q.why == .cv n

/-- The lanes that wait on cN: those of stopped paths too. -/
def Group.cvWaiting (g : Group) (n : Nat) : Mask :=
  (g.allParked.filter (Parked.onCv n)).foldl (fun m q => m ||| q.path.mask) 0

/-- Paths with one path for each PC, in the order of their first. -/
def mergeByPc : List Path → List Path
  | [] => []
  | p :: r =>
    let l := mergeByPc r
    match l.find? fun q => q.pc == p.pc with
    | some q => { p with mask := p.mask ||| q.mask } :: l.filter fun q => q.pc != p.pc
    | none => p :: l

/-- The waiting paths of a list become ready paths: those parked at a cvwait hold their successor as PC. -/
def cvReleased (n : Nat) (l : List Parked) : List Path :=
  mergeByPc ((l.filter (Parked.onCv n)).map fun q => q.path.at_ q.path.pc)

def cvKept (n : Nat) (l : List Parked) : List Parked := l.filter fun q => !q.onCv n

/-- release_check(N) of R100: the paths that wait on cN stay until every lane of its mask waits on it or has exited (R101), then
those of one PC join to one; stopped paths of handler mode resume later as ready. -/
def Group.releaseCheck (g : Group) (n : Nat) : Group :=
  let c := g.conv n
  if g.cvWaiting n &&& c.mask = c.mask then
    { g.setConv n Conv.none with
      ready := g.ready ++ cvReleased n g.parked
      parked := cvKept n g.parked
      handler := g.handler.map fun (h : Handler) =>
        { h with ready := h.ready ++ cvReleased n h.parked, parked := cvKept n h.parked } }.fill
  else g

def Group.releaseChecks (g : Group) : Group := (List.range 8).foldl Group.releaseCheck g

/-! Barriers of teams. -/

/-- The groups of a team that have not retired. -/
def State.liveGroups (s : State) (t : Nat) : List Nat := (s.team t).groups.filter fun g => (s.group g).live

def Parked.teamWaiter (q : Parked) : Option Bool :=
  match q.why with
  | .team w => some w
  | _ => none

def Parked.rectWaiter (q : Parked) : Option Bool :=
  match q.why with
  | .rect w => w
  | _ => none

/-- What is left of the arrival state after a phase has completed: its waiters take it in turn, a wait leaving idle and an
arrival pending in the next phase (R106). DESIGN CHOICE: where one completion releases both kinds, R106 names no order and the
last of them to have waited decides (log 78). -/
def barAfter (ws : List Bool) : Bar := ws.foldl (fun _ w => if w then .idle else .pending) .completed

/-- The phase completes for a group of the team barrier. -/
def Group.teamPhase (g : Group) : Group :=
  let ws := g.allParked.filterMap Parked.teamWaiter
  if g.barT = .pending then { g with barT := barAfter ws }.wakeWhere fun q => q.teamWaiter.isSome else g

/-- Completes the phase when every group that has not retired is pending in it. -/
def State.teamPhase (s : State) (t : Nat) : State :=
  let gs := s.liveGroups t
  if !gs.isEmpty && gs.all (fun g => (s.group g).barT == .pending) then
    gs.foldl (fun u g => u.setGroup g (u.group g).teamPhase)
      (s.setTeam t { s.team t with phase := (s.team t).phase + 1 })
  else s

/-- The team barrier after an arrival or a retirement: arrivals that wait for the next phase may complete that one too. -/
def State.teamBarrier (s : State) (t : Nat) : State := (s.teamPhase t).teamPhase t

/-! The rectangle barrier. -/

/-- Whether a team arrives at the open phase: all of its groups that have not retired are pending. -/
def State.teamPending (s : State) (t : Nat) : Bool :=
  let gs := s.liveGroups t
  !gs.isEmpty && gs.all (fun g => (s.group g).barX == .pending)

/-- The teams of a cluster placed on the cores of its open rectangle. -/
def State.rectTeams (s : State) (c : Nat) : List Nat :=
  match (s.cluster c).openRect with
  | some r => (s.cluster c).teams.filter fun t => (s.team t).live && (Rect.ofWord r).has (s.team t).core
  | none => []

/-- Whether every team of the rectangle has arrived or has retired. -/
def State.rectComplete (s : State) (c : Nat) : Bool :=
  (s.cluster c).openRect.isSome &&
    (s.rectTeams c).all fun t => (s.team t).arrivedX || (s.liveGroups t).isEmpty

/-- The phase completes for a group: its waiters leave, and those that waited for another rectangle try again. -/
def Group.rectPhase (g : Group) : Group :=
  let ws := g.allParked.filterMap Parked.rectWaiter
  let g1 := if g.barX = .pending then { g with barX := barAfter ws } else g
  g1.wakeWhere fun q => match q.why with
    | .rect _ => true
    | _ => false

/-- Completion of the open phase of a cluster. An arrival carried over opens the next phase on the same rectangle. -/
def State.rectPhase (s : State) (c : Nat) : State :=
  let x := s.cluster c
  let gs := (x.teams.map fun t => s.liveGroups t).flatten
  let s1 := x.teams.foldl (fun u t => u.setTeam t { u.team t with arrivedX := false }) s
  let s2 := gs.foldl (fun u g => u.setGroup g (u.group g).rectPhase) s1
  let again := gs.any fun g => (s2.group g).barX == .pending
  s2.setCluster c
    { x with openRect := if again then x.openRect else Option.none, arrived := [], phase := x.phase + 1 }

/-! The end of lanes and groups. -/

/-- Whether no lane of the group is left. -/
def Group.empty (g : Group) : Bool :=
  g.run.mask == 0 && g.ready.isEmpty && g.parked.isEmpty && g.handler.isNone

/-- A group retires (R98, R256): its context and registers are free, its reports and its deferred fault go to the pager,
and its team barrier no longer waits for it. -/
def State.retireGroup (s : State) (g : Nat) : State :=
  let x := s.group g
  ((s.lastNotices g).setGroup g x.killed).teamBarrier x.team

/-- Lanes G leave the running path, the handler's return mask and every convergence barrier (R98, R101, R342). -/
def Group.dropLanes (g : Group) (m : Mask) (succ : Addr) : Group :=
  let keep := g.run.mask &&& ~~~m
  let cleared := (List.range 8).foldl (fun (x : Group) n => x.setConv n { x.conv n with mask := (x.conv n).mask &&& ~~~m }) g
  let h := g.handler.map fun (h : Handler) => { h with ret := h.ret &&& ~~~m }
  if keep = 0 then { cleared with run := Path.none, turn := 0, handler := h }.fill
  else { cleared with run := { g.run with mask := keep }, handler := h }.goOn succ

/-- Handler mode ends without a return when no handler lane is left (R342). -/
def Group.handlerEmptied (g : Group) : Group :=
  match g.handler with
  | some h =>
    if g.run.mask == 0 && g.ready.isEmpty && g.parked.isEmpty then
      { g with handler := Option.none, ready := h.ready, parked := h.parked }.fill
    else g
  | .none => g

/-- The exit of lanes of the current group (R98). -/
def State.exitLanes (s : State) (m : Mask) : State :=
  let s1 := s.setCg ((s.cg.dropLanes m s.succ).handlerEmptied).releaseChecks
  if s1.cg.empty then s1.retireGroup s.cur else s1

end Sys2Proof.Machine
end

