-- ==== Sys2Proof/Machine/System.lean ====
section
/-! DEFINITION. Control registers (R24-R28, R111, R112), `tret` (R113) and `halt` (R114). -/
namespace Sys2Proof.Machine

open Sys2Proof

/-- The 64-bit control registers. -/
def ctrlWide (n : Nat) : Bool := n == 0x20 || n == 0x23 || n == 0x24 || n == 0x34

/-- Lane-scope control registers: those of which `setc` writes a copy of each lane. -/
def ctrlLane (n : Nat) : Bool := n == 0x10 || n == 0x11

/-- A window map entry (R18). -/
def Win.word (w : Win) : Nat := 16 * w.base + w.ext

/-- What a lane reads of a control register (R24). -/
def State.ctrlRead (s : State) (n l : Nat) : Nat :=
  let g := s.cg
  if 0x40 ≤ n then (g.xwin (n - 0x40)).word
  else
    match n with
    | 0x00 => l
    | 0x01 => g.num + 256 * g.slot
    | 0x02 => s.ct.index
    | 0x03 => coreX s.coreId + 16 * coreY s.coreId + 256 * s.partId
    | 0x04 => s.quadOf s.coreId
    | 0x05 => (s.grid s.ct.grid).id.toNat
    | 0x06 => (s.cluster s.ct.cluster).rect.toNat
    | 0x07 => g.run.mask.toNat
    | 0x10 => g.precOf l
    | 0x11 => g.roundOf l
    | 0x12 => g.sticky l + 256 * s.ct.enables.toNat
    | 0x13 => g.xb
    | 0x14 => g.ssp
    | 0x20 => s.ct.tvec.toNat
    | 0x21 => g.tcause.toNat
    | 0x22 => g.tval.toNat
    | 0x23 => g.tpc.toNat
    | 0x24 => g.taddr.toNat
    | 0x30 => g.wtimeout.toNat
    | 0x31 => s.cc.mew
    | 0x32 => s.ct.wspill
    | 0x33 => s.cc.specmiss.toNat
    | 0x34 => (s.ctx s.ctxKey).pagerq.toNat
    | _ => 0

def execGetc (g : Guard) (uni : Bool) (d : Reg) (num : BitVec 8) (s : State) : Host.Outcome State Fault Refusal :=
  let w := ctrlWide num.toNat
  let lanes := s.lanes g
  let vals := lanes.map fun l => (l, s.ctrlRead num.toNat l)
  groupOp s (firstStop [s.operandStop lanes [opInt uni d w false], s.guardStop g]) (s.writeInt uni w d vals).advance

/-! Writes. -/

/-- The bits that a value may set without naming a reserved one (R24). Bits that the table calls 'read as 0' and neither
reserved nor ignored on write (`%tvec` and `%pagerq` [5:0], `%tpc` and `%taddr` [63:48]) may be set and are dropped: DESIGN
CHOICE (log 68). -/
def ctrlAllowed (n : Nat) : Nat :=
  match n with
  | 0x10 => 0xFF
  | 0x11 => 0x7
  | 0x12 => 0x1F1F
  | 0x14 => 0xFFFFF
  | 0x21 => 0x3FFF
  | 0x31 => 0xF
  | 0x32 => 0xFFFFF
  | _ => 0xFFFFFFFFFFFFFFFF

/-- The first value check that a value fails, in the order of R25. -/
def ctrlReserved (n v : Nat) : Bool := v &&& ctrlAllowed n != v
def ctrlPrecBad (n v : Nat) : Bool := n == 0x10 && (decide (v < 8) || decide (231 < v))
def ctrlRoundBad (n v : Nat) : Bool := n == 0x11 && decide (4 < v)
def ctrlMewBad (n v : Nat) : Bool := n == 0x31 && (v == 0 || decide (8 < v))

/-- The lowest checked lane that meets a check. -/
def badLane (vals : List (Nat × Nat)) (bad : Nat → Bool) (stop : Nat → Nat → Stop) : Option Stop :=
  match vals.filter fun e => bad e.2 with
  | [] => none
  | e :: _ => some (stop e.1 e.2)

/-- The value checks of R25 on the checked lanes. -/
def ctrlStop (i : Instr) (n : Nat) (checked : List (Nat × Nat)) : Option Stop :=
  let ill (l _v : Nat) : Stop := illegalLane i 4 l
  firstStop
    [badLane checked (ctrlReserved n) ill,
      badLane checked (ctrlPrecBad n) (fun l v => .trap (Trap.onLane causeVpFormat (v % 256) 0 l)),
      badLane checked (ctrlRoundBad n) ill, badLane checked (ctrlMewBad n) ill]

def Group.setPrec (g : Group) (vals : List (Nat × Nat)) : Group :=
  vals.foldl (fun (x : Group) e => { x with prec := Tbl.set 39 x.prec e.1 (BitVec.ofNat 8 e.2) }) g

def Group.setRound (g : Group) (vals : List (Nat × Nat)) : Group :=
  vals.foldl (fun (x : Group) e => { x with round := Tbl.set 0 x.round e.1 (BitVec.ofNat 8 e.2) }) g

def Group.setSticky (g : Group) (vals : List (Nat × Nat)) : Group :=
  vals.foldl (fun (x : Group) e => { x with fflags := Tbl.set 0 x.fflags e.1 (BitVec.ofNat 8 (e.2 % 32)) }) g

/-- Writes a control register from the lanes' values; v is that of the lowest lane (R26). -/
def State.ctrlWrite (s : State) (n v : Nat) (vals : List (Nat × Nat)) : State :=
  let g := s.cg
  match n with
  | 0x10 => s.setCg (g.setPrec vals)
  | 0x11 => s.setCg (g.setRound vals)
  | 0x12 => (s.setCg (g.setSticky vals)).setCt { s.ct with enables := BitVec.ofNat 5 (v / 256) }
  | 0x14 => s.setCg { g with ssp := v / 8 * 8 }
  | 0x20 => s.setCt { s.ct with tvec := BitVec.ofNat 64 (v / 64 * 64) }
  | 0x21 => s.setCg { g with tcause := BitVec.ofNat 32 v }
  | 0x22 => s.setCg { g with tval := BitVec.ofNat 32 v }
  | 0x23 => s.setCg { g with tpc := BitVec.ofNat 64 (v % 2 ^ 48) }
  | 0x24 => s.setCg { g with taddr := BitVec.ofNat 64 (v % 2 ^ 48) }
  | 0x30 => s.setCg { g with wtimeout := BitVec.ofNat 32 v }
  | 0x31 => s.setCc { s.cc with mew := v }
  | 0x32 => s.setCt { s.ct with wspill := v / 8 * 8 }
  | 0x33 => s.setCc { s.cc with specmiss := BitVec.ofNat 32 v }
  | 0x34 => s.setCtx s.ctxKey { s.ctx s.ctxKey with pagerq := BitVec.ofNat 64 (v / 64 * 64) }
  | _ => s

def execSetc (g : Guard) (uni : Bool) (num : BitVec 8) (a : Reg) (s : State) : Host.Outcome State Fault Refusal :=
  let i := Instr.setc g uni num a
  let n := num.toNat
  let w := ctrlWide n
  let lanes := s.lanes g
  let vals := lanes.map fun l => (l, s.cg.readInt uni w a l)
  let checked := if ctrlLane n || n == 0x12 then vals else vals.take 1
  let eff := match vals with
    | [] => s
    | e :: _ => s.ctrlWrite n e.2 vals
  groupOp s
    (firstStop
      [stopIf (ctrlSupervisor n && !s.cg.sup) (illegal i 4), s.operandStop lanes [opInt uni a w true], s.guardStop g,
        ctrlStop i n checked])
    eff.advance

/-! Return from a trap and halt. -/

def execTret (s : State) : Host.Outcome State Fault Refusal :=
  match s.cg.handler with
  | some h => .next (s.trapReturn h)
  | none => .next (s.onStop (illegal .tret 4))

def execHalt (s : State) : Host.Outcome State Fault Refusal :=
  groupOp s (stopIf (!s.cg.sup) (illegal .halt 4)) (s.parkAt .halt s.succ)

end Sys2Proof.Machine
end

