-- ==== Sys2Proof/Machine/WalkCore.lean ====
section
/-! DEFINITION. Walks: registers and sequencing (R212, R222), reads on a walk's behalf (R217, R224), completion queues
(R327-R329), releases, checkpoints and fault records (R217, R230-R233), and the fetch of a walk's next instruction. -/
namespace Sys2Proof.Machine

open Sys2Proof

/-- The walk that the step runs. -/
def State.cw (s : State) : Walk := s.walk s.curWalk
def State.setCw (s : State) (x : Walk) : State := s.setWalk s.curWalk x

/-- w registers: w0 reads 0 and discards writes (R212). -/
def Walk.reg (x : Walk) (r : Nat) : Nat := if r = 0 then 0 else (Tbl.get 0 x.w r).toNat
def Walk.setReg (x : Walk) (r v : Nat) : Walk :=
  if r = 0 then x else { x with w := Tbl.set 0 x.w r (BitVec.ofNat 64 v) }

/-- Bytes of a node buffer. -/
def Walk.node (x : Walk) (n : Nat) : List Byte := Tbl.bytes x.nb (128 * n) 128

/-- Word index of a PC in the program (R217). -/
def Walk.wordIndex (x : Walk) : Word := BitVec.ofNat 32 ((x.pc.toNat - x.prog.code.toNat) / 4)

/-- Whether an address lies in the registered extent (R50). -/
def Walk.inside (x : Walk) (pc : Int) : Bool :=
  decide ((x.prog.code.toNat : Int) ≤ pc) && decide (pc < x.prog.code.toNat + 4 * x.prog.words) &&
    decide ((pc - x.prog.code.toNat) % 4 = 0)

/-! Spill slots (R223). -/

/-- Team-relative offset of the walk's spill slot, when it lies wholly in the data area. -/
def State.spillSlot (s : State) (w : Nat) : Option Nat :=
  let t := s.team (s.walk w).team
  let off := t.wspill + 192 * (w % 64)
  if off + 192 ≤ t.d then some (t.base + off) else none

/-- How many of the oldest entries are spilled. -/
def Walk.spilled (x : Walk) : Nat := x.stack.length - x.resident

/-- The stack with its spilled entries as their slot holds them. -/
def State.fullStack (s : State) (w : Nat) : List DWord :=
  let x := s.walk w
  match s.spillSlot w with
  | some a => (x.stack.zip (List.range x.stack.length)).map fun e =>
      if e.2 < x.spilled then BitVec.ofNat 64 (leValue ((s.core (w / 64)).scrBytes (a + 8 * e.2) 8)) else e.1
  | none => x.stack

/-- Why the spilled entries cannot be read: the slot, or an uncorrectable error (R217). -/
def State.spillFault (s : State) (w : Nat) : Option Nat :=
  let x := s.walk w
  if x.spilled = 0 then none
  else
    match s.spillSlot w with
    | none => some 4
    | some a => if s.scrPoisoned (w / 64) a (8 * x.spilled) then some 6 else none

/-! Checkpoints (R214, R231). -/

def State.bodyAt (s : State) (w : Nat) (pc : Addr) : WalkBody :=
  let x := s.walk w
  { qb := x.qb, w := (List.range 15).map fun i => BitVec.ofNat 64 (x.reg (i + 1)), stack := s.fullStack w, pc := pc }

/-- The registers w1 to w15 of a body. -/
def bodyRegs (l : List DWord) : Tbl DWord :=
  (l.zip (List.range l.length)).foldl (fun t e => Tbl.set 0 t (e.2 + 1) e.1) []

/-- The state of R214: the newest 16 entries resident. -/
def Walk.resume (x : Walk) (b : WalkBody) : Walk :=
  { x with
    wait := .ready, qb := b.qb, w := bodyRegs b.w, nb := [], stack := b.stack,
    resident := if b.stack.length ≤ 16 then b.stack.length else 16, emits := [], cp := b, due := Option.none, pc := b.pc, served := [] }

/-- Spills the entries that do not stay resident to the slot (R212, R223). -/
def State.spillOld (s : State) (w : Nat) : State :=
  let x := s.walk w
  match s.spillSlot w with
  | some a => s.putScratch (w / 64)
      (((x.stack.take x.spilled).zip (List.range x.spilled)).map fun e => ⟨a + 8 * e.2, leBytes 8 e.1.toNat⟩)
  | none => s

/-- Restarts the walk of a context from a body (R214, R331, R337). -/
def State.resumeWalk (s : State) (w : Nat) (b : WalkBody) : State :=
  (s.setWalk w ((s.walk w).resume b)).spillOld w

/-! Completion queues (R327-R329). -/

/-- Chunks that n more records need. -/
def Cq.needs (q : Cq) (n : Nat) : Nat := ceilDiv (q.skip + q.held + n) 256 - q.chunks.length

def Team.cq (t : Team) (q : Nat) : Cq := Tbl.get Cq.none t.cqs q
def Team.setCq (t : Team) (q : Nat) (c : Cq) : Team := { t with cqs := Tbl.put t.cqs q c }

/-- Whether a queue of a team has room for n records (R328, R329). -/
def State.queueRoom (s : State) (t q n : Nat) : Bool :=
  let c := (s.team t).cq q
  decide (c.held + n ≤ 65536) && decide (c.needs n ≤ (s.part (s.team t).part).cqfree)

/-- The physical address of a queue's record i, counted from the oldest held (R327). -/
def State.recordAddr (s : State) (b : Nat) (c : Cq) (i : Nat) : Nat :=
  s.poolBase b + 4096 * nthD 0 c.chunks ((c.skip + i) / 256) + 16 * ((c.skip + i) % 256)

/-- The record there. -/
def State.recordAt (s : State) (b : Nat) (c : Cq) (i : Nat) : Record := recordOf (s.readKeyed 0 (s.recordAddr b c i) 16)

/-- The chunks of a partition's pool that no queue holds. -/
def State.chunksFree (s : State) (b : Nat) : List Nat :=
  let used := s.teams.flatMap fun e => if e.2.part = b then e.2.cqs.flatMap fun q => q.2.chunks else []
  (List.range (s.poolSize b / 4096)).filter fun k => !used.contains k

/-- n of them: which ones is a free choice (log 74). -/
def State.someChunks (s : State) (b n : Nat) : List Nat :=
  match n with
  | 0 => []
  | n => (let l := s.chunksFree b; l.drop (s.choose % l.length) ++ l.take (s.choose % l.length)).take n

/-- A queue with n more records: the flag is set when 65536 are held (R239, R328). -/
def Cq.grow (c : Cq) (new : List Nat) (n : Nat) : Cq :=
  { c with held := c.held + n, chunks := c.chunks ++ new, ovf := c.ovf || decide (65536 ≤ c.held + n) }

/-- Appends records as one update: they are stored in the pool (R327). -/
def State.appendRecords (s : State) (t q : Nat) (rs : List Record) : State :=
  let c := (s.team t).cq q
  let b := (s.team t).part
  let p := s.part b
  let c1 := c.grow (s.someChunks b (c.needs rs.length)) rs.length
  let s1 := (s.setPart b { p with cqfree := p.cqfree - c.needs rs.length }).setTeam t ((s.team t).setCq q c1)
  match rs with
  | [] => s1
  | rs => s1.putKeyed 0 ((rs.zip (List.range rs.length)).map fun e => ⟨s.recordAddr b c1 (c.held + e.2), recordBytes e.1⟩)

/-- A queue without its oldest n records, and how many chunks it gives back (R327). -/
def Cq.take (c : Cq) (n : Nat) : Cq × Nat :=
  if c.held ≤ n then ({ c with held := 0, chunks := [], skip := 0 }, c.chunks.length)
  else
    ({ c with held := c.held - n, chunks := c.chunks.drop ((c.skip + n) / 256), skip := (c.skip + n) % 256 },
      (c.skip + n) / 256)

/-! Records (R217, R234). -/

/-- Word 3 of a record. -/
def State.recordWord (s : State) (w status : Nat) : Word :=
  let x := s.walk w
  let m := s.walkMsg w
  BitVec.ofNat 32
    (2 ^ 28 * status + 2 ^ 26 * (x.queue % 4) + 1024 * (m.team % 65536) + 32 * (m.group % 32) + m.lane % 32)

def State.faultRecord (s : State) (w cause reason : Nat) (word : Word) : Record :=
  ⟨0, BitVec.ofNat 32 (cause + 256 * reason), word, s.recordWord w 1⟩

/-- What a release appends. -/
def State.releaseRecords (s : State) (w : Nat) (a : After) : List Record :=
  match a with
  | .fault c r word => (s.walk w).emits ++ [s.faultRecord w c r word]
  | _ => (s.walk w).emits

/-! Sequencing and ends. -/

/-- Sends the walk to device d, or ends it when no path reaches d (R232, R336): the message carries the checkpoint. -/
def State.sendWalk (s : State) (w d : Nat) : State :=
  let cid := w / 64
  let x := s.walk w
  let n := Tbl.get 0 (s.core cid).serials (w % 64) + 1
  let s1 := s.setCore cid { s.core cid with serials := Tbl.set 0 (s.core cid).serials (w % 64) n }
  let s2 := s1.setWalk w { x with serial := n, wait := .answer d }
  s2.sendRelay (corePart cid) 1 d { s2.walkMsg w with body := some x.cp }

/-- Ends a walk: a hosted one tells its origin with the message type (R336). -/
def State.endWalk (s : State) (w type : Nat) (m : RelayMsg) : State :=
  match (s.walk w).hosted with
  | some o => (s.sendRelay (corePart (w / 64)) type o.device m).freeWalk w
  | none => s.freeWalk w

/-- The checkpoint that a release leaves (R231): of the state as it was when the records went to the origin (R337), else as it is
now. -/
def State.releaseBody (s : State) (w : Nat) (a : After) : WalkBody :=
  let x := s.walk w
  match x.due with
  | some b => b
  | none => s.bodyAt w (match a with
    | .next | .relay _ => x.pc + 4
    | _ => x.pc)

/-- After its release: the checkpoint of R231 and what the instruction does then. The second component is the reason of a
fault met there: a fall-through outside the extent, or a relay without a path. A `relay` that is the last word of the extent
relays, and the peer then meets the word outside: DESIGN CHOICE (log 17). -/
def State.performed (s : State) (w : Nat) (a : After) : State × Option Nat :=
  let x := s.walk w
  let nxt := x.pc + 4
  let keep : Walk := { x with wait := .ready, emits := [], cp := s.releaseBody w a, due := none }
  match a with
  | .next =>
    if x.inside (x.pc.toNat + 4) then (s.setWalk w { keep with pc := nxt, served := [] }, none)
    else (s.setWalk w keep, some 2)
  | .again => (s.setWalk w keep, none)
  | .relay d =>
    let s1 := s.setWalk w keep
    if (s.portFor (corePart (w / 64)) d).isSome then (s1.sendWalk w d, none) else (s1, some 7)
  | .fetchRelay d =>
    let s1 := s.setWalk w keep
    if (s.portFor (corePart (w / 64)) d).isSome then (s1.sendWalk w d, none) else (s1, some 7)
  | .home => (s.endWalk w 10 { s.walkMsg w with body := some (s.releaseBody w a) }, none)
  | .finish => (s.endWalk w 6 (s.walkMsg w), none)
  | .fault _ _ _ => (s.freeWalk w, none)

/-- A release with what follows it (R217, R231, R329, R336): at once when the queue has room, else the walk waits; a hosted
walk sends its records to its origin and waits for the answer. -/
def State.releaseOnce (s : State) (w : Nat) (a : After) : State × Option Nat :=
  let x := s.walk w
  match x.hosted with
  | some _ =>
    match a with
    | .fault _ r word => (s.endWalk w 7 { s.walkMsg w with answer := r, word := word.toNat, recs := x.emits }, none)
    | a =>
      if x.emits.isEmpty then s.performed w a
      else
        ((s.setWalk w { x with wait := .released a false, due := some (s.releaseBody w a) }).sendRelay (corePart (w / 64)) 3 (s.walkMsg w).device
          { s.walkMsg w with recs := x.emits }, none)
  | none =>
    let rs := s.releaseRecords w a
    if s.queueRoom x.team x.queue rs.length then (s.appendRecords x.team x.queue rs).performed w a
    else (s.setWalk w { x with wait := .room a }, none)

/-- Goes on to the fault that a release meets, if any. -/
def State.orFault (s : State) (w : Nat) (r : State × Option Nat) : State :=
  match r.2 with
  | some reason => (r.1.releaseOnce w (.fault 0x30 reason (s.walk w).wordIndex)).1
  | none => r.1

def State.release (s : State) (w : Nat) (a : After) : State := s.orFault w (s.releaseOnce w a)

/-- The fault record's word index: all ones before the first instruction (R217), which is while the query is not yet read; a
fault on the fetch of the program's first word carries index 0: DEDUCED (log 17). -/
def Walk.faultWord (x : Walk) : Word := if x.qb.isEmpty then 0xFFFFFFFF else x.wordIndex

/-- Ends the walk of a context with WALK_FAULT (R217). -/
def State.walkFault (s : State) (w reason : Nat) : State := s.release w (.fault 0x30 reason (s.walk w).faultWord)

/-- The walk with its state x goes on at an address, or ends with reason 0x02 (R50, R222). -/
def State.walkTo (s : State) (x : Walk) (pc : Int) : State :=
  if x.inside pc then s.setCw { x with pc := BitVec.ofInt 48 pc, served := [] } else (s.setCw x).walkFault s.curWalk 2

/-- The walk with its state x goes on at the next word (R222). -/
def State.walkNext (s : State) (x : Walk) : State := s.walkTo x (x.pc.toNat + 4)

/-- A Walker instruction that writes w[d]. -/
def State.walkWrite (s : State) (d v : Nat) : State := s.walkNext (s.cw.setReg d v)

/-! Reads on a walk's behalf (R217, R224, R274). -/

inductive WalkRead where
  | bytes (bs : List Byte)
  /-- a core owns the line of local memory (R297) -/
  | home (line : Nat)
  | fault (reason : Nat)
  | page (level reason entry : Nat)
  | ask (loc : Nat) (lines : List Nat)
  | refused
deriving DecidableEq, Repr

def State.walkXlat (s : State) (w va : Nat) : Xlat :=
  s.translateVia (s.engineUnits (w / 64)) (corePart (w / 64)) (coreCtx (w / 64)) va Need.read

/-- The translation's leaf is marked before the read (R360), and the translation held. -/
def State.walkTouched (s : State) (w va : Nat) : State :=
  (s.markLeaf (s.walkXlat w va) false).fillQuad (w / 64) va (s.walkXlat w va)

def State.walkRead (s : State) (w va n : Nat) : WalkRead :=
  let b := corePart (w / 64)
  let x := s.walk w
  match s.walkXlat w va with
  | .fault l r e => .page l r e
  | .perm _ _ => .fault 5
  | .bad => .fault 6
  | .ok loc pa _ leaf _ =>
    if loc = 0 then
      (if !s.nodeHas (pa / 128) && !s.homeFree (.walk w) (pa / 128) false then .home (pa / 128)
       else if s.memPoisoned pa n then .fault 6
       else .bytes (s.readKeyed (keyOf b leaf) pa n))
    else if s.reachable b loc pa then
      match s.linesMissing x.served x.acq loc pa n with
      | [] => .bytes (s.remoteBytes x.served x.acq loc pa n)
      | ls => .ask loc ls
    else .refused

/-- `%tval` layout of a walk's access: kind 15 (R340). -/
def walkWord (loc : Nat) : Nat := accessWord loc 15 0 0 0 false

/-- A page fault of a walk (R349, R350): one of a supervisor group's never reaches the mailbox (R343) and fails at once. -/
def State.walkPage (s : State) (w va level reason entry : Nat) : State :=
  let cid := w / 64
  let x := s.walk w
  let t := s.team x.team
  if x.hosted.isNone && (s.group x.group).sup then s.walkFault w 5
  else
    match s.mailbox (corePart cid) (coreCtx cid) with
    | .absent => s.walkFault w 5
    | .unusable => s.gridCheck t.grid 6 0 va
    | .ok box sz =>
      let m := { Mail.none with
        who := .walk w, part := corePart cid, ctx := coreCtx cid, kind := 3, level := level, reason := reason,
        address := BitVec.ofNat 64 va, access := BitVec.ofNat 32 (walkWord 3), grid := (s.grid t.grid).id,
        team := BitVec.ofNat 32 t.index, wher := whereWord cid (s.walkMsg w).group x.lane,
        pc := x.pc.setWidth 64, entry := BitVec.ofNat 64 entry, seqno := BitVec.ofNat 32 (w % 64) }
      (s.postMail m box sz).setWalk w { x with wait := .mail s.nextId }

/-- The homes of the lines that a walk has read hold them for it no more. -/
def State.walkLetGo (s : State) (w va n : Nat) : State :=
  match s.walkXlat w va with
  | .ok 0 pa _ _ _ => s.letGo (.walk w) (linesOf pa n)
  | _ => s

/-- What follows a read of n bytes for the walk in context w: k of the bytes, or the wait or the fault (R217). -/
def State.withWalkRead (s : State) (w va n : Nat) (k : List Byte → State → State) : State :=
  let s1 := s.walkTouched w va
  match s.walkRead w va n with
  | .bytes bs => k bs (s1.walkLetGo w va n)
  | .home line =>
    (s1.askHome (.walk w) (corePart (w / 64)) line false).setWalk w { s.walk w with wait := .home line }
  | .fault r => s1.walkFault w r
  | .page l r e => s1.walkPage w va l r e
  | .refused => (s1.countRefused (corePart (w / 64))).walkFault w 5
  | .ask loc ls =>
    let asks := ls.map fun l => (⟨32, loc, (l - loc * 2 ^ 41) * 128, walkWord loc, va, none⟩ : Ask)
    (s1.askAll (corePart (w / 64)) (fun _ => .walk w) asks).setWalk w
      { s.walk w with wait := .remote (s1.askIds asks) }

/-! Starting and running (R213, R319). -/

/-- The query record read into qb: the state of R213 with its first checkpoint, which an instruction may follow. -/
def State.beginWalk (s : State) (w : Nat) (va : Addr) : State :=
  s.withWalkRead w va.toNat 64 fun bs t =>
    let x := { t.walk w with wait := .ready, qb := bs, w := Tbl.set 0 [] 1 (va.setWidth 64), served := [] }
    (t.setWalk w x).setWalk w { x with cp := (t.setWalk w x).bodyAt w x.pc }

/-- Opcodes that R69 assigns. -/
def walkerAssigned (op : Nat) : Bool :=
  !(op == 0 || (decide (0x0D ≤ op) && decide (op ≤ 0x0F)) || (decide (0x14 ≤ op) && decide (op ≤ 0x17)) ||
    (decide (0x25 ≤ op) && decide (op ≤ 0x27)) || decide (0x2D ≤ op))

/-- The local line that holds the walk's next word, if the node cache does not serve it (R319). -/
def State.codeMiss (s : State) (w : Nat) : Option Nat :=
  match s.walkXlat w (s.walk w).pc.toNat with
  | .ok 0 pa _ _ _ => if s.nodeHas (pa / 128) then none else some (pa / 128)
  | _ => none

/-- A word of code as the walk sees it: one written since the walk's program was registered has no defined content (R236). -/
def State.codeWord (s : State) (w : Nat) (bs : List Byte) : Word :=
  let va := (s.walk w).pc.toNat
  match s.walkXlat w va with
  | .ok loc pa _ _ _ =>
    BitVec.ofNat 32 (leValue (if (s.walk w).prog.since < Tbl.get 0 s.stamps ((loc * 2 ^ 48 + pa) / 64) then
      (List.range 4).map fun i => Config.staleByte s.tick (pa + i) else bs))
  | _ => BitVec.ofNat 32 (leValue bs)

/-- The instruction that a ready walk executes, or the state in which it waits or has ended. -/
def State.walkFetch (s : State) : Instr × State ⊕ State :=
  let w := s.curWalk
  let x := s.cw
  if x.qb.isEmpty then .inr (s.beginWalk w (BitVec.ofNat 48 (x.reg 1)))
  else if !x.inside x.pc.toNat then .inr (s.walkFault w 2)
  else
    match s.codeMiss w, s.walkRead w x.pc.toNat 4 with
    | some line, _ =>
      .inr (((s.walkTouched w x.pc.toNat).askNode (corePart (w / 64)) line).setWalk w { x with wait := .code line })
    | none, .bytes bs =>
      let word := s.codeWord w bs
      let s1 := s.walkTouched w x.pc.toNat
      match decodeWalker word with
      | some i => .inl (i, s1)
      | none => if walkerAssigned (wOp word) then .inr (s1.walkFault w 1) else .inl (.unassignedWalkerOpcode word, s1)
    | none, _ => .inr (s.withWalkRead w x.pc.toNat 4 fun _ t => t)

end Sys2Proof.Machine
end

