-- ==== Sys2Proof/Machine/Dump.lean ====
section
/-! DEFINITION. The fatal-error dump (R415, R416) and partition machine checks (R352). -/
namespace Sys2Proof.Machine

open Sys2Proof

/-! Sections (R415). -/

def dumpSize : Nat := 48 * 2 ^ 20
def State.dumpBase (s : State) : Nat := bits s.mgmt.dumpbase.toNat 47 24 * 2 ^ 24

/-- Words of a register page at a place, those that are 0 left out. -/
def pagePuts (at_ n : Nat) (f : Nat → Word) : List Put :=
  (List.range (n / 4)).filterMap fun i => if f (4 * i) = 0 then none else some ⟨at_ + 4 * i, leBytes 4 (f (4 * i)).toNat⟩

/-- The header and the register pages. -/
def State.dumpPages (s : State) (b : Nat) (omitted : Bool) : List Put :=
  let p := s.part b
  [⟨0, leBytes 4 0x504D5544 ++ leBytes 4 1 ++ leBytes 4 p.mcstat.toNat ++
      leBytes 4 (b + 256 * p.live + if omitted then 65536 else 0) ++ leBytes 8 p.mcaddr.toNat ++ leBytes 4 p.mcgrid.toNat ++
      leBytes 4 (s.mgmtWord 0x400).toNat⟩] ++
    pagePuts 0x1000 0x800 s.mgmtWord ++
    (List.range 4).flatMap (fun k => pagePuts (0x1800 + 0x1000 * k) 0x1000 (s.launchWord k)) ++
    (List.range 4).flatMap fun k => pagePuts (0x6000 + 0x1000 * k) 0x1000 fun o => BitVec.ofNat 32 (s.portWord k o)

/-- The control registers of a group context, in order. -/
def dumpCtrl : List Nat :=
  List.range 8 ++ (List.range 5).map (· + 0x10) ++ (List.range 5).map (· + 0x20) ++ (List.range 5).map (· + 0x30)

/-- The lane whose value of a control register is dumped: the spec names none of the registers that each lane has, and the
choice is free for each register of each group (log 40). -/
def State.dumpLane (s : State) (g n : Nat) : Nat := s.free / 32 ^ (64 * g + n) % 32

/-- A control register as dumped. -/
def State.dumpCtrlValue (s : State) (g n : Nat) : Nat := { s with cur := g }.ctrlRead n (s.dumpLane g n)

/-- A group's registers, in the slot's storage (R17), and its context c. -/
def State.dumpGroup (s : State) (at_ g c sOff : Nat) : List Put :=
  let x := s.group g
  let reg (k : Nat) : Nat := at_ + x.slot * 0x10000 + 128 * (x.runOff + k / 32) + 4 * (k % 32)
  let ctx := at_ + 0xA0000 + 256 * (16 * x.slot + c)
  (x.v.map fun e => ⟨reg e.1, leBytes 4 e.2.toNat⟩) ++
    (x.win.map fun e => ⟨reg (e.1 + 32 * x.nv), leBytes 4 e.2.toNat⟩) ++
    [⟨ctx, dumpCtrl.flatMap fun n => leBytes 8 (s.dumpCtrlValue g n)⟩, ⟨ctx + 184, leBytes 8 x.run.pc.toNat⟩,
      ⟨ctx + 192, (List.range 32).flatMap fun n => leBytes 2 (x.xwin n).word⟩] ++
    (x.s.map fun e => ⟨at_ + 0xA4000 + 2048 * x.slot + 4 * (sOff + e.1), leBytes 4 e.2.toNat⟩) ++
    [⟨at_ + 0xA6000 + 32 * (16 * x.slot + c), (List.range 8).flatMap fun p => leBytes 4 (x.pred p).toNat⟩]

/-- The groups of a slot with their contexts and scalar offsets; the spec does not say which contexts and which scalar words
a group has, and the model numbers them in placement order (log 40). -/
def State.slotContexts (s : State) (cid k : Nat) : List (Nat × Nat × Nat) :=
  let gs := (s.groups.filter fun e => e.2.live && e.2.slot == k && (s.team e.2.team).core == cid)
  (gs.foldl (fun (acc : List (Nat × Nat × Nat) × Nat) e =>
    (acc.1 ++ [(e.1, acc.1.length, acc.2)], acc.2 + ceilDiv e.2.ns 8 * 8)) ([], 0)).1

/-- A core's section. -/
def State.dumpCore (s : State) (at_ cid : Nat) : List Put :=
  let sems := (s.teams.filter fun e => e.2.live && e.2.core == cid).foldl
    (fun (acc : List Put × Nat) e =>
      (acc.1 ++ e.2.sems.map (fun k => ⟨at_ + 0xA6800 + 2 * (acc.2 + k.1), leBytes 2 k.2.toNat⟩), acc.2 + e.2.nsem)) ([], 0)
  (List.range 4).flatMap (fun k => (s.slotContexts cid k).flatMap fun e => s.dumpGroup at_ e.1 e.2.1 e.2.2) ++
    ((s.core cid).scr.map fun e => ⟨at_ + 0x40000 + e.1, [e.2]⟩) ++ sems.1

/-- A quad's running buffer (R312): A first; what a `wua` command has read from scratchpad follows the place of A. -/
def State.dumpBuffer (s : State) (qk : Nat) : List Put :=
  let q := s.quad qk
  let at_ := match s.running qk with
    | some (_, c) => if c.op.wua then 8192 else 0
    | none => 0
  ⟨0x40000, q.buf⟩ :: match q.own with
    | some st => [⟨0x40000 + at_, st.bytes⟩]
    | none => []

/-- A quad's section: its tile slots (R304) and its running buffer. -/
def State.dumpQuad (s : State) (at_ qk : Nat) : List Put :=
  let cs := s.quadCores qk
  ((cs.zip (List.range cs.length)).flatMap fun e =>
    (s.core e.1).tiles.map fun t => ⟨at_ + 16384 * (4 * e.2) + 4 * t.1, leBytes 4 t.2.toNat⟩) ++
    (s.dumpBuffer qk).map fun p => ⟨at_ + p.addr, p.data⟩

/-- A core's Walker context storage: the checkpoint of each walk (R315). -/
def State.dumpWalks (s : State) (at_ cid : Nat) : List Put :=
  (s.walksOf cid).map fun w =>
    let b := (s.walk w).cp
    ⟨at_ + 512 * (w % 64),
      b.qb ++ b.w.flatMap (fun x => leBytes 8 x.toNat) ++ leBytes 8 b.pc.toNat ++ b.stack.flatMap fun x => leBytes 8 x.toNat⟩

/-- Everything that the dump of a partition holds, at offsets of the region. -/
def State.dumpPuts (s : State) (b : Nat) : List Put :=
  let ctx := (s.part b).live
  let omitted := s.confidential b
  s.dumpPages b omitted ++
    if omitted then []
    else
      (List.range 60).flatMap (fun i =>
        let cid := coreOf ctx (4 * b + i / 15) (i % 15)
        s.dumpCore (0x10000 + 0xA8000 * i) cid ++ s.dumpWalks (0x2BF0000 + 0x8000 * i) cid) ++
      (List.range 16).flatMap fun j => s.dumpQuad (0x2770000 + 0x48000 * j) (64 * ctx + 16 * b + j)

/-! Writing it (R415, R416). -/

/-- Whether the conditions of R415 hold. -/
def State.mayDump (s : State) : Bool :=
  let lo := s.dumpBase
  s.mgmt.dumpbase.getLsbD 0 && decide (lo + dumpSize ≤ Config.fittedGiB * 2 ^ 30) && !s.mgmt.dumpstat.getLsbD 0 &&
    (List.range 4).all fun b =>
      (s.part b).pastat == 0 || decide (lo + dumpSize ≤ s.partBase b) || decide (s.partBase b + s.partSize b ≤ lo)

/-- The region set to 0, without errors, under key 0. -/
def State.clearRegion (s : State) (lo n : Nat) : State :=
  { s with
    mem := Tbl.clear s.mem lo (lo + n)
    keyTag := Tbl.clear s.keyTag lo (lo + n)
    poison := s.poison.filter fun e => match e with
      | .mem k => decide (32 * k < lo) || decide (lo + n ≤ 32 * k)
      | .l2 k => decide (32 * k < lo) || decide (lo + n ≤ 32 * k)
      | _ => true }

/-- A missed dump. -/
def missedDump (w : Word) : Word :=
  if bits w.toNat 15 8 = 255 then w else w + 256

/-- The dump of the live context of partition b, or its count as missed. -/
def State.writeDump (s : State) (b : Nat) : State :=
  if s.mayDump then
    let lo := s.dumpBase
    let s1 := (s.clearRegion lo dumpSize).putKeyed 0 ((s.dumpPuts b).map fun p => ⟨lo + p.addr, p.data⟩)
    let flags := 1 + (if s.confidential b then 2 else 0) + 4 * b + 16 * (s.part b).live
    s1.setMgmt { s1.mgmt with dumpstat := s1.mgmt.dumpstat ||| BitVec.ofNat 32 flags }
  else s.setMgmt { s.mgmt with dumpstat := missedDump s.mgmt.dumpstat }

/-- A partition machine check (R352): the partition stops, firmware dumps and ends the live grids of the live context. -/
def State.partCheck (s : State) (b source addr : Nat) : State :=
  let s1 := s.noteCheck b (s.part b).live source 0 addr true 0
  let s2 := (s1.setPart b { s1.part b with pastat := 3 }).writeDump b
  (s2.gridsOf b (s.part b).live).foldl State.abortGrid s2

/-- An error in control state, Walker context storage or shadow storage is met: source 2. Such storage has no address in
local memory, and `mcaddr` is free (log 62). -/
def State.controlCheck (s : State) (b : Nat) : State := s.drawn.partCheck b 2 (s.free % 2 ^ 48)

/-! What a slice of L2 writes back (R276). -/

/-- Whether n bytes from a meet the range of partition b. -/
def State.inRange (s : State) (b a n : Nat) : Bool :=
  (s.part b).pastat != 0 && decide (a < s.partBase b + s.partSize b) && decide (s.partBase b < a + n)

/-- The partition in whose range an address lies. -/
def State.ownerOf (s : State) (a : Nat) : Option Nat := (List.range 4).find? fun b => s.inRange b a 1

/-- The sectors of a line of L2 with an error become sectors of memory with one. -/
def State.l2Sunk (s : State) (line : Nat) : State :=
  { s with poison := s.poison.map fun e => match e with
      | .l2 k => if k / 4 = line then .mem k else e
      | e => e }

/-- A line has left its slice: of a dirty one with an uncorrectable error the write-back meets it, a machine check of the partition
that owns the line; memory then holds the error: DESIGN CHOICE (log 62). -/
def State.l2Left (s : State) (line : Nat) : State :=
  if s.poison.any fun e => match e with
    | .l2 k => k / 4 == line
    | _ => false
  then
    match s.ownerOf (128 * line) with
    | some b => (s.l2Sunk line).partCheck b 1 (128 * line)
    | none => s.l2Sunk line
  else s

/-- The slice makes room for a line, if it can without a message. -/
def State.l2Take (s : State) (line : Nat) : Option State :=
  (s.l2Make line).map fun t => (s.l2.filter fun k => !t.l2.contains k).foldl State.l2Left t

end Sys2Proof.Machine
end

