-- ==== Sys2Proof/Machine/Control.lean ====
section
/-! DEFINITION. Control and synchronisation (R93-R110). -/
namespace Sys2Proof.Machine

open Sys2Proof

/-! Branches, calls and returns (R95, R97). -/

/-- The paths of branch_split: one for each distinct target (R95), in the order of the lowest lane that takes it: DESIGN
CHOICE, R95 orders the targets in no way (log 68). -/
def branchPaths : List (Nat × Addr) → List (Addr × Mask)
  | [] => []
  | (l, t) :: r =>
    let rest := branchPaths r
    match rest.find? fun e => e.1 == t with
    | some e => (t, laneBit l ||| e.2) :: rest.filter fun e => e.1 != t
    | none => (t, laneBit l) :: rest

/-- branch_split (R95): an empty guard set goes on at the successor. -/
def State.branchTo (s : State) (g : Guard) (target : Nat → Addr) : State :=
  let m := s.cg.guarded g
  if m = 0 then s.advance
  else
    s.setCg (s.cg.replaceRun (branchPaths ((lanesOf m).map fun l => (l, target l)) ++ [(s.succ, s.cg.run.mask &&& ~~~m)]))

/-- The target of a relative branch (R97). -/
def relTarget (pc : Addr) (off : BitVec 32) : Addr := BitVec.ofInt 48 (pc.toNat + off.toInt)

/-- The target that a lane's v pair holds. -/
def State.pairTarget (s : State) (a : Reg) (l : Nat) : Addr := BitVec.ofNat 48 (s.cg.vpair a.toNat l)

def execNop (g : Guard) (s : State) : Host.Outcome State Fault Refusal := groupOp s (s.guardStop g) s.advance

def execBra (g : Guard) (off : BitVec 32) (s : State) : Host.Outcome State Fault Refusal :=
  groupOp s (s.guardStop g) (s.branchTo g fun _ => relTarget s.cg.run.pc off)

def execBrx (g : Guard) (a : Reg) (s : State) : Host.Outcome State Fault Refusal :=
  groupOp s (firstStop [s.operandStop (s.lanes g) [opV a true true], s.guardStop g]) (s.branchTo g (s.pairTarget a))

def execRet (g : Guard) (a : Reg) (s : State) : Host.Outcome State Fault Refusal :=
  groupOp s (firstStop [s.operandStop (s.lanes g) [opV a true true], s.guardStop g]) (s.branchTo g (s.pairTarget a))

def execCall (g : Guard) (d : Reg) (off : BitVec 32) (s : State) : Host.Outcome State Fault Refusal :=
  let lanes := s.lanes g
  groupOp s (firstStop [s.operandStop lanes [opV d true false], s.guardStop g])
    ((s.writeV d.toNat true (lanes.map fun l => (l, s.succ.toNat))).branchTo g fun _ => relTarget s.cg.run.pc off)

/-! Exit and yield (R98, R99). -/

def execExit (g : Guard) (s : State) : Host.Outcome State Fault Refusal :=
  groupOp s (s.guardStop g) (if s.cg.guarded g = 0 then s.advance else s.exitLanes (s.cg.guarded g))

def execYield (g : Guard) (s : State) : Host.Outcome State Fault Refusal :=
  s.uniform g [] [] (s.setCg { s.cg with run := s.cg.run.at_ s.succ }.giveWay)

/-! Trap and breakpoint (R102). -/

/-- A trap that the instruction itself asks for. -/
def State.askedTrap (s : State) (g : Guard) (cause : Nat) (imm : BitVec 16) : Stop :=
  .trap ⟨cause, imm.toNat, s.succ.toNat, some (lowLane (s.cg.guarded g)), none⟩

def execTrap (g : Guard) (imm : BitVec 16) (s : State) : Host.Outcome State Fault Refusal :=
  s.uniform g [] [] (s.onStop (s.askedTrap g causeTrapInsn imm))

def execBrk (g : Guard) (imm : BitVec 16) (s : State) : Host.Outcome State Fault Refusal :=
  s.uniform g [] [] (s.onStop (s.askedTrap g causeBreak imm))

/-! Convergence barriers (R100). -/

def execCvset (g : Guard) (c : Reg) (mask : BitVec 32) (s : State) : Host.Outcome State Fault Refusal :=
  let b := s.cg.conv c.toNat
  let j := s.cg.guarded g &&& mask
  let m := if b.armed then b.mask ||| j else j
  groupOp s (s.guardStop g) (s.setCg (s.cg.setConv c.toNat ⟨m, m != 0⟩)).advance

/-- The lanes W of the running path wait on cN, at the instruction's successor (R100, R101); the others go on as a ready path. -/
def Group.cvPark (g : Group) (n : Nat) (w : Mask) (succ : Addr) (now : Nat) : Group :=
  let rest := g.run.mask &&& ~~~w
  let other := { Path.none with id := g.nextPath, pc := succ, mask := rest }
  let g1 := if rest = 0 then g else { g with ready := g.ready ++ [other], nextPath := g.nextPath + 1 }
  { g1 with run := { g1.run with mask := w } }.park (.cv n) succ now

/-- cvwait: the waiting paths are released by `Group.releaseCheck` (R100, R101). -/
def execCvwait (c : Reg) (s : State) : Host.Outcome State Fault Refusal :=
  let b := s.cg.conv c.toNat
  let w := s.cg.run.mask &&& b.mask
  if !b.armed || w = 0 then .next s.advance
  else .next (s.setCg ((s.cg.cvPark c.toNat w s.succ s.now).releaseCheck c.toNat))

/-! Vote (R103). -/

/-- The answer of a vote over the guarded lanes G and those T of them in which the predicate is true. -/
def voteWord (op : VoteOp) (t : Mask) : Nat :=
  match op with
  | .mask => t.toNat
  | .count => (lanesOf t).length
  | _ => if t = 0 then 32 else lowLane t

def voteTest (op : VoteOp) (g t : Mask) : Bool :=
  match op with
  | .every => t == g
  | .none => t == 0
  | .some => t != 0
  | _ => t != 0 && t != g

def execVote (g : Guard) (op : VoteOp) (d a : Reg) (s : State) : Host.Outcome State Fault Refusal :=
  let m := s.cg.guarded g
  let t := m &&& s.cg.pred a.toNat
  let read := [s.predStop (s.lanes g) [a.toNat]]
  if op = .mask ∨ op = .count ∨ op = .lead then
    s.uniform g [opS d false false] read (s.writeS d.toNat false (voteWord op t)).advance
  else s.uniform g [] read (s.writeP d.toNat m (if voteTest op m t then m else 0)).advance

/-! Semaphores (R104, R105). -/

def execSemset (g : Guard) (k : Reg) (val : BitVec 16) (s : State) : Host.Outcome State Fault Refusal :=
  s.uniform g [opK k] [s.releaseStop .t 0] (s.setSem s.cg.team k.toNat val).advance

/-- The sum of a `semadd`. -/
def semSum (v : Half) (inc : BitVec 16) : Int := v.toNat + inc.toInt

def semSaturated (x : Int) : Half := if x < 0 then 0 else if 0xFFFF < x then 0xFFFF else BitVec.ofInt 16 x

def execSemadd (g : Guard) (k : Reg) (inc : BitVec 16) (s : State) : Host.Outcome State Fault Refusal :=
  let x := semSum (s.ct.sem k.toNat) inc
  let s1 := s.setSem s.cg.team k.toNat (semSaturated x)
  let tval := k.toNat + if x < 0 then 256 else 0
  s.uniform g [opK k] [s.releaseStop .t 0]
    (if x < 0 ∨ 0xFFFF < x then s1.takeTrap (Trap.plain causeSem tval s.succ.toNat) else s1.advance)

/-- Whether the limit of `%wtimeout` has passed for a wait begun at start. -/
def State.timedOut (s : State) (g : Group) (start : Nat) : Bool :=
  g.wtimeout != 0 && decide (start + g.wtimeout.toNat ≤ s.now)

def execSemwait (g : Guard) (d k : Reg) (dec : Bool) (thr : BitVec 16) (s : State) :
    Host.Outcome State Fault Refusal :=
  let m := s.cg.guarded g
  let v := s.ct.sem k.toNat
  let s1 := if dec then s.setSem s.cg.team k.toNat (v - thr) else s
  s.uniform g [opK k] []
    (if thr.toNat ≤ v.toNat then (s1.writeP d.toNat m m).advance
    else if s.timedOut s.cg (s.cg.run.since.getD s.now) then (s.writeP d.toNat m 0).advance
    else s.parkAt (.sem k.toNat) s.cg.run.pc)

/-! Team and rectangle barriers (R106, R107). -/

/-- The check of a barrier's rectangle (R107). -/
def State.barRectOk (s : State) (w : Word) : Bool :=
  let r := Rect.ofWord w
  let c := Rect.ofWord (s.cluster s.ct.cluster).rect
  decide (w.toNat < 65536) && decide (r.x0 ≤ r.x1) && decide (r.y0 ≤ r.y1) && decide (c.x0 ≤ r.x0) &&
    decide (r.x1 ≤ c.x1) && decide (c.y0 ≤ r.y0) && decide (r.y1 ≤ c.y1) && r.has s.coreId

/-- Whether the instruction arrives: not a wait on a completed phase nor on a pending one. -/
def arrives (wait : Bool) (st : Bar) : Bool := !wait || st == .idle

/-- Arrival and wait at the team barrier. -/
def State.barTeam (s : State) (wait : Bool) : State :=
  let t := s.cg.team
  let parked := (s.parkAt (.team wait) s.succ)
  match s.cg.barT with
  | .pending => parked
  | st =>
    if wait then
      if st = .completed then (s.setCg { s.cg with barT := .idle }).advance
      else (parked.setCg { parked.cg with barT := .pending }).teamBarrier t
    else ((s.setCg { s.cg with barT := .pending }).advance).teamBarrier t

/-- Arrival and wait at the rectangle barrier. -/
def State.barRect (s : State) (wait : Bool) (w : Word) : State :=
  let c := s.ct.cluster
  let other := match (s.cluster c).openRect with
    | some r => r != w
    | none => false
  let opened := s.setCluster c { s.cluster c with openRect := some w }
  match s.cg.barX with
  | .pending => if other && !wait then s.parkAt (.rect none) s.cg.run.pc else s.parkAt (.rect (some wait)) s.succ
  | st =>
    if wait && st == .completed then (s.setCg { s.cg with barX := .idle }).advance
    else if other then s.parkAt (.rect none) s.cg.run.pc
    else
      let arrived := opened.setCg { opened.cg with barX := .pending }
      if wait then arrived.parkAt (.rect (some true)) s.succ else arrived.advance

/-- Both barrier instructions: the rectangle's check, the release of an arrival, and its effect. -/
def State.barOp (s : State) (i : Instr) (wait : Bool) (g : Guard) (scope : Scope) (b : Reg) :
    Host.Outcome State Fault Refusal :=
  let w := s.cg.sreg b.toNat
  if scope = .x then
    s.uniform g [opS b false true]
      [stopIf (!s.barRectOk w) (illegal i 4), if arrives wait s.cg.barX then s.releaseStop .x w else none]
      (s.barRect wait w)
  else
    s.uniform g [] [if arrives wait s.cg.barT then s.releaseStop .t 0 else none] (s.barTeam wait)

def execBarArrive (g : Guard) (scope : Scope) (b : Reg) (s : State) : Host.Outcome State Fault Refusal :=
  s.barOp (.barArrive g scope b) false g scope b

def execBarWait (g : Guard) (scope : Scope) (b : Reg) (s : State) : Host.Outcome State Fault Refusal :=
  s.barOp (.barWait g scope b) true g scope b

/-! Monitored wait (R108, R109). -/

/-- Ends a waitm at once with a cause, the monitor disarmed. -/
def State.waitmDone (s : State) (d : Reg) (cause : Nat) : State :=
  ((s.setCg { s.cg with monitor := none }).writeS d.toNat false cause).advance

def execWaitm (g : Guard) (ord : Order) (scope : Scope) (d a b : Reg) (s : State) : Host.Outcome State Fault Refusal :=
  let acc : Acc := ⟨0, 1, scope.code.toNat, 4⟩
  let va := s.cg.spair a.toNat % 2 ^ 48
  let l : LaneAt := ⟨none, va, 4, s.xlate va { Need.read with plain := true }⟩
  let s1 := (((s.touched [l] false).setCg ((s.touched [l] false).cg.wakeMonitor 4)).noteAcquire scope (Order.acquires ord))
  let differs := BitVec.ofNat 32 (s.readAt l) ≠ s.cg.sreg b.toNat
  let wait (pa : Nat) : State := (s1.setCg { s1.cg with monitor := some (pa / 32) }).parkAt (.waitm d s.now) s.succ
  s.uniform g [opS b false true, opS a true true, opS d false false]
    [misalignStop acc 4 [l], s.uniStop acc [l]]
    (if differs then s1.waitmDone d 0
    else
      match l.x with
      | .ok 0 pa _ _ _ => wait pa
      | _ => s1.waitmDone d 5)

/-! Device-side launch (R110). -/

def execLaunch (g : Guard) (d a : Reg) (s : State) : Host.Outcome State Fault Refusal :=
  let acc : Acc := ⟨0, 2, 0, 6⟩
  let va := s.cg.spair a.toNat % 2 ^ 48
  let ls := s.uniAt va 64 8
  let words := ls.map fun l => BitVec.ofNat 64 (s.readAt l)
  let c := s.ctx s.ctxKey
  let s1 := s.touched ls false
  let prio := (s.grid s.ct.grid).prio
  s.uniform g [opS a true true, opS d false false]
    [stopIf (va % 64 != 0) (.trap (Trap.plain causeMisaligned (acc.word 3 false) va)), s.uniStop acc ls]
    (if c.intake.length < 256 then
      ((s1.setCtx s.ctxKey { c with intake := c.intake ++ [(words, prio)] }).writeS d.toNat false 0).advance
    else (s1.writeS d.toNat false 1).advance)

end Sys2Proof.Machine
end

