-- ==== Sys2Proof/Machine/Fetch.lean ====
section
/-! DEFINITION. Fetching the code line at the PC and the checks of arrival in the order of R48 (R34-R39). -/
namespace Sys2Proof.Machine

open Sys2Proof

/-- A code line as its 32 halfwords (R34). -/
def halvesOfBytes : List Byte → List Half
  | a :: b :: r => (b ++ a) :: halvesOfBytes r
  | _ => []

/-- The line base of the running path's PC. -/
def State.lineBase (s : State) : Nat := s.cg.run.pc.toNat / 64 * 64

/-- `%tval` of a fault of a fetch: kind 13 (R340). -/
def fetchWord (loc : Nat) : Nat := accessWord loc 13 0 0 0 false

/-- The trap of a fetch (R39): `%taddr` holds the line base. -/
def State.fetchTrap (s : State) (cause loc : Nat) : Trap := Trap.plain cause (fetchWord loc) s.lineBase

/-- Bytes of a code line at an address as the group's grid sees them: a line written since the grid was accepted has no defined
content (R40). -/
def State.codeBytes (s : State) (base addr : Nat) (bs : List Byte) : List Byte :=
  if (s.grid s.ct.grid).since < Tbl.get 0 s.stamps ((base + addr) / 64) then
    (List.range 64).map fun i => Config.staleByte s.tick (addr + i)
  else bs

/-- The 64 bytes at the line base, or why the fetch fails (R39); once the translation holds, its leaf is marked before all else
(R360). -/
def State.fetchBytes (s : State) : Except Stop (List Byte × Xlat) :=
  let x := s.translateVia (s.coreUnits s.coreId) s.partId (coreCtx s.coreId) s.lineBase { Need.fetch with sup := s.cg.sup }
  match x with
  | .fault level reason entry =>
    .error (.page ⟨Option.none, level, reason, entry, s.lineBase, s.lineBase, fetchWord 3, false⟩)
  | .perm loc _ => .error (.trap (s.fetchTrap causePerm loc))
  | .bad => .error (.trap (s.fetchTrap causeData 3))
  | .ok loc pa _ leaf _ =>
    if loc = 0 then
      if s.memPoisoned pa 64 then .error (.marked [x] false (.trap (s.fetchTrap causeData 0)))
      else .ok (s.codeBytes 0 pa (s.readKeyed (keyOf s.partId leaf) pa 64), x)
    else if s.reachable s.partId loc pa then
      match s.linesMissing s.cg.run.served s.cg.lastAcq loc pa 64 with
      | [] => .ok (s.codeBytes (loc * 2 ^ 48) pa (s.remoteBytes s.cg.run.served s.cg.lastAcq loc pa 64), x)
      | ls => .error (.marked [x] false (.ask (ls.map fun l =>
          ⟨32, loc, (l - loc * 2 ^ 41) * 128, fetchWord loc, s.lineBase, Option.none⟩)))
    else .error (.marked [x] false (.refused (s.fetchTrap causeData loc)))

/-- What arrival at the PC gives: the n of the line with the instruction there, or the stop (R48 orders 1 to 4). -/
def State.arrive (s : State) : Except Stop (Nat × Instr × Xlat) :=
  match s.fetchBytes with
  | .error e => .error e
  | .ok (bs, x) =>
    let l := halvesOfBytes bs
    let pc := s.cg.run.pc.toNat
    let at_ := pc % 64
    let trap (t : Trap) : Except Stop (Nat × Instr × Xlat) := .error (.marked [x] false (.trap t))
    if lineWellFormed l then
      if at_ % 2 = 1 ∨ at_ = 0 then trap (Trap.plain causeMisaligned 0 pc)
      else if lineN l < at_ / 2 then trap (Trap.plain causeMisaligned (lineN l) pc)
      else
        match decodeAt l (at_ / 2) with
        | .ok i => .ok (lineN l, i, x)
        | .error r =>
          if r.reason = 0 then .ok (lineN l, .unassignedPosition r.head, x)
          else trap (Trap.plain causeIllegal (r.head.toNat + 65536 * r.reason) 0)
    else trap ⟨causeLine, lineTval l, pc, Option.none, some (BitVec.ofNat 48 (s.lineBase + 2))⟩

/-- The state in which the instruction at the PC executes: the line's n is known, its leaf is marked accessed (R360). -/
def State.fetched (s : State) (n : Nat) (x : Xlat) : State :=
  { (s.markLeaf x false).fillCore s.coreId s.lineBase x with curN := n }

end Sys2Proof.Machine
end

