-- ==== Sys2Proof/Machine/GroupEvents.lean ====
section
/-! DEFINITION. Steps of groups that no instruction makes: reports (R199), turns (R94), the Pacer (R259), timeouts (R105,
R109), the Hurdle (R266), arrival checks (R48), waking from halt (R114), and the answers of the host and of peers (R394,
R399). -/
namespace Sys2Proof.Machine

open Sys2Proof

/-- A state whose current group is g. -/
def State.at_ (s : State) (g : Nat) : State := { s with cur := g }

/-- engineReportTaken: the oldest report becomes a trap at the PC, which has not executed (R199, R342). -/
def execEngineReportTaken (g : Nat) (s : State) : Host.Outcome State Fault Refusal :=
  let s1 := s.at_ g
  match s1.cg.reports with
  | r :: rest =>
    if s1.cg.live && s1.cg.handler.isNone && s1.cg.run.mask != 0 then
      .next ((s1.setCg { s1.cg with reports := rest }).takeTrap
        (Trap.plain r.cause r.tval.toNat r.taddr.toNat))
    else .fault .notEnabled
  | [] => .fault .notEnabled

/-- pathTurnEnd: after 64 instructions the running path gives way (R94). -/
def execPathTurnEnd (g : Nat) (s : State) : Host.Outcome State Fault Refusal :=
  if decide (64 ≤ (s.group g).turn) then .next (s.setGroup g (s.group g).giveWay) else .fault .notEnabled

/-- pacerForce: a ready group passed over 32 times is chosen next (R259); its issue sets its count to 0. -/
def execPacerForce (g : Nat) (s : State) : Host.Outcome State Fault Refusal :=
  if (s.group g).live && decide (32 ≤ (s.group g).passed) then .next { s with agenda := .group g :: s.agenda }
  else .fault .notEnabled

/-! Timeouts. -/

def Parked.isSem (q : Parked) : Bool :=
  match q.why with
  | .sem _ => true
  | _ => false

/-- Whether a limit of a group's waits may pass: it runs; a wait of a saved context begins anew or ends with it (R357). -/
def State.limitRuns (s : State) (x : Group) : Bool := x.live && !x.halted && s.active (s.team x.team).core

/-- semwaitTimeout: the path's limit has passed; it runs its `semwait` again, which then ends with its predicate false
unless the threshold has been reached meanwhile (R105). -/
def execSemwaitTimeout (g path : Nat) (s : State) : Host.Outcome State Fault Refusal :=
  let x := s.group g
  let hit (q : Parked) : Bool := q.path.id == path && q.isSem && s.timedOut x (q.path.since.getD s.now)
  if s.limitRuns x && x.allParked.any hit then .next (s.setGroup g (x.wakeWhere hit)) else .fault .notEnabled

/-- waitmTimeout: cause 3 (R109). -/
def execWaitmTimeout (g path : Nat) (s : State) : Host.Outcome State Fault Refusal :=
  let x := s.group g
  let hit (q : Parked) : Bool := q.path.id == path && match q.why with
    | .waitm _ start => s.timedOut x start
    | _ => false
  if s.limitRuns x && x.allParked.any hit then .next (s.setGroup g (x.wakeMonitor 3)) else .fault .notEnabled

/-! The Hurdle (R107, R266). -/

/-- hurdleArrival: a team whose groups are all pending arrives at the open phase; the releases of R106 were performed by
the instructions. Of a context that is saved the phase stays as it is (R266). -/
def execHurdleArrival (team : Nat) (s : State) : Host.Outcome State Fault Refusal :=
  let t := s.team team
  let c := s.cluster t.cluster
  if t.live && s.teamPending team && !t.arrivedX && c.openRect.isSome && s.active t.core then
    .next ((s.setTeam team { t with arrivedX := true }).setCluster t.cluster { c with arrived := c.arrived ++ [team] })
  else .fault .notEnabled

/-- hurdleCompletion. -/
def execHurdleCompletion (cluster : Nat) (s : State) : Host.Outcome State Fault Refusal :=
  if s.rectComplete cluster && (s.cluster cluster).teams.all fun t => s.active (s.team t).core then .next (s.rectPhase cluster) else .fault .notEnabled

/-! Arrivals. -/

/-- arrivalCheckTrap: what the checks of arrival give for the current group's PC (R39, R48). -/
def execArrivalCheckTrap (s : State) : Host.Outcome State Fault Refusal :=
  match s.arrive with
  | .error e => .next (s.onStop e)
  | .ok _ => .fault .notEnabled

/-- unassignedPosition: ILLEGAL_OP reason 0x0 (R59). -/
def execUnassignedPosition (head : BitVec 16) (s : State) : Host.Outcome State Fault Refusal :=
  .next (s.takeTrap (Trap.plain causeIllegal head.toNat 0))

/-! halt (R114). -/

def Parked.isHalt (q : Parked) : Bool := q.why == .halt

/-- Whether the group is blocked in halt. -/
def Group.inHalt (g : Group) : Bool := g.parked.any Parked.isHalt

/-- haltFirmwareWake. -/
def execHaltFirmwareWake (g : Nat) (s : State) : Host.Outcome State Fault Refusal :=
  let x := s.group g
  if x.live && x.inHalt then .next (s.setGroup g (x.wakeWhere Parked.isHalt)) else .fault .notEnabled

/-- Changes the parked paths of a group, the stopped ones of handler mode included. -/
def Group.mapParked (g : Group) (f : Parked → Parked) : Group :=
  { g with
    parked := g.parked.map f
    handler := g.handler.map fun (h : Handler) => { h with parked := h.parked.map f } }

/-! Answers of the host and of peers (R394, R399). -/

/-- What an answer to a request does to the running path of a group, if it is the path that waits for it. -/
def Group.receive (g : Group) (path req : Nat) (f : Path → Path) : Group :=
  if g.run.id = path ∧ g.run.asked.contains req then
    { g with run := f { g.run with asked := g.run.asked.filter (· != req) } }
  else g

/-- The trap that a path is to take when its answers have come: of several refused requests that of the lowest lane (R173,
R399). -/
def Path.failAt (p : Path) (t : Trap) : Path :=
  match p.failed with
  | some o => if t.lane.getD 32 < o.lane.getD 32 then { p with failed := some t } else p
  | Option.none => { p with failed := some t }

/-- The key under which an answer is kept: its line, or its lane for an atomic. -/
def Remote.key (r : Remote) : Nat :=
  if r.n = 128 then remoteLine r.loc r.addr
  else match r.who with
    | .path _ _ lane => 2 ^ 60 + lane
    | _ => 2 ^ 60

/-- A line read fills the home copy (R275), if its slice has room, and unless a write of the partition followed it. -/
def State.fillCopy (s : State) (r : Remote) (data : List Byte) : State :=
  let k := remoteLine r.loc r.addr
  if r.n = 128 ∧ r.write.isNone ∧ r.atomic.isNone ∧ r.stale = false then
    match s.l2Take k with
    | some t =>
      { t with
        copies := Tbl.put t.copies k { data := data, filled := t.now }
        poison := t.poison.filter (· != .copy k) }
    | none => s
  else s

/-- One request fewer for a walk to wait for. -/
def Walk.receive (x : Walk) (req : Nat) (f : Walk → Walk) : Walk :=
  match x.wait with
  | .remote reqs =>
    if reqs.contains req then
      let left := reqs.filter (· != req)
      { f x with wait := if left.isEmpty then .ready else .remote left }
    else x
  | _ => x

/-- The answer of a read that the dispatcher or firmware made; an empty one marks a refused read. -/
def State.dispServed (s : State) (r : Remote) (e : Nat × List Byte) : State :=
  match r.who with
  | .grid g =>
    if (s.grid g).live && r.write.isNone then s.setGrid g { s.grid g with served := e :: (s.grid g).served } else s
  | .queue b n => s.setLq b n { s.queue b n with served := [e] }
  | .boot b => s.setPart b { s.part b with served := e :: (s.part b).served }
  | _ => s

/-- A status word that is refused is dropped (R249). -/
def State.refusedUpdate (s : State) (r : Remote) : State :=
  match r.who with
  | .grid g => if r.write.isSome && (s.grid g).live then s.droppedNotice g r.va.toNat r.loc else s
  | _ => s

/-- Whether the data of an answer is of the request's size. -/
def Remote.fits (r : Remote) (data : List Byte) : Bool := r.write.isSome || data.length == r.n

/-- Whether a request that has left can be answered: a write to the host is posted (R394). -/
def Remote.answerable (r : Remote) : Bool := r.away && !(r.loc == 2 && r.write.isSome)

/-- What an answer leaves where it is one to a zero-length read: the writes before it are performed. -/
def State.shown (s : State) (r : Remote) (req : Nat) : State := if r.isFlush then s.flushed r.part req else s

/-- remoteCompletion: data of a read or an atomic, or the completion of a write. -/
def execRemoteCompletion (req : Nat) (data : List Byte) (s : State) : Host.Outcome State Fault Refusal :=
  let r := s.remote req
  if r.answerable && r.fits data then
    let s1 := ((s.dropRemote req).shown r req).fillCopy r data
    let add (l : List (Nat × List Byte)) : List (Nat × List Byte) := (r.key, data) :: l
    .next (match r.who with
      | .path g p _ =>
        if (s1.group g).live then
          s1.setGroup g ((s1.group g).receive p req fun x => { x with served := add x.served })
        else s1
      | .copy c seq => s1.setCopy c seq fun x => if r.write.isSome then x else { x with served := add x.served }
      | .walk w => if (s1.walk w).live then s1.setWalk w ((s1.walk w).receive req fun x => { x with served := add x.served }) else s1
      | .flush _ => s1
      | _ => s1.dispServed r (r.key, data))
  else .fault .notEnabled

/-- The deferred fault of a refused store (R189, R399); of a retired group a notice. -/
def State.refuseStore (s : State) (g : Nat) (r : Remote) : State :=
  let x := s.group g
  if x.live then s.setGroup g (x.defer r.va.toNat (r.tval.toNat - 65536))
  else s.groupNotice g 0x10 r.va.toNat (r.tval ||| 0x100000) 0 0

/-- Counts an answer that refuses a request (R399): one for an assignment, which changes nothing if it fails, is not counted
(R402). -/
def State.countAnswer (s : State) (r : Remote) : State :=
  if r.who = .boot r.part ∧ (s.part r.part).pastat = 0 then s else s.countRefused r.part

/-- accessRefused: the outcome by who made the access (R399). -/
def execAccessRefused (req : Nat) (s : State) : Host.Outcome State Fault Refusal :=
  let r := s.remote req
  if r.live && r.loc != 0 then
    let s1 := ((s.dropRemote req).shown r req).countAnswer r
    .next (match r.who with
      | .path g p lane =>
        let t : Trap := ⟨causeData, r.tval.toNat, r.va.toNat, if lane < 32 then some lane else none, none⟩
        if (s1.group g).live then
          s1.setGroup g ((s1.group g).receive p req fun x => x.failAt t)
        else s1
      | .copy c seq =>
        match (s1.core c).copyQ.find? fun x => x.seq == seq with
        | some x => s1.failCopy c x 3 r.loc r.va.toNat
        | none => s1
      | .walk w =>
        match (s1.walk w).wait with
        | .remote reqs => if reqs.contains req then s1.walkFault w 5 else s1
        | _ => s1
      | .store g => s1.refuseStore g r
      | .flush _ => s1
      | _ => (s1.dispServed r (r.key, [])).refusedUpdate r)
  else .fault .notEnabled

end Sys2Proof.Machine
end

