-- ==== Sys2Proof/Machine/Frames.lean ====
section
/-! DEFINITION. Windows and frames: `xalloc`, `xframe`, `xunframe` (R163-R168). -/
namespace Sys2Proof.Machine

open Sys2Proof

/-- Frame length L of a map (R163). -/
def mapLength (m : Tbl Win) : Nat :=
  m.foldl (fun a e => if e.2.ext = 0 ∨ e.2.base + e.2.ext ≤ a then a else e.2.base + e.2.ext) 0

/-- Moves n words of the window area in every lane position. -/
def Group.moveWin (g : Group) (src dst n : Nat) : Group :=
  let seg := g.win.filter fun e => decide (32 * src ≤ e.1) && decide (e.1 < 32 * (src + n))
  let rest := Tbl.clear g.win (32 * dst) (32 * (dst + n))
  { g with win := seg.foldl (fun t e => Tbl.put t (e.1 - 32 * src + 32 * dst) e.2) rest }

/-- Writes 0 to words of the window area in every lane position. -/
def Group.zeroWin (g : Group) (at_ n : Nat) : Group := { g with win := Tbl.clear g.win (32 * at_) (32 * (at_ + n)) }

/-- Writes a word of the window area in every lane position. -/
def Group.fillWin (g : Group) (at_ v : Nat) : Group :=
  (List.range 32).foldl (fun (x : Group) l => x.setWin at_ l (BitVec.ofNat 32 v)) g

/-- SCRATCH_RANGE of a frame operation (R22, R340): kind 14, operation 1. -/
def frameRange (off : Int) : Stop := .trap (Trap.plain causeScratch (accessWord 0 14 1 0 0 false) (wrapTo 48 off))

/-- REG_RANGE of a window (R12). -/
def windowRange (x : Nat) : Stop := .trap (Trap.plain causeRegRange (regTval 2 x) 0)

/-! Spilling (R166). -/

def frameSize (len : Nat) : Nat := 128 + 128 * len

/-- The record of the oldest resident frame, whose words stand from word 0 of the window area on. -/
def Group.record (g : Group) (f : Frame) : List Byte :=
  ((List.range 32).map fun n => leBytes 2 (16 * (Tbl.get Win.none f.map n).base + (Tbl.get Win.none f.map n).ext)).flatten ++
    leBytes 4 f.len ++ leBytes 4 f.carry.toNat ++ List.replicate 56 0 ++
    ((List.range f.len).map fun j => ((List.range 32).map fun l => leBytes 4 (g.winWord j l).toNat).flatten).flatten

/-- Spills the oldest resident frame and slides the others down to word 0. -/
def State.spillFrame (s : State) : State :=
  match s.cg.frames with
  | [] => s
  | f :: r =>
    let g := s.cg
    let top := g.xb + mapLength g.xmap
    let at_ := g.ssp - frameSize f.len
    let s1 := s.putScratch s.coreId [⟨s.ct.base + at_, g.record f⟩]
    s1.setCg
      { g.moveWin f.len 0 (top - f.len) with
        frames := r, xb := g.xb - f.len, ssp := at_, spills := at_ :: g.spills }

def State.spillFrames (s : State) : Nat → State
  | 0 => s
  | j + 1 => s.spillFrame.spillFrames j

/-- The least number of frames to spill so that the words up to top fit (R164, R165); limit: four resident frames. -/
def Group.spillCount (g : Group) (top : Nat) (limit : Bool) : Option Nat :=
  (List.range (g.frames.length + 1)).find? fun j =>
    let start := ((g.frames.take j).map fun f => f.len).foldl (· + ·) 0
    (!limit || decide (g.frames.length + 1 - j < 4)) && decide (top - start ≤ g.nw)

/-- Whether the records of the j oldest frames do not fit above the end of the stack. -/
def State.spillStop (s : State) (j : Nat) : Option Stop :=
  let size := ((s.cg.frames.take j).map fun f => frameSize f.len).foldl (· + ·) 0
  stopIf (j != 0 && (decide ((s.cg.ssp : Int) - (size : Nat) < (s.stackLo : Nat)) || decide (s.stackHi < s.cg.ssp))) (frameRange ((s.cg.ssp : Int) - (size : Nat)))

/-! xalloc (R164). -/

/-- The map entry after `xalloc`. -/
def Group.allocated (g : Group) (d e : Nat) : Win :=
  let w := g.xwin d
  let len := mapLength g.xmap
  if e ≤ w.ext ∨ (0 < w.ext ∧ w.base + w.ext = len) then { w with ext := e } else ⟨len, e⟩

/-- Head of the marker of a window of extent e (R30). -/
def markerHead (e : Nat) : Nat := (e - 1) * 2 ^ 28 + 0x0FFFFFDA

/-- Sets the extent of a window: the words kept move, those added are 0 or the marker. -/
def Group.setExtent (g : Group) (d e : Nat) : Group :=
  let old := g.xwin d
  let new := g.allocated d e
  let g1 := if new.base = old.base then g else g.moveWin (g.xb + old.base) (g.xb + new.base) old.ext
  let g2 := g1.zeroWin (g.xb + new.base + old.ext) (e - old.ext)
  let g3 := { g2 with xmap := Tbl.set Win.none g2.xmap d new }
  if old.ext = 0 ∧ e ≠ 0 then
    if g.uninit then { g3.fillWin (g.xb + new.base) (markerHead e) with xtag := Tbl.set 0 g3.xtag d 0xFFFFFFFF }
    else { g3 with xtag := Tbl.set 0 g3.xtag d 0 }
  else g3

def execXalloc (g : Guard) (d : Reg) (e : AllocSize) (s : State) : Host.Outcome State Fault Refusal :=
  let n := match e with
    | .words k => k.toNat
    | .prec => ((s.lanes g).map fun l => vpExtent (s.cg.precOf l)).foldl Nat.max 0
  let map := Tbl.set Win.none s.cg.xmap d.toNat (s.cg.allocated d.toNat n)
  let len := mapLength map
  let j := (s.cg.spillCount (s.cg.xb + len) false).getD 0
  let s1 := s.spillFrames j
  s.uniform g [] [stopIf (decide (s.cg.nw < len)) (windowRange d.toNat), s.spillStop j]
    (s1.setCg (s1.cg.setExtent d.toNat n)).advance

/-! xframe (R165). -/

/-- The carried entries of a mask, ascending. -/
def carried (c : Mask) : List Nat := lanesOf c

/-- Copies of the carried entries at the new frame's start: entry, old base, extent, new base. -/
def carryPlan (m : Tbl Win) : List Nat → Nat → List (Nat × Win × Nat)
  | [], _ => []
  | n :: r, at_ =>
    let w := Tbl.get Win.none m n
    (n, w, at_) :: carryPlan m r (at_ + w.ext)

/-- Pushes a frame with the carried entries. -/
def Group.pushFrame (g : Group) (c : Mask) : Group :=
  let len := mapLength g.xmap
  let plan := carryPlan g.xmap (carried c) 0
  let g1 := plan.foldl (fun (x : Group) p => x.moveWin (g.xb + p.2.1.base) (g.xb + len + p.2.2) p.2.1.ext) g
  { g1 with
    frames := g.frames ++ [{ map := g.xmap, tags := g.xtag, carry := g.carry, len := len }]
    xmap := plan.foldl (fun t p => Tbl.set Win.none t p.1 ⟨p.2.2, p.2.1.ext⟩) []
    xtag := plan.foldl (fun t p => Tbl.set 0 t p.1 (Tbl.get 0 g.xtag p.1)) []
    xb := g.xb + len
    carry := c
    depth := g.depth + 1 }

def execXframe (g : Guard) (a : Option Reg) (s : State) : Host.Outcome State Fault Refusal :=
  let c : Mask := match a with
    | some r => s.cg.sreg r.toNat
    | none => 0
  let ops := match a with
    | some r => [opS r false true]
    | none => []
  let n := ((carried c).map fun x => (s.cg.xwin x).ext).foldl (· + ·) 0
  let j := s.cg.spillCount (s.cg.xb + mapLength s.cg.xmap + n) true
  let s1 := s.spillFrames (j.getD 0)
  let absent := (carried c).filter fun x => (s.cg.xwin x).ext == 0
  s.uniform g ops
    [stopIf (!absent.isEmpty) (windowRange (absent.headD 0)), stopIf j.isNone (windowRange 0), s.spillStop (j.getD 0)]
    (s1.setCg (s1.cg.pushFrame c)).advance

/-! xunframe (R167). -/

/-- A frame read back from a record of the stack. -/
def frameOfRecord (bs : List Byte) : Frame :=
  let half (n : Nat) : Nat := leValue ((bs.drop (2 * n)).take 2)
  { map := (List.range 32).foldl (fun t n => Tbl.set Win.none t n ⟨bits (half n) 12 4, bits (half n) 3 0⟩) []
    tags := [], carry := BitVec.ofNat 32 (leValue ((bs.drop 68).take 4)), len := leValue ((bs.drop 64).take 4) % 512 }

/-- Whether two entries overlap. -/
def Win.meets (a b : Win) : Bool :=
  decide (0 < a.ext) && decide (0 < b.ext) && decide (a.base < b.base + b.ext) && decide (b.base < a.base + a.ext)

/-- The checks of a record: L within W, reserved fields 0, extents at most 8, within L and disjoint. -/
def recordOk (w : Nat) (bs : List Byte) : Bool :=
  let f := frameOfRecord bs
  let win (n : Nat) : Win := Tbl.get Win.none f.map n
  decide (f.len ≤ w) && leValue ((bs.drop 64).take 4) < 512 && (bs.drop 72).all (· == 0) &&
    ((List.range 32).all fun n =>
      decide (leValue ((bs.drop (2 * n)).take 2) < 8192) && decide ((win n).ext ≤ 8) &&
        ((win n).ext == 0 || decide ((win n).base + (win n).ext ≤ f.len)) &&
        ((List.range n).all fun k => !(win k).meets (win n)))

/-- The caller's frame: resident or from its record. -/
def State.callerFrame (s : State) : Frame :=
  match s.cg.frames.getLast? with
  | some f => f
  | none => frameOfRecord (s.cc.scrBytes (s.ct.base + s.cg.ssp) 128)

/-- Where the caller's words start in the window area. -/
def Group.callerBase (g : Group) : Nat :=
  match g.frames.getLast? with
  | some f => g.xb - f.len
  | Option.none => 0

/-- The entries handed back: carried, and still allocated in the current frame. -/
def Group.held (g : Group) : List Nat := (carried g.carry).filter fun n => (g.xwin n).ext != 0

/-- The group with the caller's frame current: its words from the record when it was spilled (R166: no tags are kept). -/
def State.callerGroup (s : State) : Group :=
  let g := s.cg
  let f := s.callerFrame
  let g1 := { g with
    xmap := f.map, xtag := f.tags, carry := f.carry, xb := g.callerBase, frames := g.frames.dropLast,
    depth := g.depth - 1 }
  if g.frames.isEmpty then
    let at_ := s.ct.base + g.ssp + 128
    let g2 := (List.range f.len).foldl
      (fun (x : Group) j => (List.range 32).foldl
        (fun (y : Group) l => y.setWin j l (BitVec.ofNat 32 (leValue (s.cc.scrBytes (at_ + 128 * j + 4 * l) 4)))) x) g1
    { g2 with ssp := g.ssp + frameSize f.len, spills := g.spills.drop 1 }
  else g1

/-- Hands entry n back: the caller's window is grown to the callee's extent when it is smaller, and takes its words and,
DESIGN CHOICE, their tags, of which R167 says nothing (log 68). -/
def Group.giveBack (old : Group) (g : Group) (n : Nat) : Group :=
  let w := old.xwin n
  let g1 := if (g.xwin n).ext < w.ext then g.setExtent n w.ext else g
  let at_ := g1.xb + (g1.xwin n).base
  let g2 := (List.range w.ext).foldl
    (fun (x : Group) j => (List.range 32).foldl
      (fun (y : Group) l => y.setWin (at_ + j) l (old.winWord (old.xb + w.base + j) l)) x) g1
  { g2 with xtag := Tbl.set 0 g2.xtag n (Tbl.get 0 old.xtag n) }

/-- The first entry, in ascending order, whose growth takes the caller's frame beyond the window area: the one that REG_RANGE
names is a DESIGN CHOICE, R167 names the file only (log 68), and so is it that no older resident frame is spilled to make room,
R167 having both "as by `xalloc`" and "must fit" (log 78). -/
def Group.noRoom (old : Group) (g : Group) : List Nat → Option Nat
  | [] => Option.none
  | n :: r =>
    let w := old.xwin n
    if (g.xwin n).ext < w.ext then
      let m := Tbl.set Win.none g.xmap n (g.allocated n w.ext)
      if g.nw < g.xb + mapLength m then some n else Group.noRoom old { g with xmap := m } r
    else Group.noRoom old g r

/-- The checks of a spilled caller, in order. -/
def State.recordStop (s : State) : Option Stop :=
  let g := s.cg
  let bs := s.cc.scrBytes (s.ct.base + g.ssp) 128
  let f := frameOfRecord bs
  let range := frameRange g.ssp
  firstStop
    [stopIf (g.ssp != g.spills.headD 0) range, stopIf (decide (s.stackHi < g.ssp + frameSize f.len)) range,
      stopIf (!recordOk g.nw bs) (.trap (Trap.plain causeVpFormat (3 * 2 ^ 28) g.ssp)),
      stopIf (s.scrPoisoned s.coreId (s.ct.base + g.ssp) (frameSize f.len))
        (.trap (Trap.plain causeData (accessWord 0 14 1 0 0 false) g.ssp))]

def execXunframe (g : Guard) (s : State) : Host.Outcome State Fault Refusal :=
  let old := s.cg
  let caller := s.callerGroup
  let full := Group.noRoom old caller old.held
  s.uniform g []
    [stopIf (old.depth == 0) (illegal (.xunframe g) 4), if old.frames.isEmpty then s.recordStop else none,
      stopIf full.isSome (windowRange (full.getD 0))]
    (s.setCg (old.held.foldl (Group.giveBack old) caller)).advance

end Sys2Proof.Machine
end

