-- ==== Sys2Proof/Machine/WalkLane.lean ====
section
/-! DEFINITION. The lane-side Walker instructions (R235-R241). -/
namespace Sys2Proof.Machine

open Sys2Proof

/-! wprog (R236). -/

/-- The access fields of the descriptor read of `wprog` (R174). -/
def wprogAcc : Acc := ⟨0, 3, 0, 6⟩

/-- The descriptors in a block of 128 bytes. -/
def descsOf (bs : List Byte) : List DWord := (List.range 16).map fun i => BitVec.ofNat 64 (leValue ((bs.drop (8 * i)).take 8))

/-- A descriptor with a reserved bit set (R225). -/
def descReserved (d : DWord) : Bool := bits d.toNat 63 38 != 0

/-- wprog. DESIGN CHOICE: MISALIGNED_ADDR about P has the `%tval` of R174's descriptor read too, since R174 gives P none (log 78). -/
def execWprog (g : Guard) (d a b : Reg) (words : BitVec 16) (s : State) : Host.Outcome State Fault Refusal :=
  let i := Instr.wprog g d a b words
  let id := (s.cg.sreg d.toNat).toNat
  let p := s.cg.spair a.toNat % 2 ^ 48
  let t64 := s.cg.spair b.toNat
  let t := t64 % 2 ^ 48
  let ls := if t64 = 0 then [] else s.uniAt t 128 8
  let descs := if t64 = 0 then List.replicate 16 0 else descsOf (s.uniBytes ls)
  let bad (va : Nat) : Stop := .trap (Trap.plain causeMisaligned (wprogAcc.word 3 false) va)
  let own :=
    [stopIf (decide (63 < id)) (illegal i 4), stopIf (p % 64 != 0) (bad p), stopIf (t % 8 != 0) (bad t),
      s.uniStop wprogAcc ls, stopIf (descs.any descReserved) (illegal i 4)]
  let s1 := s.touched ls false
  let x := s1.ctx s1.ctxKey
  let entry : Prog := { code := BitVec.ofNat 48 p, words := words.toNat + 1, descs := descs, since := s.now }
  s.uniform g [opS b true true, opS a true true, opS d false true] own
    (s1.setCtx s1.ctxKey { x with progs := Tbl.put x.progs id entry }).advance

/-! wlaunch (R237). -/

/-- Walks of the core that are in its intake or are to enter it. -/
def Core.intakeLoad (c : Core) : Nat :=
  c.intake.length + (c.wcmds.map fun w => if w.entered then 0 else w.queries.length).foldl (· + ·) 0

/-- Query address of a lane. -/
def State.query (s : State) (a : Reg) (l : Nat) : Nat := s.cg.vpair a.toNat l % 2 ^ 48

/-- The command of a `wlaunch` and the next sequence number of the core (R197). -/
def State.addWalks (s : State) (i : Nat) (a : Reg) (lanes : List Nat) (queue : BitVec 2) (sync : Sync) : State :=
  let c := s.cc
  let cmd : WCmd :=
    { seq := c.seq, group := s.cur, team := s.cg.team, pc := s.cg.run.pc, sync := sync, queue := queue.toNat, pid := i,
      prog := Tbl.get Prog.none (s.ctx s.ctxKey).progs i, acq := s.cg.lastAcq,
      queries := lanes.map fun l => (l, BitVec.ofNat 48 (s.query a l)), entered := false, left := lanes.length }
  s.setCc { c with seq := c.seq + 1, wcmds := c.wcmds ++ [cmd] }

def execWlaunch (g : Guard) (a b : Reg) (queue : BitVec 2) (sync : Sync) (s : State) : Host.Outcome State Fault Refusal :=
  let i := Instr.wlaunch g a b queue sync
  let lanes := s.lanes g
  let id := (s.cg.sreg b.toNat).toNat
  let empty := (Tbl.get Prog.none (s.ctx s.ctxKey).progs id).words == 0
  let bad := lanes.filter fun l => s.query a l % 64 != 0
  let own :=
    [stopIf (decide (63 < id) || empty) (illegal i 4),
      bad.head?.map fun l => .trap (Trap.onLane causeMisaligned (accessWord 3 14 2 0 0 false) (s.query a l) l),
      stopIf (decide (1024 < s.cc.intakeLoad + lanes.length)) .stall, s.releaseStop .t 0]
  s.uniform g (syncOps sync ++ [opS b false true, opV a true true]) own (s.addWalks id a lanes queue sync).advance

/-! wtake, wpoll (R238, R239). -/

/-- The four words of records given to lanes densely, oldest first. -/
def Group.giveRecords (g : Group) (d : Nat) (l : List (Nat × Record)) : Group :=
  l.foldl (fun x e =>
    (((x.setVT d e.1 e.2.w0 false).setVT (d + 1) e.1 e.2.w1 false).setVT (d + 2) e.1 e.2.w2 false).setVT (d + 3) e.1
      e.2.w3 false) g

/-- Gives chunks back to the pool of the current partition (R327). -/
def State.freeChunks (s : State) (n : Nat) : State :=
  s.setPart s.partId { s.part s.partId with cqfree := (s.part s.partId).cqfree + n }

/-- DATA_ERROR of a record in the pool (R276): no page maps it and R174 names no kind of `wtake`: DESIGN CHOICE, kind 14 and
address 0 (log 74). -/
def takeError : Stop := .trap (Trap.plain causeData (accessWord 0 14 0 0 0 false) 0)

def execWtake (g : Guard) (d a b : Reg) (queue : BitVec 2) (s : State) : Host.Outcome State Fault Refusal :=
  let lanes := s.lanes g
  let c := s.ct.cq queue.toNat
  let n := if c.held < lanes.length then c.held else lanes.length
  let given := (lanes.zip (List.range n)).map fun e => (e.1, s.recordAt s.partId c e.2)
  let r := c.take n
  let s1 := (s.setCt (s.ct.setCq queue.toNat r.1)).freeChunks r.2
  let s2 := (s1.setCg (s1.cg.giveRecords d.toNat given)).cleanV d.toNat 4 (given.map fun e => e.1)
  let s3 := s2.writeP b.toNat s.cg.run.mask (maskOf fun l => given.any fun e => e.1 == l)
  s.uniform g [opS a false false, opRun d.toNat 4 false]
    [stopIf ((List.range n).any fun i => s.memPoisoned (s.recordAddr s.partId c i) 16) takeError] (s3.writeS a.toNat false n).advance

/-- The team's walks that target a queue and have not ended (R239). -/
def State.walksToward (s : State) (cid team q : Nat) : Nat :=
  ((s.walksOf cid).filter fun w =>
      let x := s.walk w
      x.hosted.isNone && x.team == team && x.queue == q).length +
    ((s.core cid).intake.filter fun e => e.hosted.isNone && e.team == team && e.queue == q).length +
    ((s.core cid).wcmds.map fun c => if !c.entered && c.team == team && c.queue == q then c.queries.length else 0).foldl
      (· + ·) 0

def execWpoll (g : Guard) (d a : Reg) (queue : BitVec 2) (clr : Bool) (s : State) : Host.Outcome State Fault Refusal :=
  let q := queue.toNat
  let c := s.ct.cq q
  let held := if c.held < 65535 then c.held else 65535
  let s1 := if clr then s.setCt (s.ct.setCq q { c with ovf := false }) else s
  s.uniform g [opS a false false, opS d false false] []
    ((s1.writeS d.toNat false (held + if c.ovf then 65536 else 0)).writeS a.toNat false
      (s.walksToward s.coreId s.cg.team q)).advance

/-! wcancel (R240). -/

def execWcancel (g : Guard) (d : Reg) (queue : BitVec 2) (team : Bool) (s : State) : Host.Outcome State Fault Refusal :=
  let x := s.doomed s.coreId s.cg.team (if team then none else some s.cur) (some queue.toNat)
  let away := x.contexts.filter fun w => (s.walk w).relayed.isSome
  let n := x.count - away.length
  let s1 := s.endDoomed s.coreId x
  s.uniform g [opS d false false] []
    (if away.isEmpty then (s1.writeS d.toNat false n).advance else s1.parkAt (.cancel d n away) s.succ)

/-- A relayed walk in context w has answered its cancellation: counted or not (R240, R337). -/
def Group.cancelAck (w : Nat) (counted : Bool) (g : Group) : Group :=
  let upd (q : Parked) : Parked :=
    match q.why with
    | .cancel d n ws =>
      if ws.contains w then { q with why := .cancel d (if counted then n + 1 else n) (ws.filter fun k => k != w) } else q
    | _ => q
  let ends (q : Parked) : Bool :=
    match q.why with
    | .cancel _ _ ws => ws.isEmpty
    | _ => false
  let g1 := { g with
    parked := g.parked.map upd
    handler := g.handler.map fun (h : Handler) => { h with parked := h.parked.map upd } }
  let g2 := g1.allParked.foldl
    (fun (x : Group) q => match q.why with
      | .cancel d n [] => x.setS d.toNat (BitVec.ofNat 32 n)
      | _ => x) g1
  g2.wakeWhere ends

/-- The walk in context w, whose cancellation a group awaits, has ended. -/
def State.cancelEnded (s : State) (w : Nat) (counted : Bool) : State :=
  let t := s.team (s.walk w).team
  (t.groups.foldl (fun u g => u.setGroup g ((u.group g).cancelAck w counted)) s).freeWalk w

end Sys2Proof.Machine
end

