-- ==== Sys2Proof/Machine/WalkEvents.lean ====
section
/-! DEFINITION. Steps of a core's Walker that no Walker instruction makes: the intake (R237, R316), appends (R329), signals
(R237) and retried relays (R336); going home and hosted walks (R336, R337). -/
namespace Sys2Proof.Machine

open Sys2Proof

/-- wlaunchIntake: once k[waitk] ≥ thr the walks enter the intake in lane order (R237). -/
def execWlaunchIntake (c : Nat) (seq : Word) (s : State) : Host.Outcome State Fault Refusal :=
  let x := s.core c
  match x.wcmds.find? fun w => w.seq == seq && !w.entered with
  | none => .fault .notEnabled
  | some w =>
    let met := w.sync.thr == 0 || decide (w.sync.thr.toNat ≤ ((s.team w.team).sem w.sync.waitk.toNat).toNat)
    if s.active c && met then
      let new := w.queries.map fun q =>
        { query := q.2, team := w.team, group := w.group, lane := q.1, queue := w.queue, seq := w.seq, pid := w.pid,
          prog := w.prog, acq := w.acq, hosted := none : Intake }
      .next (s.setCore c { x with
        intake := x.intake ++ new
        wcmds := x.wcmds.map fun y => if y.seq = seq then { y with entered := true, queries := [] } else y })
    else .fault .notEnabled

/-! Hosted walks (R336). -/

/-- Tag of a grid's launch record (R245). -/
def Grid.tag (g : Grid) : Word := (nthD 0 g.rec_ 7).setWidth 32

/-- The oldest team resident on a core whose live grid carries a tag. -/
def State.hostTeam (s : State) (cid : Nat) (tag : Word) : Option Nat :=
  (s.teams.foldl
    (fun (best : Option (Nat × Nat)) e =>
      let t := e.2
      if t.live && t.core == cid && (s.grid t.grid).live && (s.grid t.grid).tag == tag then
        match best with
        | none => some (e.1, t.age)
        | some b => if t.age < b.2 then some (e.1, t.age) else best
      else best) none).map fun e => e.1

/-- The header that names a hosted walk of an intake entry. -/
def originMsg (e : Intake) (o : Origin) : RelayMsg :=
  { RelayMsg.none with device := o.device, part := o.part, core := o.core, ctx := o.ctx, queue := o.queue, team := o.team,
                       group := o.group, lane := o.lane, program := e.pid, serial := o.serial }

/-- Sends an intake entry home with the body it arrived with (R336, R337). -/
def State.returnEntry (s : State) (cid : Nat) (e : Intake) : State :=
  match e.hosted with
  | some (o, body) => s.sendRelay (corePart cid) 10 o.device { originMsg e o with body := some body }
  | none => s

/-- Sends a hosted walk home with its last checkpoint: at once, or once its release is answered (R337). -/
def State.sendHome (s : State) (w : Nat) : State :=
  let x := s.walk w
  match x.wait with
  | .released a false => s.setWalk w { x with wait := .goHome a }
  | .goHome _ => s
  | _ => s.endWalk w 10 { s.walkMsg w with body := some x.cp }

/-! Starting (R213, R316, R336). -/

/-- The lowest free context of a core. -/
def State.freeContext (s : State) (cid : Nat) : Option Nat :=
  ((List.range 64).filter fun k => !(s.walk (64 * cid + k)).live).head?

/-- The walk of a local intake entry, its query still to be read: w1 holds the address. -/
def Intake.walk (e : Intake) : Walk :=
  { Walk.none with
    live := true, w := Tbl.set 0 [] 1 (e.query.setWidth 64), pc := e.prog.code, queue := e.queue, team := e.team,
    group := e.group, lane := e.lane, seq := e.seq, pid := e.pid, prog := e.prog, acq := e.acq }

/-- The walk of a hosted entry for a host team, before it takes its body. -/
def Intake.hostedWalk (e : Intake) (o : Origin) (team : Nat) : Walk :=
  { Walk.none with
    live := true, queue := o.queue, team := team, lane := o.lane, pid := e.pid, prog := e.prog, serial := o.serial, acq := e.acq,
    hosted := some o }

/-- The oldest entry takes context w. -/
def State.startEntry (s : State) (cid w : Nat) (e : Intake) : State :=
  match e.hosted with
  | none => (s.setWalk w e.walk).beginWalk w e.query
  | some (o, body) =>
    match s.hostTeam cid (Tbl.get 0 (s.part (corePart cid)).rlyhost e.pid) with
    | some t => (s.setWalk w (e.hostedWalk o t)).resumeWalk w body
    | none => s.returnEntry cid e

/-- walkStart. -/
def execWalkStart (c : Nat) (s : State) : Host.Outcome State Fault Refusal :=
  let x := s.core c
  match x.intake, s.freeContext c with
  | e :: rest, some k =>
    if s.active c then .next ((s.setCore c { x with intake := rest }).startEntry c (64 * c + k) e) else .fault .notEnabled
  | _, _ => .fault .notEnabled

/-! Appends and signals. -/

/-- walkRecordAppend: a release that waited for room is performed (R329); for a walk on a peer whose release was answered
full, the peer is told of the room (R336): its records wait in emits. -/
def execWalkRecordAppend (w : Nat) (s : State) : Host.Outcome State Fault Refusal :=
  let x := s.walk w
  if x.live && s.active (w / 64) then
    match x.wait with
    | .room a =>
      if s.queueRoom x.team x.queue (s.releaseRecords w a).length then .next (s.release w a) else .fault .notEnabled
    | .away d =>
      if !x.emits.isEmpty && s.queueRoom x.team x.queue x.emits.length then
        .next ((s.setWalk w { x with emits := [] }).sendRelay (corePart (w / 64)) 5 d (s.walkMsg w))
      else .fault .notEnabled
    | _ => .fault .notEnabled
  else .fault .notEnabled

/-- wlaunchSignal: every walk of the command has ended, its records in the queue (R237). -/
def execWlaunchSignal (c : Nat) (seq : Word) (s : State) : Host.Outcome State Fault Refusal :=
  let x := s.core c
  match x.wcmds.find? fun w => w.seq == seq && w.entered && w.left == 0 with
  | none => .fault .notEnabled
  | some w =>
    let cmd : Cmd :=
      { seq := w.seq, group := w.group, team := w.team, pc := w.pc, sync := w.sync, op := .zero 0, started := true,
        mute := false, served := [], moved := 0 }
    if s.active c then
      .next ((s.setCore c { x with wcmds := x.wcmds.filter fun y => y.seq != seq }).signalCmd cmd)
    else .fault .notEnabled

/-- relayBusyRetry: at least 4096 cycles after a busy answer the walk is sent again (R336); a device that no port reaches
ends it (R338). -/
def execRelayBusyRetry (w : Nat) (s : State) : Host.Outcome State Fault Refusal :=
  let x := s.walk w
  match x.wait with
  | .busy d until_ =>
    if x.live && s.active (w / 64) && decide (until_ ≤ s.now) then
      if (s.portFor (corePart (w / 64)) d).isSome then
        .next ((s.setWalk w { x with wait := .answer d }).sendRelay (corePart (w / 64)) 1 d
          { s.walkMsg w with body := some x.cp })
      else .next (s.walkFault w 7)
    else .fault .notEnabled
  | _ => .fault .notEnabled

end Sys2Proof.Machine
end

