-- ==== Sys2Proof/Machine/Placement.lean ====
section
/-! DEFINITION. Kernel launch descriptors (R56, R57), placement resources and placement (R250-R254), and the start of
clusters, teams and groups (R29, R30, R255). -/
namespace Sys2Proof.Machine

open Sys2Proof

/-! Descriptors. -/

/-- A descriptor's fields (R56); wins holds the 32 halfwords of its window table. -/
structure Desc where
  entry : Nat
  groups : Nat
  width : Nat
  height : Nat
  nv : Nat
  ns : Nat
  nw : Nat
  d : Nat
  t : Nat
  sems : Nat
  coresident : Bool
  uninit : Bool
  wins : List Nat
deriving DecidableEq, Repr

/-- The 32-bit word i of a list of 64-bit words. -/
def word32 (l : List DWord) (i : Nat) : Nat := (nthD 0 l (i / 2)).toNat / 2 ^ (32 * (i % 2)) % 2 ^ 32

/-- Bytes as 64-bit words. -/
def dwordsOf (bs : List Byte) : Nat → List DWord
  | 0 => []
  | n + 1 => BitVec.ofNat 64 (leValue (bs.take 8)) :: dwordsOf (bs.drop 8) n

def Desc.of (l : List DWord) : Desc :=
  let w := word32 l
  { entry := (nthD 0 l 0).toNat
    groups := bits (w 2) 4 0 + 1
    width := bits (w 2) 11 8 + 1
    height := bits (w 2) 15 12 + 1
    nv := bits (w 3) 8 0
    ns := bits (w 3) 15 9
    nw := bits (w 3) 24 16
    d := bits (w 4) 18 0
    t := bits (w 5) 16 0
    sems := bits (w 6) 8 0
    coresident := bits (w 6) 16 16 == 1
    uninit := bits (w 6) 17 17 == 1
    wins := (List.range 32).map fun n => w (16 + n / 2) / 2 ^ (16 * (n % 2)) % 2 ^ 16 }

/-- Register words of a group for each lane position (R17). -/
def Desc.area (x : Desc) : Nat := ceilDiv (x.nv + x.nw) 8 * 8
/-- Scalar words of a group (R16). -/
def Desc.scalars (x : Desc) : Nat := ceilDiv x.ns 8 * 8
/-- Scratchpad bytes of a team (R20). -/
def Desc.scratch (x : Desc) : Nat := x.d + x.groups * x.t
/-- Cores of a cluster. -/
def Desc.cores (x : Desc) : Nat := x.width * x.height

/-- Base and extent of a window halfword. -/
def winBase (h : Nat) : Nat := bits h 12 4
def winExt (h : Nat) : Nat := bits h 3 0

/-- Whether the halfword of window n fails R57. -/
def Desc.winBad (x : Desc) (n : Nat) : Bool :=
  let h := nthD 0 x.wins n
  let b := winBase h
  let e := winExt h
  bits h 15 13 != 0 || decide (503 < b) || decide (8 < e) ||
    (e != 0 && (decide (x.nw < b + e) ||
      ((List.range n).any fun m =>
        let g := nthD 0 x.wins m
        winExt g != 0 && decide (winBase g < b + e) && decide (b < winBase g + winExt g))))

/-- The word offset of the first field that fails R57. The bytes 0x20 to 0x3F are one field of R56. -/
def descBad (l : List DWord) : Option Nat :=
  let x := Desc.of l
  let w := word32 l
  let checks : List (Bool × Nat) :=
    [(x.entry % 64 != 2 || decide (2 ^ 48 ≤ x.entry), 0),
      (bits (w 2) 31 16 != 0 || bits (w 2) 7 5 != 0 || decide (12 < x.width) || decide (12 < x.height) ||
        decide (12 < x.cores), 2),
      (bits (w 3) 31 25 != 0 || decide (504 < x.nw) || x.ns == 0 || decide (64 < x.ns) || x.nv == 0 ||
        decide (256 < x.nv) || decide (512 < x.area), 3),
      (bits (w 4) 31 19 != 0 || x.d % 384 != 0 || decide (393216 < x.d), 4),
      (bits (w 5) 31 17 != 0 || x.t % 256 != 0 || decide (65536 < x.t) || decide (393216 < x.scratch), 5),
      (bits (w 6) 31 18 != 0 || bits (w 6) 15 9 != 0 || decide (256 < x.sems), 6), (w 7 != 1, 7),
      ((List.range 8).any fun i => w (8 + i) != 0, 8)] ++
      (List.range 32).map fun n => (x.winBad n, 16 + n / 2)
  (checks.find? fun c => c.1).map fun c => c.2

/-! Resources (R250). -/

/-- What a slot has in use: group contexts, scalar words and register runs. -/
structure SlotRes where
  groups : Nat
  scalars : Nat
  runs : List (Nat × Nat)
deriving DecidableEq, Repr

/-- What a core has in use: team contexts, semaphores, scratchpad ranges and its four slots. -/
structure CoreRes where
  teams : Nat
  sems : Nat
  scr : List (Nat × Nat)
  slots : List SlotRes
deriving DecidableEq, Repr

def SlotRes.empty : SlotRes := { groups := 0, scalars := 0, runs := [] }
def CoreRes.empty : CoreRes := { teams := 0, sems := 0, scr := [], slots := List.replicate 4 SlotRes.empty }

/-- Whether a range of n from a meets none of a list. -/
def rangeFree (l : List (Nat × Nat)) (a n : Nat) : Bool :=
  l.all fun e => decide (a + n ≤ e.1) || decide (e.1 + e.2 ≤ a) || n == 0 || e.2 == 0

/-- Length of the free run that starts at block i of a slot's 64 blocks of 8 words. -/
def freeRun (l : List (Nat × Nat)) (i : Nat) : Nat → Nat
  | 0 => 0
  | n + 1 => if i < 64 ∧ rangeFree l (8 * i) 8 then 8 + freeRun l (i + 1) n else 0

def SlotRes.longest (s : SlotRes) : Nat :=
  (List.range 64).foldl (fun m i => if m < freeRun s.runs i 64 then freeRun s.runs i 64 else m) 0

/-- The lowest offset where a run of a words fits. -/
def SlotRes.fit (s : SlotRes) (a : Nat) : Option Nat :=
  ((List.range 64).find? fun i => decide (8 * i + a ≤ 512) && rangeFree s.runs (8 * i) a).map fun i => 8 * i

/-- The candidate of R251 for a group: its slot and the offset of its run. -/
def pickSlot (x : Desc) (l : List SlotRes) : Option (Nat × Nat) :=
  ((l.zip (List.range l.length)).foldl
    (fun (best : Option (Nat × Nat × Nat)) e =>
      let s := e.1
      match s.fit x.area with
      | some off =>
        if s.groups < 16 ∧ s.scalars + x.scalars ≤ 512 then
          match best with
          | none => some (s.longest, e.2, off)
          | some b => if b.1 < s.longest then some (s.longest, e.2, off) else best
        else best
      | none => best) none).map fun b => b.2

def SlotRes.take (s : SlotRes) (x : Desc) (off : Nat) : SlotRes :=
  { groups := s.groups + 1, scalars := s.scalars + x.scalars, runs := (off, x.area) :: s.runs }

/-- Slots for n groups in ascending group number (R251). -/
def pickSlots (x : Desc) (l : List SlotRes) : Nat → Option (List (Nat × Nat) × List SlotRes)
  | 0 => some ([], l)
  | n + 1 =>
    match pickSlot x l with
    | none => none
    | some (k, off) =>
      match pickSlots x ((l.zip (List.range l.length)).map fun e => if e.2 = k then e.1.take x off else e.1) n with
      | none => none
      | some (r, l1) => some ((k, off) :: r, l1)

/-- The lowest free scratchpad range. -/
def CoreRes.fitScr (c : CoreRes) (n : Nat) : Option Nat :=
  ((List.range 1025).find? fun i => decide (384 * i + n ≤ 393216) && rangeFree c.scr (384 * i) n).map fun i => 384 * i

/-- Where a team lies: its scratchpad base, and the slot and register run of each group. -/
structure Placed where
  base : Nat
  groups : List (Nat × Nat)
deriving DecidableEq, Repr

/-- Places a team on a core (R251). -/
def CoreRes.place (c : CoreRes) (x : Desc) : Option (CoreRes × Placed) :=
  if c.teams < 16 ∧ c.sems + x.sems ≤ 256 then
    match c.fitScr x.scratch, pickSlots x c.slots x.groups with
    | some base, some (gs, slots) =>
      some ({ teams := c.teams + 1, sems := c.sems + x.sems, scr := (base, x.scratch) :: c.scr, slots := slots },
        { base := base, groups := gs })
    | _, _ => none
  else none

/-- A partition's resources in use: its cores and its Hurdle contexts. -/
structure Pool where
  cores : Tbl CoreRes
  hurdles : Nat
deriving DecidableEq, Repr

def Pool.empty : Pool := { cores := [], hurdles := 0 }

/-- Whether `pgcfg` names a core as a pager core (R344). -/
def isPager (w : Word) (lx ly : Nat) : Bool :=
  let n := w.toNat
  (n.testBit 8 && bits n 3 0 == lx && bits n 7 4 == ly) || (n.testBit 24 && bits n 19 16 == lx && bits n 23 20 == ly)

/-- Places teams on cores one after another, each on its own. -/
def Pool.placeTeams (p : Pool) (x : Desc) : List Nat → Option (Pool × List (Nat × Placed))
  | [] => some (p, [])
  | cid :: r =>
    match (Tbl.get CoreRes.empty p.cores cid).place x with
    | none => none
    | some (c, at_) =>
      match Pool.placeTeams { p with cores := Tbl.put p.cores cid c } x r with
      | none => none
      | some (q, l) => some (q, (cid, at_) :: l)

/-- A placed cluster: its origin and its teams. -/
structure PlacedCluster where
  x0 : Nat
  y0 : Nat
  teams : List (Nat × Placed)
deriving DecidableEq, Repr

/-- A cluster at an origin (R252). -/
def Pool.placeAt (p : Pool) (x : Desc) (pg : Word) (b ctx x0 y0 : Nat) : Option (Pool × PlacedCluster) :=
  let at_ (j : Nat) : Nat × Nat := (x0 + j % x.width, y0 + j / x.width)
  let js := List.range x.cores
  if x0 + x.width ≤ 4 * b + 4 ∧ y0 + x.height ≤ 15 ∧ js.all fun j => !isPager pg (at_ j).1 (at_ j).2 then
    match p.placeTeams x (js.map fun j => coreOf ctx (at_ j).1 (at_ j).2) with
    | none => none
    | some (q, l) =>
      some ({ q with hurdles := q.hurdles + if 1 < x.cores then 1 else 0 }, { x0 := x0, y0 := y0, teams := l })
  else none

/-- First fit by ascending row, then column (R252). -/
def Pool.placeCluster (p : Pool) (x : Desc) (pg : Word) (b ctx : Nat) : Option (Pool × PlacedCluster) :=
  if 1 < x.cores ∧ 128 ≤ p.hurdles then none
  else ((List.range 60).filterMap fun i => p.placeAt x pg b ctx (4 * b + i % 4) (i / 4)).head?

/-- Every one of n clusters, each in turn. -/
def Pool.placeMany (p : Pool) (x : Desc) (pg : Word) (b ctx : Nat) : Nat → Option (List PlacedCluster)
  | 0 => some []
  | n + 1 =>
    match p.placeCluster x pg b ctx with
    | none => none
    | some (q, c) =>
      match Pool.placeMany q x pg b ctx n with
      | none => none
      | some l => some (c :: l)

/-- All clusters of a co-resident grid: 60 cores hold at most 960 teams. -/
def Pool.placeAll (p : Pool) (x : Desc) (pg : Word) (b ctx n : Nat) : Option (List PlacedCluster) :=
  if 960 < n then none else p.placeMany x pg b ctx n

/-- The trial placement of R254. -/
def trialFits (x : Desc) (pg : Word) (b ctx teams : Nat) : Bool :=
  if x.coresident then (Pool.empty.placeAll x pg b ctx (teams / x.cores)).isSome
  else (Pool.empty.placeCluster x pg b ctx).isSome

/-! Resources in use. -/

def State.slotRes (s : State) (cid k : Nat) : SlotRes :=
  let gs := (s.groups.filter fun e => e.2.live && e.2.slot == k && (s.team e.2.team).core == cid).map fun e => e.2
  { groups := gs.length
    scalars := (gs.map fun (g : Group) => ceilDiv g.ns 8 * 8).foldl (· + ·) 0
    runs := gs.map fun (g : Group) => (g.runOff, ceilDiv (g.nv + g.nw) 8 * 8) }

def State.coreRes (s : State) (cid : Nat) : CoreRes :=
  let ts := (s.teams.filter fun e => e.2.live && e.2.core == cid).map fun e => e.2
  { teams := ts.length
    sems := (ts.map fun (t : Team) => t.nsem).foldl (· + ·) 0
    scr := ts.map fun (t : Team) => (t.base, t.d + t.g * t.t)
    slots := (List.range 4).map (s.slotRes cid) }

/-- The cores of partition b in a context, rows outermost. -/
def bandCores (b ctx : Nat) : List Nat := (List.range 60).map fun i => coreOf ctx (4 * b + i % 4) (i / 4)

def State.pool (s : State) (b ctx : Nat) : Pool :=
  { cores := (bandCores b ctx).map fun c => (c, s.coreRes c)
    hurdles := (s.clusters.filter fun e => e.2.live && e.2.hurdle && match e.2.teams with
      | t :: _ => (s.team t).part == b && coreCtx (s.team t).core == ctx
      | [] => false).length }

/-! Starting (R29, R30, R255). -/

/-- The windows that a descriptor declares. -/
def Desc.windows (x : Desc) : List (Nat × Nat × Nat) :=
  ((x.wins.zip (List.range 32)).map fun e => (e.2, winBase e.1, winExt e.1)).filter fun e => e.2.2 != 0

/-- The window map at group start: each entry equals its halfword (R56). -/
def Desc.winMap (x : Desc) : Tbl Win :=
  ((x.wins.zip (List.range 32)).filter fun e => e.1 % 2 ^ 13 != 0).map fun e =>
    (e.2, { base := winBase e.1, ext := winExt e.1 })

/-- Marks the registers and windows of a group that starts under `.uninit` (R30). -/
def Group.marked (g : Group) (x : Desc) : Group :=
  let keys := List.range (32 * x.nv)
  let g1 := { g with
    v := keys.map fun k => (k, 0x7FB5B5B5)
    vtag := keys.map fun k => (k, true)
    xtag := x.windows.map fun e => (e.1, 0xFFFFFFFF)
    uninit := true }
  x.windows.foldl (fun (y : Group) e => y.fillWin e.2.1 (markerHead e.2.2)) g1

/-- A group as it starts (R29); args is the launch argument block. -/
def Group.start (x : Desc) (team num slot off : Nat) (args : DWord) (sup : Bool) (now : Nat) : Group :=
  let g : Group := { Group.none with
    live := true, lastAcq := now, team := team, num := num, slot := slot, nv := x.nv, ns := x.ns, nw := x.nw, runOff := off,
    s := Tbl.set 0 (Tbl.set 0 [] 0 (args.setWidth 32)) 1 ((args >>> 32).setWidth 32)
    xmap := x.winMap
    ssp := x.d + (num + 1) * x.t
    run := { Path.none with pc := BitVec.ofNat 48 x.entry, mask := 0xFFFFFFFF }, sup := sup }
  if x.uninit then g.marked x else g

/-- Starts the groups of a team. -/
def State.startGroups (s : State) (tk : Nat) (x : Desc) (args : DWord) (sup : Bool) (l : List (Nat × Nat)) : State :=
  (l.zip (List.range l.length)).foldl
    (fun t e =>
      let k := t.nextId
      let t1 := t.setGroup k (Group.start x tk e.2 e.1.1 e.1.2 args sup t.now)
      { t1.setTeam tk { t1.team tk with groups := (t1.team tk).groups ++ [k] } with nextId := k + 1 }) s

/-- Starts a team (R29): its data area holds 0 in every byte. -/
def State.startTeam (s : State) (gid ck index cid : Nat) (x : Desc) (args : DWord) (sup : Bool) (p : Placed) : State :=
  let k := s.nextId
  let b := corePart cid
  let t : Team := { Team.none with
    live := true, part := b, core := cid, grid := gid, index := index, cluster := ck, age := (s.part b).nextAge,
    base := p.base, d := x.d, t := x.t, g := x.groups, nsem := x.sems }
  let c := s.core cid
  let s1 := { s.setCore cid { c with scr := Tbl.clear c.scr p.base (p.base + x.d) } with
    nextId := k + 1
    poison := s.poison.filter fun e => match e with
      | .scr q w => !(q == cid && decide (p.base ≤ 8 * w) && decide (8 * w < p.base + x.d))
      | _ => true }
  let s2 := s1.setPart b { s1.part b with nextAge := (s1.part b).nextAge + 1 }
  let s3 := (s2.setTeam k t).setCluster ck { s2.cluster ck with teams := (s2.cluster ck).teams ++ [k] }
  s3.startGroups k x args sup p.groups

/-- The packing of `%clrect` (R24). -/
def clusterRect (x : Desc) (c : PlacedCluster) : Word :=
  BitVec.ofNat 32 (c.x0 + 16 * c.y0 + 256 * (c.x0 + x.width - 1) + 4096 * (c.y0 + x.height - 1))

/-- Starts a placed cluster of a grid: its teams are the next of the grid. -/
def State.startCluster (s : State) (gid : Nat) (x : Desc) (sup : Bool) (c : PlacedCluster) : State :=
  let g := s.grid gid
  let ck := s.nextId
  let cl : Cluster := { Cluster.none with live := true, rect := clusterRect x c, hurdle := decide (1 < x.cores) }
  let s1 := { s.setCluster ck cl with nextId := ck + 1 }
  let args := nthD 0 g.rec_ 1
  let s2 := (c.teams.zip (List.range c.teams.length)).foldl
    (fun t e => t.startTeam gid ck (g.placed + e.2) e.1.1 x args sup e.1.2) s1
  s2.setGrid gid { s2.grid gid with placed := g.placed + c.teams.length }

end Sys2Proof.Machine
end

