-- ==== Sys2Proof/Machine/Launch.lean ====
section
/-! DEFINITION. The grid dispatcher: acceptance (R243-R247), record checks (R246), dependences (R248), dispatch steps (R253),
retirement (R256) and the end of grids (R249). -/
namespace Sys2Proof.Machine

open Sys2Proof

/-- Whether firmware ends the grids of a context: its partition has stopped (R352), or is released or reset (R402). -/
def State.aborts (s : State) (b ctx : Nat) : Bool :=
  (s.part b).closing || ((s.part b).pastat == 3 && (s.part b).live == ctx)

/-- Whether grids of a context can end: it runs, or firmware ends them. -/
def State.settles (s : State) (b ctx : Nat) : Bool := s.runsCtx b ctx || s.aborts b ctx

/-! Reads of the dispatcher (R362: through its own unit). -/

inductive DispRead where
  | bytes (bs : List Byte)
  | page (va level reason entry : Nat)
  /-- a permission, an uncorrectable error, or a refused read -/
  | bad
  | noPath
  | ask (asks : List Ask)
  /-- a core owns the line of local memory (R297) -/
  | home (line : Nat)

/-- A read of the dispatcher: the translations it made, by address, and what came of it. -/
structure DispDone where
  xs : List (Nat × Xlat)
  r : DispRead

def State.dispXlate (s : State) (b ctx va : Nat) (n : Need) : Xlat :=
  s.translateVia [dispUnit (2 * b + ctx)] b ctx va n

/-- Access word of the dispatcher: kind 15 (R340). -/
def dispWord (loc : Nat) : Nat := accessWord loc 15 0 0 0 false

/-- n bytes within a line, read for an agent; lines of the host or peers are those served, read anew each time (R244,
R248: acquires at system scope). -/
def State.dispRead (s : State) (g : AgentId) (b ctx va n : Nat) (served : List (Nat × List Byte)) : DispDone :=
  let x := s.dispXlate b ctx va Need.read
  match x with
  | .fault l r e => ⟨[], .page va l r e⟩
  | .perm _ _ | .bad => ⟨[], .bad⟩
  | .ok 0 pa _ leaf _ =>
    ⟨[(va, x)],
      if !s.homeFree g (pa / 128) false then .home (pa / 128)
      else if s.memPoisoned pa n then .bad
      else .bytes (s.readKeyed (keyOf b leaf) pa n)⟩
  | .ok loc pa _ _ _ =>
    ⟨[(va, x)],
      if s.reachable b loc pa then
        if (remoteLines loc pa n).any fun l => served.any fun e => e.1 == l && e.2.isEmpty then .bad
        else
          match s.linesMissing served s.now loc pa n with
          | [] => .bytes (s.remoteBytes served s.now loc pa n)
          | ls => .ask (ls.map fun l => ⟨32, loc, (l - loc * 2 ^ 41) * 128, dispWord loc, va, none⟩)
      else .noPath⟩

/-- What a read of the dispatcher leaves: the leaves marked (R360), the translations held, and the homes of what it read free. -/
def State.dispTouched (s : State) (g : AgentId) (b ctx : Nat) (xs : List (Nat × Xlat)) : State :=
  xs.foldl
    (fun t e =>
      let t1 := (t.markLeaf e.2 false).fillTlb (dispUnit (2 * b + ctx)) 64 e.1 e.2
      match e.2 with
      | .ok 0 pa _ _ _ => t1.letGo g [pa / 128]
      | _ => t1) s

/-- Two reads one after another: n bytes at va and n after them. -/
def State.dispRead2 (s : State) (g : AgentId) (b ctx va n : Nat) (served : List (Nat × List Byte)) : DispDone :=
  let d := s.dispRead g b ctx va n served
  match d.r with
  | .bytes b1 =>
    let e := s.dispRead g b ctx ((va + n) % 2 ^ 48) n served
    ⟨d.xs ++ e.xs, match e.r with
      | .bytes b2 => .bytes (b1 ++ b2)
      | r => r⟩
  | _ => d

/-- Whether a read waits for a home that takes the line back already. -/
def State.dispStuck (s : State) (g : AgentId) (b : Nat) (d : DispDone) : Bool :=
  match d.r with
  | .home k => s.homeAsked g b k false
  | _ => false

/-! Grids. -/

def Grid.word (g : Grid) (i : Nat) : Nat := (nthD 0 g.rec_ i).toNat
def Grid.descAt (g : Grid) : Nat := g.word 0
def Grid.teams (g : Grid) : Nat := g.word 2 % 2 ^ 32 + 1
def Grid.waitAt (g : Grid) : Nat := g.word 3
def Grid.waitFor (g : Grid) : Nat := g.word 4
def Grid.signalAt (g : Grid) : Nat := g.word 5
def Grid.statusAt (g : Grid) : Nat := g.word 6
def recPrio (r : List DWord) : Nat := (nthD 0 r 2).toNat / 2 ^ 32 % 4

/-- The next `%grid` value: those of live grids are skipped (R247). -/
def State.nextGrid (s : State) (b : Nat) : Word :=
  let used := (s.grids.filter fun e => e.2.live && e.2.part == b).map fun e => e.2.id
  let ids := (List.range (used.length + 1)).map fun i => (s.part b).gridCount + BitVec.ofNat 32 i
  (ids.find? fun i => !used.contains i).getD 0

/-- A record becomes a live grid of a context (R247). -/
def State.newGrid (s : State) (b ctx : Nat) (r : List DWord) (cap : Nat) : State :=
  let p := s.part b
  let id := s.nextGrid b
  let g : Grid := { Grid.none with
    live := true, part := b, ctx := ctx, id := id, rec_ := r, prio := if recPrio r < cap then recPrio r else cap
    age := p.nextAge, polled := s.now, since := s.now }
  { (s.setPart b { p with nextAge := p.nextAge + 1, gridCount := id + 1 }).setGrid s.nextId g with nextId := s.nextId + 1 }

/-- A launch fails: the grid ends under R249. -/
def State.failGrid (s : State) (gid status detail : Nat) : State :=
  s.setGrid gid { s.grid gid with st := .ending status detail }

/-- Whether a request or a message of the dispatcher is unanswered. -/
def State.asked (s : State) (who : Who) : Bool :=
  (s.remotes.any fun e => e.2.live && e.2.who == who) || s.mails.any fun e => e.2.live && e.2.who == who

/-! Acceptance (R244, R247). -/

/-- The address of the record at the head of a queue. -/
def Queue.headAt (q : Queue) : Nat := (q.base.toNat + 64 * (q.head.toNat % 2 ^ q.log2)) % 2 ^ 48

/-- The read of that record. -/
def State.headRead (s : State) (b k : Nat) : DispDone :=
  s.dispRead (.queue b k) b (s.part b).live (s.queue b k).headAt 64 (s.queue b k).served

/-- Whether turn k of the round robin can accept: queues 0 to 7, then the device intake. -/
def State.turnReady (s : State) (b k : Nat) : Bool :=
  if k < 8 then
    let q := s.queue b k
    q.enabled && !q.stopped && q.waiting != 0 && !s.asked (.queue b k) && !s.dispStuck (.queue b k) b (s.headRead b k)
  else !(s.ctx (2 * b + (s.part b).live)).intake.isEmpty

/-- The next turn is the one after k. -/
def State.turned (s : State) (b k : Nat) : State :=
  let c := 2 * b + (s.part b).live
  s.setCtx c { s.ctx c with turn := (k + 1) % 9 }

/-- Queue k's turn: the record is read, copied, and lqhead advances; an unreadable one stops the queue. -/
def State.queueTurn (s : State) (b k : Nat) : State :=
  let q := s.queue b k
  let ctx := (s.part b).live
  let d := s.headRead b k
  let s1 := s.dispTouched (.queue b k) b ctx d.xs
  match d.r with
  | .bytes bs =>
    let s2 := s1.setLq b k { q with head := q.head + 1, served := [] }
    (s2.newGrid b ctx (dwordsOf bs 8) (bits q.ctl.toNat 13 12)).turned b k
  | .ask asks => s1.askAll b (fun _ => .queue b k) asks
  | .home line => s1.askHome (.queue b k) b line false
  | .noPath => ((s1.countRefused b).setLq b k { q.stop 3 with served := [] }).turned b k
  | _ => (s1.setLq b k { q.stop 3 with served := [] }).turned b k

/-- The intake's turn. -/
def State.intakeTurn (s : State) (b : Nat) : State :=
  let ctx := (s.part b).live
  let c := s.ctx (2 * b + ctx)
  match c.intake with
  | [] => s
  | (r, cap) :: rest => ((s.setCtx (2 * b + ctx) { c with intake := rest }).newGrid b ctx r cap).turned b 8

/-- dispatcherTurn. -/
def execDispatcherTurn (b : Nat) (s : State) : Host.Outcome State Fault Refusal :=
  let ctx := (s.part b).live
  let turn := (s.ctx (2 * b + ctx)).turn
  match ((List.range 9).map fun i => (turn + i) % 9).find? (s.turnReady b) with
  | some k =>
    if s.runsCtx b ctx && decide (s.liveGrids b < 64) then
      .next (if k < 8 then s.queueTurn b k else s.intakeTurn b)
    else .fault .notEnabled
  | none => .fault .notEnabled

/-- lqtailWrite. -/
def execLqtailWrite (b n : Nat) (v : Word) (s : State) : Host.Outcome State Fault Refusal := .next (s.lqtail b n v)

/-- lqctlWrite. -/
def execLqctlWrite (b n : Nat) (v : Word) (s : State) : Host.Outcome State Fault Refusal := .next (s.lqctl b n v)

/-! Record checks (R246). -/

/-- Whether an address fails step 1: zero passes. -/
def addrBad (a : Nat) : Bool := a % 8 != 0 || decide (2 ^ 48 ≤ a)

/-- Step 1: the word offset of the first failing field; a pager record's wait counter is not checked (R402). -/
def Grid.recordBad (g : Grid) (pager : Bool) : Option Nat :=
  let checks : List (Bool × Nat) :=
    [(g.descAt % 64 != 0 || decide (2 ^ 48 ≤ g.descAt), 0), (decide (4 ≤ g.word 2 / 2 ^ 32), 5),
      (!pager && addrBad g.waitAt, 6), (addrBad g.signalAt, 10), (addrBad g.statusAt, 12),
      (g.word 7 / 2 ^ 32 != 0, 15)]
  (checks.find? fun c => c.1).map fun c => c.2

/-- A page fault of the dispatcher goes to the pager (R349, R350). -/
def State.dispPage (s : State) (gid va level reason entry detail : Nat) : State :=
  let g := s.grid gid
  match s.mailbox g.part g.ctx with
  | .absent => s.failGrid gid 4 detail
  | .unusable => s.gridCheck gid 6 0 va
  | .ok box sz =>
    s.postMail
      { Mail.none with
        who := .grid gid, part := g.part, ctx := g.ctx, kind := 4, level := level, reason := reason,
        address := BitVec.ofNat 64 va, access := BitVec.ofNat 32 (dispWord 3), grid := g.id,
        entry := BitVec.ofNat 64 entry } box sz

/-- Whether a counter's page fails step 3. -/
def counterBad (loc leaf : Nat) : Bool := loc != 0 || bits leaf 6 5 == 1 || bits leaf 6 5 == 2

/-- Step 2 for the page of a counter; k takes whether it fails step 3. -/
def State.withCounter (s : State) (gid a detail : Nat) (k : Bool → State) : State :=
  let g := s.grid gid
  if a = 0 then k false
  else
    match s.dispXlate g.part g.ctx a Need.read with
    | .fault l r e => s.dispPage gid a l r e detail
    | .perm _ _ | .bad => s.failGrid gid 4 detail
    | .ok loc _ _ leaf _ => k (counterBad loc leaf)

/-- The read of a grid's wait counter. -/
def State.counterRead (s : State) (gid : Nat) : DispDone :=
  let g := s.grid gid
  s.dispRead (.grid gid) g.part g.ctx g.waitAt 8 []

/-- The sector of a local counter. -/
def DispDone.sector (d : DispDone) : Option Nat :=
  match d.xs with
  | (_, .ok 0 pa _ _ _) :: _ => some (pa / 32)
  | _ => none

/-- A read of the wait counter (R248): the grid becomes eligible when it reaches the wait value; while a core owns the line the
read is to be made again. -/
def State.readCounter (s : State) (gid : Nat) : State :=
  let g := s.grid gid
  let d := s.counterRead gid
  let s1 := s.dispTouched (.grid gid) g.part g.ctx d.xs
  let g1 := s1.grid gid
  match d.r, d.sector with
  | .bytes bs, some k =>
    if g.waitFor ≤ leValue bs then s1.setGrid gid { g1 with st := .eligible, sector := none, hit := false }
    else s1.setGrid gid { g1 with st := .waiting, sector := some k, hit := false, polled := s.now }
  | .home line, some k => (s1.setGrid gid { g1 with st := .waiting, sector := some k, hit := true }).askHome (.grid gid) g.part line false
  | .page va l r e, _ => (s1.setGrid gid { g1 with st := .waiting, hit := false, polled := s.now }).dispPage gid va l r e 1
  | _, _ => s1.failGrid gid 4 1

/-- Steps 4 to 6, then what follows acceptance. -/
def State.checkDesc (s : State) (gid : Nat) (desc : List DWord) : State :=
  let g := s.grid gid
  let x := Desc.of desc
  match descBad desc with
  | some w => s.failGrid gid 1 w
  | none =>
    if g.teams % x.cores ≠ 0 then s.failGrid gid 3 4
    else if trialFits x (s.part g.part).pgcfg g.part g.ctx g.teams then
      let s1 := s.setGrid gid { g with desc := desc }
      if g.waitAt = 0 then s1.setGrid gid { g with desc := desc, st := .eligible } else s1.readCounter gid
    else s.failGrid gid 2 0

/-- The read of a grid's descriptor. -/
def State.descRead (s : State) (gid : Nat) : DispDone :=
  let g := s.grid gid
  s.dispRead2 (.grid gid) g.part g.ctx g.descAt 64 g.served

/-- The checks of an accepted record in order. -/
def State.checkRecord (s : State) (gid : Nat) : State :=
  let g := s.grid gid
  match g.recordBad false with
  | some w => s.failGrid gid 3 w
  | none =>
    let d := s.descRead gid
    let s1 := s.dispTouched (.grid gid) g.part g.ctx d.xs
    match d.r with
    | .page va l r e => s1.dispPage gid va l r e 0
    | .ask asks => s1.askAll g.part (fun _ => .grid gid) asks
    | .home line => s1.askHome (.grid gid) g.part line false
    | .bad => s1.failGrid gid 4 0
    | .noPath => (s1.countRefused g.part).failGrid gid 4 0
    | .bytes bs =>
      s1.withCounter gid g.waitAt 1 fun badWait =>
        s1.withCounter gid g.signalAt 2 fun badSignal =>
          let s2 := s1.setGrid gid { s1.grid gid with noSignal := badSignal }
          if badWait then s2.failGrid gid 3 6
          else if badSignal then s2.failGrid gid 3 10
          else s2.checkDesc gid (dwordsOf bs 16)

/-- launchRecordCheck. -/
def execLaunchRecordCheck (grid : Nat) (s : State) : Host.Outcome State Fault Refusal :=
  let g := s.grid grid
  if g.live && g.st == .accepted && s.runsCtx g.part g.ctx && !s.asked (.grid grid) && !s.dispStuck (.grid grid) g.part (s.descRead grid)
  then .next (s.checkRecord grid)
  else .fault .notEnabled

/-- Whether a grid's wait counter may be read. -/
def State.mayRead (s : State) (gid : Nat) : Bool :=
  let g := s.grid gid
  g.live && g.st == .waiting && s.runsCtx g.part g.ctx && !s.asked (.grid gid) && !s.dispStuck (.grid gid) g.part (s.counterRead gid)

/-- gridCounterRead: after a write to the counter's sector. -/
def execGridCounterRead (grid : Nat) (s : State) : Host.Outcome State Fault Refusal :=
  if s.mayRead grid && (s.grid grid).hit then .next (s.readCounter grid) else .fault .notEnabled

/-- gridCounterPoll: at least once every 65536 mesh cycles. -/
def execGridCounterPoll (grid : Nat) (s : State) : Host.Outcome State Fault Refusal :=
  if s.mayRead grid then .next (s.readCounter grid) else .fault .notEnabled

/-! Dispatch steps (R253). -/

def Grid.comesBefore (a b : Grid) : Bool := decide (b.prio < a.prio) || (a.prio == b.prio && decide (a.age < b.age))

/-- Inserts a grid in the order of R253. -/
def insertGrid (e : Nat × Grid) : List (Nat × Grid) → List (Nat × Grid)
  | [] => [e]
  | x :: r => if e.2.comesBefore x.2 then e :: x :: r else x :: insertGrid e r

/-- Eligible grids of a context with clusters left to place, in order. -/
def State.dispatchOrder (s : State) (b ctx : Nat) : List (Nat × Grid) :=
  (s.grids.filter fun e =>
    e.2.live && e.2.part == b && e.2.ctx == ctx && e.2.st == .eligible && decide (e.2.placed < e.2.teams)).foldl
    (fun l e => insertGrid e l) []

/-- The first grid of the order that can be placed; a waiting co-resident grid ends the step. -/
def State.placeFirst (s : State) (b ctx : Nat) : List (Nat × Grid) → Option State
  | [] => none
  | (gid, g) :: r =>
    let x := Desc.of g.desc
    let pg := (s.part b).pgcfg
    if x.coresident && g.placed == 0 then
      ((s.pool b ctx).placeAll x pg b ctx (g.teams / x.cores)).map fun l =>
        l.foldl (fun t c => t.startCluster gid x false c) s
    else
      match (s.pool b ctx).placeCluster x pg b ctx with
      | some (_, c) => some (s.startCluster gid x false c)
      | none => s.placeFirst b ctx r

/-- dispatchStep. -/
def execDispatchStep (b : Nat) (s : State) : Host.Outcome State Fault Refusal :=
  let ctx := (s.part b).live
  if s.runsCtx b ctx then
    match s.placeFirst b ctx (s.dispatchOrder b ctx) with
    | some t => .next t
    | none => .fault .notEnabled
  else .fault .notEnabled

/-! Retirement (R256, R98). -/

/-- Whether a command, a walk or an intake entry of a team is left on its core. -/
def State.teamBusy (s : State) (tk : Nat) : Bool :=
  let t := s.team tk
  let c := s.core t.core
  c.queued.any (fun x => x.team == tk) || c.wcmds.any (fun x => x.team == tk) ||
    c.intake.any (fun e => e.hosted.isNone && e.team == tk) ||
    s.walks.any fun e => e.2.live && e.2.hosted.isNone && e.1 / 64 == t.core && e.2.team == tk

/-- The walks that a team hosts. -/
def State.hostedBy (s : State) (tk : Nat) : List Nat :=
  (s.walks.filter fun e => e.2.live && e.2.hosted.isSome && e.2.team == tk).map fun e => e.1

/-- Rings of a core that a team owns are unbound (R377). -/
def Core.unbindTeam (c : Core) (tk : Nat) : Core :=
  { c with rings := c.rings.map fun e =>
      if e.2.bound ∧ e.2.team = tk then (e.1, { e.2 with bound := false, unbinding := false }) else e }

/-- Chunks that a team's queues hold. -/
def Team.chunks (t : Team) : Nat := (t.cqs.map fun e => e.2.chunks.length).foldl (· + ·) 0

/-- A team returns its resources. -/
def State.retireTeam (s : State) (tk : Nat) : State :=
  let t := s.team tk
  let p := s.part t.part
  let s1 := (s.setPart t.part { p with cqfree := p.cqfree + t.chunks }).setCore t.core ((s.core t.core).unbindTeam tk)
  let s2 := s1.setTeam tk { t with live := false, cqs := [], sems := [] }
  let g := s2.grid t.grid
  let s3 := s2.setGrid t.grid { g with retired := g.retired + 1 }
  let c := s3.cluster t.cluster
  s3.setCluster t.cluster { c with live := c.teams.any fun k => (s3.team k).live }

/-- teamRetire: the walks that it hosts go home, those whose release is unanswered once it is answered, which holds nothing back
(R336, R337). -/
def execTeamRetire (team : Nat) (s : State) : Host.Outcome State Fault Refusal :=
  let t := s.team team
  if t.live && (s.liveGroups team).isEmpty && s.settles t.part (coreCtx t.core) &&
      (s.aborts t.part (coreCtx t.core) || !s.teamBusy team) then
    .next (((s.hostedBy team).foldl State.sendHome s).retireTeam team)
  else .fault .notEnabled

/-! The end of a grid (R249). -/

/-- The teams of a grid, retired ones too, and their groups. -/
def State.allTeams (s : State) (gid : Nat) : List Nat := (s.teams.filter fun e => e.2.grid == gid).map fun e => e.1
def State.allGroups (s : State) (gid : Nat) : List Nat := (s.allTeams gid).flatMap fun t => (s.team t).groups

/-- The requests of a grid that write (R249 step 1). -/
def Remote.writesFor (r : Remote) (gid : Nat) : Bool :=
  r.live && r.grid == gid && (r.loc == 0 || r.write.isSome || r.atomic.isSome)

/-- Whether every write of the grid is performed at system scope, but for those that only a read behind them shows (R249 step 1,
R394): no request of it is unanswered. -/
def State.gridQuiet (s : State) (gid : Nat) : Bool :=
  !(s.remotes.any fun e => e.2.writesFor gid && !e.2.posted)

/-- Whether such writes are left. -/
def State.gridPosts (s : State) (gid : Nat) : Bool := s.remotes.any fun e => e.2.writesFor gid

/-- The grid's outcome once its last team has retired. -/
def State.gridOutcome (s : State) (gid : Nat) : Option (Nat × Nat) :=
  let g := s.grid gid
  if g.live && (s.teamsOf gid).isEmpty then
    match g.st with
    | .ending st d => some (st, d)
    | .signalling => some (0, 0)
    | .eligible => if g.placed = g.teams ∧ g.retired = g.teams then some (0, 0) else none
    | _ => none
  else none

/-- Step 2: the status word; whether it was sent to the host or a peer, whose answer the grid awaits. -/
def State.storeStatus (s : State) (gid status detail : Nat) : State × Bool :=
  let g := s.grid gid
  let a := g.statusAt
  let bs := leBytes 8 (status + 256 * detail + 2 ^ 32 * g.tag.toNat)
  if a = 0 then (s, false)
  else if addrBad a then (s.droppedNotice gid a 3, false)
  else
    let x := s.dispXlate g.part g.ctx a Need.write
    match x with
    | .ok 0 pa _ leaf _ =>
      ((s.markLeaf x true).putKeyed (keyOf g.part leaf) [⟨pa, bs⟩], false)
    | .ok loc pa _ _ _ =>
      if s.reachable g.part loc pa then
        ((s.markLeaf x true).send (writeRequest g.part (.grid gid) loc pa bs (dispWord loc) a), true)
      else ((s.countRefused g.part).droppedNotice gid a loc, false)
    | .perm loc _ => (s.droppedNotice gid a loc, false)
    | _ => (s.droppedNotice gid a 3, false)

/-- The translation of the signal counter's address. -/
def State.signalXlate (s : State) (gid : Nat) : Xlat :=
  let g := s.grid gid
  s.dispXlate g.part g.ctx g.signalAt ⟨true, true, false, true, true, false, false⟩

/-- The lines of local memory that steps 2 and 3 write. -/
def State.endLines (s : State) (gid : Nat) : List Nat :=
  let g := s.grid gid
  let line (a : Nat) (x : Xlat) : List Nat := match x with
    | .ok 0 pa _ _ _ => if a = 0 ∨ addrBad a then [] else [pa / 128]
    | _ => []
  (if g.st = .signalling then [] else line g.statusAt (s.dispXlate g.part g.ctx g.statusAt Need.write)) ++
    (if g.noSignal then [] else line g.signalAt (s.signalXlate gid))

/-- Step 3: the signal counter. -/
def State.addSignal (s : State) (gid : Nat) : State :=
  let g := s.grid gid
  let a := g.signalAt
  if a = 0 then s
  else if addrBad a || g.noSignal then s.droppedNotice gid a 3
  else
    let x := s.signalXlate gid
    match x with
    | .ok 0 pa _ leaf _ =>
      if s.memPoisoned pa 8 then s.droppedNotice gid a 0
      else
        let k := keyOf g.part leaf
        let v := (leValue (s.readKeyed k pa 8) + 1) % 2 ^ 64
        (s.markLeaf x true).putKeyed k [⟨pa, leBytes 8 v⟩]
    | .ok loc _ _ _ _ => s.droppedNotice gid a loc
    | .perm loc _ => s.droppedNotice gid a loc
    | _ => s.droppedNotice gid a 3

/-- Step 4: the grid's place is free; nothing of its teams is left. -/
def State.dropGrid (s : State) (gid : Nat) : State :=
  let ts := s.allTeams gid
  let gs := s.allGroups gid
  { s with
    grids := Tbl.erase s.grids gid
    teams := s.teams.filter fun e => !ts.contains e.1
    groups := s.groups.filter fun e => !gs.contains e.1
    clusters := s.clusters.filter fun e => !(e.2.teams.any fun t => ts.contains t) }

/-- gridEnd: once the homes of the words it writes have taken every copy back (R297). -/
def execGridEnd (grid : Nat) (s : State) : Host.Outcome State Fault Refusal :=
  let g := s.grid grid
  match s.gridOutcome grid with
  | none => .fault .notEnabled
  | some (st, d) =>
    if s.settles g.part g.ctx && s.gridQuiet grid then
      if s.gridPosts grid then (if s.flushing g.part then .fault .notEnabled else .next (s.askFlush g.part))
      else
        s.atHomes (.grid grid) g.part (s.endLines grid) true id
          (let r := if g.st == .signalling then (s, false) else s.storeStatus grid st d
           .next (if r.2 then r.1.setGrid grid { r.1.grid grid with st := .signalling }
             else (r.1.addSignal grid).dropGrid grid))
    else .fault .notEnabled

end Sys2Proof.Machine
end

