-- ==== Sys2Proof/Machine/Pager.lean ====
section
/-! DEFINITION. The fault mailbox as the device serves it (R347-R350, R114), invalidations (R364) and machine-check registers
(R344). -/
namespace Sys2Proof.Machine

open Sys2Proof

/-! Posting (R347). -/

/-- Bytes 0x08 to 0x3F of a slot (R346). -/
def Mail.body (m : Mail) : List Byte :=
  leBytes 8 m.address.toNat ++ leBytes 4 m.access.toNat ++ leBytes 4 m.grid.toNat ++ leBytes 4 m.team.toNat ++
    leBytes 4 m.wher.toNat ++ leBytes 8 m.pc.toNat ++ leBytes 8 m.entry.toNat ++ leBytes 4 m.seqno.toNat ++
    List.replicate 12 0

/-- Word 0x04 of a posted slot: state 1, reply 0. -/
def Mail.head (m : Mail) : Nat := 1 + 256 * m.kind + 2 ^ 24 * m.level + 2 ^ 27 * m.reason

/-- Whether a slot is free for ticket n: state 0 and seq = n − 2^s. -/
def State.slotFree (s : State) (m : Mail) (p : MailAt) : Bool :=
  s.mailRead p 4 1 == 0 && s.mailRead p 0 4 == (m.ticket + 2 ^ 32 - 2 ^ m.size) % 2 ^ 32

/-- The words of a slot in the order of R347. -/
def Mail.puts (m : Mail) (pa : Nat) : List Put :=
  [⟨pa + 8, m.body⟩, ⟨pa, leBytes 4 m.ticket⟩, ⟨pa + 4, leBytes 4 m.head⟩]

/-- Supervisor groups of a context that are blocked in `halt` wake on a post (R114). -/
def State.wakeHalts (s : State) (b ctx : Nat) : State :=
  { s with groups := s.groups.map fun e =>
      let t := s.team e.2.team
      if e.2.live && e.2.sup && t.part == b && coreCtx t.core == ctx then (e.1, e.2.wakeWhere Parked.isHalt) else e }

def State.dropMail (s : State) (req : Nat) : State := { s with mails := Tbl.erase s.mails req }

def Parked.onMail (req : Nat) (q : Parked) : Bool := q.why == .mail req

/-- The grid of the requester that still waits for message req. -/
def State.mailGrid (s : State) (m : Mail) (req : Nat) : Option Nat :=
  match m.who with
  | .path g _ _ => if (s.group g).allParked.any (Parked.onMail req) then some (s.team (s.group g).team).grid else none
  | .copy c seq => ((s.core c).copyQ.find? fun x => x.seq == seq).map fun x => (s.team x.team).grid
  | .walk w => if (s.walk w).wait = .mail req then some (s.team (s.walk w).team).grid else none
  | .grid g => if (s.grid g).live then some g else none
  | _ => none

/-- A grid machine check against the requester's grid. -/
def State.mailCheck (s : State) (m : Mail) (req source : Nat) : State :=
  match s.mailGrid m req with
  | some g => s.gridCheck g source 0 m.address.toNat
  | none => s

/-- The message takes its ticket: `mbtail` is counted up at its home. -/
def State.reserve (s : State) (m : Mail) (req : Nat) (p : MailAt) : State :=
  let n := s.mailRead p 0 4
  (s.mailWrite p [⟨p.pa, leBytes 4 ((n + 1) % 2 ^ 32)⟩]).setMail req { m with reserved := true, ticket := n }

/-- The message stands in its slot: a notice expects no reply (R349). -/
def State.fillSlot (s : State) (m : Mail) (req : Nat) (p : MailAt) : State :=
  let s1 := (s.mailWrite p (m.puts p.pa)).wakeHalts m.part m.ctx
  if m.who == .notice then s1.dropMail req else s1.setMail req { m with posted := true }

/-- mailboxSlotWrite: the ticket, then, the slot free, the message; a mailbox that no longer translates is R350's. -/
def execMailboxSlotWrite (req : Nat) (s : State) : Host.Outcome State Fault Refusal :=
  let m := s.mail req
  let again (t : State) : State := t.post (.mailboxSlotWrite req)
  if m.live && !m.posted && s.runsCtx m.part m.ctx then
    match if m.reserved then s.slotAt m else s.mailAddr m.part m.ctx m.box with
    | none => .next ((s.mailCheck m req 6).dropMail req)
    | some p =>
      if !m.reserved then
        s.atHomes (.mail req) m.part [p.pa / 128] true again (.next (again (s.reserve m req p)))
      else if s.slotFree m p then
        s.atHomes (.mail req) m.part [p.pa / 128] true again (.next (s.fillSlot m req p))
      else .fault .notEnabled
  else .fault .notEnabled

/-! Replies (R348, R349). -/

/-- The PAGE_FAULT of a failed access. -/
def Mail.trap (m : Mail) (lane : Nat) : Trap :=
  ⟨causePage, m.access.toNat % 2 ^ 20, m.address.toNat, if lane < 32 then some lane else Option.none, Option.none⟩

/-- A path resumes; after a fail it takes its trap when it next runs. -/
def Group.mailWake (g : Group) (req : Nat) (t : Option Trap) : Group :=
  (g.mapParked fun q => if q.onMail req then { q with path := { q.path with failed := t } } else q).wakeWhere
    (Parked.onMail req)

/-- What dispatcher read a failed message was about (R246). -/
def Grid.faultDetail (g : Grid) (a : Nat) : Nat :=
  if g.st = .waiting then 1
  else if g.descAt ≤ a ∧ a < g.descAt + 128 then 0
  else if a = g.waitAt then 1
  else 2

/-- Reply 2. -/
def State.mailFail (s : State) (m : Mail) (req : Nat) : State :=
  match m.who with
  | .path g _ lane => if (s.group g).live then s.setGroup g ((s.group g).mailWake req (some (m.trap lane))) else s
  | .copy c seq =>
    match (s.core c).copyQ.find? fun x => x.seq == seq with
    | some x => s.failCopy c x 0 0 m.address.toNat
    | none => s
  | .walk w => if (s.walk w).wait = .mail req then s.walkFault w 5 else s
  | .grid g => if (s.grid g).live then s.failGrid g 4 ((s.grid g).faultDetail m.address.toNat) else s
  | _ => s

/-- Reply 1: the access is repeated; a copy, and a grid that is being checked, go on by themselves. -/
def State.mailRetry (s : State) (m : Mail) (req : Nat) : State :=
  match m.who with
  | .path g _ _ => if (s.group g).live then s.setGroup g ((s.group g).mailWake req none) else s
  | .walk w => if (s.walk w).wait = .mail req then s.setWalk w { s.walk w with wait := .ready } else s
  | .grid g => if (s.grid g).live && (s.grid g).st == .waiting then s.setGrid g { s.grid g with hit := true } else s
  | _ => s

/-- The slot is free again and the reply acts. -/
def State.takeReply (s : State) (m : Mail) (req : Nat) (p : MailAt) : State :=
  let reply := s.mailRead p 6 1
  let s1 := (s.mailWrite p [⟨p.pa + 4, leBytes 4 0⟩]).dropMail req
  if reply = 1 then s1.mailRetry m req else if reply = 2 then s1.mailFail m req else s1.mailCheck m req 5

/-- pagerReply: state 2 is observed, word 0x04 is set to 0, and the reply acts. -/
def execPagerReply (req : Nat) (s : State) : Host.Outcome State Fault Refusal :=
  let m := s.mail req
  if m.live && m.posted && s.runsCtx m.part m.ctx then
    match s.slotAt m with
    | none => .fault .notEnabled
    | some p =>
      if s.mailRead p 4 1 = 2 then
        s.atHomes (.mail req) m.part [p.pa / 128] true id (.next (s.takeReply m req p))
      else .fault .notEnabled
  else .fault .notEnabled

/-! Invalidations (R344, R364). -/

/-- tlbinvWrite: not performed until the queue has room. -/
def execTlbinvWrite (b : Nat) (v : DWord) (s : State) : Host.Outcome State Fault Refusal :=
  if tlbinvLegal v && !s.tlbRoom b then .fault .notEnabled else .next (s.tlbinv b v)

/-- Page size of a request. -/
def tlbinvSize (v : Nat) : Nat := if bits v 4 3 = 0 then 2 ^ 17 else if bits v 4 3 = 1 then 2 ^ 24 else 2 ^ 31

/-- Whether a request names an entry: its page, or everything. -/
def tlbinvNames (v : DWord) (e : TlbEnt) : Bool :=
  let n := v.toNat
  let size := tlbinvSize n
  bits n 1 0 == 1 ||
    (decide (n % 2 ^ 48 / size * size < e.page + e.size) && decide (e.page < n % 2 ^ 48 / size * size + size))

/-- The translation units of a partition context. -/
def State.unitsOf (s : State) (b ctx : Nat) : List Nat :=
  dispUnit (2 * b + ctx) :: (bandCores b ctx).flatMap s.coreUnits

/-- Entries that f names leave the units of a context. -/
def State.purge (s : State) (b ctx : Nat) (f : TlbEnt → Bool) : State :=
  let us := s.unitsOf b ctx
  { s with tlbs := s.tlbs.map fun e => if us.contains e.1 then (e.1, e.2.filter fun x => !f x) else e }

/-! Accesses under way at an invalidation (R189, R364). -/

/-- Whether an address was translated through an entry that a request names: it lies in the named page, or in the page of such an
entry of the partition. -/
def State.tlbinvReaches (s : State) (b : Nat) (v : DWord) (va : Nat) : Bool :=
  let size := tlbinvSize v.toNat
  bits v.toNat 1 0 == 1 || va / size == v.toNat % 2 ^ 48 / size ||
    (s.unitsOf b (s.part b).live).any fun u => (s.tlb u).any fun e =>
      tlbinvNames v e && decide (e.page ≤ va) && decide (va < e.page + e.size)

/-- The job that a message brings to a home. -/
def jobOf (i : Instr) : Option HomeJob :=
  match i with
  | .bstHomeWrite _ _ p => some p.job
  | .nearDataOp _ _ _ _ o => some o.job
  | _ => none

/-- Whether a store or `red` of a group has not reached its home: it is not sent, or its message is on its way. -/
def State.notHome (s : State) (req : Nat) (r : Remote) : Bool :=
  match r.who with
  | .store _ =>
    if r.loc = 0 then s.flight.any fun i => match jobOf i with
      | some j => j.req == req
      | none => false
    else !r.sent
  | _ => false

/-- The requests of a partition through named entries that are to be performed first. -/
def State.tlbinvOpen (s : State) (b : Nat) (v : DWord) : List (Nat × Remote) :=
  s.remotes.filter fun e =>
    e.2.live && e.2.part == b && !(e.2.who == .flush b) && s.tlbinvReaches b v e.2.va.toNat && !s.notHome e.1 e.2

/-- Where the tables put an access that they still permit, the leaf marked (R189, R360): location, address and key. -/
def State.recheck (s : State) (b va : Nat) (n : Need) : Option (State × Nat × Nat × Nat) :=
  let x := s.translate b (s.part b).live va n
  match x with
  | .ok loc pa _ leaf _ => some (s.markLeaf x true, loc, pa, keyOf b leaf)
  | _ => none

/-- What a write of access word tval needs; a `red` by its scope (R185, R361). -/
def againNeed (red : Bool) (tval : Word) : Need :=
  if red then { Need.both with atomic := true, sys := bits tval.toNat 5 3 == (Scope.code .s).toNat } else Need.write

/-- The group whose write a request is. -/
def Remote.storer (r : Remote) : Nat :=
  match r.who with
  | .store g => g
  | _ => 0

/-- The core of that group. -/
def State.storerCore (s : State) (r : Remote) : Nat := (s.team (s.group r.storer).team).core

/-- A request of a group whose page now lies on the host or a peer, to be sent there; refused where no path reaches it. -/
def State.sendElsewhere (s : State) (req : Nat) (r : Remote) : State :=
  if s.reachable r.part r.loc r.addr then
    s.setRemote req { r with sent := false, entry := if r.loc = 1 then Tbl.get 0 (s.part r.part).peermap (peerOf r.addr) else 0 }
  else ((s.dropRemote req).countRefused r.part).refuseStore r.storer r

/-- The bytes of a write whose page has moved go to the place where it lies now. -/
def State.movePut (s : State) (req : Nat) (r : Remote) (loc pa key : Nat) (bs : List Byte) : State :=
  let r1 := { r with loc := loc, addr := pa, n := bs.length, atomic := none }
  if loc = 0 then
    (s.setRemote req { r1 with write := none }).post
      (.bstHomeWrite (s.storerCore r) (pa / 128) ⟨[], ⟨req, 0, [⟨r.va.toNat, pa, key, bs⟩]⟩⟩)
  else s.sendElsewhere req { r1 with write := some bs }

/-- So does a `red`, if a path there carries it. -/
def State.moveRed (s : State) (req : Nat) (r : Remote) (loc pa key : Nat) (op : AtomOp) (size : Size) (operand : DWord) : State :=
  let r1 := { r with loc := loc, addr := pa, n := sizeBytes size, write := none }
  if loc = 0 then
    (s.setRemote req { r1 with atomic := none }).post
      (.nearDataOp (s.storerCore r) op size pa ⟨operand, ⟨req, key, []⟩⟩)
  else if s.carries r.part loc pa op true (if bits r.tval.toNat 5 3 = (Scope.code .s).toNat then .s else .d) then
    s.sendElsewhere req { r1 with atomic := some ⟨op, size, operand, 0⟩ }
  else (s.dropRemote req).refuseStore r.storer r

/-- A write that has not left is checked again: it stays, goes where its page lies now, or is discarded as a deferred fault
(R364). -/
def State.recheckUnsent (s : State) (b : Nat) (v : DWord) (req : Nat) (r : Remote) : State :=
  match r.who with
  | .store g =>
    if r.loc != 0 && s.notHome req r && s.tlbinvReaches b v r.va.toNat then
      match s.recheck b r.va.toNat (againNeed r.atomic.isSome r.tval) with
      | some (t, loc, pa, key) =>
        if loc = r.loc ∧ pa = r.addr then t
        else
          match r.atomic with
          | some x => t.moveRed req r loc pa key x.op x.size x.operand
          | none => t.movePut req r loc pa key (r.write.getD [])
      | none => (s.dropRemote req).refuseStore g r
    else s
  | _ => s

/-- A put of a `bst` on its way is checked again: whether it goes on with its line. -/
def State.recheckPut (s : State) (b : Nat) (v : DWord) (r : Remote) (p : HomePut) : State × Bool :=
  if s.tlbinvReaches b v p.va then
    let r1 := { r with va := BitVec.ofNat 48 p.va }
    match s.recheck b p.va Need.write with
    | some (t, loc, pa, key) =>
      if loc = 0 ∧ pa = p.pa then (t, true) else ((t.enter r1).movePut t.nextId { r1 with live := true } loc pa key p.data, false)
    | none => (s.refuseStore r.storer r1, false)
  else (s, true)

def State.recheckPuts (s : State) (b : Nat) (v : DWord) (r : Remote) : List HomePut → State × List HomePut
  | [] => (s, [])
  | p :: l =>
    let d := s.recheckPut b v r p
    let e := d.1.recheckPuts b v r l
    (e.1, if d.2 then p :: e.2 else e.2)

/-- A message on its way to a home, checked again: a `bst` keeps the writes that stay, and its pushes; a `red` goes on or
leaves. -/
def State.recheckMsg (s : State) (b : Nat) (v : DWord) (i : Instr) : State × List Instr :=
  match i with
  | .bstHomeWrite c line ⟨dests, j⟩ =>
    let r := s.remote j.req
    if r.live && r.part == b then
      let d := s.recheckPuts b v r j.puts
      (d.1, [.bstHomeWrite c line ⟨dests, { j with puts := d.2 }⟩])
    else (s, [i])
  | .nearDataOp _ op size addr ⟨operand, j⟩ =>
    let r := s.remote j.req
    if r.live && r.part == b && s.tlbinvReaches b v r.va.toNat then
      match s.recheck b r.va.toNat (againNeed true r.tval) with
      | some (t, loc, pa, key) => if loc = 0 ∧ pa = addr then (t, [i]) else (t.moveRed j.req r loc pa key op size operand, [])
      | none => ((s.dropRemote j.req).refuseStore r.storer r, [])
    else (s, [i])
  | _ => (s, [i])

/-- Everything that has not reached its home is checked again. -/
def State.recheckAll (s : State) (b : Nat) (v : DWord) : State :=
  let s1 := s.remotes.foldl (fun t e => t.recheckUnsent b v e.1 e.2) s
  s1.flight.foldl
    (fun t i =>
      let r := t.recheckMsg b v i
      { r.1 with flight := r.1.flight ++ r.2 }) { s1 with flight := [] }

/-- Whether an instruction of the partition that is under way still has an access to make through what a request names. -/
def State.tlbinvWaits (s : State) (b : Nat) (v : DWord) : Bool :=
  s.groups.any fun e =>
    e.2.live && (s.team e.2.team).part == b && e.2.run.under.any fun l => s.tlbinvReaches b v l.va

/-- tlbinvComplete: the oldest request, once the accesses through what it names are performed, those to the host shown by a read
behind them (R394). -/
def execTlbinvComplete (b : Nat) (s : State) : Host.Outcome State Fault Refusal :=
  let p := s.part b
  match p.tlbq with
  | [] => .fault .notEnabled
  | v :: r =>
    match s.tlbinvOpen b v with
    | [] =>
      let t := s.recheckAll b v
      if s.tlbinvWaits b v then .fault .notEnabled
      else .next ((t.setPart b { t.part b with tlbq := r, tlbdone := p.tlbdone + 1 }).purge b p.live (tlbinvNames v))
    | open_ =>
      if (open_.all fun e => e.2.posted) && !s.flushing b then .next (s.askFlush b)
      else .fault .notEnabled

/-! Machine-check registers. -/

/-- mcstatWrite: whatever the value (R344). -/
def execMcstatWrite (b : Nat) (v : Word) (s : State) : Host.Outcome State Fault Refusal :=
  let _ := v
  .next (s.mcstatClear b)

end Sys2Proof.Machine
end

