-- ==== Sys2Proof/Machine/Sha.lean ====
section
/-! DEFINITION. SHA-256, which the spec names and does not restate (R406, R409; log 14). -/
namespace Sys2Proof.Machine

open Sys2Proof

/-- Round constants. -/
def shaK : List Word :=
  [0x428A2F98, 0x71374491, 0xB5C0FBCF, 0xE9B5DBA5, 0x3956C25B, 0x59F111F1, 0x923F82A4, 0xAB1C5ED5,
    0xD807AA98, 0x12835B01, 0x243185BE, 0x550C7DC3, 0x72BE5D74, 0x80DEB1FE, 0x9BDC06A7, 0xC19BF174] ++
  [0xE49B69C1, 0xEFBE4786, 0x0FC19DC6, 0x240CA1CC, 0x2DE92C6F, 0x4A7484AA, 0x5CB0A9DC, 0x76F988DA,
    0x983E5152, 0xA831C66D, 0xB00327C8, 0xBF597FC7, 0xC6E00BF3, 0xD5A79147, 0x06CA6351, 0x14292967] ++
  [0x27B70A85, 0x2E1B2138, 0x4D2C6DFC, 0x53380D13, 0x650A7354, 0x766A0ABB, 0x81C2C92E, 0x92722C85,
    0xA2BFE8A1, 0xA81A664B, 0xC24B8B70, 0xC76C51A3, 0xD192E819, 0xD6990624, 0xF40E3585, 0x106AA070] ++
  [0x19A4C116, 0x1E376C08, 0x2748774C, 0x34B0BCB5, 0x391C0CB3, 0x4ED8AA4A, 0x5B9CCA4F, 0x682E6FF3,
    0x748F82EE, 0x78A5636F, 0x84C87814, 0x8CC70208, 0x90BEFFFA, 0xA4506CEB, 0xBEF9A3F7, 0xC67178F2]

def shaInit : List Word := [0x6A09E667, 0xBB67AE85, 0x3C6EF372, 0xA54FF53A, 0x510E527F, 0x9B05688C, 0x1F83D9AB, 0x5BE0CD19]

def ror32 (x : Word) (n : Nat) : Word := x >>> n ||| x <<< (32 - n)

/-- A big-endian word. -/
def beWord : List Byte → Word
  | [] => 0
  | b :: r => b.setWidth 32 <<< (8 * r.length) ||| beWord r

def beBytes32 (w : Word) : List Byte := [w.extractLsb' 24 8, w.extractLsb' 16 8, w.extractLsb' 8 8, w.extractLsb' 0 8]

/-- The words of a block. -/
def shaWords (bs : List Byte) : Nat → List Word
  | 0 => []
  | n + 1 => beWord (bs.take 4) :: shaWords (bs.drop 4) n

/-- The message schedule, newest word first. -/
def shaSchedule (l : List Word) : Nat → List Word
  | 0 => l
  | n + 1 =>
    let a := nthD 0 l 14
    let b := nthD 0 l 1
    let s0 := ror32 a 7 ^^^ ror32 a 18 ^^^ a >>> 3
    let s1 := ror32 b 17 ^^^ ror32 b 19 ^^^ b >>> 10
    shaSchedule ((nthD 0 l 15 + s0 + nthD 0 l 6 + s1) :: l) n

/-- One round on a to h. -/
def shaRound (s : List Word) (kw : Word) : List Word :=
  match s with
  | [a, b, c, d, e, f, g, h] =>
    let t1 := h + (ror32 e 6 ^^^ ror32 e 11 ^^^ ror32 e 25) + ((e &&& f) ^^^ (~~~e &&& g)) + kw
    let t2 := (ror32 a 2 ^^^ ror32 a 13 ^^^ ror32 a 22) + ((a &&& b) ^^^ (a &&& c) ^^^ (b &&& c))
    [t1 + t2, a, b, c, d + t1, e, f, g]
  | l => l

def shaBlock (st : List Word) (bs : List Byte) : List Word :=
  let w := (shaSchedule (shaWords bs 16).reverse 48).reverse
  let out := ((shaK.zip w).map fun e => e.1 + e.2).foldl shaRound st
  (st.zip out).map fun e => e.1 + e.2

def shaBlocks (st : List Word) (bs : List Byte) : Nat → List Word
  | 0 => st
  | n + 1 => shaBlocks (shaBlock st (bs.take 64)) (bs.drop 64) n

/-- The digest, byte 0 first. -/
def sha256 (bs : List Byte) : List Byte :=
  let n := bs.length
  let pad := (119 - n % 64) % 64
  let m := bs ++ 0x80 :: List.replicate pad 0 ++ (leBytes 8 (8 * n)).reverse
  (shaBlocks shaInit m (m.length / 64)).flatMap beBytes32

end Sys2Proof.Machine
end

