-- ==== Sys2Proof/Machine/Partition.lean ====
section
/-! DEFINITION. Partition commands (R402): assignment, release and reset, the launch of a pager (R345, R354), and
measurements (R409). -/
namespace Sys2Proof.Machine

open Sys2Proof

/-! Measurements (R409). -/

/-- `fwmr` m := SHA-256(`fwmr` m ‖ D), byte 0 of the digest at the register's lowest address. -/
def Mgmt.extend (m : Mgmt) (k : Nat) (d : List Byte) : Mgmt :=
  let old := Tbl.get 0 m.fwmr k
  { m with fwmr := Tbl.set 0 m.fwmr k (BitVec.ofNat 256 (leValue (sha256 (leBytes 32 old.toNat ++ d)))) }

def State.extend (s : State) (k : Nat) (d : List Byte) : State := s.setMgmt (s.mgmt.extend k d)

/-! Emptying contexts (R353, R402). -/

/-- The L1s of a partition context lose their lines: notices for E and M, clean copies silently (R302). -/
def State.cleanL1 (s : State) (b ctx : Nat) : State :=
  (bandCores b ctx).foldl
    (fun t cid =>
      let c := t.core cid
      if c.l1.isEmpty then t
      else
        c.l1.foldl
          (fun u e => match e.st with
            | .e => u.post (.homeEvictionNotice cid e.line false)
            | .m => u.post (.homeEvictionNotice cid e.line true)
            | _ => u) (t.setCore cid { c with l1 := [] })) s

def quadPart (qk : Nat) : Nat := qk % 64 / 16

/-- Whether an error lies in state of a partition's cores. -/
def State.poisonOf (s : State) (b : Nat) (e : Poison) : Bool :=
  let ofGroup (g : Nat) : Bool := (s.team (s.group g).team).part == b
  match e with
  | .mem _ => false
  | .scr c _ => corePart c == b
  | .vreg g _ _ => ofGroup g
  | .win g _ _ => ofGroup g
  | .sreg g _ => ofGroup g
  | .preg g _ => ofGroup g
  | .tile c _ => corePart c == b
  | .stage q => quadPart q == b
  | .control g => ofGroup g
  | .walker w => corePart (w / 64) == b
  | .shadow k => k / 2 == b
  | .l1 c _ => corePart c == b
  | .l2 _ => false
  | .node _ => false
  | .copy _ => false
  | .sem t _ => (s.team t).part == b
  | .locks c => corePart c == b
  | .queue c => corePart c == b

/-- Both contexts of a partition as contexts that have never run: nothing of their cores, engines, Walkers, grids and
messages is left. With the cores' records go `%specmiss` and the sequence counters, which then read 0: DESIGN CHOICE, R353
and R402 give an emptied context no value of them (log 3). -/
def State.emptyPart (s : State) (b : Nat) : State :=
  let s0 := (s.cleanL1 b 0).cleanL1 b 1
  let ofTeam (t : Nat) : Bool := (s.team t).part == b
  { s0 with
    groups := s0.groups.filter fun e => !ofTeam e.2.team
    teams := s0.teams.filter fun e => !(e.2.part == b)
    clusters := s0.clusters.filter fun e => !(e.2.teams.any ofTeam)
    cores := s0.cores.filter fun e => !(corePart e.1 == b)
    quads := s0.quads.filter fun e => !(quadPart e.1 == b)
    walks := s0.walks.filter fun e => !(corePart (e.1 / 64) == b)
    grids := s0.grids.filter fun e => !(e.2.part == b)
    ctxs := Tbl.erase (Tbl.erase s0.ctxs (2 * b)) (2 * b + 1)
    mails := s0.mails.filter fun e => !(e.2.part == b)
    remotes := s0.remotes.filter fun e => !(e.2.part == b)
    poison := s0.poison.filter fun e => !s.poisonOf b e
    flight := s0.flight.filter fun i => match i with
      | .mailboxSlotWrite r => !((s.mail r).part == b)
      | .bstHomeWrite c _ _ => !(corePart c == b)
      | .nearDataOp c _ _ _ _ => !(corePart c == b)
      | _ => true
    tlbs := s0.tlbs.filter fun e => !((s.unitsOf b 0 ++ s.unitsOf b 1).contains e.1) }

/-- The live grids of a partition. -/
def State.gridsAll (s : State) (b : Nat) : List Nat := s.gridsOf b 0 ++ s.gridsOf b 1

/-- The walks that a partition hosts go home (R337). -/
def State.hostedHome (s : State) (b : Nat) : State :=
  let s1 := (s.walks.filter fun e => e.2.live && e.2.hosted.isSome && corePart (e.1 / 64) == b).foldl
    (fun t e => t.sendHome e.1) s
  s1.cores.foldl (fun t c => if corePart c.1 = b then c.2.intake.foldl (fun u e => u.returnEntry c.1 e) t else t) s1

/-- Every sector of the range written with 0 (R402). -/
def State.scrub (s : State) (b : Nat) : State :=
  if s.confidential b then s.clearRegion (s.partBase b) (s.partSize b) else s

def Queue.disabled (q : Queue) : Queue := { q with ctl := q.ctl &&& 0x301F, stat := 0, served := [] }

/-- All eight queues disabled, which clears their `lqstat` (R243). -/
def State.disableQueues (s : State) (b : Nat) : State :=
  s.setPart b { s.part b with queues := (s.part b).queues.map fun e => (e.1, e.2.disabled) }

/-! Pager cores and the pager grid (R345, R354, R402). -/

def Part.pagers (p : Part) : Nat := bits p.pacfg.toNat 9 8

/-- `pgcfg` for a number of pager cores. -/
def pgcfgOf (b n : Nat) : Word :=
  BitVec.ofNat 32 ((if 1 ≤ n then 256 + 4 * b else 0) + if 2 ≤ n then 2 ^ 24 + 65536 * (4 * b + 3) else 0)

inductive Boot where
  | bad
  | ask (asks : List Ask)
  | ok (rec_ desc : List DWord)

/-- What the launch of a pager has read: the translations it made, whether a path could not carry a read (R399), and what came of
it. -/
structure BootDone where
  xs : List (Nat × Xlat)
  refused : Bool
  r : Boot

/-- What the reads leave: the leaves marked (R360), a refused read counted (R399). -/
def State.bootSeen (s : State) (b ctx : Nat) (d : BootDone) : State :=
  let t := s.dispTouched (.grid 0) b ctx d.xs
  if d.refused then t.countRefused b else t

/-- The pager record at `paimg` and its descriptor, checked under R402: R246 steps 1 to 5 but for its wait counter, a 1×1
cluster, one team for each pager core, each fitting on an empty core. No L1 of the partition holds a line then, so that no home
has a copy to take back. -/
def State.bootRead (s : State) (b ctx : Nat) : BootDone :=
  let p := s.part b
  let at_ := p.paimg.toNat
  if Config.fittedGiB * 2 ^ 30 < at_ + 64 ∨ s.memPoisoned at_ 64 then ⟨[], false, .bad⟩
  else
    let g := { Grid.none with part := b, ctx := ctx, rec_ := dwordsOf (s.readKeyed 0 at_ 64) 8 }
    if (g.recordBad true).isSome then ⟨[], false, .bad⟩
    else
      let d := { s with dir := [] }.dispRead2 (.grid 0) b ctx g.descAt 64 p.served
      match d.r with
      | .ask asks => ⟨d.xs, false, .ask asks⟩
      | .noPath => ⟨d.xs, true, .bad⟩
      | .bytes bs =>
        let desc := dwordsOf bs 16
        let x := Desc.of desc
        let signalOk := g.signalAt == 0 || match s.dispXlate b ctx g.signalAt Need.read with
          | .ok loc _ _ leaf _ => !counterBad loc leaf
          | _ => false
        if signalOk && (descBad desc).isNone && x.cores == 1 && g.teams == p.pagers && (CoreRes.empty.place x).isSome then
          ⟨d.xs, false, .ok g.rec_ desc⟩
        else ⟨d.xs, false, .bad⟩
      | _ => ⟨d.xs, false, .bad⟩

/-- The pager grid starts at priority 3, one supervisor team on each pager core. -/
def State.bootStart (s : State) (b ctx : Nat) (r desc : List DWord) : State :=
  let gid := s.nextId
  let x := Desc.of desc
  let s1 := s.newGrid b ctx r 3
  let s2 := s1.setGrid gid { s1.grid gid with prio := 3, desc := desc, st := .eligible, pager := true }
  match CoreRes.empty.place x with
  | none => s2
  | some (_, at_) =>
    (([4 * b, 4 * b + 3]).take (s.part b).pagers).foldl
      (fun t lx => t.startCluster gid x true { x0 := lx, y0 := 0, teams := [(coreOf ctx lx 0, at_)] }) s2

/-! Assignment. -/

def State.paError (s : State) (b e : Nat) : State := s.setPart b { s.part b with paerr := e, served := [] }

/-- Whether the ranges of two partitions meet. -/
def State.rangesMeet (s : State) (b c : Nat) : Bool :=
  decide (s.partBase b < s.partBase c + s.partSize c) && decide (s.partBase c < s.partBase b + s.partSize b)

/-- Errors of an assignment before its pager record is read. -/
def State.assignError (s : State) (b : Nat) : Option Nat :=
  let p := s.part b
  if Config.fittedGiB * 2 ^ 30 < s.partBase b + s.partSize b ||
      (List.range 4).any (fun c => c != b && (s.part c).pastat != 0 && s.rangesMeet b c) then some 1
  else if s.poolSize b = 0 ∨ s.partSize b ≤ s.poolSize b then some 2
  else if s.confidential b && (p.key.isNone || !Tbl.get false s.mgmt.ide (bits p.pacfg.toNat 5 4)) then some 3
  else if p.pagers = 3 then some 6
  else none

/-- Steps 1 to 4 of an assignment. -/
def State.assignBase (s : State) (b : Nat) : State :=
  let s1 := s.emptyPart b
  let p := s1.part b
  (s1.setPart b
    { p with
      pushref := [], pushins := [], mccount := 0, pgcfg := pgcfgOf b p.pagers, live := 0, swap := none
      cqfree := p.papool.toNat % 65536 }).scrub b

/-- Step 6; context 0 has run. -/
def State.assigned (s : State) (b : Nat) : State :=
  let s1 := s.setCtx (2 * b) { s.ctx (2 * b) with hasRun := true, resumed := s.now }
  s1.setPart b { s1.part b with pastat := 2, paerr := 0, served := [] }

/-- What an assignment is measured by (R409). -/
def State.assignData (s : State) (b : Nat) : List Byte :=
  let p := s.part b
  leBytes 4 p.pacfg.toNat ++ leBytes 4 p.pamem.toNat ++ leBytes 4 p.papool.toNat

def dwordBytes (l : List DWord) : List Byte := l.flatMap fun w => leBytes 8 w.toNat

/-- partitionAssign; one that fails changes nothing but `pastat`, so that what its reads leave comes only when it succeeds. -/
def execPartitionAssign (b : Nat) (s : State) : Host.Outcome State Fault Refusal :=
  if s.mgmt.fwstate ≠ 4 ∨ s.asked (.boot b) = true then .fault .notEnabled
  else if (s.part b).pastat ≠ 0 then .next (s.paError b 7)
  else
    match s.assignError b with
    | some e => .next (s.paError b e)
    | none =>
      let s1 := s.assignBase b
      if (s.part b).pagers = 0 then .next ((s1.assigned b).extend (4 + b) (s.assignData b))
      else
        let d := s1.bootRead b 0
        match d.r with
        | .bad => .next (s.paError b 4)
        | .ask asks => .next ((s.askAll b (fun _ => .boot b) asks).post (.partitionAssign b))
        | .ok r desc =>
          .next ((((s1.bootSeen b 0 d).bootStart b 0 r desc).assigned b).extend (4 + b)
            (s.assignData b ++ dwordBytes r ++ dwordBytes desc))

/-! Release and reset. -/

/-- Firmware ends every grid of both contexts with LAUNCH_ABORTED and sends the walks that the partition hosts home; nothing of it
runs on, a swap neither, and the grids' updates follow under R249. -/
def State.closePart (s : State) (b : Nat) : State :=
  let s1 := (s.gridsAll b).foldl State.abortGrid (s.setPart b { s.part b with closing := true, swap := none })
  let s2 := s1.hostedHome b
  { s2 with cores := s2.cores.map fun c =>
      if corePart c.1 = b then (c.1, { c.2 with intake := c.2.intake.filter fun e => e.hosted.isNone }) else c }

/-- Whether they have ended: no grid is left, and no walk that waits for the answer to its release (R337). -/
def State.closed (s : State) (b : Nat) : Bool :=
  (s.gridsAll b).isEmpty &&
    !(s.walks.any fun e => e.2.live && e.2.hosted.isSome && corePart (e.1 / 64) == b)

/-- What is left when they have: both contexts emptied, the range scrubbed, the queues disabled. -/
def State.cleared (s : State) (b : Nat) : State := ((s.emptyPart b).scrub b).disableQueues b

/-- A partition of which firmware ends the grids: the command goes on once they have ended. -/
def State.afterGrids (s : State) (b : Nat) (cmd : Instr) (k : Host.Outcome State Fault Refusal) :
    Host.Outcome State Fault Refusal :=
  if (s.part b).closing then if s.closed b then k else .fault .notEnabled
  else .next ((s.closePart b).post cmd)

/-- partitionRelease. -/
def execPartitionRelease (b : Nat) (s : State) : Host.Outcome State Fault Refusal :=
  let p := s.part b
  if s.mgmt.fwstate ≠ 4 then .fault .notEnabled
  else if p.closing = false ∧ p.pastat ≠ 2 then .next (s.paError b 7)
  else if p.closing = false ∧ ((s.gridsAll b).any fun g => !(s.grid g).pager) = true then .next (s.paError b 5)
  else
    let s1 := s.cleared b
    s.afterGrids b (.partitionRelease b)
      (.next ((s1.setPart b
        { s1.part b with
          pastat := 0, paerr := 0, ptbase0 := 0, ptbase1 := 0, swap := none, closing := false, live := 0, key := none, keyGen := false
          tlbq := [], served := [] }).extend (4 + b) [0xFF, 0xFF, 0xFF, 0xFF]))

/-- A reset up to the launch of the pager: the partition is stopped. -/
def State.resetBase (s : State) (b : Nat) : State :=
  let s1 := s.cleared b
  let p := s1.part b
  s1.setPart b
    { p with pgcfg := pgcfgOf b p.pagers, live := 0, swap := none, cqfree := p.papool.toNat % 65536, pastat := 3 }

/-- The end of a reset. -/
def State.opened (s : State) (b : Nat) : State := s.setPart b { s.part b with closing := false }

/-- The launch of the pager of a partition that was reset; one that cannot be launched leaves it stopped. -/
def State.relaunch (s : State) (b : Nat) : State :=
  let s1 := s.resetBase b
  if (s.part b).pagers = 0 then (s1.assigned b).opened b
  else
    let d := s1.bootRead b 0
    let s2 := s1.bootSeen b 0 d
    match d.r with
    | .bad => (s2.paError b 4).opened b
    | .ask asks => (s2.askAll b (fun _ => .boot b) asks).post (.partitionReset b)
    | .ok r desc => ((s2.bootStart b 0 r desc).assigned b).opened b

/-- partitionReset. -/
def execPartitionReset (b : Nat) (s : State) : Host.Outcome State Fault Refusal :=
  if s.mgmt.fwstate ≠ 4 ∨ s.asked (.boot b) = true then .fault .notEnabled
  else if (s.part b).pastat = 0 then .next (s.paError b 7)
  else s.afterGrids b (.partitionReset b) (.next (s.relaunch b))

end Sys2Proof.Machine
end

