-- ==== Sys2Proof/Machine/Relay.lean ====
section
/-! DEFINITION. Relay messages received (R332-R338), the check of peers (R398) and link failures (R303, R338, R397). -/
namespace Sys2Proof.Machine

open Sys2Proof

/-! Peers (R397, R398). -/

def State.peerEntry (s : State) (b d : Nat) : Word := Tbl.get 0 (s.part b).peermap d

/-- Whether a request from partition a of device d may come by this port: it runs UALinkSec where that is required. -/
def State.peerAllowed (s : State) (b d a port : Nat) : Bool :=
  let e := s.peerEntry b d
  e.getLsbD 0 && bits e.toNat 2 1 == a && e.getLsbD (4 + port) && decide (port < 4) &&
    (Tbl.get false s.mgmt.ualSec port || !(e.getLsbD 9 || s.confidential b))

def State.countPeerRej (s : State) (b d : Nat) : State :=
  s.setPart b { s.part b with peerrej := Tbl.set 0 (s.part b).peerrej d (bump (Tbl.get 0 (s.part b).peerrej d)) }

/-! Finding the walk of a message. -/

/-- Core of an index of R301 in a context of partition b. -/
def coreAt (b ctx i : Nat) : Nat := coreOf ctx (4 * b + i / 15) (i % 15)

/-- The origin's context that a message names, when its serial is the context's. -/
def State.originWalk (s : State) (b : Nat) (m : RelayMsg) : Option Nat :=
  let w := 64 * coreAt b (s.part b).live m.core + m.ctx
  let x := s.walk w
  if x.live && x.hosted.isNone && x.serial == m.serial && m.device == s.mgmt.devnum.toNat % 8 && m.part == b then some w
  else none

def Origin.of (m : RelayMsg) : Origin :=
  { device := m.device, part := m.part, core := m.core, ctx := m.ctx, queue := m.queue, team := m.team, group := m.group,
    lane := m.lane, serial := m.serial }

/-- Whether an origin is the one that a message names. -/
def Origin.matches (o : Origin) (m : RelayMsg) : Bool :=
  o.device == m.device && o.part == m.part && o.core == m.core && o.ctx == m.ctx && o.serial == m.serial

/-- The context that hosts the walk of a message. -/
def State.hostedAt (s : State) (b : Nat) (m : RelayMsg) : Option Nat :=
  (s.walks.find? fun e => e.2.live && corePart (e.1 / 64) == b && match e.2.hosted with
    | some o => o.matches m
    | none => false).map fun e => e.1

def Intake.isOf (e : Intake) (m : RelayMsg) : Bool :=
  match e.hosted with
  | some (o, _) => o.matches m
  | none => false

/-- The intake entry that holds the walk of a message, with its core. -/
def State.hostedEntry (s : State) (b : Nat) (m : RelayMsg) : Option (Nat × Intake) :=
  (s.cores.filterMap fun c =>
    if corePart c.1 = b then (c.2.intake.find? fun e => e.isOf m).map fun e => (c.1, e) else none).head?

def State.dropEntry (s : State) (cid : Nat) (e : Intake) : State :=
  s.setCore cid { s.core cid with intake := (s.core cid).intake.filter fun x => x != e }

/-- Answers a message to the partition that sent it: by the pair's port, or, DEDUCED, by the one it came by where the pair has none
(log 73). -/
def State.reply (s : State) (b type : Nat) (m : RelayMsg) (answer : Nat) : State :=
  s.sendBytes b m.src m.srcPart ((s.pathFor b m.src).getD m.port) (messageBytes type (usedBy type { m with answer := answer }))

/-! Ends of relayed walks at the origin. -/

/-- A group that cancels the walk in context w need not wait for it any more; the walk itself ends by another way. -/
def State.ackCancel (s : State) (w : Nat) (counted : Bool) : State :=
  let t := s.team (s.walk w).team
  (t.groups.foldl (fun u g => u.setGroup g ((u.group g).cancelAck w counted)) s).setWalk w
    { s.walk w with cancel := false }

/-- An away or waiting walk ends with a fault record, and nothing that its run held or sent is appended (R338); a cancelled
one ends as cancelled. -/
def State.endAway (s : State) (w cause reason : Nat) : State :=
  if (s.walk w).cancel then s.cancelEnded w true
  else (s.setWalk w { s.walk w with emits := [] }).release w (.fault cause reason (s.walk w).wordIndex)

/-- The walk at the origin that a message from its peer is about. -/
def State.awayWalk (s : State) (b : Nat) (m : RelayMsg) : Option Nat :=
  match s.originWalk b m with
  | some w => if (s.walk w).relayed = some m.src then some w else none
  | none => none

/-- A message that fails R398 is counted and has the effect of a link failure for its walk (R338). -/
def State.refuseMessage (s : State) (b : Nat) (m : RelayMsg) (toOrigin : Bool) : State :=
  let s1 := s.countPeerRej b m.src
  if toOrigin then
    match s1.awayWalk b m with
    | some w => s1.endAway w 0x30 7
    | none => s1
  else
    match s1.hostedAt b m, s1.hostedEntry b m with
    | some w, _ => s1.freeWalk w
    | none, some (c, e) => s1.dropEntry c e
    | none, none => s1

/-- A message to the origin: checked under R398, then handled by f for the walk that is on its sender; others are discarded. -/
def State.atOrigin (s : State) (b : Nat) (m : RelayMsg) (f : Nat → State) : Host.Outcome State Fault Refusal :=
  if s.peerAllowed b m.src m.srcPart m.port then
    match s.awayWalk b m with
    | none => .next s
    | some w => .next (f w)
  else .next (s.refuseMessage b m true)

/-- A message to the peer, checked under R398. -/
def State.atPeer (s : State) (b : Nat) (m : RelayMsg) (f : State) : Host.Outcome State Fault Refusal :=
  if s.peerAllowed b m.src m.srcPart m.port then .next f else .next (s.refuseMessage b m false)

/-! Messages to the peer. -/

/-- The next core, round robin, that holds a team with the tag (R336) and whose intake of 1024 entries has room beside the walks
that wait to enter it (R316). -/
def State.hostCore (s : State) (b : Nat) (tag : Word) : Option Nat :=
  ((List.range 60).filterMap fun i =>
    let k := ((s.part b).hostTurn + i) % 60
    let c := coreAt b (s.part b).live k
    if (s.hostTeam c tag).isSome && decide ((s.core c).intakeLoad < 1024) then some k else none).head?

/-- Whether a save of the partition has begun: what it hosts goes home (R331). -/
def State.saving (s : State) (b : Nat) : Bool :=
  match (s.part b).swap with
  | some n => decide (2 ≤ n)
  | none => false

/-- Hosted walks in the intakes of a partition. -/
def State.hostedLoad (s : State) (b : Nat) : Nat :=
  (s.cores.map fun c => if corePart c.1 = b then (c.2.intake.filter fun e => e.hosted.isSome).length else 0).foldl (· + ·) 0

/-- The answer to a walk message and the state after it (R332, R336): one that arrives during a save is accepted and goes home with
the body it arrived with (R331, R337). Its arrival counts as its last system-scope acquire: DEDUCED, its launching group's acquire
came before it (R274, log 73). -/
def State.acceptWalk (s : State) (b : Nat) (m : RelayMsg) : State :=
  let p := s.part b
  let own := Tbl.get Prog.none (s.ctx (2 * b + p.live)).progs m.program
  if !(Tbl.get 0 p.rlyctl m.program).getLsbD 0 then s.reply b 2 m 0x20
  else if own.words = 0 ∨ own.code.setWidth 64 ≠ m.code ∨ own.words ≠ m.words then s.reply b 2 m 0x21
  else
    match s.hostCore b (Tbl.get 0 p.rlyhost m.program), m.body with
    | some k, some body =>
      if 256 ≤ s.hostedLoad b then s.reply b 2 m 1
      else
        let cid := coreAt b p.live k
        let e : Intake :=
          { query := 0, team := 0, group := 0, lane := m.lane, queue := m.queue, seq := 0, pid := m.program, prog := own,
            acq := s.now, hosted := some (Origin.of m, body) }
        let s1 := (s.setPart b { p with hostTurn := (k + 1) % 60 }).reply b 2 m 0
        if s.saving b then s1.returnEntry cid e
        else s1.setCore cid { s1.core cid with intake := (s1.core cid).intake ++ [e] }
    | _, _ => s.reply b 2 m 1

/-- relayWalk. -/
def execRelayWalk (b : Nat) (r : RelayIn) (s : State) : Host.Outcome State Fault Refusal :=
  RelayIn.read r 1 b s fun s m =>
    if s.peerAllowed b m.src m.srcPart m.port then .next (s.acceptWalk b m)
    else .next ((s.countPeerRej b m.src).reply b 2 m 7)

/-- Goes home with the checkpoint that an answer left standing (R337). -/
def State.goHome (s : State) (w : Nat) (a : After) (appended : Bool) : State :=
  if appended then
    let s1 := (s.performed w a).1
    if (s1.walk w).live then s1.endWalk w 10 { s1.walkMsg w with body := some (s1.walk w).cp } else s1
  else s.endWalk w 10 { s.walkMsg w with body := some (s.walk w).cp }

/-- relayReleaseAnswer: appended or full (R336); of a walk that goes home, as one that relays does, a full answer leaves the
checkpoint before it (R337). -/
def execRelayReleaseAnswer (b : Nat) (r : RelayIn) (s : State) : Host.Outcome State Fault Refusal :=
  RelayIn.read r 4 b s fun s m =>
    s.atPeer b m
      (match s.hostedAt b m with
      | none => s
      | some w =>
        match (s.walk w).wait with
        | .released a false =>
          if m.answer = 0 then s.orFault w (s.performed w a)
          else if a = .home then s.goHome w a false
          else s.setWalk w { s.walk w with wait := .released a true }
        | .goHome a => s.goHome w a (m.answer == 0)
        | _ => s)

/-- relayRoom: the release is sent again. -/
def execRelayRoom (b : Nat) (r : RelayIn) (s : State) : Host.Outcome State Fault Refusal :=
  RelayIn.read r 5 b s fun s m =>
    s.atPeer b m
      (match s.hostedAt b m with
      | none => s
      | some w =>
        let x := s.walk w
        match x.wait with
        | .released a true =>
          (s.setWalk w { x with wait := .released a false }).sendRelay b 3 m.device { s.walkMsg w with recs := x.emits }
        | _ => s)

/-- relayRecall: held records are discarded and the walk goes home (R337). -/
def execRelayRecall (b : Nat) (r : RelayIn) (s : State) : Host.Outcome State Fault Refusal :=
  RelayIn.read r 8 b s fun s m =>
    s.atPeer b m
      (match s.hostedAt b m, s.hostedEntry b m with
      | some w, _ => s.sendHome w
      | none, some (c, e) => (s.dropEntry c e).returnEntry c e
      | none, none => s)

/-- relayCancel: the walk is discarded, or is not present. -/
def execRelayCancel (b : Nat) (r : RelayIn) (s : State) : Host.Outcome State Fault Refusal :=
  RelayIn.read r 9 b s fun s m =>
    s.atPeer b m
      (match s.hostedAt b m, s.hostedEntry b m with
      | some w, _ => (s.freeWalk w).reply b 11 m 0
      | none, some (c, e) => (s.dropEntry c e).reply b 11 m 0
      | none, none => s.reply b 11 m 1)

/-! Messages to the origin. -/

/-- relayWalkAnswer: accepted, busy, or rejected (R336); a walk accepted while a save is under way is recalled (R331). -/
def execRelayWalkAnswer (b : Nat) (r : RelayIn) (s : State) : Host.Outcome State Fault Refusal :=
  RelayIn.read r 2 b s fun s m =>
    s.atOrigin b m fun w =>
      let x := s.walk w
      match x.wait with
      | .answer d =>
        if m.answer = 0 then
          let s1 := s.setWalk w { x with wait := .away d }
          if (s.part b).swap == some 2 || (s.part b).swap == some 3 then s1.sendRelay b 8 d (s1.walkMsg w) else s1
        else if m.answer = 1 then
          if x.cancel then s.cancelEnded w true else s.setWalk w { x with wait := .busy d (s.now + 4096) }
        else s.endAway w (if m.answer = 7 then 0x30 else 0x31) m.answer
      | _ => s

/-- relayRelease: appended as one update, or answered full (R336); records of a cancelled walk never enter (R240). -/
def execRelayRelease (b : Nat) (r : RelayIn) (s : State) : Host.Outcome State Fault Refusal :=
  RelayIn.read r 3 b s fun s m =>
    s.atOrigin b m fun w =>
      let x := s.walk w
      let send (t : State) (a : Nat) : State := t.sendRelay b 4 m.src { s.walkMsg w with answer := a }
      match x.wait with
      | .away _ =>
        if x.cancel then send s 1
        else if s.queueRoom x.team x.queue m.recs.length then send (s.appendRecords x.team x.queue m.recs) 0
        else send (s.setWalk w { x with emits := m.recs }) 1
      | _ => s

/-- relayEnded: the context is free and the walk counts as ended, not as cancelled (R336, R337). -/
def execRelayEnded (b : Nat) (r : RelayIn) (s : State) : Host.Outcome State Fault Refusal :=
  RelayIn.read r 6 b s fun s m =>
    s.atOrigin b m fun w => if (s.walk w).cancel then s.cancelEnded w false else s.freeWalk w

/-- relayFaultMessage: the held records and a RELAY_FAULT record as one update (R336). -/
def execRelayFaultMessage (b : Nat) (r : RelayIn) (s : State) : Host.Outcome State Fault Refusal :=
  RelayIn.read r 7 b s fun s m =>
    s.atOrigin b m fun w =>
      let s1 := if (s.walk w).cancel then s.ackCancel w false else s
      (s1.setWalk w { s1.walk w with emits := m.recs }).release w (.fault 0x31 m.answer (BitVec.ofNat 32 m.word))

/-- relayHome: the walk resumes from the checkpoint in the message, or ends as cancelled (R337). -/
def execRelayHome (b : Nat) (r : RelayIn) (s : State) : Host.Outcome State Fault Refusal :=
  RelayIn.read r 10 b s fun s m =>
    s.atOrigin b m fun w =>
      if (s.walk w).cancel then s.cancelEnded w true
      else
        match m.body with
        | some body => s.resumeWalk w body
        | none => s

/-- relayCancelled: the origin never acts on "not present" alone (R337). -/
def execRelayCancelled (b : Nat) (r : RelayIn) (s : State) : Host.Outcome State Fault Refusal :=
  RelayIn.read r 11 b s fun s m =>
    s.atOrigin b m fun w => if m.answer = 0 ∧ (s.walk w).cancel then s.cancelEnded w true else s

/-! Link failures. -/

/-- Whether a line lies in the memory of a partition. -/
def State.lineOfPart (s : State) (b line : Nat) : Bool :=
  decide (s.partBase b ≤ 128 * line) && decide (128 * line < s.partBase b + s.partSize b)

/-- Whether a home of the partition has invalidations, recalls or pushes in flight (R303). -/
def State.homeBusy (s : State) (b : Nat) : Bool := 
  s.dir.any fun e => (match e.2.busy with
    | some (cores, _) => !cores.isEmpty
    | none => false) && s.lineOfPart b e.1

/-- A mesh or bridge link of the partition fails. -/
def State.meshFailure (s : State) (b : Nat) : State :=
  if s.homeBusy b && (s.part b).pastat == 2 then s.partCheck b 3 0 else s

/-- The walks of a partition that a lost device ends: those of R338 at their origin. -/
def State.lostWalks (s : State) (b d : Nat) : State :=
  (s.walks.filter fun e => e.2.live && corePart (e.1 / 64) == b && e.2.hosted.isNone && e.2.relayed == some d).foldl
    (fun t e => t.endAway e.1 0x30 7) s

/-- The hosted walks of an origin that is lost are discarded. -/
def State.dropHosted (s : State) (b d : Nat) : State :=
  let from_ (o : Origin) : Bool := o.device == d
  let s1 := (s.walks.filter fun e => e.2.live && corePart (e.1 / 64) == b && match e.2.hosted with
    | some o => from_ o
    | none => false).foldl (fun t e => t.freeWalk e.1) s
  { s1 with cores := s1.cores.map fun c =>
      if corePart c.1 = b then
        (c.1, { c.2 with intake := c.2.intake.filter fun e => match e.hosted with
          | some (o, _) => !from_ o
          | none => true })
      else c }

/-- The requests of a partition to a device. -/
def State.requestsTo (s : State) (b d : Nat) : List Nat :=
  (s.remotes.filter fun e => e.2.live && e.2.part == b && e.2.loc == 1 && bits e.2.addr 47 45 == d).map fun e => e.1

/-- What a step gives, or the state as it was. -/
def State.orSame (s : State) (o : Host.Outcome State Fault Refusal) : State :=
  match o with
  | .next t => t
  | _ => s

/-- Device d can no longer be reached from partition b (R338, R399). -/
def State.lostDevice (s : State) (b d : Nat) : State :=
  let s1 := (s.lostWalks b d).dropHosted b d
  (s.requestsTo b d).foldl (fun t r => t.orSame (execAccessRefused r t))
    { s1 with
      relayHeld := s1.relayHeld.filter fun h => !(h.part == b && h.device == d)
      relayOpen := s1.relayOpen.filter fun o => !(o.part == b && o.device == d) }

/-- linkFailure: a UALink port goes down, and with it the devices that only it reached; a mesh or bridge link. -/
def execLinkFailure (l : LinkId) (s : State) : Host.Outcome State Fault Refusal :=
  match l with
  | .mesh b => .next (s.meshFailure b)
  | .bridge b _ => .next (s.meshFailure b)
  | .ual q =>
    let s1 := { s with mgmt := { s.mgmt with ualUp := Tbl.set false s.mgmt.ualUp q false } }
    let pairs := (List.range 4).flatMap fun b => (List.range 8).map fun d => (b, d)
    .next ((pairs.filter fun p => (s.pathFor p.1 p.2).isSome && (s1.pathFor p.1 p.2).isNone).foldl
      (fun t p => t.lostDevice p.1 p.2) s1)

/-- ualinkPortUp: a port that is enabled comes up (R397). -/
def execUalinkPortUp (port : Nat) (sec : Bool) (s : State) : Host.Outcome State Fault Refusal :=
  if Tbl.get false s.mgmt.ualEnable port then
    .next { s with mgmt := { s.mgmt with
      ualUp := Tbl.set false s.mgmt.ualUp port true, ualSec := Tbl.set false s.mgmt.ualSec port sec } }
  else .fault .notEnabled

end Sys2Proof.Machine
end

