-- ==== Sys2Proof/Machine/Bus.lean ====
section
/-! DEFINITION. Accesses of the host and of peers (R392, R393, R398, R403) and writes to registers (R392). -/
namespace Sys2Proof.Machine

open Sys2Proof

/-! The host's accesses to local memory. -/

/-- Whether a host access is served: ready (R407), within the fitted memory, and in the range of a confidential partition on
its bound selective IDE stream (R403). -/
def State.hostServed (s : State) (a n : Nat) (stream : Option Nat) : Bool :=
  s.mgmt.fwstate == 4 && decide (a + n ≤ Config.fittedGiB * 2 ^ 30) &&
    (List.range 4).all fun b =>
      !(s.confidential b && s.inRange b a n) ||
        (let k := bits (s.part b).pacfg.toNat 5 4
         stream == some k && Tbl.get false s.mgmt.ide k)

/-- The partition in whose range an address lies, else 0. -/
def State.partAt (s : State) (a : Nat) : Nat := (s.ownerOf a).getD 0

/-- An access by an agent outside, performed when the homes of its lines need take no copy back (R291, R297; step has them do
so, `occur`). -/
def State.outsideAccess (s : State) (g : AgentId) (a n : Nat) (write : Bool) (t : State) : Host.Outcome State Fault Refusal :=
  if (s.homeHeld g (linesOf a n) write).isNone then .next t else .fault .notEnabled

/-- Bytes that an agent outside reads, under key id 0 (R403); of an uncorrectable error the spec names no outcome for it. -/
def State.outsideBytes (s : State) (a n : Nat) : List Byte :=
  if s.memPoisoned a n then leBytes n s.free else s.readKeyed 0 a n

def execHostBar2Read (addr n : Nat) (stream : Option Nat) (s : State) : Host.Outcome State Fault Refusal :=
  if s.hostServed addr n stream then
    s.outsideAccess .host addr n false (s.emit (.data (s.outsideBytes addr n)))
  else .next (s.emit .unsupported)

def execHostBar2Write (addr : Nat) (bytes : List Byte) (stream : Option Nat) (s : State) :
    Host.Outcome State Fault Refusal :=
  if s.hostServed addr bytes.length stream then
    s.outsideAccess .host addr bytes.length true (s.putKeyed 0 [⟨addr, bytes⟩])
  else .next (s.emit .unsupported)

/-- The operation of an AtomicOp (R391). -/
def HostAtomic.op : HostAtomic → AtomOp
  | .fetchAdd => .add
  | .swap => .xchg
  | .cas => .cas

/-- One indivisible operation at the home for an agent outside: the old value is its answer. -/
def State.outsideAtomic (s : State) (op : AtomOp) (z : Size) (addr n : Nat) (operand cmp : DWord) : State × List Byte :=
  let r := s.rmw 0 addr op z (operand.toNat % 2 ^ (8 * n)) (cmp.toNat % 2 ^ (8 * n))
  (r.1, leBytes n r.2)

/-- hostAtomicop: an unaligned one is no AtomicOp that the function completes. -/
def execHostAtomicop (op : HostAtomic) (w64 : Bool) (addr : Nat) (operand cmp : DWord) (stream : Option Nat) (s : State) :
    Host.Outcome State Fault Refusal :=
  let n := if w64 then 8 else 4
  if s.hostServed addr n stream && addr % n == 0 then
    let r := s.outsideAtomic (HostAtomic.op op) (if w64 then .n64 else .n32) addr n operand cmp
    s.outsideAccess .host addr n true (r.1.emit (.data r.2))
  else .next (s.emit .unsupported)

/-! Peers (R398). -/

/-- Bytes that a peer's request reaches. -/
def PeerOp.size : PeerOp → Nat
  | .read n => n
  | .write bs => bs.length
  | .atomic _ z _ _ => if z = .n64 ∨ z = .s64 then 8 else 4

def PeerOp.writes : PeerOp → Bool
  | .read _ => false
  | .write _ => true
  | .atomic _ _ _ _ => true

/-- Whether a peer's request is served (R398). -/
def State.peerServed (s : State) (device src b port addr : Nat) (op : PeerOp) : Bool :=
  s.peerAllowed b device src port && (s.part b).pastat != 0 && s.mappable b addr (PeerOp.size op)

/-- peerRequest: from partition src of a device by a port, which names it req. -/
def execPeerRequest (device src b port req addr : Nat) (op : PeerOp) (s : State) :
    Host.Outcome State Fault Refusal :=
  let n := PeerOp.size op
  if s.peerServed device src b port addr op then
    s.outsideAccess (.peer device) addr n (PeerOp.writes op)
      (match op with
      | .read n => s.emit (.answered device req (s.outsideBytes addr n))
      | .write bs => (s.putKeyed 0 [⟨addr, bs⟩]).emit (.answered device req [])
      | .atomic o z x c =>
        let r := s.outsideAtomic o z addr n x c
        r.1.emit (.answered device req r.2))
  else .next ((s.countPeerRej b device).emit (.refused device req))

/-! Registers through BAR0 (R392). -/

/-- One 32-bit word of a register page. -/
def State.pageWord (s : State) (page : RegPage) (off : Nat) : Nat :=
  match page with
  | .launch b => (s.launchWord b off).toNat
  | .ingress p => if p < 2 then s.portWord p off else 0
  | .mgmt => (s.mgmtWord off).toNat

/-- The register page at an offset of BAR0, with the offset in it; none in the rest. -/
def bar0Page (off : Nat) : Option (RegPage × Nat) :=
  if off < 0x4000 then some (.launch (off / 0x1000), off % 0x1000)
  else if off < 0x6000 then some (.ingress ((off - 0x4000) / 0x1000), off % 0x1000)
  else if 0x8000 ≤ off ∧ off < 0x9000 then some (.mgmt, off - 0x8000)
  else none

/-- Whether an access to BAR0 is aligned and 4 or 8 bytes long. -/
def bar0Form (off n : Nat) : Bool := (n == 4 || n == 8) && off % n == 0

/-- One 32-bit word of BAR0. -/
def State.bar0Word (s : State) (off : Nat) : Nat :=
  match bar0Page off with
  | some (page, k) => s.pageWord page k
  | none => 0

/-- What a host read of n bytes of BAR0 returns: all ones where it has another form. -/
def State.bar0Read (s : State) (off n : Nat) : List Byte :=
  if bar0Form off n then (List.range (n / 4)).flatMap fun i => leBytes 4 (s.bar0Word (off + 4 * i)) else List.replicate n 0xFF

/-- Devices that partitions reached by the ports of an earlier state and no longer reach (R338, R397). -/
def State.afterPorts (s old : State) : State :=
  let pairs := (List.range 4).flatMap fun b => (List.range 8).map fun d => (b, d)
  (pairs.filter fun p => (old.pathFor p.1 p.2).isSome && (s.pathFor p.1 p.2).isNone).foldl
    (fun t p => t.lostDevice p.1 p.2) s

/-- registerWrite: unaligned writes and writes past a page are discarded; a `tlbinv` waits for room (R364). -/
def execRegisterWrite (page : RegPage) (off : Nat) (w64 : Bool) (v : DWord) (s : State) :
    Host.Outcome State Fault Refusal :=
  if off % (if w64 then 8 else 4) ≠ 0 ∨ 0x1000 ≤ off then .next s
  else
    match page with
    | .launch b => if s.launchWaits b off v then .fault .notEnabled else .next (s.launchWrite b off w64 v)
    | .ingress p => .next (if p < 2 then s.portWrite p off w64 v else s)
    | .mgmt => .next ((s.mgmtWrite off w64 v).afterPorts s)

/-- A host write to BAR0: one of another form, or to the rest, is discarded; one that cannot be performed yet waits (R364). -/
def State.bar0Write (s : State) (off : Nat) (bs : List Byte) : Host.Outcome State Fault Refusal :=
  match if bar0Form off bs.length then bar0Page off else none with
  | some (page, k) =>
    execRegisterWrite page k (bs.length == 8) (BitVec.ofNat 64 (leValue bs)) s
  | none => .next s

end Sys2Proof.Machine
end

