-- ==== Sys2Proof/Machine/Hss.lean ====
section
/-! DEFINITION. HSS signatures with SHA-256 of 32 bytes (R405, R406, R411): RFC 8554 and NIST SP 800-208, which the spec names and
does not restate (log 10). -/
namespace Sys2Proof.Machine

open Sys2Proof

/-- n big-endian bytes. -/
def beBytes (n v : Nat) : List Byte := (leBytes n v).reverse
def beValue (l : List Byte) : Nat := leValue l.reverse

/-- The n 32-byte strings of a list. -/
def hashes (l : List Byte) (n : Nat) : List (List Byte) := (List.range n).map fun i => (l.drop (32 * i)).take 32

/-! One-time signatures (LM-OTS). -/

/-- An LM-OTS type: w bits to a digit, p digits, the shift of the checksum. -/
structure OtsType where
  w : Nat
  p : Nat
  shift : Nat
deriving DecidableEq, Repr

/-- LM-OTS types W1 to W8. -/
def otsType (t : Nat) : Option OtsType :=
  match t with
  | 1 => some ⟨1, 265, 7⟩
  | 2 => some ⟨2, 133, 6⟩
  | 3 => some ⟨4, 67, 4⟩
  | 4 => some ⟨8, 34, 0⟩
  | _ => none

/-- Digit i of a string of bytes. -/
def OtsType.digit (o : OtsType) (l : List Byte) (i : Nat) : Nat :=
  let per := 8 / o.w
  (nthD 0 l (i / per)).toNat / 2 ^ (8 - o.w * (i % per + 1)) % 2 ^ o.w

/-- The digits of a digest and of its checksum. -/
def OtsType.digits (o : OtsType) (digest : List Byte) : List Nat :=
  let sum := ((List.range (256 / o.w)).map fun i => 2 ^ o.w - 1 - o.digit digest i).foldl (· + ·) 0
  (List.range o.p).map (o.digit (digest ++ beBytes 2 (sum * 2 ^ o.shift)))

/-- n hashes of chain i of a key, from its place j; key is the tree's identifier with the leaf. -/
def otsChain (key : List Byte) (i : Nat) : Nat → Nat → List Byte → List Byte
  | 0, _, x => x
  | n + 1, j, x => otsChain key i n (j + 1) (sha256 (key ++ beBytes 2 i ++ beBytes 1 j ++ x))

def otsPublic (key : List Byte) (ends : List (List Byte)) : List Byte := sha256 (key ++ beBytes 2 0x8080 ++ ends.flatten)

/-- The digest that is signed, randomised by c. -/
def otsDigest (key c msg : List Byte) : List Byte := sha256 (key ++ beBytes 2 0x8181 ++ c ++ msg)

/-- Chain i of each digit: its number, its digit and its string. -/
def otsChains (o : OtsType) (digest : List Byte) (xs : List (List Byte)) : List (Nat × Nat × List Byte) :=
  (List.range o.p).zip ((o.digits digest).zip xs)

/-- The public key that a one-time signature leads to. -/
def otsCandidate (o : OtsType) (key sig msg : List Byte) : List Byte :=
  otsPublic key ((otsChains o (otsDigest key ((sig.drop 4).take 32) msg) (hashes (sig.drop 36) o.p)).map fun e =>
    otsChain key e.1 (2 ^ o.w - 1 - e.2.1) e.2.1 e.2.2)

/-! Trees (LMS). -/

/-- The height of LMS types H5 to H25. -/
def lmsHeight (t : Nat) : Option Nat :=
  match t with
  | 5 => some 5
  | 6 => some 10
  | 7 => some 15
  | 8 => some 20
  | 9 => some 25
  | _ => none

def lmsLeaf (id : List Byte) (node : Nat) (key : List Byte) : List Byte := sha256 (id ++ beBytes 4 node ++ beBytes 2 0x8282 ++ key)
def lmsInner (id : List Byte) (node : Nat) (l r : List Byte) : List Byte :=
  sha256 (id ++ beBytes 4 node ++ beBytes 2 0x8383 ++ l ++ r)

/-- The root that a node leads to along the path of its siblings. -/
def lmsClimb (id : List Byte) : List (List Byte) → Nat → List Byte → List Byte
  | [], _, x => x
  | y :: ys, n, x => lmsClimb id ys (n / 2) (if n % 2 = 1 then lmsInner id (n / 2) y x else lmsInner id (n / 2) x y)

/-- A public key's types: of its one-time signatures, and its tree's height. -/
def lmsTypes (pub : List Byte) : Option (OtsType × Nat) :=
  match otsType (beValue ((pub.drop 4).take 4)), lmsHeight (beValue (pub.take 4)) with
  | some o, some h => some (o, h)
  | _, _ => none

def otsLen (o : OtsType) : Nat := 36 + 32 * o.p

/-- Bytes of a signature under a public key: leaf, one-time signature, type, path. -/
def lmsSigLen (e : OtsType × Nat) : Nat := 8 + otsLen e.1 + 32 * e.2

def lmsVerify (pub sig msg : List Byte) : Bool :=
  match lmsTypes pub with
  | none => false
  | some (o, h) =>
    let id := (pub.drop 8).take 16
    let q := beValue (sig.take 4)
    let ots := (sig.drop 4).take (otsLen o)
    let tail := sig.drop (4 + otsLen o)
    pub.length == 56 && sig.length == lmsSigLen (o, h) && ots.take 4 == (pub.drop 4).take 4 && tail.take 4 == pub.take 4 &&
      decide (q < 2 ^ h) &&
      lmsClimb id (hashes (tail.drop 4) h) (2 ^ h + q) (lmsLeaf id (2 ^ h + q) (otsCandidate o (id ++ beBytes 4 q) ots msg)) ==
        pub.drop 24

/-! Levels (HSS). -/

/-- Levels n and below: each signs the public key of the next, the last the message. -/
def hssFrom : Nat → List Byte → List Byte → List Byte → Bool
  | 0, pub, sig, msg => lmsVerify pub sig msg
  | n + 1, pub, sig, msg =>
    match lmsTypes pub with
    | none => false
    | some e =>
      let next := (sig.drop (lmsSigLen e)).take 56
      lmsVerify pub (sig.take (lmsSigLen e)) next && hssFrom n next (sig.drop (lmsSigLen e + 56)) msg

/-- Verification under a public key of 60 bytes, of one to three levels (R405). -/
def hssVerify (key sig msg : List Byte) : Bool :=
  let levels := beValue (key.take 4)
  key.length == 60 && decide (1 ≤ levels) && decide (levels ≤ 3) && beValue (sig.take 4) + 1 == levels &&
    hssFrom (levels - 1) (key.drop 4) (sig.drop 4) msg

/-! The identity key (R411): two levels of H20 and W4. Tree 0 is the top one, tree 1 + q the one below its leaf q; the secrets are
the device's own. -/

def identityOts : OtsType := ⟨4, 67, 4⟩

def identityId (t : Nat) : List Byte := leBytes 16 (Config.identityId t)
def identitySecret (t q i : Nat) : List Byte := leBytes 32 (Config.identitySecret t q i)

/-- Leaf q of a tree, as its one-time key is named. -/
def identityKey (t q : Nat) : List Byte := identityId t ++ beBytes 4 q

/-- A node k levels above the leaves. -/
def identityNode (t : Nat) : Nat → Nat → List Byte
  | 0, r =>
    let key := identityKey t (r - 2 ^ 20)
    lmsLeaf (identityId t) r (otsPublic key ((List.range 67).map fun i =>
      otsChain key i 15 0 (identitySecret t (r - 2 ^ 20) i)))
  | k + 1, r => lmsInner (identityId t) r (identityNode t k (2 * r)) (identityNode t k (2 * r + 1))

def identityPublic (t : Nat) : List Byte := beBytes 4 8 ++ beBytes 4 3 ++ identityId t ++ identityNode t 20 1

/-- The sibling of node r. -/
def siblingOf (r : Nat) : Nat := if r % 2 = 0 then r + 1 else r - 1

/-- The signature of a message by leaf q of a tree. -/
def identityLeafSign (t q : Nat) (msg : List Byte) : List Byte :=
  let key := identityKey t q
  let c := leBytes 32 (Config.identityRandom t q)
  beBytes 4 q ++ beBytes 4 3 ++ c ++
    ((otsChains identityOts (otsDigest key c msg) ((List.range 67).map (identitySecret t q))).flatMap fun e =>
      otsChain key e.1 e.2.1 0 e.2.2) ++
    beBytes 4 8 ++ (List.range 20).flatMap fun i => identityNode t i (siblingOf ((2 ^ 20 + q) / 2 ^ i))

/-- The signature with leaf index n, below 2^40. -/
def identitySign (n : Nat) (msg : List Byte) : List Byte :=
  let top := n / 2 ^ 20
  let pub := identityPublic (1 + top)
  beBytes 4 1 ++ identityLeafSign 0 top pub ++ pub ++ identityLeafSign (1 + top) (n % 2 ^ 20) msg

end Sys2Proof.Machine
end

