-- ==== Sys2Proof/Machine/Spdm.lean ====
section
/-! DEFINITION. The SPDM responder (R410-R412): requests, sessions, measurements, signatures and chunks. The codes and the layouts
of its messages are those of SPDM 1.3, which the spec names and does not restate (log 75). -/
namespace Sys2Proof.Machine

open Sys2Proof

/-- Field i of a message, one byte. -/
def spdmByte (r : List Byte) (i : Nat) : Nat := (nthD 0 r i).toNat
/-- The code of a message. -/
def spdmCode (r : List Byte) : Nat := spdmByte r 1
/-- An ERROR message. -/
def spdmErrorMsg (code data : Nat) : List Byte := [0x13, 0x7F, BitVec.ofNat 8 code, BitVec.ofNat 8 data]

/-- The requests of R410 that the device answers in the clear, and those of a secured session. -/
def spdmClear : List Nat := [0x84, 0xE1, 0xE3, 0x81, 0x82, 0x83, 0xE0, 0xE4, 0xFE, 0x85, 0x86]
def spdmSecured : List Nat := [0x81, 0x82, 0x83, 0xE0, 0xE5, 0xEC, 0xFE, 0x85, 0x86]

/-- Whether a request needs a signature (R411): CHALLENGE, KEY_EXCHANGE, and GET_MEASUREMENTS where it asks for one. -/
def spdmSigned (r : List Byte) : Bool :=
  spdmCode r == 0x83 || spdmCode r == 0xE4 || (spdmCode r == 0xE0 && spdmByte r 2 % 2 == 1)

/-- The slot that a request names, where it names one. -/
def spdmSlot (r : List Byte) : Nat := if spdmCode r = 0x82 ∨ spdmCode r = 0x83 then spdmByte r 2 % 16 else 0

/-- Whether the request asks for what the device has not: a certificate slot other than 0, a measurement index above 8. -/
def spdmInvalid (r : List Byte) : Bool :=
  spdmSlot r != 0 || (spdmCode r == 0xE0 && decide (8 < spdmByte r 3) && spdmByte r 3 != 0xFF)

/-! Measurements: block m + 1 holds `fwmr` m (R410). -/

def Mgmt.measurement (m : Mgmt) (i : Nat) : List Byte :=
  [BitVec.ofNat 8 (i + 1), 1] ++ leBytes 2 35 ++ [Config.measurementType i] ++ leBytes 2 32 ++ leBytes 32 (Tbl.get 0 m.fwmr i).toNat

/-- The blocks that a measurement operation asks for: none, one, or all. -/
def measurementsAsked (op : Nat) : List Nat := if op = 0xFF then List.range 8 else if op = 0 then [] else [op - 1]

/-- A MEASUREMENTS response before its signature; rest is what SPDM fixes of it and the spec does not restate. -/
def Mgmt.measurements (m : Mgmt) (op : Nat) (rest : List Byte) : List Byte :=
  let asked := measurementsAsked op
  let record := asked.flatMap m.measurement
  [0x13, 0x60, if op = 0 then 8 else 0, nthD 0 rest 0, BitVec.ofNat 8 asked.length] ++ leBytes 3 record.length ++ record ++
    rest.drop 1

/-! Certificates (R410): the chain of slot 0 as SPDM lays it out, its root the vendor's certificate. -/

def certificateChain : List Byte :=
  let root := Config.vendorCertificate
  let body := sha256 root ++ root ++ Config.deviceCertificates
  leBytes 2 (4 + body.length) ++ [0, 0] ++ body

/-- DIGESTS: slot 0, the only one. -/
def digestsMsg : List Byte := [0x13, 0x01, 1, 1] ++ sha256 certificateChain

/-- CERTIFICATE: the part of the chain that the request's offset and length ask for. -/
def certificateMsg (r rest : List Byte) : List Byte :=
  let off := leValue ((r.drop 4).take 2)
  let part := (certificateChain.drop off).take (leValue ((r.drop 6).take 2))
  if certificateChain.length ≤ off then spdmErrorMsg 1 0
  else [0x13, 0x02, 0, nthD 0 rest 3] ++ leBytes 2 part.length ++ leBytes 2 (certificateChain.length - off - part.length) ++ part

/-! Algorithms (R410): HSS by an extended algorithm field, SHA-256 by its bit. -/

def hssAlgorithm : List Byte := leBytes 4 Config.hssAlgorithm

/-- Whether NEGOTIATE_ALGORITHMS offers the device's signature algorithm among its extended ones. -/
def offersHss (r : List Byte) : Bool :=
  (List.range (spdmByte r 28)).any fun i => (r.drop (32 + 4 * i)).take 4 == hssAlgorithm

/-- ALGORITHMS: of what the request offers, HSS and SHA-256; rest is what SPDM fixes of it and the spec does not restate. -/
def algorithmsMsg (r rest : List Byte) : List Byte :=
  let asym := if offersHss r then hssAlgorithm else []
  let hash := if spdmByte r 12 % 2 = 1 then 1 else 0
  let tail := [1, nthD 0 rest 7] ++ leBytes 4 2 ++ leBytes 4 0 ++ leBytes 4 hash ++ ((List.range 12).map fun i => nthD 0 rest (20 + i)) ++
    [BitVec.ofNat 8 (asym.length / 4), 0, 0, 0] ++ asym ++ rest.drop 36
  [0x13, 0x63, nthD 0 rest 2, 0] ++ leBytes 2 (6 + tail.length) ++ tail

/-! Whole requests. -/

/-- A session: 0 none, 1 in its handshake, 2 established (R410). -/
def Mgmt.nextSession (m : Mgmt) (draw : Nat) (sec : Bool) (r : List Byte) : Nat :=
  if spdmCode r = 0xE4 then 1
  else if sec && spdmCode r == 0xE5 && m.session == 1 then if Config.spdmFinished draw r then 2 else 0
  else if sec && spdmCode r == 0xEC then 0
  else m.session

/-- The selective IDE streams after a request: IDE_KM is carried inside a secured session (R410). -/
def Mgmt.nextIde (m : Mgmt) (draw : Nat) (sec : Bool) (r : List Byte) : Tbl Bool :=
  match if sec && m.session == 2 && spdmCode r == 0xFE then Config.spdmIde draw r else none with
  | some (k, on) => Tbl.set false m.ide (k % 4) on
  | none => m.ide

/-- The response before its signature. -/
def Mgmt.spdmBody (m : Mgmt) (draw : Nat) (r : List Byte) : List Byte :=
  let rest := Config.spdmResponse draw r
  match spdmCode r with
  | 0xE0 => m.measurements (spdmByte r 3) rest
  | 0xE3 => algorithmsMsg r rest
  | 0x81 => digestsMsg
  | 0x82 => if spdmByte r 3 % 2 = 1 then rest else certificateMsg r rest
  | _ => rest

/-- The answer to a whole request. A signature takes the next leaf of the identity key, and none is made once the counter is
spent (R411). -/
def Mgmt.spdmAnswer (m : Mgmt) (draw : Nat) (sec : Bool) (r : List Byte) : Mgmt × List Byte :=
  if !(if sec then spdmSecured else spdmClear).contains (spdmCode r) then (m, spdmErrorMsg 7 (spdmCode r))
  else if spdmInvalid r then (m, spdmErrorMsg 1 0)
  else if spdmSigned r && decide (2 ^ 40 ≤ m.leaf) then (m, spdmErrorMsg Config.signaturesSpent (Config.signaturesSpent / 256))
  else
    let body := m.spdmBody draw r
    let m1 := { m with session := m.nextSession draw sec r, ide := m.nextIde draw sec r }
    if spdmSigned r then
      ({ m1 with leaf := m.leaf + 1 }, body ++ identitySign m.leaf (Config.spdmTranscript draw r body))
    else (m1, body)

/-! Messages above 2048 bytes (R410). -/

/-- Bytes that the secured session adds to a message. -/
def sealLength : Nat := Config.sealLength % 1024

/-- A message as the secured session carries it. -/
def sealedMsg (draw : Nat) (bs : List Byte) : List Byte :=
  (List.range (bs.length + sealLength)).map fun i => Config.spdmSealed draw bs i

/-- A response too long for the buffer is held for CHUNK_GET. -/
def Mgmt.fitting (m : Mgmt) (room : Nat) (full : List Byte) : Mgmt × List Byte :=
  if full.length ≤ room then (m, full) else ({ m with largeOut := full, chunkOut := 0 }, spdmErrorMsg 0x0F 0 ++ [0])

/-- CHUNK_GET: the next part of the response that is held; room is what a message carries. -/
def Mgmt.chunkGet (m : Mgmt) (room : Nat) (r : List Byte) : Mgmt × List Byte :=
  let seq := leValue ((r.drop 4).take 2)
  if m.largeOut.isEmpty || seq != m.chunkOut then (m, spdmErrorMsg 1 0)
  else
    let first := if seq = 0 then leBytes 4 m.largeOut.length else []
    let part := m.largeOut.take (room - 12 - first.length)
    let rest := m.largeOut.drop (room - 12 - first.length)
    ({ m with largeOut := rest, chunkOut := seq + 1 },
      [0x13, 0x06, if rest.isEmpty then 1 else 0, nthD 0 r 3] ++ leBytes 2 seq ++ [0, 0] ++ leBytes 4 part.length ++ first ++ part)

/-- CHUNK_SEND: the next part of a request, which is answered with the acknowledgement of its last part. -/
def Mgmt.chunkSend (m : Mgmt) (draw room : Nat) (sec : Bool) (r : List Byte) : Mgmt × List Byte × Option (List Byte) :=
  let seq := leValue ((r.drop 4).take 2)
  let whole := (if seq = 0 then [] else m.largeIn) ++ (r.drop (if seq = 0 then 16 else 12)).take (leValue ((r.drop 8).take 4))
  let ack := [0x13, 0x05, 0, nthD 0 r 3] ++ leBytes 2 seq
  if seq != 0 && seq != m.chunkIn then (m, spdmErrorMsg 1 0, none)
  else if spdmByte r 2 % 2 = 1 then
    let a := m.spdmAnswer draw sec whole
    let f := { a.1 with largeIn := [], chunkIn := 0 }.fitting (room - 6) a.2
    (f.1, ack ++ f.2, some whole)
  else ({ m with largeIn := whole, chunkIn := seq + 1 }, ack, none)

/-- The answer to one message of `spdmbuf`, with the whole request that it ends, if any. -/
def Mgmt.spdmStep (m : Mgmt) (draw : Nat) (sec : Bool) (r : List Byte) : Mgmt × List Byte × Option (List Byte) :=
  let room := if sec then 2048 - sealLength else 2048
  if spdmCode r = 0x85 then m.chunkSend draw room sec r
  else if spdmCode r = 0x86 then
    let c := m.chunkGet room r
    (c.1, c.2, none)
  else
    let a := m.spdmAnswer draw sec r
    let f := a.1.fitting room a.2
    (f.1, f.2, some r)

/-! Vendor-defined requests for keys (R412). -/

/-- The key event that a request brings: a vendor-defined one in a secured session. -/
def keyEvent (sec : Bool) (session : Nat) (r : Option (List Byte)) : Option Instr :=
  match if sec && session == 2 then r.filter fun x => spdmCode x == 0xFE else none with
  | none => none
  | some x =>
    match Config.keyRequest x with
    | none => none
    | some (b, op, key) =>
      if 4 ≤ b then none
      else
        match op with
        | 0 => some (.keyInstall b key)
        | 1 => some (.keyGenerate b)
        | 2 => some (.keyErase b)
        | _ => none

/-- A response is in `spdmbuf`, and the request is answered (R404). -/
def Mgmt.respond (m : Mgmt) (resp : List Byte) : Mgmt :=
  { m with spdmbuf := spliceBytes m.spdmbuf 0 resp, spdmctl := BitVec.ofNat 32 resp.length, keyReply := none }

/-- spdmRequest: the message in `spdmbuf` is answered there. A request for a key operation is answered as the operation, its own
event, is done; until then `spdmctl` stays busy. -/
def execSpdmRequest (s : State) : Host.Outcome State Fault Refusal :=
  let m := s.mgmt
  let msg := m.spdmbuf.take (m.spdmctl.toNat % 4096)
  if m.spdmctl.getLsbD 31 && m.keyReply.isNone then
    let plain := if m.session = 0 then none else Config.spdmOpened s.tick msg
    let a := m.spdmStep s.tick plain.isSome (plain.getD msg)
    let resp := if plain.isSome then sealedMsg s.tick a.2.1 else a.2.1
    match keyEvent plain.isSome m.session a.2.2 with
    | some i => .next ((s.setMgmt { a.1 with keyReply := some resp }).drawn.post i)
    | none => .next (s.setMgmt (a.1.respond resp)).drawn
  else .fault .notEnabled

end Sys2Proof.Machine
end

