-- ==== Sys2Proof/Machine/Firmware.lean ====
section
/-! DEFINITION. Start-up, images, partition keys, power and device reset (R405-R409, R412, R416-R418). -/
namespace Sys2Proof.Machine

open Sys2Proof

/-! Images (R405, R406). -/

/-- n little-endian bytes of an image at an offset. -/
def imgField (b : List Byte) (off n : Nat) : Nat := leValue ((b.drop off).take n)
def imgBytes (b : List Byte) (off n : Nat) : List Byte := (b.drop off).take n

/-- Section s: its offset and length; 3 is the signature. -/
def imgExtent (b : List Byte) (s : Nat) : Nat × Nat := (imgField b (0x10 + 8 * s) 4, imgField b (0x14 + 8 * s) 4)
def imgSection (b : List Byte) (s : Nat) : List Byte := imgBytes b (imgExtent b s).1 (imgExtent b s).2
def imgHeader (b : List Byte) : List Byte := b.take 512
def imgSvn (b : List Byte) : Nat := imgField b 0x008 2
def imgRaises (b : List Byte) : Bool := (imgField b 0x008 4).testBit 31
def zeroBytes (l : List Byte) : Bool := l.all fun x => x == 0

/-- Whether magic, version, reserved fields and extents are right; outside the add-in board, also the package limit
(R417). -/
def imgShapeOk (b : List Byte) : Bool :=
  decide (512 ≤ b.length) && decide (b.length ≤ 2 ^ 24) && imgField b 0 4 == 0x4957465A && imgField b 4 4 == 1 &&
    bits (imgField b 8 4) 30 16 == 0 && zeroBytes (imgBytes b 0x030 208) && zeroBytes (imgBytes b 0x160 96) &&
    zeroBytes (imgBytes b 0x1FC 4) &&
    (List.range 4).all (fun s => decide ((imgExtent b s).1 + (imgExtent b s).2 ≤ b.length)) &&
    match Config.boardSense with
    | some _ => true
    | none => decide (100 ≤ Config.packageLimit (imgSection b 2)) && decide (Config.packageLimit (imgSection b 2) ≤ 550)

/-- The first check of R406 that an image fails, by its error; unread is the error of a failed read. -/
def imgError (svn : Half) (unread : Nat) (img : Image) : Option Nat :=
  match img with
  | none => some unread
  | some b =>
    if !imgShapeOk b then some 2
    else if sha256 (imgBytes b 0x1C0 60) ≠ Config.rootKeyHash then some 3
    else if !hssVerify (imgBytes b 0x1C0 60) (imgSection b 3) (imgHeader b) then some 4
    else if imgSvn b < svn.toNat then some 5
    else if (List.range 3).any fun s => sha256 (imgSection b s) != imgBytes b (0x100 + 32 * s) 32 then some 6
    else none

/-- The extensions of a verified image, and stage 1 (R406, R407). -/
def Mgmt.runImage (m : Mgmt) (b : List Byte) : Mgmt :=
  let m1 := ((m.extend 1 (imgHeader b)).extend 2 (imgSection b 0)).extend 3 (imgSection b 1 ++ imgSection b 2)
  { m1 with fwstate := 3, fwver := BitVec.ofNat 16 (imgField b 0x00C 4), image := some b }

/-- State 0 is left at once: the boot ROM extends `fwmr` 0 and reads the flash image (R407, R409). -/
def Mgmt.enterVerify (m : Mgmt) : Mgmt :=
  { m.extend 0 (leBytes 4 Config.romVersion.toNat ++ Config.rootKeyHash ++ leBytes 4 m.fwsvn.toNat ++
      leBytes 8 Config.siteFuses.toNat) with
    fwstate := 1 }

def State.enterVerify (s : State) : State := s.setMgmt s.mgmt.enterVerify

/-- Whether img is what reading flash can give: nothing; after a write that did not end, bytes that fail verification (R408);
else the image that is known to be there. -/
def Mgmt.flashGives (m : Mgmt) (img : Image) : Bool :=
  img.isNone || (if m.flashTorn then (imgError m.fwsvn 1 img).isSome else m.flash.isNone || img == m.flash)

/-- firmwareVerify: img is what reading flash gave. -/
def execFirmwareVerify (img : Image) (s : State) : Host.Outcome State Fault Refusal :=
  let m := s.mgmt
  if m.fwstate = 1 ∧ m.fwcmd = 0 ∧ m.flashGives img then
    match imgError m.fwsvn 1 img, img with
    | some e, _ => .next (s.setMgmt { m with fwstate := 2, fwerr := e })
    | none, some b => .next (s.setMgmt ({ m with flash := some b }.runImage b))
    | none, none => .next (s.setMgmt { m with fwstate := 2, fwerr := 1 })
  else .fault .notEnabled

/-- Error of the image that a `fwreccmd` command read from host memory. -/
def Mgmt.recError (m : Mgmt) (img : Image) : Option Nat :=
  match img with
  | none => some 7
  | some _ => if recLenOk m.fwreclen.toNat then imgError m.fwsvn 7 img else some 2

/-- Whether img is what the read of `fwreclen` bytes can give: nothing, or that many bytes. -/
def Mgmt.recGives (m : Mgmt) (img : Image) : Bool :=
  match img with
  | none => true
  | some b => b.length == m.fwreclen.toNat

/-- A verified image begins to be written to flash. -/
def Mgmt.beginFlash (m : Mgmt) (b : List Byte) : Mgmt := { m with flashing := some b, flashTorn := true }

/-- The write of flash ends, and with it the command (R408). -/
def Mgmt.endFlash (m : Mgmt) (b : List Byte) : Mgmt :=
  { m with flash := some b, flashing := none, flashTorn := false, fwcmd := 0, fwresult := 0 }

/-- One event of a `fwreccmd` command: the image that the read gave is verified, failed by `fail` or begun to be written; then
the write ends with `done`. -/
def State.recStep (s : State) (cmd : Nat) (img : Image) (fail : Mgmt → Nat → Mgmt) (done : Mgmt → List Byte → Mgmt) :
    Host.Outcome State Fault Refusal :=
  let m := s.mgmt
  if m.fwcmd = cmd then
    match m.flashing with
    | some b => if img = some b then .next (s.setMgmt (done (m.endFlash b) b)) else .fault .notEnabled
    | none =>
      if m.recGives img then
        match m.recError img with
        | some e => .next (s.setMgmt (fail { m with fwcmd := 0, fwresult := e } e))
        | none => .next (s.setMgmt (m.beginFlash (img.getD [])))
      else .fault .notEnabled
  else .fault .notEnabled

/-- fwLoadAndBoot (R407, R408): img is what reading `fwreclen` bytes at `fwrecaddr` gave; the image boots once it is written. -/
def execFwLoadAndBoot (img : Image) (s : State) : Host.Outcome State Fault Refusal :=
  s.recStep 1 img (fun m e => { m with fwstate := 2, fwerr := e }) Mgmt.runImage

/-- fwStoreToFlash (R408): the image runs at the next device reset. -/
def execFwStoreToFlash (img : Image) (s : State) : Host.Outcome State Fault Refusal :=
  s.recStep 2 img (fun m _ => m) fun m _ => m

/-! Stage 1 (R407, R413, R417). -/

/-- `pwrlim` of a board's sense code; none: start-up fails. -/
def boardLimit (watts : Nat) : Option Word :=
  if watts = 600 then some (BitVec.ofNat 32 (550 + 65536 * 600))
  else if watts = 450 then some (BitVec.ofNat 32 (400 + 65536 * 450))
  else if watts = 300 then some (BitVec.ofNat 32 (250 + 65536 * 300))
  else none

def Mgmt.limit (m : Mgmt) : Option Word :=
  match Config.boardSense with
  | some w => boardLimit w
  | none => some (BitVec.ofNat 32 (Config.packageLimit (imgSection (m.image.getD []) 2)))

/-- `fwsvn` once stage 2 of an image is ready: it only rises (R406). -/
def Mgmt.raisedSvn (m : Mgmt) : Half :=
  match m.image with
  | some b => if imgRaises b && decide (m.fwsvn.toNat < imgSvn b) then BitVec.ofNat 16 (imgSvn b) else m.fwsvn
  | none => m.fwsvn

/-- stage1Init. -/
def execStage1Init (training selfTest : Bool) (s : State) : Host.Outcome State Fault Refusal :=
  let m := { s.mgmt with fusemap := Config.siteFuses }
  if s.mgmt.fwstate = 3 then
    if !training then .next (s.setMgmt { m with fwstate := 5, fwerr := 8 })
    else if !selfTest then .next (s.setMgmt { m with fwstate := 5, fwerr := 9 })
    else
      match m.limit with
      | none => .next (s.setMgmt { m with fwstate := 5, fwerr := 0x0A })
      | some w => .next (s.setMgmt { m with fwstate := 4, pwrlim := w, fwsvn := m.raisedSvn })
  else .fault .notEnabled

/-! Partition keys (R412). -/

/-- A key operation: asked for by a request of a secured SPDM session, which it answers; refused, without effect, for a partition
that is not unassigned. -/
def State.keyOp (s : State) (b : Nat) (t : State) : Host.Outcome State Fault Refusal :=
  match s.mgmt.keyReply with
  | some resp => .next ((if (s.part b).pastat = 0 then t else s).setMgmt (s.mgmt.respond resp))
  | none => .fault .notEnabled

/-- keyInstall: refused for equal halves too. -/
def execKeyInstall (b : Nat) (key : List Byte) (s : State) : Host.Outcome State Fault Refusal :=
  s.keyOp b (if key.length = 64 ∧ key.take 32 ≠ key.drop 32 then
      s.setPart b { s.part b with key := some key, keyGen := false }
    else s)

/-- The key that a value of the random source gives: 64 bytes with unequal halves, every such key one of them. DEDUCED: what R412
demands of a key holds of a drawn one too (log 10). -/
def keyOfDraw (r : Nat) : List Byte :=
  let a := r % 2 ^ 256
  leBytes 32 a ++ leBytes 32 ((a + 1 + r / 2 ^ 256 % (2 ^ 256 - 1)) % 2 ^ 256)

/-- keyGenerate: drawn from the device's random source. -/
def execKeyGenerate (b : Nat) (s : State) : Host.Outcome State Fault Refusal :=
  s.keyOp b (s.setPart b { s.part b with key := some (keyOfDraw (Config.randomKey s.tick)), keyGen := true }).drawn

def execKeyErase (b : Nat) (s : State) : Host.Outcome State Fault Refusal :=
  s.keyOp b (s.setPart b { s.part b with key := none, keyGen := false })

/-! Power and temperature (R417, R418). -/

/-- Clocks after a step: the core's in units of 20 MHz, the mesh's in proportion to 2.2 over 2.6 GHz. -/
def Mgmt.clocks (m : Mgmt) (core : Nat) : Mgmt := { m with coreClk := core, meshClk := core * 110 / 130 }

/-- What the sensors give: power in units of 0.125 W, temperature in units of 0.125 °C (R404). -/
def Mgmt.measured (m : Mgmt) (package board : Nat) (temp : Int) : Mgmt :=
  { m with
    pwrnow := BitVec.ofNat 32 (package % 65536 + 65536 * (board % 65536)), tempnow := BitVec.ofNat 32 (wrapTo 16 temp) }

/-- powerThrottle: the sensors, and, as firmware runs, one step of 100 MHz down to 1.3 GHz, or up again to 2.6 GHz. -/
def execPowerThrottle (package board : Nat) (temp : Int) (s : State) : Host.Outcome State Fault Refusal :=
  let m := s.mgmt.measured package board temp
  let pl := m.pwrlim.toNat % 65536
  let bl := m.pwrlim.toNat / 65536
  let hot := decide (8 * pl < package) || (bl != 0 && decide (8 * bl < board)) || decide (800 < temp)
  if m.fwstate = 4 then
    .next (s.setMgmt (if hot then m.clocks (if m.coreClk < 70 then 65 else m.coreClk - 5)
      else m.clocks (if 125 < m.coreClk then 130 else m.coreClk + 5)))
  else .next (s.setMgmt m)

/-- Whether the hottest junction is at 110 °C or above (R418). -/
def Mgmt.overheated (m : Mgmt) : Bool := decide (880 ≤ signedOf 16 m.tempnow.toNat)

/-- thermalShutdown: the device removes its own power at 110 °C, with no dump and no machine check; the host sees the link go
down. step has it happen before anything else. -/
def execThermalShutdown (s : State) : Host.Outcome State Fault Refusal :=
  if s.mgmt.overheated then .next ({ s with off := true }.emit .linkDown) else .fault .notEnabled

/-- dumpstatWrite (R416): whatever the value. -/
def execDumpstatWrite (v : Word) (s : State) : Host.Outcome State Fault Refusal :=
  let _ := v
  .next (s.setMgmt { s.mgmt with dumpstat := 0 })

/-! Device reset (R407). -/

/-- What a device reset leaves: flash, the fused security version and the leaf counter stand; the schedule and the draws go
on. -/
def State.deviceReset (s : State) : State :=
  { State.reset with
    agenda := s.agenda, tick := s.tick, now := s.now, nextId := s.nextId, out := s.out
    mgmt := { Mgmt.reset with fwsvn := s.mgmt.fwsvn, flash := s.mgmt.flash, flashTorn := s.mgmt.flashTorn, leaf := s.mgmt.leaf } }

def execDeviceReset (s : State) : Host.Outcome State Fault Refusal := .next s.deviceReset.enterVerify

end Sys2Proof.Machine
end

