-- ==== Sys2Proof/Machine/Home.lean ====
section
/-! DEFINITION. The coherence protocol: L1 transitions (R294), pushes (R295), the directory of the homes (R296, R297), baton
delivery (R298, R299) and the counters (R301). Data stands in local memory throughout (log 1, 8). -/
namespace Sys2Proof.Machine

open Sys2Proof

/-! Error met by a write-back (R276, R352). -/

/-- Partition of a core, stopped when a dirty line that it writes back holds an uncorrectable error. -/
def State.writeBackCheck (s : State) (cid line : Nat) (dirty : Bool) : State :=
  if dirty && (s.memPoisoned (128 * line) 128 || s.l1Error cid (128 * line) 128) then
    s.partCheck (corePart cid) 1 (128 * line)
  else s

/-! The node cache (R274, R318). -/

/-- The node-cache copy of a line is dropped. -/
def State.dropNode (s : State) (line : Nat) : State :=
  { s with nodeLines := s.nodeLines.filter (· != line), poison := s.poison.filter (· != .node line) }

/-- Whether two lines fall in one set of one node-cache slice (R318). -/
def sameNodeSet (a b : Nat) : Bool := homeSlice a % 32 == homeSlice b % 32 && a % 512 == b % 512

/-- A line enters the node cache: 16 ways to a set, the line replaced a free choice (R318, log 9). -/
def State.addNode (s : State) (line : Nat) : State :=
  if s.nodeLines.contains line then { s with poison := s.poison.filter (· != .node line) }
  else
    let ws := s.nodeLines.filter (sameNodeSet line)
    let s1 := if 16 ≤ ws.length then s.dropNode (nthD 0 ws (s.choose % ws.length)) else s
    { s1 with nodeLines := s1.nodeLines ++ [line] }

/-! L1 transitions (R294). -/

def State.answerHome (s : State) (cid line : Nat) (a : CohAnswer) : State := s.post (.homeAnswer cid line a)

/-- The groups of a core whose instruction waits for an access. -/
def State.waitingOn (s : State) (c : Nat) : List Nat :=
  (s.groups.filter fun e =>
    e.2.live && e.2.run.waits && e.2.run.issued.isSome && e.2.run.asked.isEmpty && (s.team e.2.team).core == c).map fun e => e.1

/-- The accesses that waited for a line go on at its fill, before anything else (R294). -/
def State.wakeAccesses (s : State) (c : Nat) : State := { s with agenda := (s.waitingOn c).map Turn.group ++ s.agenda }

/-- l1Fill: the home's grant ends a transient state, or fills the node cache. -/
def execL1Fill (c line : Nat) (excl : Bool) (s : State) : Host.Outcome State Fault Refusal :=
  .next (if c = nodeAgent then { s.addNode line with nodeMiss := s.nodeMiss.filter (· != line) }
    else
      match s.l1State c line with
      | some .is_ => (s.l1Set c line (if excl then .e else .s)).wakeAccesses c
      | some .im => (s.l1Set c line .m).wakeAccesses c
      | some .sm => (s.l1Set c line .m).wakeAccesses c
      | _ => s)

/-- l1Inv. -/
def execL1Inv (c line : Nat) (s : State) : Host.Outcome State Fault Refusal :=
  .next (if c = nodeAgent then (s.dropNode line).answerHome c line .clean
    else
      match s.l1State c line with
      | none => s.answerHome c line .clean
      | some .is_ => s.answerHome c line .clean
      | some .im => s.answerHome c line .clean
      | some .sm => ((s.l1Set c line .im).lineTaken c line).answerHome c line .clean
      | some .ei => s.answerHome c line .crossed
      | some .mi => s.answerHome c line .crossed
      | some _ => ((s.l1Clear c line).lineTaken c line).answerHome c line .clean)

/-- l1RecallI. -/
def execL1RecallI (c line : Nat) (s : State) : Host.Outcome State Fault Refusal :=
  .next (match s.l1State c line with
    | none => s.answerHome c line .clean
    | some .is_ => s.answerHome c line .clean
    | some .im => s.answerHome c line .clean
    | some .sm => ((s.l1Set c line .im).lineTaken c line).answerHome c line .clean
    | some .ei => s.answerHome c line .crossed
    | some .mi => s.answerHome c line .crossed
    | some .m => (((s.writeBackCheck c line true).l1Clear c line).lineTaken c line).answerHome c line .data
    | some _ => ((s.l1Clear c line).lineTaken c line).answerHome c line .clean)

/-- l1RecallS. -/
def execL1RecallS (c line : Nat) (s : State) : Host.Outcome State Fault Refusal :=
  .next (match s.l1State c line with
    | some .e => (s.l1Set c line .s).answerHome c line .clean
    | some .m => ((s.writeBackCheck c line true).l1Set c line .s).answerHome c line .data
    | some .ei => s.answerHome c line .crossed
    | some .mi => s.answerHome c line .crossed
    | _ => s.answerHome c line .clean)

/-- P lines of a set and of an L1 (R295). -/
def Core.pushedIn (c : Core) (line : Nat) : Nat := (c.l1.filter fun e => e.st == .p && e.line % 128 == line % 128).length
def Core.pushed (c : Core) : Nat := (c.l1.filter fun e => e.st == .p).length

/-- The way that a push takes: none when every way is transient or holds a P line. -/
def State.pushWay (s : State) (cid line : Nat) : Option State :=
  let ws := (s.core cid).ways line
  let ss := ws.filter fun e => e.st == .s
  let ems := ws.filter fun e => e.st == .e || e.st == .m
  if ws.length < 8 then some s
  else if !ss.isEmpty then some (s.l1Evict cid (s.pickWay ss))
  else if !ems.isEmpty then some (s.l1Evict cid (s.pickWay ems))
  else none

/-- A push that the line's state, the core and the quota let in. -/
def State.installPush (s : State) (c line : Nat) : State :=
  match s.pushWay c line with
  | some t => (t.l1Set c line .p).answerHome c line .installed
  | none => s.answerHome c line (.refused 4)

/-- l1Push (R295). -/
def execL1Push (c line : Nat) (s : State) : Host.Outcome State Fault Refusal :=
  .next (match s.l1State c line with
    | some .s => s.answerHome c line .installed
    | some .p => s.answerHome c line .installed
    | none =>
      let x := s.core c
      if x.halted then s.answerHome c line (.refused 3)
      else if decide (2 ≤ x.pushedIn line) || decide (256 ≤ x.pushed) then s.answerHome c line (.refused 1)
      else s.installPush c line
    | some _ => s.answerHome c line (.refused 2))

/-- l1EvictAnswer: EI and MI end. -/
def execL1EvictAnswer (c line : Nat) (s : State) : Host.Outcome State Fault Refusal :=
  .next (match s.l1State c line with
    | some .ei => s.setCore c ((s.core c).setL1 line none)
    | some .mi => s.setCore c ((s.core c).setL1 line none)
    | _ => s)

/-! The directory (R296, R297). -/

/-- A stable entry; what waits stays. -/
def State.settleDir (s : State) (line : Nat) (st : DirState) (sharers : List Nat) (node : Bool) (owner : Nat) : State :=
  s.setDir line { s.dirOf line with st := st, sharers := sharers, node := node, owner := owner, busy := none }

/-- Grants a line (R297). -/
def State.grantLine (s : State) (line core : Nat) (excl : Bool) (keep : List Nat) (node : Bool) : State :=
  (if excl then s.settleDir line .e [] false core
    else s.settleDir line .s (if keep.contains core then keep else keep ++ [core]) node 0).post (.l1Fill core line excl)

/-- Counts an answer to a push at the home (R301). -/
def State.countPush (s : State) (dest reason : Nat) : State :=
  let b := corePart dest
  let i := coreIndex dest
  let p := s.part b
  s.setPart b
    (if reason = 0 then { p with pushins := Tbl.set 0 p.pushins i (bump (Tbl.get 0 p.pushins i)) }
    else { p with pushref := Tbl.set 0 p.pushref i (bump (Tbl.get 0 p.pushref i)) })

/-- The entry once nothing is awaited: S with sharers, else I. -/
def State.settleShared (s : State) (line : Nat) (sharers : List Nat) : State :=
  s.settleDir line (if sharers.isEmpty then .i else .s) sharers false 0

/-- The end of a `bst` at the home: refused destinations leave the entry, and every answer is acknowledged to the sender
(R298). -/
def State.endPush (s : State) (line sender : Nat) (results : List (Nat × Nat)) : State :=
  let refused (k : Nat) : Bool := results.any fun e => e.1 == k && e.2 != 0
  results.foldl (fun t e => t.post (.batonAck sender line e.1 e.2))
    (s.settleShared line ((s.dirOf line).sharers.filter fun k => !refused k))

/-- After the write of a `bst`: pushes to its destinations, or reason 5 when the line holds an error (R298, R303). -/
def State.pushLine (s : State) (line sender : Nat) (dests keep : List Nat) : State :=
  let sharers := keep ++ dests.filter fun d => !keep.contains d
  let s1 := s.setDir line { s.dirOf line with st := .s, sharers := sharers, node := false, owner := 0, busy := none }
  if s.memPoisoned (128 * line) 128 then
    (dests.foldl (fun t d => t.countPush d 5) s1).endPush line sender (dests.map fun d => (d, 5))
  else if dests.isEmpty then s1.settleShared line keep
  else
    dests.foldl (fun t d => t.post (.l1Push d line))
      (s1.setDir line { s1.dirOf line with busy := some (dests, .pushed sender []) })

/-- The writes of a job under a key. -/
def jobPuts (j : HomeJob) (key : Nat) : List Put :=
  (j.puts.filter fun p => p.key == key).map fun p => ⟨p.pa, p.data⟩

/-- The home performs the writes it was sent for a group, whose request ends. -/
def State.performJob (s : State) (j : HomeJob) : State :=
  (dedupNat (j.puts.map fun p => p.key)).foldl (fun t k => t.putKeyed k (jobPuts j k)) (s.dropRemote j.req)

/-- Performs a request whose answers have come (R297): the bytes of a write, or the operation of a `red` (R183, R273). -/
def State.performReq (s : State) (req : Instr) : State :=
  match req with
  | .homeWrite _ _ addr bytes => if bytes.isEmpty then s else s.putKeyed 0 [⟨addr, bytes⟩]
  | .nearDataOp _ op size addr ⟨operand, j⟩ =>
    if (s.remote j.req).live then
      ((s.dropRemote j.req).rmw j.key addr op size (operand.toNat % 2 ^ (8 * sizeBytes size)) 0).1
    else s
  | _ => s

/-- The home holds a line for the access of an agent without a copy, which comes next (R297). -/
def State.holdLine (s : State) (line : Nat) (g : AgentId) (write : Bool) : State :=
  s.setDir line { s.dirOf line with busy := some ([], .held g write) }

/-- What a busy home does when its last answer has come; what a reset of the partition has ended is not performed (R402). -/
def State.finishBusy (s : State) (line : Nat) (t : HomeThen) : State :=
  match t with
  | .grant core excl keep => s.grantLine line core excl keep false
  | .node keep => (s.settleDir line .s keep true 0).post (.l1Fill nodeAgent line false)
  | .push sender dests keep job =>
    if (s.remote job.req).live then (s.performJob job).pushLine line sender dests keep else s.settleShared line keep
  | .pushed sender results => s.endPush line sender results
  | .settle st keep node => s.settleDir line st keep node 0
  | .perform req => (s.settleDir line .i [] false 0).performReq req
  | .hold g write st keep => (s.settleDir line st keep false 0).holdLine line g write
  | .held g write => s.holdLine line g write
  | .evict =>
    let s1 := s.settleDir line .i [] false 0
    if (s.dirOf line).waiting.isEmpty then (s1.l2Drop line).l2Left line else s1

/-- Sends messages to cores and to the node cache and waits for their answers; with none to wait for, goes on at once. -/
def State.await (s : State) (line : Nat) (cores : List Nat) (msg : Nat → Instr) (t : HomeThen) : State :=
  if cores.isEmpty then s.finishBusy line t
  else
    cores.foldl (fun u c => u.post (msg c)) (s.setDir line { s.dirOf line with busy := some (cores, t) })

/-- The holders that a directory entry in S names, the node cache among them. -/
def Dir.holders (d : Dir) : List Nat := d.sharers ++ if d.node then [nodeAgent] else []

/-- Takes every copy of a line back, then goes on (R297: a write of no core's L1). -/
def State.takeBack (s : State) (line : Nat) (t : HomeThen) : State :=
  let d := s.dirOf line
  match d.st with
  | .i => s.finishBusy line t
  | .s => s.await line d.holders (fun k => .l1Inv k line) t
  | .e => s.await line [d.owner] (fun k => .l1RecallI k line) t

/-- The home serves a request for a line that is not busy (R297). -/
def State.serveHome (s : State) (line : Nat) (req : Instr) : State :=
  let d := s.dirOf line
  match req, d.st with
  | .homeGets c _, .i => s.grantLine line c true [] false
  | .homeGets c _, .s => s.grantLine line c false d.sharers d.node
  | .homeGets c _, .e => s.await line [d.owner] (fun k => .l1RecallS k line) (.grant c false [d.owner])
  | .homeGetm c _, .i => s.grantLine line c true [] false
  | .homeGetm c _, .s => s.await line (d.holders.filter (· != c)) (fun k => .l1Inv k line) (.grant c true [])
  | .homeGetm c _, .e => s.await line [d.owner] (fun k => .l1RecallI k line) (.grant c true [])
  | .nodeCacheFill _ _, .i => s.finishBusy line (.node [])
  | .nodeCacheFill _ _, .s => s.finishBusy line (.node d.sharers)
  | .nodeCacheFill _ _, .e => s.await line [d.owner] (fun k => .l1RecallS k line) (.node [d.owner])
  | .bstHomeWrite c _ ⟨dests, job⟩, .s =>
    let keep := d.sharers.filter fun k => k != c && dests.contains k
    s.await line (c :: d.holders.filter fun k => k != c && !dests.contains k) (fun k => .l1Inv k line) (.push c dests keep job)
  | .bstHomeWrite c _ ⟨dests, job⟩, _ => s.takeBack line (.push c dests [] job)
  | .homeWrite a _ _ bytes, _ => s.takeBack line (if bytes.isEmpty then .hold a true .i [] else .perform req)
  | .nearDataOp _ _ _ _ _, _ => s.takeBack line (.perform req)
  | .homeRead a _ _ _, .e => s.await line [d.owner] (fun k => .l1RecallS k line) (.hold a false .s [d.owner])
  | .homeRead a _ _ _, _ => s.holdLine line a false
  | .homeEvictionNotice c _ dirty, .e =>
    if d.owner = c then
      (((s.writeBackCheck c line dirty).l1Forget c line).settleDir line .i [] false 0).post (.l1EvictAnswer c line)
    else (s.l1Forget c line).post (.l1EvictAnswer c line)
  | .homeEvictionNotice c _ _, _ => (s.l1Forget c line).post (.l1EvictAnswer c line)
  | _, _ => s

/-- Serves the requests that waited, in order, until one makes the line busy again (R296). -/
def State.serveWaiting (s : State) (line : Nat) : List Instr → State
  | [] => s.setDir line { s.dirOf line with waiting := [] }
  | r :: rest =>
    if (s.dirOf line).busy.isSome then s.setDir line { s.dirOf line with waiting := r :: rest }
    else (s.serveHome line r).serveWaiting line rest

/-- Lines whose homes are free again serve what waits there (R296). -/
def State.serveFreed (s : State) : State :=
  s.dir.foldl
    (fun t e => if (t.dirOf e.1).busy.isNone && !(t.dirOf e.1).waiting.isEmpty then t.serveWaiting e.1 (t.dirOf e.1).waiting else t) s

/-! Room in the slice (R269, R270). -/

/-- The ways that can be taken back for a line for which the slice has none idle. -/
def State.l2Victims (s : State) (line : Nat) : List Nat :=
  (s.l2Ways line).filter fun k => (s.dirOf k).busy.isNone && (s.dirOf k).waiting.isEmpty

/-- Whether a way of the set is being evicted. -/
def State.l2Evicting (s : State) (line : Nat) : Bool :=
  (s.l2Ways line).any fun k => match (s.dirOf k).busy with
    | some (_, .evict) => true
    | _ => false

/-- A request reaches the home: it waits while the line is busy. A line that the slice does not hold takes a way; where none is
idle the slice takes back every copy of a line before it evicts it, and the request, first in its channel, arrives again. -/
def State.atHome (s : State) (line : Nat) (req : Instr) : Host.Outcome State Fault Refusal :=
  let d := s.dirOf line
  if d.busy.isSome || !d.waiting.isEmpty then .next (s.setDir line { d with waiting := d.waiting ++ [req] })
  else
    match s.l2Take line with
    | some t => .next (({ t with l2 := if t.l2.contains line then t.l2 else t.l2 ++ [line] }).serveHome line req)
    | none =>
      match s.l2Victims line with
      | [] => .fault .notEnabled
      | v :: vs =>
        if s.l2Evicting line then .fault .notEnabled
        else
          let s1 := { s with flight := req :: s.flight }
          .next (s1.takeBack (nthD v (v :: vs) (s.choose % (vs.length + 1))) .evict)

def execHomeGets (c line : Nat) (s : State) : Host.Outcome State Fault Refusal := s.atHome line (.homeGets c line)
def execHomeGetm (c line : Nat) (s : State) : Host.Outcome State Fault Refusal := s.atHome line (.homeGetm c line)
def execNodeCacheFill (part line : Nat) (s : State) : Host.Outcome State Fault Refusal :=
  s.atHome line (.nodeCacheFill part line)
def execBstHomeWrite (c line : Nat) (push : HomePush) (s : State) : Host.Outcome State Fault Refusal :=
  s.atHome line (.bstHomeWrite c line push)
def execHomeWrite (a : AgentId) (part addr : Nat) (bytes : List Byte) (s : State) : Host.Outcome State Fault Refusal :=
  s.atHome (addr / 128) (.homeWrite a part addr bytes)
def execHomeRead (a : AgentId) (part addr n : Nat) (s : State) : Host.Outcome State Fault Refusal :=
  s.atHome (addr / 128) (.homeRead a part addr n)

/-- nearDataOp: a `red` (R183) that has reached its home. -/
def execNearDataOp (c : Nat) (op : AtomOp) (size : Size) (addr : Nat) (operand : NearOperand) (s : State) :
    Host.Outcome State Fault Refusal :=
  s.atHome (addr / 128) (.nearDataOp c op size addr operand)

/-- homeEvictionNotice: the slice holds the line, or has just taken it back. -/
def execHomeEvictionNotice (c line : Nat) (dirty : Bool) (s : State) : Host.Outcome State Fault Refusal :=
  let d := s.dirOf line
  let req := Instr.homeEvictionNotice c line dirty
  .next (if d.busy.isSome || !d.waiting.isEmpty then s.setDir line { d with waiting := d.waiting ++ [req] }
    else s.serveHome line req)

def CohAnswer.reason : CohAnswer → Nat
  | .refused r => r
  | _ => 0

/-- What follows an answer of c: a push's result is kept and counted (R298, R301). -/
def State.answered (s : State) (c : Nat) (ans : CohAnswer) (t : HomeThen) : State × HomeThen :=
  match t with
  | .pushed sender results => (s.countPush c (CohAnswer.reason ans), .pushed sender (results ++ [(c, CohAnswer.reason ans)]))
  | t => (s, t)

/-- homeAnswer: the last of the awaited answers ends the busy state, and the requests that waited are served. -/
def execHomeAnswer (c line : Nat) (ans : CohAnswer) (s : State) : Host.Outcome State Fault Refusal :=
  let d := s.dirOf line
  match d.busy with
  | none => .fault .notEnabled
  | some (cores, t) =>
    if cores.contains c then
      let left := cores.filter (· != c)
      let r := s.answered c ans t
      .next (if left.isEmpty then
          let s2 := (r.1.setDir line { d with busy := none }).finishBusy line r.2
          s2.serveWaiting line (s2.dirOf line).waiting
        else r.1.setDir line { d with busy := some (left, r.2) })
    else .fault .notEnabled

/-! Batons (R299). -/

/-- Clears the bit of a destination in the oldest entry of a line that awaits it; an empty entry is freed. -/
def ackBaton (line dest : Nat) : List Baton → List Baton
  | [] => []
  | b :: r =>
    if b.line = line ∧ b.pending.contains dest then
      let left := b.pending.filter (· != dest)
      if left.isEmpty then r else { b with pending := left } :: r
    else b :: ackBaton line dest r

/-- batonAck. -/
def execBatonAck (c line dest reason : Nat) (s : State) : Host.Outcome State Fault Refusal :=
  let _ := reason
  .next (s.setCore c { s.core c with batons := ackBaton line dest (s.core c).batons })

/-! Home copies of peer and host lines (R275). -/

/-- peerCopyExpiry: 65536 mesh cycles after its fill the copy is dropped. -/
def execPeerCopyExpiry (line : Nat) (s : State) : Host.Outcome State Fault Refusal :=
  match Tbl.find s.copies line with
  | some c =>
    if 65536 * s.mgmt.coreClk ≤ (s.now - c.filled) * s.mgmt.meshClk then .next { s with copies := Tbl.erase s.copies line }
    else .fault .notEnabled
  | none => .fault .notEnabled

end Sys2Proof.Machine
end

