-- ==== Sys2Proof/Machine/Sfn.lean ====
section
/-! DEFINITION. The special functions of R145. A value that no finite binary number equals is given by its bits to
2^-704, computed in fixed point with 768 fraction bits; every operand of binary16 and binary32 keeps these functions far
further from a rounding boundary than that (log 13). -/
namespace Sys2Proof.Machine

open Sys2Proof

def sfnBits : Nat := 768
def sfnOne : Nat := 2 ^ sfnBits

/-- Fixed-point product. -/
def fxMul (x y : Nat) : Nat := x * y / sfnOne

/-- Σ x^k/k! from k on, t the last term. -/
def expFrom (x t k : Nat) : Nat → Nat
  | 0 => 0
  | fuel + 1 =>
    let t' := fxMul t x / k
    t' + expFrom x t' (k + 1) fuel

/-- e^x - 1 for 0 ≤ x < 1. -/
def expm1Fx (x : Nat) : Nat := expFrom x sfnOne 1 220

/-- Σ z^(2k+1)/(2k+1), t the power. -/
def atanhFrom (z2 t k : Nat) : Nat → Nat
  | 0 => 0
  | fuel + 1 => t / k + atanhFrom z2 (fxMul t z2) (k + 2) fuel

/-- atanh z for 0 ≤ z ≤ 1/3. -/
def atanhFx (z : Nat) : Nat := atanhFrom (fxMul z z) z 1 260

def ln2Fx : Nat := 2 * atanhFx (sfnOne / 3)

/-- Σ ±1/((2k+1)·n^(2k+1)), t the power. -/
def atanInvFrom (n2 t k : Nat) : Nat → Int
  | 0 => 0
  | fuel + 1 => (t / k : Nat) - atanInvFrom n2 (t / n2) (k + 2) fuel

def piFx : Nat :=
  (16 * atanInvFrom 25 (sfnOne / 5) 1 180 - 4 * atanInvFrom (239 * 239) (sfnOne / 239) 1 60).toNat

/-- Alternating series of sine and cosine from a term t = y^k/k!. -/
def trigFrom (y2 t k : Nat) : Nat → Int
  | 0 => 0
  | fuel + 1 => (t : Int) - trigFrom y2 (fxMul t y2 / ((k + 1) * (k + 2))) (k + 2) fuel

/-- sin(πu) and cos(πu) for 0 < u < 1/2. -/
def sinPiFx (u : Nat) : Nat := let y := fxMul piFx u; (trigFrom (fxMul y y) y 1 110).toNat
def cosPiFx (u : Nat) : Nat := let y := fxMul piFx u; (trigFrom (fxMul y y) sfnOne 0 110).toNat

/-- e^x for x ≥ 0. -/
def expFx (x : Nat) : Nat :=
  let k := x / ln2Fx
  2 ^ k * (sfnOne + expm1Fx (x % ln2Fx))

/-- A transcendental magnitude x·2^e given in fixed point. -/
def sfnReal (neg : Bool) (x : Nat) (e : Int) : Exact := .real neg (x / 2 ^ 64) (e - 704) true

/-- m·2^e with its fraction exact in fixed point. -/
def toFx (m : Nat) (e : Int) : Nat := scaleNat m (e + sfnBits)

/-- A magnitude just below 1, and one just above 0. -/
def belowOne (neg : Bool) : Exact := .real neg (2 ^ 704 - 1) (-704) true
def aboveZero : Exact := .real false 1 (-2000) true

def exactOne (neg : Bool) : Exact := .real neg 1 0 false

def clampExp (i : Int) : Int := if i < -100000 then -100000 else if 100000 < i then 100000 else i

def exp2Fin (neg : Bool) (m : Nat) (e : Int) : Exact :=
  if 0 ≤ e then
    let i : Int := if e ≤ 40 then (scaleNat m e : Nat) else 1000000
    .real false 1 (clampExp (if neg then -i else i)) false
  else
    let x := toFx m e
    if x % sfnOne = 0 then
      let i : Int := (x / sfnOne : Nat)
      .real false 1 (clampExp (if neg then -i else i)) false
    else
      let k : Int := if neg then -((x / sfnOne : Nat) : Int) - 1 else (x / sfnOne : Nat)
      let f := if neg then sfnOne - x % sfnOne else x % sfnOne
      sfnReal false (sfnOne + expm1Fx (fxMul f ln2Fx)) (clampExp k)

def log2Fin (m : Nat) (e : Int) : Exact :=
  let lg := Nat.log2 m
  let i : Int := lg + e
  if m = 2 ^ lg then (if i = 0 then exactZero false else .real (decide (i < 0)) i.natAbs 0 false)
  else
    let z := (m - 2 ^ lg) * sfnOne / (m + 2 ^ lg)
    let f := 2 * atanhFx z * sfnOne / ln2Fx
    let v : Int := i * sfnOne + f
    sfnReal (decide (v < 0)) v.natAbs 0

/-- Sine of π times ±m·2^e, which is not an integer. -/
def sinPiFin (neg : Bool) (m : Nat) (e : Int) : Exact :=
  let t := toFx m e % (2 * sfnOne)
  let sg := neg != decide (sfnOne < t)
  let u := t % sfnOne
  if u = 0 then exactZero neg
  else if 2 * u = sfnOne then exactOne sg
  else sfnReal sg (sinPiFx (if sfnOne < 2 * u then sfnOne - u else u)) 0

def cosPiFin (m : Nat) (e : Int) : Exact :=
  let t0 := toFx m e % (2 * sfnOne)
  let t := if sfnOne < t0 then 2 * sfnOne - t0 else t0
  if t = 0 then exactOne false
  else if t = sfnOne then exactOne true
  else if 2 * t = sfnOne then exactZero false
  else if 2 * t < sfnOne then sfnReal false (cosPiFx t) 0
  else sfnReal true (cosPiFx (sfnOne - t)) 0

/-- tanh of a positive magnitude. -/
def tanhFin (neg : Bool) (m : Nat) (e : Int) : Exact :=
  if 7 < (Nat.log2 m : Int) + e then belowOne neg
  else
    let x := 2 * toFx m e
    let e1 := if x < sfnOne / 2 then expm1Fx x else expFx x - sfnOne
    sfnReal neg (e1 * sfnOne / (e1 + 2 * sfnOne)) 0

def sigmFin (neg : Bool) (m : Nat) (e : Int) : Exact :=
  if 7 < (Nat.log2 m : Int) + e then (if neg then aboveZero else belowOne false)
  else
    let ex := expFx (toFx m e)
    sfnReal false ((if neg then sfnOne else ex) * sfnOne / (ex + sfnOne)) 0

/-- A special function of a value (R145). -/
def sfnExact (fn : Sfn) (v : Val) : Exact :=
  match v with
  | .nan s => quietNan s
  | .inf n =>
    match fn with
    | .exp2 => if n then exactZero false else .done ⟨.inf false, 0⟩
    | .log2 => if n then quietNan true else .done ⟨.inf false, 0⟩
    | .sinpi => quietNan true
    | .cospi => quietNan true
    | .tanh => exactOne n
    | .sigm => if n then exactZero false else exactOne false
  | .zero n =>
    match fn with
    | .exp2 => exactOne false
    | .log2 => .done ⟨.inf true, Flags.dz⟩
    | .sinpi => exactZero n
    | .cospi => exactOne false
    | .tanh => exactZero n
    | .sigm => .real false 1 (-1) false
  | .fin n m e =>
    match fn with
    | .exp2 => exp2Fin n m e
    | .log2 => if n then quietNan true else log2Fin m e
    | .sinpi => sinPiFin n m e
    | .cospi => cosPiFin m e
    | .tanh => tanhFin n m e
    | .sigm => sigmFin n m e

end Sys2Proof.Machine
end

