-- ==== Sys2Proof/Machine/LaneFp.lean ====
section
/-! DEFINITION. The lane floating-point family (R134-R145). -/
namespace Sys2Proof.Machine

open Sys2Proof

/-- A lane floating-point instruction: f gives each guarded lane's result; ops by descending tail bits. -/
def State.fpLanes (s : State) (g : Guard) (nf : Bool) (ops : List Opnd) (d : Reg) (wide : Bool) (f : Nat → FpOut) :
    Host.Outcome State Fault Refusal :=
  let lanes := s.lanes g
  let outs := lanes.map fun l => (l, f l)
  let flags := outs.map fun e => (⟨e.1, e.2.flags⟩ : LaneFlags)
  groupOp s (firstStop [s.operandStop lanes ops, s.guardStop g, s.fpStop nf flags])
    ((s.raiseFlags nf flags).writeV d.toNat wide (outs.map fun e => (e.1, e.2.bits))).advance

def fpBinOps (o : FpBin) : List Opnd :=
  [opV o.b (Ty.wide o.ty) true, opV o.a (Ty.wide o.ty) true, opV o.d (Ty.wide o.ty) false]

def fpUnOps (o : FpUn) : List Opnd := [opV o.a (Ty.wide o.ty) true, opV o.d (Ty.wide o.ty) false]

/-- Two-operand arithmetic rounded once (R137, R138). -/
def State.fpBin (s : State) (g : Guard) (o : FpBin) (f : Mode → Val → Val → Exact) : Host.Outcome State Fault Refusal :=
  let w := Ty.wide o.ty
  let c := Ty.enc o.ty
  s.fpLanes g o.nf (fpBinOps o) o.d w fun l =>
    let m := s.cg.mode o.rnd l
    onElements o.ty (fun x y _ => fpRound o.ty m (f m (c.decode x) (c.decode y)))
      (s.cg.readV w o.a.toNat l) (s.cg.readV w o.b.toNat l) 0

/-- One-operand arithmetic rounded once (R138). -/
def State.fpUn (s : State) (g : Guard) (o : FpUn) (f : Val → Exact) : Host.Outcome State Fault Refusal :=
  let w := Ty.wide o.ty
  let c := Ty.enc o.ty
  s.fpLanes g o.nf (fpUnOps o) o.d w fun l =>
    onElements o.ty (fun x _ _ => fpRound o.ty (s.cg.mode o.rnd l) (f (c.decode x))) (s.cg.readV w o.a.toNat l) 0 0

/-- Bits of each element, unrounded (R139, R140). -/
def State.fpBits (s : State) (g : Guard) (o : FpBin) (f : Nat → Nat → FpOut) : Host.Outcome State Fault Refusal :=
  let w := Ty.wide o.ty
  s.fpLanes g o.nf (fpBinOps o) o.d w fun l =>
    onElements o.ty (fun x y _ => f x y) (s.cg.readV w o.a.toNat l) (s.cg.readV w o.b.toNat l) 0

def execFadd (g : Guard) (o : FpBin) (s : State) : Host.Outcome State Fault Refusal := s.fpBin g o Val.add
def execFsub (g : Guard) (o : FpBin) (s : State) : Host.Outcome State Fault Refusal :=
  s.fpBin g o fun m a b => Val.add m a b.neg
def execFmul (g : Guard) (o : FpBin) (s : State) : Host.Outcome State Fault Refusal :=
  s.fpBin g o fun _ a b => Val.mul a b
def execFdiv (g : Guard) (o : FpBin) (s : State) : Host.Outcome State Fault Refusal :=
  s.fpBin g o fun _ a b => Val.div (Ty.fmt o.ty).p a b
def execFsqrt (g : Guard) (o : FpUn) (s : State) : Host.Outcome State Fault Refusal :=
  s.fpUn g o (Val.sqrt (Ty.fmt o.ty).p)
def execFrcp (g : Guard) (o : FpUn) (s : State) : Host.Outcome State Fault Refusal :=
  s.fpUn g o (Val.recip (Ty.fmt o.ty).p)
def execFrsq (g : Guard) (o : FpUn) (s : State) : Host.Outcome State Fault Refusal :=
  s.fpUn g o (Val.rsqrt (Ty.fmt o.ty).p)

/-- a · b + c, the product unrounded (R137). -/
def execFma (g : Guard) (o : FpTri) (s : State) : Host.Outcome State Fault Refusal :=
  let w := Ty.wide o.ty
  let c := Ty.enc o.ty
  s.fpLanes g o.nf [opV o.c w true, opV o.b w true, opV o.a w true, opV o.d w false] o.d w fun l =>
    let m := s.cg.mode o.rnd l
    onElements o.ty (fun x y z => fpRound o.ty m (Val.fma m (c.decode x) (c.decode y) (c.decode z)))
      (s.cg.readV w o.a.toNat l) (s.cg.readV w o.b.toNat l) (s.cg.readV w o.c.toNat l)

def execFmin (g : Guard) (o : FpBin) (s : State) : Host.Outcome State Fault Refusal :=
  s.fpBits g o (minMaxBits (Ty.enc o.ty) false)
def execFmax (g : Guard) (o : FpBin) (s : State) : Host.Outcome State Fault Refusal :=
  s.fpBits g o (minMaxBits (Ty.enc o.ty) true)

/-- Sign bit operations (R140); sign gives an element's new top half from its old. -/
def State.fpSign (s : State) (g : Guard) (o : FpUn) (f : Nat → Nat → Nat) : Host.Outcome State Fault Refusal :=
  let w := Ty.wide o.ty
  let top := (Ty.enc o.ty).eb + (Ty.enc o.ty).fb
  s.fpLanes g o.nf (fpUnOps o) o.d w fun l =>
    onElements o.ty (fun x _ _ => ⟨f (2 ^ top) x, 0⟩) (s.cg.readV w o.a.toNat l) 0 0

def execFabs (g : Guard) (o : FpUn) (s : State) : Host.Outcome State Fault Refusal := s.fpSign g o fun t x => x % t
def execFneg (g : Guard) (o : FpUn) (s : State) : Host.Outcome State Fault Refusal :=
  s.fpSign g o fun t x => if x < t then x + t else x - t

/-- Comparison into a predicate (R141). -/
def execFcmp (g : Guard) (o : FcmpOp) (s : State) : Host.Outcome State Fault Refusal :=
  let w := Ty.wide o.ty
  let c := Ty.enc o.ty
  let lanes := s.lanes g
  let outs := lanes.map fun l =>
    (l, Cond.onVals o.cond (c.decode (s.cg.readV w o.a.toNat l)) (c.decode (s.cg.readV w o.b.toNat l)))
  let flags := outs.map fun e => (⟨e.1, e.2.2⟩ : LaneFlags)
  groupOp s
    (firstStop [s.operandStop lanes [opV o.b w true, opV o.a w true], s.guardStop g, s.fpStop o.nf flags])
    ((s.raiseFlags o.nf flags).writeP o.d.toNat (s.cg.guarded g)
      (maskOf fun l => outs.any fun e => e.1 == l && e.2.1)).advance

/-- The class bit of an element (R142). -/
def classBit (c : Enc) (x : Nat) : Nat :=
  match c.decode x with
  | .inf n => if n then 0 else 7
  | .zero n => if n then 3 else 4
  | .nan sig => if sig then 8 else 9
  | .fin n _ _ => if x / 2 ^ c.fb % 2 ^ c.eb = 0 then (if n then 2 else 5) else (if n then 1 else 6)

def execFclass (g : Guard) (o : FpUn) (s : State) : Host.Outcome State Fault Refusal :=
  let w := Ty.wide o.ty
  s.fpLanes g o.nf [opV o.a w true, opV o.d false false] o.d false fun l =>
    ⟨2 ^ classBit (Ty.enc o.ty) (s.cg.readV w o.a.toNat l), 0⟩

/-- Element 0 of an operand (R134). -/
def element0 (t : Ty) (x : Nat) : Nat := if Ty.packed t then x % 65536 else x

/-- The value converted by fcvt (R88, R143). -/
def cvtValue (t : Ty) (x : Nat) : Val :=
  if Ty.isFloat t then (Ty.enc t).decode (element0 t x)
  else
    let w := if Ty.wide t then 64 else 32
    Val.ofInt (if Ty.signed t then signedOf w x else (x % 2 ^ w : Nat))

def cvtResult (t : Ty) (m : Mode) (v : Val) : FpOut :=
  if Ty.isFloat t then fpRound t m v.forConvert
  else
    let r := v.toInt m (if Ty.wide t then 64 else 32) (Ty.signed t)
    ⟨r.1, r.2⟩

def execFcvt (g : Guard) (o : FcvtOp) (s : State) : Host.Outcome State Fault Refusal :=
  s.fpLanes g o.nf [opV o.a (Ty.wide o.sty) true, opV o.d (Ty.wide o.dty) false] o.d (Ty.wide o.dty) fun l =>
    cvtResult o.dty (s.cg.mode o.rnd l) (cvtValue o.sty (s.cg.readV (Ty.wide o.sty) o.a.toNat l))

/-- Rounding to an integral value (R144). -/
def execFround (g : Guard) (o : FpUn) (s : State) : Host.Outcome State Fault Refusal :=
  let w := Ty.wide o.ty
  let c := Ty.enc o.ty
  s.fpLanes g o.nf (fpUnOps o) o.d w fun l =>
    let r := Val.roundIntegral (s.cg.mode o.rnd l) (c.decode (element0 o.ty (s.cg.readV w o.a.toNat l)))
    ⟨c.encode r.val, r.flags⟩

/-- Special functions on each element (R145). -/
def execFsfn (g : Guard) (o : FsfnOp) (s : State) : Host.Outcome State Fault Refusal :=
  let c := Ty.enc o.ty
  s.fpLanes g o.nf [opV o.a false true, opV o.d false false] o.d false fun l =>
    onElements o.ty (fun x _ _ => fpRound o.ty (s.cg.mode o.rnd l) (sfnExact o.fn (c.decode x)))
      (s.cg.readV false o.a.toNat l) 0 0

end Sys2Proof.Machine
end

