-- ==== Sys2Proof/Machine/Swap.lean ====
section
/-! DEFINITION. Context swaps (R302, R331, R353-R357). -/
namespace Sys2Proof.Machine

open Sys2Proof

/-- ctxctlSwapRequest (R344): a request made while a swap runs is discarded. -/
def execCtxctlSwapRequest (b : Nat) (v : Word) (s : State) : Host.Outcome State Fault Refusal := .next (s.ctxctl b v)

/-! Step 2. -/

/-- Recalls for away walks; hosted walks and hosted intake entries go home (R331, R337). -/
def State.swapWalks (s : State) (b : Nat) : State :=
  let away := s.walks.filter fun e => e.2.live && corePart (e.1 / 64) == b && match e.2.wait with
    | .away _ => true
    | _ => false
  let s1 := away.foldl (fun t e => t.sendRelay b 8 ((e.2.relayed).getD 0) (t.walkMsg e.1)) s
  let s2 := s1.hostedHome b
  { s2 with cores := s2.cores.map fun c =>
      if corePart c.1 = b then (c.1, { c.2 with intake := c.2.intake.filter fun e => e.hosted.isNone }) else c }

/-- The groups of a partition context that have not retired. -/
def State.ctxGroups (s : State) (b ctx : Nat) : List (Nat × Group) :=
  s.groups.filter fun e => e.2.live && (s.team e.2.team).part == b && coreCtx (s.team e.2.team).core == ctx

/-- Whether a store of the group or a `bst` acknowledgement is still to come (R193), but for writes that only a read behind them
shows performed (R394). -/
def State.storesOpen (s : State) (g : Nat) : Bool :=
  (s.core (s.team (s.group g).team).core).batons.any (fun q => q.group == g) ||
    s.remotes.any fun e => e.2.live && e.2.who == .store g && !e.2.posted

/-- A path at its instruction boundary: nothing of the instruction at its PC is begun. -/
def Path.rested (p : Path) : Path :=
  { p with served := [], asked := [], under := [], waits := false, issued := Option.none }

/-- Whether a group is inside an instruction, which it completes first: one of a pair too (R263). -/
def Group.inside (g : Group) : Bool := g.run.issued.isSome

/-- A group stopped at a boundary: pre-emption is a switching point of its paths (R94, R257). -/
def Group.preempted (g : Group) : Group :=
  { (if g.run.mask = 0 then g else { g with run := g.run.rested }.giveWay) with halted := true }

/-- A core halts once no group of it runs on, and refuses pushes from then on (R302, R430 case N6). -/
def State.haltCore (s : State) (c : Nat) : State :=
  if s.groups.any fun e => e.2.live && !e.2.halted && (s.team e.2.team).core == c then s
  else s.setCore c { s.core c with halted := true }

/-- groupSwapStop: the group is at a boundary, its stores and `bst` acknowledgements complete (R193). -/
def execGroupSwapStop (g : Nat) (s : State) : Host.Outcome State Fault Refusal :=
  let x := s.group g
  let t := s.team x.team
  let p := s.part t.part
  if x.live && !x.halted && p.pastat == 2 && p.swap == some 2 && p.live == coreCtx t.core && !x.inside &&
      !s.storesOpen g then
    if s.hostWrites (· == .store g) then s.orFlush t.part (· == .store g)
    else .next ((s.setGroup g x.preempted).haltCore t.core)
  else .fault .notEnabled

/-! Step 3. -/

/-- Whether walks of the partition are still on peers, or hosted ones not yet home. -/
def State.walksOut (s : State) (b : Nat) : Bool :=
  s.walks.any fun e => e.2.live && corePart (e.1 / 64) == b && (e.2.hosted.isSome || e.2.relayed.isSome)

def L1State.settled : L1State → Bool
  | .s => true
  | .p => true
  | .e => true
  | .m => true
  | _ => false

/-- Whether a write of the partition to the host is one that only a read behind it shows performed (R394). -/
def State.partPosts (s : State) (b : Nat) : Bool :=
  s.remotes.any fun e => e.2.part == b && e.2.posted

/-- Whether nothing of the partition's accesses is outstanding: baton entries, coherence requests, the host and peers, but for
writes that only a read behind them shows. -/
def State.swapQuiet (s : State) (b ctx : Nat) : Bool :=
  ((bandCores b ctx).all fun c => (s.core c).batons.isEmpty && (s.core c).l1.all fun e => e.st.settled) &&
    !s.walksOut b &&
    !(s.remotes.any fun e => e.2.live && e.2.part == b && !e.2.posted)

/-- A local walk is discarded with its held records and restarts from its checkpoint; one that has not read its query reads
it again (R331). -/
def State.resetWalk (s : State) (w : Nat) : State :=
  let x := s.walk w
  if x.qb.isEmpty then s.setWalk w { x with wait := .ready, served := [] } else s.resumeWalk w x.cp

/-- A copy in progress is issued again from its recorded operands (R210). -/
def Core.recopy (c : Core) : Core := { c with copyQ := c.copyQ.map fun x => { x with moved := 0, served := [] } }

/-- What a save keeps of a quad's operand stage (R312): the running command's buffer, of a `wua` command still in step 4 the
rows received so far; a tile move stages its rows again (R313), and what was staged ahead is discarded. DESIGN CHOICE: B and the side area of a `wua`
command in step 4 are read again, R309 reading each operand once and R312 saving the rows alone (log 78). -/
def Quad.restaged (q : Quad) (op : Option CmdOp) : Quad :=
  match op with
  | some (.mma _ _ o _ _ _) => { q with own := if o.wua then Option.none else q.own, ahead := Option.none }
  | some _ => { q with staged := false, own := Option.none, buf := [], ahead := Option.none }
  | Option.none => { q with ahead := Option.none }

def State.restage (s : State) (qk : Nat) : State :=
  s.setQuad qk ((s.quad qk).restaged ((s.running qk).map fun e => e.2.op))

def State.setHalted (s : State) (b ctx : Nat) (v : Bool) : State :=
  (bandCores b ctx).foldl (fun t c => t.setCore c { t.core c with halted := v }) s

/-- The state of a context as a save leaves it: empty L1s and TLBs, its walks at their checkpoints. -/
def State.saved (s : State) (b ctx : Nat) : State :=
  let s1 := (s.cleanL1 b ctx).purge b ctx fun _ => true
  let s2 := ((s1.walks.filter fun e => e.2.live && corePart (e.1 / 64) == b && coreCtx (e.1 / 64) == ctx).map
    fun e => e.1).foldl State.resetWalk s1
  let s3 := (bandCores b ctx).foldl (fun t c => t.setCore c (t.core c).recopy) s2
  ((List.range 16).map fun j => 64 * ctx + 16 * b + j).foldl State.restage s3

/-- swapCoresHalted: a requested swap begins, and each core halts with its last group (`haltCore`); then, every group
stopped, all cores are halted; then, nothing outstanding, their L1s are cleaned and the exchange begins (R302, R355). -/
def execSwapCoresHalted (b : Nat) (s : State) : Host.Outcome State Fault Refusal :=
  let p := s.part b
  let step (t : State) (n : Nat) : State := t.setPart b { t.part b with swap := some n }
  match if p.pastat = 2 then p.swap else none with
  | some 1 => .next (step ((bandCores b p.live).foldl State.haltCore (s.swapWalks b)) 2)
  | some 2 =>
    if (s.ctxGroups b p.live).all fun e => e.2.halted then .next (step (s.setHalted b p.live true) 3)
    else .fault .notEnabled
  | some 3 =>
    if s.swapQuiet b p.live then .next (if s.partPosts b then s.askFlush b else step (s.saved b p.live) 4) else .fault .notEnabled
  | _ => .fault .notEnabled

/-! Step 5 and resumption (R354, R357). -/

/-- A `semwait` begins anew when it is executed again. -/
def Path.renewed (p : Path) : Path := { p with since := Option.none }

/-- A group of the context that comes back: `semwait` runs again, `waitm` completes with cause 4, `halt` wakes. -/
def Group.restored (g : Group) : Group :=
  let g1 := g.mapParked fun q => if q.isSem then { q with path := q.path.renewed } else q
  let g2 := { g1 with
    run := g1.run.renewed, ready := g1.ready.map Path.renewed, halted := false,
    handler := g1.handler.map fun (h : Handler) => { h with ready := h.ready.map Path.renewed } }
  let g3 := (g2.wakeWhere Parked.isSem).wakeWhere Parked.isHalt
  if g3.allParked.any Parked.isWaitm then g3.wakeMonitor 4 else { g3 with monitor := Option.none }

/-- The idle times of a context's engines count from now (R259). -/
def State.engineTimes (s : State) (b ctx : Nat) : State :=
  let s1 := (bandCores b ctx).foldl
    (fun t c => if (t.core c).engineUse.isEmpty then t else t.setCore c { t.core c with engineUse := [] }) s
  s1.setCtx (2 * b + ctx) { s1.ctx (2 * b + ctx) with resumed := s1.now }

/-- A path whose fault message has no ticket yet executes its instruction again (R357). -/
def State.withoutTicket (s : State) (b ctx : Nat) : State :=
  (s.mails.filter fun e => e.2.live && !e.2.reserved && e.2.part == b && e.2.ctx == ctx).foldl
    (fun t e => match e.2.who with
      | .path g _ _ =>
        { (t.setGroup g ((t.group g).mailWake e.1 none)).dropMail e.1 with
          flight := t.flight.filter (· != .mailboxSlotWrite e.1) }
      | _ => t) s

/-- The exchange: the other context becomes live, its cores take pushes, its waits resume. -/
def State.exchange (s : State) (b : Nat) : State :=
  let old := (s.part b).live
  let new := 1 - old
  let s1 := ((s.setPart b { s.part b with live := new, swap := none }).setHalted b old false).engineTimes b new
  ((s1.ctxGroups b new).foldl (fun t e => t.setGroup e.1 e.2.restored) s1).withoutTicket b new

/-- A context that comes in for the first time has run from then on. -/
def State.markRun (s : State) (b ctx : Nat) : State :=
  (s.setCtx (2 * b + ctx) { s.ctx (2 * b + ctx) with hasRun := true }).setPart b { s.part b with served := [] }

/-- swapExchangeDone: a context that has never run gets its pager, if its record can be launched (R354). -/
def execSwapExchangeDone (b : Nat) (s : State) : Host.Outcome State Fault Refusal :=
  let p := s.part b
  let new := 1 - p.live
  if p.swap = some 4 ∧ p.pastat = 2 ∧ s.asked (.boot b) = false then
    if s.poison.contains (.shadow (2 * b + new)) then .next (s.controlCheck b)
    else if (s.ctx (2 * b + new)).hasRun then .next (s.exchange b)
    else if p.pagers = 0 then .next ((s.exchange b).markRun b new)
    else
      let d := s.bootRead b new
      let s1 := s.bootSeen b new d
      match d.r with
      | .ask asks => .next (s1.askAll b (fun _ => .boot b) asks)
      | .bad => .next ((s1.exchange b).markRun b new)
      | .ok r desc => .next (((s1.exchange b).bootStart b new r desc).markRun b new)
  else .fault .notEnabled

end Sys2Proof.Machine
end

