-- ==== Sys2Proof/Machine/VpArith.lean ====
section
/-! DEFINITION. Variable-precision arithmetic and conversion (R153-R157). -/
namespace Sys2Proof.Machine

open Sys2Proof

/-- Precision to which quotients and roots are formed before their one rounding: beyond every `%prec`. -/
def vpFull : Nat := 231

/-- Arithmetic on x operands named by descending tail bits. -/
def State.vpArith (s : State) (g : Guard) (nf exact : Bool) (rnd : Rnd) (d : Reg) (xs : List Reg)
    (f : Nat → Mode → Exact) : Host.Outcome State Fault Refusal :=
  s.vpWrite g (xs.map (fun r => opX r true) ++ [opX d false]) xs [] d nf exact
    ((s.lanes g).map fun l => s.cg.vpResult rnd l (f l)) s

def State.vpBin (s : State) (g : Guard) (o : VpBin) (f : Mode → Val → Val → Exact) : Host.Outcome State Fault Refusal :=
  s.vpArith g o.nf o.exact o.rnd o.d [o.b, o.a] fun l m => f m (s.cg.xval o.a l) (s.cg.xval o.b l)

def execXadd (g : Guard) (o : VpBin) (s : State) : Host.Outcome State Fault Refusal := s.vpBin g o Val.add
def execXsub (g : Guard) (o : VpBin) (s : State) : Host.Outcome State Fault Refusal :=
  s.vpBin g o fun m a b => Val.add m a b.neg
def execXmul (g : Guard) (o : VpBin) (s : State) : Host.Outcome State Fault Refusal := s.vpBin g o fun _ a b => Val.mul a b
def execXdiv (g : Guard) (o : VpBin) (s : State) : Host.Outcome State Fault Refusal :=
  s.vpBin g o fun _ a b => Val.div vpFull a b

/-- The product is not rounded (R153). -/
def execXfma (g : Guard) (o : VpTri) (s : State) : Host.Outcome State Fault Refusal :=
  s.vpArith g o.nf o.exact o.rnd o.d [o.c, o.b, o.a] fun l m =>
    Val.fma m (s.cg.xval o.a l) (s.cg.xval o.b l) (s.cg.xval o.c l)

def execXsqrt (g : Guard) (o : VpUn) (s : State) : Host.Outcome State Fault Refusal :=
  s.vpArith g o.nf o.exact o.rnd o.d [o.a] fun l _ => Val.sqrt vpFull (s.cg.xval o.a l)

/-- Rounding to the lane's precision (R154). -/
def execXround (g : Guard) (o : VpUn) (s : State) : Host.Outcome State Fault Refusal :=
  s.vpArith g o.nf o.exact o.rnd o.d [o.a] fun l _ => (s.cg.xval o.a l).forConvert

/-- Comparison at the stored precisions (R155). -/
def execXcmp (g : Guard) (o : XcmpOp) (s : State) : Host.Outcome State Fault Refusal :=
  let lanes := s.lanes g
  let outs := lanes.map fun l => (l, Cond.onVals o.cond (s.cg.xval o.a l) (s.cg.xval o.b l))
  let flags := outs.map fun e => (⟨e.1, e.2.2⟩ : LaneFlags)
  groupOp s
    (firstStop
      [s.operandStop lanes [opX o.b true, opX o.a true], s.guardStop g, s.vpFormatStop lanes [o.b, o.a],
        s.fpStop o.nf flags])
    ((s.raiseFlags o.nf flags).writeP o.d.toNat (s.cg.guarded g)
      (maskOf fun l => outs.any fun e => e.1 == l && e.2.1)).advance

/-- Copies of a source's words with its head changed (R156). -/
def State.vpCopy (s : State) (g : Guard) (d a : Reg) (tags : Bool) (f : Nat → Nat) : Host.Outcome State Fault Refusal :=
  let src := if tags then (opX a true).copied else opX a true
  let head (ws : List Nat) : List Nat := match ws with
    | [] => []
    | h :: r => f h :: r
  s.vpWrite g [src, opX d false] [a] [] d true false
    ((s.lanes g).map fun l =>
      ⟨l, head (s.cg.xwords a.toNat l), 0, false, 0, tags && s.cg.tagged 2 a.toNat l, 0⟩) s

def execXneg (g : Guard) (o : VpSign) (s : State) : Host.Outcome State Fault Refusal :=
  s.vpCopy g o.d o.a false fun h => if h < 2 ^ 31 then h + 2 ^ 31 else h - 2 ^ 31
def execXabs (g : Guard) (o : VpSign) (s : State) : Host.Outcome State Fault Refusal :=
  s.vpCopy g o.d o.a false fun h => h % 2 ^ 31
def execXmov (g : Guard) (d a : Reg) (s : State) : Host.Outcome State Fault Refusal := s.vpCopy g d a true fun h => h

/-- The exact value of a v operand of `xcvt` (R157, R88). -/
def xcvtSource (t : Ty) (x : Nat) : Exact :=
  if Ty.isFloat t then ((Ty.enc t).decode (if Ty.packed t then x % 65536 else x)).forConvert
  else (Val.ofInt (valueOf (Ty.signed t) (tyBits t) x)).toExact

/-- The bits of a v result of `xcvt` (R157, R90). -/
def xcvtResult (t : Ty) (m : Mode) (v : Val) : FpOut :=
  if Ty.isFloat t then fpRound t m v.forConvert
  else
    let w := tyBits t
    let r := v.toInt m w (Ty.signed t)
    ⟨wrapTo (if w < 32 then 32 else w) (valueOf (Ty.signed t) w r.1), r.2⟩

def execXcvt (g : Guard) (o : XcvtOp) (s : State) : Host.Outcome State Fault Refusal :=
  let lanes := s.lanes g
  let w := Ty.wide o.ty
  if o.fromVp then
    let outs := lanes.map fun l => (l, xcvtResult o.ty (s.cg.mode o.rnd l) (s.cg.xval o.a l))
    let flags := outs.map fun e => (⟨e.1, e.2.flags⟩ : LaneFlags)
    groupOp s
      (firstStop
        [s.operandStop lanes [opX o.a true, opV o.d w false], s.guardStop g, s.vpFormatStop lanes [o.a],
          s.fpStop o.nf flags])
      ((s.raiseFlags o.nf flags).writeV o.d.toNat w (outs.map fun e => (e.1, e.2.bits))).advance
  else
    s.vpWrite g [opV o.a w true, opX o.d false] [] [] o.d o.nf o.exact
      (lanes.map fun l => s.cg.vpResult o.rnd l fun _ => xcvtSource o.ty (s.cg.readV w o.a.toNat l)) s

end Sys2Proof.Machine
end

