-- ==== Sys2Proof/Machine/WalkScalar.lean ====
section
/-! DEFINITION. Walker scalar operations, moves, loads of buffer fields and branches (R218-R222). -/
namespace Sys2Proof.Machine

open Sys2Proof

/-- n of R218. -/
def walkWidth (f0 : Bool) : Nat := if f0 then 32 else 64

/-- A result of n bits extended to 64 (R218). -/
def walkExtend (n : Nat) (signed : Bool) (r : Nat) : Nat := if signed then wrapTo 64 (signedOf n r) else r % 2 ^ n

/-- An operand of n bits as a number (R218). -/
def walkNum (n : Nat) (signed : Bool) (x : Nat) : Int := if signed then signedOf n x else (x % 2 ^ n : Nat)

/-- An integer operation of R218 on the low n bits of its operands. -/
def State.walkInt (s : State) (o : WBin) (f : Nat → Nat → Nat → Nat) : Host.Outcome State Fault Refusal :=
  let n := walkWidth o.f0
  let x := s.cw.reg o.a.toNat % 2 ^ n
  let y := s.cw.reg o.b.toNat % 2 ^ n
  .next (s.walkWrite o.d.toNat (walkExtend n o.f1 (f n x y)))

def execWadd (o : WBin) (s : State) : Host.Outcome State Fault Refusal := s.walkInt o fun _ x y => x + y
def execWsub (o : WBin) (s : State) : Host.Outcome State Fault Refusal := s.walkInt o fun n x y => x + (2 ^ n - y)
def execWand (o : WBin) (s : State) : Host.Outcome State Fault Refusal := s.walkInt o fun _ x y => x &&& y
def execWor (o : WBin) (s : State) : Host.Outcome State Fault Refusal := s.walkInt o fun _ x y => x ||| y
def execWshl (o : WBin) (s : State) : Host.Outcome State Fault Refusal :=
  s.walkInt o fun n x y => if n ≤ y then 0 else x * 2 ^ y
def execWshr (o : WBin) (s : State) : Host.Outcome State Fault Refusal :=
  s.walkInt o fun n x y => wrapTo n (walkNum n o.f1 x / (2 ^ (if n ≤ y then n else y) : Nat))
def execWmin (o : WBin) (s : State) : Host.Outcome State Fault Refusal :=
  s.walkInt o fun n x y => if walkNum n o.f1 y < walkNum n o.f1 x then y else x
def execWmax (o : WBin) (s : State) : Host.Outcome State Fault Refusal :=
  s.walkInt o fun n x y => if walkNum n o.f1 x < walkNum n o.f1 y then y else x

def execWcmp (o : WCmpOp) (s : State) : Host.Outcome State Fault Refusal :=
  let n := walkWidth o.f0
  let x := walkNum n o.f1 (s.cw.reg o.a.toNat)
  let y := walkNum n o.f1 (s.cw.reg o.b.toNat)
  .next (s.walkWrite o.d.toNat (if Cond.holds o.cond (compare x y) then 1 else 0))

/-! Floating point (R219). -/

def walkTy (f0 : Bool) : Ty := if f0 then .f64 else .f32

/-- The operand bits of a type. -/
def walkBits (t : Ty) (x : Nat) : Nat := if Ty.wide t then x else x % 2 ^ 32

def State.walkFp (s : State) (o : WBin) (f : Ty → Nat → Nat → Nat) : Host.Outcome State Fault Refusal :=
  let t := walkTy o.f0
  .next (s.walkWrite o.d.toNat (f t (walkBits t (s.cw.reg o.a.toNat)) (walkBits t (s.cw.reg o.b.toNat))))

def execWfadd (o : WBin) (s : State) : Host.Outcome State Fault Refusal :=
  s.walkFp o fun t x y => (fpRound t .rne (Val.add .rne ((Ty.enc t).decode x) ((Ty.enc t).decode y))).bits
def execWfmul (o : WBin) (s : State) : Host.Outcome State Fault Refusal :=
  s.walkFp o fun t x y => (fpRound t .rne (Val.mul ((Ty.enc t).decode x) ((Ty.enc t).decode y))).bits
def execWfmin (o : WBin) (s : State) : Host.Outcome State Fault Refusal :=
  s.walkFp o fun t x y => (minMaxBits (Ty.enc t) false x y).bits
def execWfmax (o : WBin) (s : State) : Host.Outcome State Fault Refusal :=
  s.walkFp o fun t x y => (minMaxBits (Ty.enc t) true x y).bits

def execWfcmp (o : WCmpOp) (s : State) : Host.Outcome State Fault Refusal :=
  let t := walkTy o.f0
  let x := (Ty.enc t).decode (walkBits t (s.cw.reg o.a.toNat))
  let y := (Ty.enc t).decode (walkBits t (s.cw.reg o.b.toNat))
  .next (s.walkWrite o.d.toNat (if (Cond.onVals o.cond x y).1 then 1 else 0))

/-! Moves (R220) and field loads (R221). -/

def execWmov (d a : WReg) (s : State) : Host.Outcome State Fault Refusal :=
  .next (s.walkWrite d.toNat (s.cw.reg a.toNat))
def execWli (d a : WReg) (imm : BitVec 16) (s : State) : Host.Outcome State Fault Refusal :=
  .next (s.walkWrite d.toNat (s.cw.reg a.toNat * 65536 + imm.toNat))
def execWsel (d a b c : WReg) (s : State) : Host.Outcome State Fault Refusal :=
  .next (s.walkWrite d.toNat (if s.cw.reg c.toNat ≠ 0 then s.cw.reg a.toNat else s.cw.reg b.toNat))

/-- The buffer that a source code names: nb0 to nb3, or qb (R216). -/
def Walk.buffer (x : Walk) (src : Nat) : List Byte := if src < 4 then x.node src else x.qb

def wldBytes : WldSize → Nat
  | .n64 => 8
  | .n16 => 2
  | _ => 4

def execWld (o : WLd) (s : State) : Host.Outcome State Fault Refusal :=
  let buf := s.cw.buffer o.src.toNat
  let n := wldBytes o.size
  let off := (s.cw.reg o.a.toNat + o.off.toNat) % 2 ^ 64
  if buf.length < off + n ∨ off % n ≠ 0 then .next (s.walkFault s.curWalk 0x0A)
  else
    let v := leValue ((buf.drop off).take n)
    .next (s.walkWrite o.d.toNat (if o.size = .s32 then wrapTo 64 (signedOf 32 v) else v))

/-! Branches (R222): targets are word offsets from the branch's own address (R49). -/

/-- Branches by off words when taken, the walk's state being x. -/
def State.walkBranch (s : State) (x : Walk) (taken : Bool) (off : Int) : Host.Outcome State Fault Refusal :=
  .next (if taken then s.walkTo x (x.pc.toNat + 4 * off) else s.walkNext x)

def execJ (off : BitVec 26) (s : State) : Host.Outcome State Fault Refusal := s.walkBranch s.cw true off.toInt
def execJz (a : WReg) (off : BitVec 21) (s : State) : Host.Outcome State Fault Refusal :=
  s.walkBranch s.cw (s.cw.reg a.toNat == 0) off.toInt
def execJnz (a : WReg) (off : BitVec 21) (s : State) : Host.Outcome State Fault Refusal :=
  s.walkBranch s.cw (s.cw.reg a.toNat != 0) off.toInt

/-- Index of the lowest set bit among the first n, n if none. -/
def lowestBit (x : Nat) : Nat → Nat
  | 0 => 0
  | n + 1 => if x % 2 = 1 then 0 else 1 + lowestBit (x / 2) n

def execJmask (a : WReg) (off : BitVec 21) (s : State) : Host.Outcome State Fault Refusal :=
  let x := s.cw.reg a.toNat
  if x = 0 then s.walkBranch s.cw false off.toInt
  else s.walkBranch ((s.cw.setReg a.toNat (x &&& (x - 1))).setReg 31 (lowestBit x 64)) true off.toInt

end Sys2Proof.Machine
end

