-- ==== Sys2Proof/Machine/WalkTree.lean ====
section
/-! DEFINITION. Walker fetch, decode and test instructions (R224-R229, R321-R323), the stack (R223), and emit, checkpoint,
relay and done (R230-R233). -/
namespace Sys2Proof.Machine

open Sys2Proof

/-! Fetch (R215, R224, R320). -/

/-- The walk's own device: the one it runs on (R215). -/
def State.ownDevice (s : State) : Nat := s.mgmt.devnum.toNat % 8

/-- A core's `%specmiss` increased by 1, saturating. -/
def State.countSpec (s : State) (cid : Nat) : State :=
  s.setCore cid { s.core cid with specmiss := bump (s.core cid).specmiss }

/-- A speculative request of a Walker (R320); dropping it without a count is the device's choice. DESIGN CHOICE: a clear accessed
bit counts before peer or host memory drops the request without a count, R320 ordering neither (log 78). -/
def State.speculate (s : State) (cid va : Nat) : State :=
  if s.choose % 2 = 1 then s.drawn
  else
    match s.translateVia (s.engineUnits cid) (corePart cid) (coreCtx cid) va Need.read with
    | .ok loc pa _ leaf _ =>
      if bits leaf 9 9 = 0 then s.drawn.countSpec cid
      else if loc ≠ 0 ∨ s.memPoisoned (pa / 128 * 128) 128 then s.drawn
      else s.drawn.askNode (corePart cid) (pa / 128)
    | _ => s.drawn.countSpec cid

/-- The walk waits for the node line at addr (R224); its request goes to the node cache. -/
def State.awaitNode (s : State) (n : BitVec 2) (addr : Nat) : State :=
  let s1 := s.setCw { s.cw with wait := .node n (BitVec.ofNat 48 addr) }
  match s.walkXlat s.curWalk addr with
  | .ok 0 pa _ _ _ => s1.askNode (corePart (s.curWalk / 64)) (pa / 128)
  | _ => s1

def execNfetch (n : BitVec 2) (pf : Bool) (a : WReg) (s : State) : Host.Outcome State Fault Refusal :=
  let w := s.curWalk
  let p := s.cw.reg a.toNat
  let dev := bits p 50 48
  let addr := p % 2 ^ 48
  if bits p 63 52 ≠ 0 ∨ bits p 6 0 ≠ 0 then .next (s.walkFault w 8)
  else if bits p 51 51 = 1 ∧ dev ≠ s.ownDevice then
    if 15 < a.toNat then .next (s.walkFault w 0x0B)
    else
      match s.spillFault w with
      | some r => .next (s.walkFault w r)
      | none => .next (s.release w (if s.cw.hosted.isSome then .home else .fetchRelay dev))
  else
    .next (s.withWalkRead w addr 128 fun _ t =>
      let t1 := t.awaitNode n addr
      if pf then t1.speculate (w / 64) ((addr + 128) % 2 ^ 48) else t1)

/-- A walk waits for a line of the node cache: it goes on once the line is there, and a miss that could not be sent, or whose line
was taken back, is sent again (R318). -/
def State.onNodeLine (s : State) (w line : Nat) (go : State) : Host.Outcome State Fault Refusal :=
  if s.nodeHas line then .next go
  else if s.nodeCanAsk line then .next (s.askNode (corePart (w / 64)) line)
  else .fault .notEnabled

/-- nb[n] takes the line at addr and the walk goes on (R224). -/
def State.takeNode (s : State) (w : Nat) (n : BitVec 2) (addr : Addr) : State :=
  { s with curWalk := w }.withWalkRead w addr.toNat 128 fun bs t =>
    let x := t.walk w
    t.walkNext { x with wait := .ready, nb := Tbl.setBytes x.nb (128 * n.toNat) bs }

/-- The line that the walk in context w awaits has arrived (R224, R319). -/
def execNodeLineArrival (w : Nat) (s : State) : Host.Outcome State Fault Refusal :=
  let x := s.walk w
  if x.live then
    match x.wait with
    | .node n addr =>
      match s.walkXlat w addr.toNat with
      | .ok 0 pa _ _ _ => s.onNodeLine w (pa / 128) (s.takeNode w n addr)
      | _ => .next (s.takeNode w n addr)
    | .code line => s.onNodeLine w line (s.setWalk w { x with wait := .ready })
    | .home line =>
      if s.homeFree (.walk w) line false then .next (s.setWalk w { x with wait := .ready })
      else if s.homeAsked (.walk w) (corePart (w / 64)) line false then .fault .notEnabled
      else .next (s.askHome (.walk w) (corePart (w / 64)) line false)
    | _ => .fault .notEnabled
  else .fault .notEnabled

/-! Decode (R225). -/

/-- Field i of a descriptor applied to the bits of a buffer. -/
def decodeField (desc buf i : Nat) : Nat :=
  let width := bits desc 25 20 + 1
  let f := buf / 2 ^ (bits desc 9 0 + i * bits desc 19 10) % 2 ^ width
  wrapTo 64 ((if bits desc 26 26 = 1 then signedOf width f else (f : Int)) * (2 ^ bits desc 37 32 : Nat))

def execNdec (d : WReg) (n : BitVec 2) (k : BitVec 4) (s : State) : Host.Outcome State Fault Refusal :=
  let desc := (nthD 0 s.cw.prog.descs k.toNat).toNat
  let count := bits desc 31 27
  let width := bits desc 25 20 + 1
  let last := bits desc 9 0 + (count - 1) * bits desc 19 10
  if count = 0 ∨ 31 < d.toNat + count - 1 then .next (s.walkFault s.curWalk 9)
  else if 1024 < last + width then .next (s.walkFault s.curWalk 0x0A)
  else
    let buf := leValue (s.cw.node n.toNat)
    .next (s.walkNext ((List.range count).foldl (fun x i => x.setReg (d.toNat + i) (decodeField desc buf i)) s.cw))

/-! Boxes (R226, R322). -/

/-- binary32 at a byte offset. -/
def f32At (bs : List Byte) (off : Nat) : Val := Enc.f32.decode (leValue ((bs.drop off).take 4))

def byteAt (bs : List Byte) (off : Nat) : Nat := (nthD 0 bs off).toNat

/-- x ≤ y, false with a NaN. -/
def Val.le (x y : Val) : Bool := (Cond.onVals .le x y).1

def Val.lt (x y : Val) : Bool := (Cond.onVals .lt x y).1

def round32 (m : Mode) (x : Exact) : Val := (x.round Fmt.f32 m).val

/-- A quantised bound, rounded once outward (R322): byte q of the node. -/
def boxBound (node : List Byte) (axis q : Nat) (m : Mode) : Val :=
  let e := byteAt node 12
  let v := byteAt node q
  let step : Val := if v = 0 then .zero false else .fin false v ((e : Int) - 127)
  round32 m (Val.add m (f32At node (4 * axis)) step)

def boxLo (node : List Byte) (c axis : Nat) : Val := boxBound node axis (0x10 + 6 * c + axis) .rdn
def boxHi (node : List Byte) (c axis : Nat) : Val := boxBound node axis (0x13 + 6 * c + axis) .rup

def boxEmpty (node : List Byte) (c : Nat) : Bool :=
  byteAt node 13 / 2 ^ c % 2 == 0 || byteAt node 12 == 255 ||
    (List.range 3).any fun x => decide (byteAt node (0x13 + 6 * c + x) < byteAt node (0x10 + 6 * c + x))

/-- The interval of a child so far: none after a miss; partial when a product of an axis has no value (0·∞), which can only raise
tn and lower tf. -/
inductive Slab where
  | miss
  | span (tn tf : Val) (partial_ : Bool)
deriving DecidableEq, Repr

def Val.max2 (a b : Val) : Val := if Val.lt a b then b else a
def Val.min2 (a b : Val) : Val := if Val.lt b a then b else a

/-- (bound − o)·r, exact: as a value that a rounding follows. -/
def slabEdge (bound o r : Val) : Exact :=
  match Val.add .rne bound o.neg with
  | .real n m e _ => Val.mul (.fin n m e) r
  | .done d => Val.mul d.val r

/-- An exact value without its rounding. -/
def Exact.toVal : Exact → Val
  | .done r => r.val
  | .real n m e _ => .fin n m e

/-- One axis of R226: an axis that the box misses, or that reads a NaN, settles the child whatever the others give. -/
def slabAxis (qb node : List Byte) (c : Nat) (acc : Slab) (axis : Nat) : Slab :=
  let o := f32At qb (4 * axis)
  let dir := f32At qb (12 + 4 * axis)
  let r := f32At qb (24 + 4 * axis)
  let lo := boxLo node c axis
  let hi := boxHi node c axis
  if acc == .miss || o.isNan || dir.isNan || lo.isNan || hi.isNan then .miss
  else if Cond.holds .eq ((Val.cmp dir (.zero false)).getD .lt) then if Val.le lo o && Val.le o hi then acc else .miss
  else if r.isNan then .miss
  else
    match acc with
    | .span tn tf partial_ =>
      let e0 := (slabEdge lo o r).toVal
      let e1 := (slabEdge hi o r).toVal
      if e0.isNan || e1.isNan then .span tn tf true
      else
        .span (Val.max2 tn (round32 .rdn (Val.min2 e0 e1).toExact)) (Val.min2 tf (round32 .rup (Val.max2 e0 e1).toExact))
          partial_
    | acc => acc

/-- The slab test of child c. -/
def boxRay (qb node : List Byte) (tfar : Val) (c : Nat) : Slab :=
  let tmin := f32At qb 36
  if boxEmpty node c then .miss
  else if tmin.isNan || tfar.isNan then .miss
  else
    match (List.range 3).foldl (slabAxis qb node c) (.span tmin tfar false) with
    | .span tn tf partial_ => if Val.le tn tf then .span tn tf partial_ else .miss
    | r => r

/-- The overlap test of child c. -/
def boxOverlap (qb node : List Byte) (c : Nat) : Bool :=
  !boxEmpty node c && (List.range 3).all fun x =>
    Val.le (boxLo node c x) (f32At qb (52 + 4 * x)) && Val.le (f32At qb (40 + 4 * x)) (boxHi node c x)

/-- Children hit in order of key, the lower index first on ties. -/
def insertKey (k : Nat × Val) : List (Nat × Val) → List (Nat × Val)
  | [] => [k]
  | h :: r => if Val.lt k.2 h.2 then k :: h :: r else h :: insertKey k r

/-- The result word of R226 for the children hit, nearest first. -/
def boxResult (hits : List Nat) : Nat :=
  hits.foldl (fun m c => m + 2 ^ c) 0 + 256 * hits.length +
    ((List.range 8).map fun i => 2 ^ (12 + 4 * i) * (match hits[i]? with
      | some c => c
      | none => 15)).foldl (· + ·) 0

/-- The children that the ray hits, with their keys, nearest first. Of a child whose interval is partial, whether it is hit and with
what key of the interval are free values: bits of f (log 5). -/
def boxHits (f : Nat) (qb node : List Byte) (tfar : Val) : List (Nat × Val) :=
  (List.range 8).foldl
    (fun l c => match boxRay qb node tfar c with
      | .span tn _ false => insertKey (c, tn) l
      | .span tn tf true =>
        let key := Enc.f32.decode (f / 2 ^ (33 * c + 1) % 2 ^ 32)
        if f / 2 ^ (33 * c) % 2 = 1 && Val.le tn key && Val.le key tf then insertKey (c, key) l else l
      | .miss => l) []

def execTbox (o : WTest) (s : State) : Host.Outcome State Fault Refusal :=
  let x := s.cw
  let node := x.node o.n.toNat
  if o.flag then .next (s.walkWrite o.d.toNat (boxResult ((List.range 8).filter fun c => boxOverlap x.qb node c)))
  else
    let tfar := Enc.f32.decode (x.reg o.a.toNat % 2 ^ 32)
    .next (s.walkWrite o.d.toNat (boxResult ((boxHits s.free x.qb node tfar).map fun e => e.1)))

/-! Triangles (R227, R323). -/

/-- An exact dyadic number m·2^e. -/
structure Dyad where
  m : Int
  e : Int
deriving DecidableEq, Repr

def Dyad.add (a b : Dyad) : Dyad :=
  let k := if a.e ≤ b.e then a.e else b.e
  ⟨a.m * (2 ^ (a.e - k).toNat : Nat) + b.m * (2 ^ (b.e - k).toNat : Nat), k⟩
def Dyad.mul (a b : Dyad) : Dyad := ⟨a.m * b.m, a.e + b.e⟩
def Dyad.neg (a : Dyad) : Dyad := ⟨-a.m, a.e⟩
def Dyad.abs (a : Dyad) : Dyad := ⟨a.m.natAbs, a.e⟩
def Dyad.lt (a b : Dyad) : Bool := decide (0 < (b.add a.neg).m)

/-- An exact number, an infinity, or what no number is: the product of zero and an infinity, the sum of infinities of opposite
signs, a NaN. -/
inductive Ext where
  | fin (d : Dyad)
  | inf (neg : Bool)
  | unstated
deriving DecidableEq, Repr

def Val.ext : Val → Ext
  | .zero _ => .fin ⟨0, 0⟩
  | .fin n m e => .fin ⟨if n then -(m : Int) else m, e⟩
  | .inf n => .inf n
  | .nan _ => .unstated

def Ext.add : Ext → Ext → Ext
  | .fin a, .fin b => .fin (a.add b)
  | .inf n, .fin _ => .inf n
  | .fin _, .inf n => .inf n
  | .inf n, .inf k => if n = k then .inf n else .unstated
  | _, _ => .unstated

def Ext.mul : Ext → Ext → Ext
  | .fin a, .fin b => .fin (a.mul b)
  | .inf n, .fin b => if b.m = 0 then .unstated else .inf (n ^^ decide (b.m < 0))
  | .fin a, .inf n => if a.m = 0 then .unstated else .inf (n ^^ decide (a.m < 0))
  | .inf n, .inf k => .inf (n ^^ k)
  | _, _ => .unstated

def Ext.neg : Ext → Ext
  | .fin a => .fin a.neg
  | .inf n => .inf !n
  | .unstated => .unstated

/-- The sign of a number, when it has one. -/
def Ext.sign : Ext → Int
  | .fin a => a.m.sign
  | .inf n => if n then -1 else 1
  | .unstated => 0

def Dyad.val (a : Dyad) : Val := if a.m = 0 then .zero false else .fin (decide (a.m < 0)) a.m.natAbs a.e

def sub32 (a b : Val) : Val := round32 .rne (Val.add .rne a b.neg)
def mul32 (a b : Val) : Val := round32 .rne (Val.mul a b)
def div32 (a b : Val) : Val := round32 .rne (Val.div 24 a b)

/-- rne32(a − b·c), the product exact. -/
def subMul32 (a b c : Val) : Val := round32 .rne (Val.fma .rne b.neg c a)

structure Sheared where
  x : Val
  y : Val
  z : Val
deriving DecidableEq, Repr

/-- A difference of two products, with whether it is decided: that of an infinite product is not. -/
structure Edge where
  v : Ext
  decided : Bool
deriving DecidableEq, Repr

def edgeOf (a b c d : Ext) : Edge :=
  let p := a.mul b
  let q := c.mul d
  ⟨p.add q.neg, match p, q with
    | .fin p, .fin q => Dyad.lt ((p.abs.add q.abs).mul ⟨1, -20⟩) (p.add q.neg).abs
    | _, _ => false⟩

/-- What ttri finds: a miss, or t with its status and the sign of det. -/
inductive TriHit where
  | miss
  | hit (t : Val) (status : Nat) (neg : Bool)
deriving DecidableEq, Repr

/-- Whether t lies outside the ray. -/
def outOfRay (t tmin tfar : Val) : Bool := Val.lt t tmin || Val.le tfar t

/-- rne32(T / det) for a det that is not 0, when it is stated. -/
def quotient32 (t det : Ext) : Option Val :=
  match t, det with
  | .fin a, .fin d => some (div32 a.val d.val)
  | .inf n, .fin d => some (.inf (n ^^ decide (d.m < 0)))
  | .fin a, .inf n => some (.zero (decide (a.m < 0) ^^ n))
  | _, _ => none

/-- Decides and ranges a triangle from its three edges and the three depths. A t, or the sign of a det, that has no stated value is
free: bits of f (log 5). -/
def triDecide (f : Nat) (u v w : Edge) (az bz cz : Ext) (tmin tfar : Val) : TriHit :=
  let es := [u, v, w]
  let status := if es.all fun e => e.decided then 1 else 2
  let det := (u.v.add v.v).add w.v
  let anyT := Enc.f32.decode (f % 2 ^ 32)
  let ranged (t : Val) (neg : Bool) : TriHit := if outOfRay t tmin tfar then .miss else .hit t status neg
  if (es.any fun e => e.decided && e.v.sign == 1) && es.any fun e => e.decided && e.v.sign == -1 then .miss
  else
    match det with
    | .unstated => if anyT = .inf false then .hit anyT status false else ranged anyT (f / 2 ^ 32 % 2 == 1)
    | det =>
      if det.sign = 0 then .hit (.inf false) status false
      else
        ranged ((quotient32 (((u.v.mul az).add (v.v.mul bz)).add (w.v.mul cz)) det).getD anyT) (det.sign == -1)

/-- Shears one vertex (R227). -/
def shear (o : Nat → Val) (p : Nat → Val) (k : Nat) (sx sy sz : Val) : Sheared :=
  let i := (k + 1) % 3
  let j := (k + 2) % 3
  let dk := sub32 (p k) (o k)
  let di := sub32 (p i) (o i)
  let dj := sub32 (p j) (o j)
  ⟨subMul32 di sx dk, subMul32 dj sy dk, mul32 sz dk⟩

/-- U, V or W of R227 for two sheared vertices p and q: p_x·q_y − p_y·q_x. -/
def Sheared.edge (p q : Sheared) : Edge := edgeOf p.x.ext q.y.ext p.y.ext q.x.ext

def Val.abs : Val → Val
  | .inf _ => .inf false
  | .zero _ => .zero false
  | .fin _ m e => .fin false m e
  | v => v

/-- Axis of largest magnitude, the lowest on ties. -/
def largestAxis (d : Nat → Val) : Nat :=
  let m := fun i => (d i).abs
  if Val.lt (m 0) (m 1) then (if Val.lt (m 1) (m 2) then 2 else 1) else (if Val.lt (m 0) (m 2) then 2 else 0)

/-- The test of R227 for vertices a, b, c given by axis. -/
def triTest (f : Nat) (qb : List Byte) (a b c : Nat → Val) (tfar : Val) : TriHit :=
  let o := fun i => f32At qb (4 * i)
  let d := fun i => f32At qb (12 + 4 * i)
  let tmin := f32At qb 36
  let ax := List.range 3
  let verts := ax.map a ++ ax.map b ++ ax.map c
  let isInf : Val → Bool := fun v => match v with
    | .inf _ => true
    | _ => false
  let isZero : Val → Bool := fun v => match v with
    | .zero _ => true
    | _ => false
  if (verts ++ ax.map o ++ ax.map d ++ [tmin, tfar]).any Val.isNan || verts.any isInf || ax.all fun i => isZero (d i) then
    .miss
  else
    let k := largestAxis d
    let sx := div32 (d ((k + 1) % 3)) (d k)
    let sy := div32 (d ((k + 2) % 3)) (d k)
    let sz := div32 (.fin false 1 0) (d k)
    let pa := shear o a k sx sy sz
    let pb := shear o b k sx sy sz
    let pc := shear o c k sx sy sz
    triDecide f (pc.edge pb) (pa.edge pc) (pb.edge pa) pa.z.ext pb.z.ext pc.z.ext tmin tfar

/-- The result word of R227. -/
def triResult : TriHit → Nat
  | .hit t status neg => Enc.f32.encode t + 2 ^ 32 * status + (if neg then 2 ^ 34 else 0)
  | _ => 0

def execTtri (o : WTest) (s : State) : Host.Outcome State Fault Refusal :=
  let x := s.cw
  let node := x.node o.n.toNat
  let j := o.j.toNat
  let count := byteAt node 0x7C % 8
  let idx := fun i => byteAt node (0x70 + 3 * j + i)
  let vert := fun (i axis : Nat) => f32At node (12 * (idx i % 8) + 4 * axis)
  if 4 < count then .next (s.walkFault s.curWalk 1)
  else if count ≤ j then .next (s.walkWrite o.d.toNat 0)
  else if (List.range 3).any fun i => decide (8 ≤ idx i) then .next (s.walkFault s.curWalk 1)
  else
    .next (s.walkWrite o.d.toNat
      (triResult (triTest s.free x.qb (vert 0) (vert 1) (vert 2) (Enc.f32.decode (x.reg o.a.toNat % 2 ^ 32)))))

/-! Distances (R228) and keys (R229). -/

/-- The elements of a 64-byte chunk. -/
def distElems (f : DistFmt) (c : List Byte) : List Val :=
  match f with
  | .e4m3 => c.map fun b => decodeE4m3 b.toNat
  | .e5m2 => c.map fun b => decodeE5m2 b.toNat
  | .f16 => (List.range 32).map fun i => Enc.f16.decode (leValue ((c.drop (2 * i)).take 2))

/-- (x − q)^2 or x·q, exact. -/
def distTerm (ip : Bool) (x q : Val) : Exact :=
  if ip then Val.mul x q else let d := (Val.add .rne x q.neg).toVal; Val.mul d d

def execTdist (o : WDist) (s : State) : Host.Outcome State Fault Refusal :=
  let x := s.cw
  let src := if o.src.toNat < 4 then x.node o.src.toNat else x.qb
  let cx := ((x.node o.n.toNat).drop (if o.h then 64 else 0)).take 64
  let cq := (src.drop (if o.qh then 64 else 0)).take 64
  let terms := ((distElems o.fmt cx).zip (distElems o.fmt cq)).map fun e => distTerm o.ip e.1 e.2
  .next (s.walkWrite o.d.toNat (Enc.f32.encode (exactSum terms (Enc.f32.decode (x.reg o.a.toNat % 2 ^ 32)))))

def execTkey (o : WKey) (s : State) : Host.Outcome State Fault Refusal :=
  let x := s.cw
  let c := x.reg o.b.toNat
  if 16 < c then .next (s.walkFault s.curWalk 0x0A)
  else
    let node := x.node o.n.toNat
    let num := fun v => if o.signed then signedOf 32 v else ((v % 2 ^ 32 : Nat) : Int)
    let key := num (x.reg o.a.toNat)
    let seps := (List.range c).map fun i => num (leValue ((node.drop (4 * i)).take 4))
    let r := (seps.filter fun v => if o.strict then decide (v < key) else decide (v ≤ key)).length
    match (List.range c).filter fun i => nthD 0 seps i == key with
    | [] => .next (s.walkWrite o.d.toNat r)
    | e :: _ => .next (s.walkWrite o.d.toNat (r + 32 + 64 * e))

/-! The stack (R223). -/

def execSpush (a : WReg) (s : State) : Host.Outcome State Fault Refusal :=
  let w := s.curWalk
  let x := s.cw
  let v := BitVec.ofNat 64 (x.reg a.toNat)
  if 40 ≤ x.stack.length then .next (s.walkFault w 3)
  else if x.resident < 16 then .next (s.walkNext { x with stack := x.stack ++ [v], resident := x.resident + 1 })
  else
    match s.spillSlot w with
    | none => .next (s.walkFault w 4)
    | some base =>
      let old := nthD 0 x.stack x.spilled
      .next ((s.putScratch (w / 64) [⟨base + 8 * x.spilled, leBytes 8 old.toNat⟩]).walkNext { x with stack := x.stack ++ [v] })

def execSpop (d a : WReg) (s : State) : Host.Outcome State Fault Refusal :=
  let w := s.curWalk
  let x := s.cw
  match x.stack.getLast? with
  | none => .next (s.walkNext ((x.setReg d.toNat 0).setReg a.toNat 0))
  | some top =>
    let rest := x.stack.dropLast
    let x1 := (x.setReg d.toNat top.toNat).setReg a.toNat 1
    if 1 < x.resident ∨ rest.isEmpty then .next (s.walkNext { x1 with stack := rest, resident := x.resident - 1 })
    else
      match s.spillSlot w with
      | none => .next (s.walkFault w 4)
      | some base =>
        let at_ := base + 8 * (rest.length - 1)
        if s.scrPoisoned (w / 64) at_ 8 then .next (s.walkFault w 6)
        else
          let v := BitVec.ofNat 64 (leValue ((s.core (w / 64)).scrBytes at_ 8))
          .next (s.walkNext { x1 with stack := rest.dropLast ++ [v], resident := 1 })

/-! Emit, checkpoint, relay, done (R230-R233). -/

/-- A release with its checkpoint; spilled entries that cannot be read end the walk (R217). -/
def State.checkpoint (s : State) (a : After) : State :=
  match s.spillFault s.curWalk with
  | some r => s.walkFault s.curWalk r
  | none => s.release s.curWalk a

def State.emitNow (s : State) (r : Record) : State := s.walkNext { s.cw with emits := s.cw.emits ++ [r] }

def execEmit (d a b : WReg) (s : State) : Host.Outcome State Fault Refusal :=
  let x := s.cw
  let r : Record := ⟨BitVec.ofNat 32 (x.reg b.toNat), BitVec.ofNat 32 (x.reg a.toNat), BitVec.ofNat 32 (x.reg d.toNat),
    s.recordWord s.curWalk 0⟩
  if x.emits.length < 8 then .next (s.emitNow r)
  else
    let t := s.checkpoint .again
    if t.cw.live && t.cw.wait == .ready && t.cw.emits.isEmpty then .next (t.emitNow r) else .next t

def execCkpt (s : State) : Host.Outcome State Fault Refusal := .next (s.checkpoint .next)

def execRelay (a : WReg) (s : State) : Host.Outcome State Fault Refusal :=
  let dev := s.cw.reg a.toNat % 8
  .next (s.checkpoint (if dev = s.ownDevice then .next else if s.cw.hosted.isSome then .home else .relay dev))

def execDone (s : State) : Host.Outcome State Fault Refusal := .next (s.release s.curWalk .finish)

/-- An opcode that R69 leaves unassigned (R70): WALK_FAULT, reason 0x01. -/
def execUnassignedWalkerOpcode (word : BitVec 32) (s : State) : Host.Outcome State Fault Refusal :=
  if s.cw.live && s.cw.wait == .ready && !walkerAssigned (wOp word) then .next (s.walkFault s.curWalk 1)
  else .fault .notEnabled

end Sys2Proof.Machine
end

