-- ==== Sys2Proof/Machine/Dispatch.lean ====
section
/-! DEFINITION. The one step of each instruction and event. -/
namespace Sys2Proof.Machine

open Sys2Proof

def exec (i : Instr) (s : State) : Host.Outcome State Fault Refusal :=
  match i with
  | .nop g => Sys2Proof.Machine.execNop g s
  | .bra g off => Sys2Proof.Machine.execBra g off s
  | .brx g a => Sys2Proof.Machine.execBrx g a s
  | .call g d off => Sys2Proof.Machine.execCall g d off s
  | .exit g => Sys2Proof.Machine.execExit g s
  | .ret g a => Sys2Proof.Machine.execRet g a s
  | .yield g => Sys2Proof.Machine.execYield g s
  | .brk g imm => Sys2Proof.Machine.execBrk g imm s
  | .cvset g c mask => Sys2Proof.Machine.execCvset g c mask s
  | .cvwait c => Sys2Proof.Machine.execCvwait c s
  | .trap g imm => Sys2Proof.Machine.execTrap g imm s
  | .vote g op d a => Sys2Proof.Machine.execVote g op d a s
  | .semwait g d k dec thr => Sys2Proof.Machine.execSemwait g d k dec thr s
  | .semadd g k inc => Sys2Proof.Machine.execSemadd g k inc s
  | .semset g k val => Sys2Proof.Machine.execSemset g k val s
  | .barArrive g scope b => Sys2Proof.Machine.execBarArrive g scope b s
  | .barWait g scope b => Sys2Proof.Machine.execBarWait g scope b s
  | .waitm g ord scope d a b => Sys2Proof.Machine.execWaitm g ord scope d a b s
  | .launch g d a => Sys2Proof.Machine.execLaunch g d a s
  | .add g o => Sys2Proof.Machine.execAdd g o s
  | .addImm g o => Sys2Proof.Machine.execAddImm g o s
  | .sub g o => Sys2Proof.Machine.execSub g o s
  | .neg g o => Sys2Proof.Machine.execNeg g o s
  | .mul g o => Sys2Proof.Machine.execMul g o s
  | .mulImm g o => Sys2Proof.Machine.execMulImm g o s
  | .mulh g o => Sys2Proof.Machine.execMulh g o s
  | .mad g o => Sys2Proof.Machine.execMad g o s
  | .div g o => Sys2Proof.Machine.execDiv g o s
  | .rem g o => Sys2Proof.Machine.execRem g o s
  | .min g o => Sys2Proof.Machine.execMin g o s
  | .max g o => Sys2Proof.Machine.execMax g o s
  | .abs g o => Sys2Proof.Machine.execAbs g o s
  | .minImm g o => Sys2Proof.Machine.execMinImm g o s
  | .maxImm g o => Sys2Proof.Machine.execMaxImm g o s
  | .and g o => Sys2Proof.Machine.execAnd g o s
  | .andImm g o => Sys2Proof.Machine.execAndImm g o s
  | .or g o => Sys2Proof.Machine.execOr g o s
  | .orImm g o => Sys2Proof.Machine.execOrImm g o s
  | .xor g o => Sys2Proof.Machine.execXor g o s
  | .xorImm g o => Sys2Proof.Machine.execXorImm g o s
  | .not g o => Sys2Proof.Machine.execNot g o s
  | .shl g o => Sys2Proof.Machine.execShl g o s
  | .shlImm g o => Sys2Proof.Machine.execShlImm g o s
  | .shr g o => Sys2Proof.Machine.execShr g o s
  | .shrImm g o => Sys2Proof.Machine.execShrImm g o s
  | .sra g o => Sys2Proof.Machine.execSra g o s
  | .sraImm g o => Sys2Proof.Machine.execSraImm g o s
  | .clz g o => Sys2Proof.Machine.execClz g o s
  | .ctz g o => Sys2Proof.Machine.execCtz g o s
  | .popc g o => Sys2Proof.Machine.execPopc g o s
  | .brev g o => Sys2Proof.Machine.execBrev g o s
  | .bfx g o => Sys2Proof.Machine.execBfx g o s
  | .bfi g o => Sys2Proof.Machine.execBfi g o s
  | .prmt g o => Sys2Proof.Machine.execPrmt g o s
  | .sel g o => Sys2Proof.Machine.execSel g o s
  | .cmp g o => Sys2Proof.Machine.execCmp g o s
  | .cmpImm g o => Sys2Proof.Machine.execCmpImm g o s
  | .cvt g o => Sys2Proof.Machine.execCvt g o s
  | .lea g o => Sys2Proof.Machine.execLea g o s
  | .shfl g o => Sys2Proof.Machine.execShfl g o s
  | .mov g d a => Sys2Proof.Machine.execMov g d a s
  | .movi g o => Sys2Proof.Machine.execMovi g o s
  | .mov64 g d a => Sys2Proof.Machine.execMov64 g d a s
  | .movFile g o => Sys2Proof.Machine.execMovFile g o s
  | .fadd g o => Sys2Proof.Machine.execFadd g o s
  | .fsub g o => Sys2Proof.Machine.execFsub g o s
  | .fmul g o => Sys2Proof.Machine.execFmul g o s
  | .fma g o => Sys2Proof.Machine.execFma g o s
  | .fdiv g o => Sys2Proof.Machine.execFdiv g o s
  | .fsqrt g o => Sys2Proof.Machine.execFsqrt g o s
  | .frcp g o => Sys2Proof.Machine.execFrcp g o s
  | .frsq g o => Sys2Proof.Machine.execFrsq g o s
  | .fmin g o => Sys2Proof.Machine.execFmin g o s
  | .fmax g o => Sys2Proof.Machine.execFmax g o s
  | .fabs g o => Sys2Proof.Machine.execFabs g o s
  | .fneg g o => Sys2Proof.Machine.execFneg g o s
  | .fcmp g o => Sys2Proof.Machine.execFcmp g o s
  | .fclass g o => Sys2Proof.Machine.execFclass g o s
  | .fcvt g o => Sys2Proof.Machine.execFcvt g o s
  | .fround g o => Sys2Proof.Machine.execFround g o s
  | .fsfn g o => Sys2Proof.Machine.execFsfn g o s
  | .xadd g o => Sys2Proof.Machine.execXadd g o s
  | .xsub g o => Sys2Proof.Machine.execXsub g o s
  | .xmul g o => Sys2Proof.Machine.execXmul g o s
  | .xfma g o => Sys2Proof.Machine.execXfma g o s
  | .xdiv g o => Sys2Proof.Machine.execXdiv g o s
  | .xsqrt g o => Sys2Proof.Machine.execXsqrt g o s
  | .xcmp g o => Sys2Proof.Machine.execXcmp g o s
  | .xround g o => Sys2Proof.Machine.execXround g o s
  | .xneg g o => Sys2Proof.Machine.execXneg g o s
  | .xabs g o => Sys2Proof.Machine.execXabs g o s
  | .xmov g d a => Sys2Proof.Machine.execXmov g d a s
  | .xcvt g o => Sys2Proof.Machine.execXcvt g o s
  | .xld g o => Sys2Proof.Machine.execXld g o s
  | .xldStride g o => Sys2Proof.Machine.execXldStride g o s
  | .xst g o => Sys2Proof.Machine.execXst g o s
  | .xstStride g o => Sys2Proof.Machine.execXstStride g o s
  | .xnext g d a => Sys2Proof.Machine.execXnext g d a s
  | .xalloc g d e => Sys2Proof.Machine.execXalloc g d e s
  | .xframe g a => Sys2Proof.Machine.execXframe g a s
  | .xunframe g => Sys2Proof.Machine.execXunframe g s
  | .ld g o => Sys2Proof.Machine.execLd g o s
  | .st g o => Sys2Proof.Machine.execSt g o s
  | .lds g o => Sys2Proof.Machine.execLds g o s
  | .sts g o => Sys2Proof.Machine.execSts g o s
  | .bst g o => Sys2Proof.Machine.execBst g o s
  | .prf g l2 a off => Sys2Proof.Machine.execPrf g l2 a off s
  | .pushm g d n => Sys2Proof.Machine.execPushm g d n s
  | .popm g d n => Sys2Proof.Machine.execPopm g d n s
  | .atom g o => Sys2Proof.Machine.execAtom g o s
  | .red g o => Sys2Proof.Machine.execRed g o s
  | .near g o => Sys2Proof.Machine.execNear g o s
  | .fence g ord scope b => Sys2Proof.Machine.execFence g ord scope b s
  | .mmaF16 g o => Sys2Proof.Machine.execMmaF16 g o s
  | .mmaBf16 g o => Sys2Proof.Machine.execMmaBf16 g o s
  | .mmaE4m3 g o => Sys2Proof.Machine.execMmaE4m3 g o s
  | .mmaE5m2 g o => Sys2Proof.Machine.execMmaE5m2 g o s
  | .mmaS8 g o => Sys2Proof.Machine.execMmaS8 g o s
  | .mmaMxf4 g o => Sys2Proof.Machine.execMmaMxf4 g o s
  | .mmaDpt g o => Sys2Proof.Machine.execMmaDpt g o s
  | .mmaF16Sp g o => Sys2Proof.Machine.execMmaF16Sp g o s
  | .mmaBf16Sp g o => Sys2Proof.Machine.execMmaBf16Sp g o s
  | .mmaE4m3Sp g o => Sys2Proof.Machine.execMmaE4m3Sp g o s
  | .mmaE5m2Sp g o => Sys2Proof.Machine.execMmaE5m2Sp g o s
  | .mmaS8Sp g o => Sys2Proof.Machine.execMmaS8Sp g o s
  | .mmaMxf4Sp g o => Sys2Proof.Machine.execMmaMxf4Sp g o s
  | .mmaDptSp g o => Sys2Proof.Machine.execMmaDptSp g o s
  | .accZero g t sync => Sys2Proof.Machine.execAccZero g t sync s
  | .accLd g o => Sys2Proof.Machine.execAccLd g o s
  | .accSt g o => Sys2Proof.Machine.execAccSt g o s
  | .copy g o => Sys2Proof.Machine.execCopy g o s
  | .wprog g d a b words => Sys2Proof.Machine.execWprog g d a b words s
  | .wlaunch g a b queue sync => Sys2Proof.Machine.execWlaunch g a b queue sync s
  | .wtake g d a b queue => Sys2Proof.Machine.execWtake g d a b queue s
  | .wpoll g d a queue clr => Sys2Proof.Machine.execWpoll g d a queue clr s
  | .wcancel g d queue team => Sys2Proof.Machine.execWcancel g d queue team s
  | .wuacfg g stat clr d a off => Sys2Proof.Machine.execWuacfg g stat clr d a off s
  | .wuarun g a sync => Sys2Proof.Machine.execWuarun g a sync s
  | .slotfree g d a ring => Sys2Proof.Machine.execSlotfree g d a ring s
  | .slotstat g op ring clr d a b => Sys2Proof.Machine.execSlotstat g op ring clr d a b s
  | .getc g uni d num => Sys2Proof.Machine.execGetc g uni d num s
  | .setc g uni num a => Sys2Proof.Machine.execSetc g uni num a s
  | .tret => Sys2Proof.Machine.execTret s
  | .halt => Sys2Proof.Machine.execHalt s
  | .nfetch n pf a => Sys2Proof.Machine.execNfetch n pf a s
  | .ndec d n k => Sys2Proof.Machine.execNdec d n k s
  | .tbox o => Sys2Proof.Machine.execTbox o s
  | .ttri o => Sys2Proof.Machine.execTtri o s
  | .tdist o => Sys2Proof.Machine.execTdist o s
  | .tkey o => Sys2Proof.Machine.execTkey o s
  | .spush a => Sys2Proof.Machine.execSpush a s
  | .spop d a => Sys2Proof.Machine.execSpop d a s
  | .emit d a b => Sys2Proof.Machine.execEmit d a b s
  | .relay a => Sys2Proof.Machine.execRelay a s
  | .ckpt => Sys2Proof.Machine.execCkpt s
  | .done => Sys2Proof.Machine.execDone s
  | .j off => Sys2Proof.Machine.execJ off s
  | .jz a off => Sys2Proof.Machine.execJz a off s
  | .jnz a off => Sys2Proof.Machine.execJnz a off s
  | .jmask a off => Sys2Proof.Machine.execJmask a off s
  | .wadd o => Sys2Proof.Machine.execWadd o s
  | .wsub o => Sys2Proof.Machine.execWsub o s
  | .wand o => Sys2Proof.Machine.execWand o s
  | .wor o => Sys2Proof.Machine.execWor o s
  | .wshl o => Sys2Proof.Machine.execWshl o s
  | .wshr o => Sys2Proof.Machine.execWshr o s
  | .wcmp o => Sys2Proof.Machine.execWcmp o s
  | .wmin o => Sys2Proof.Machine.execWmin o s
  | .wmax o => Sys2Proof.Machine.execWmax o s
  | .wmov d a => Sys2Proof.Machine.execWmov d a s
  | .wli d a imm => Sys2Proof.Machine.execWli d a imm s
  | .wsel d a b c => Sys2Proof.Machine.execWsel d a b c s
  | .wld o => Sys2Proof.Machine.execWld o s
  | .wfadd o => Sys2Proof.Machine.execWfadd o s
  | .wfmul o => Sys2Proof.Machine.execWfmul o s
  | .wfmin o => Sys2Proof.Machine.execWfmin o s
  | .wfmax o => Sys2Proof.Machine.execWfmax o s
  | .wfcmp o => Sys2Proof.Machine.execWfcmp o s
  | .engineReportTaken g => Sys2Proof.Machine.execEngineReportTaken g s
  | .pathTurnEnd g => Sys2Proof.Machine.execPathTurnEnd g s
  | .pacerForce g => Sys2Proof.Machine.execPacerForce g s
  | .semwaitTimeout g path => Sys2Proof.Machine.execSemwaitTimeout g path s
  | .waitmTimeout g path => Sys2Proof.Machine.execWaitmTimeout g path s
  | .hurdleArrival team => Sys2Proof.Machine.execHurdleArrival team s
  | .hurdleCompletion cluster => Sys2Proof.Machine.execHurdleCompletion cluster s
  | .engineCommandStart c seq => Sys2Proof.Machine.execEngineCommandStart c seq s
  | .operandStagingDone q => Sys2Proof.Machine.execOperandStagingDone q s
  | .mmaBlockStep q => Sys2Proof.Machine.execMmaBlockStep q s
  | .tileCommandComplete q => Sys2Proof.Machine.execTileCommandComplete q s
  | .copyComplete c seq => Sys2Proof.Machine.execCopyComplete c seq s
  | .wuaRunComplete q => Sys2Proof.Machine.execWuaRunComplete q s
  | .wlaunchIntake c seq => Sys2Proof.Machine.execWlaunchIntake c seq s
  | .walkStart c => Sys2Proof.Machine.execWalkStart c s
  | .nodeLineArrival w => Sys2Proof.Machine.execNodeLineArrival w s
  | .walkRecordAppend w => Sys2Proof.Machine.execWalkRecordAppend w s
  | .wlaunchSignal c seq => Sys2Proof.Machine.execWlaunchSignal c seq s
  | .relayBusyRetry w => Sys2Proof.Machine.execRelayBusyRetry w s
  | .l1Fill c line excl => Sys2Proof.Machine.execL1Fill c line excl s
  | .l1Inv c line => Sys2Proof.Machine.execL1Inv c line s
  | .l1RecallI c line => Sys2Proof.Machine.execL1RecallI c line s
  | .l1RecallS c line => Sys2Proof.Machine.execL1RecallS c line s
  | .l1Push c line => Sys2Proof.Machine.execL1Push c line s
  | .l1EvictAnswer c line => Sys2Proof.Machine.execL1EvictAnswer c line s
  | .homeGets c line => Sys2Proof.Machine.execHomeGets c line s
  | .homeGetm c line => Sys2Proof.Machine.execHomeGetm c line s
  | .nodeCacheFill part line => Sys2Proof.Machine.execNodeCacheFill part line s
  | .bstHomeWrite c line push => Sys2Proof.Machine.execBstHomeWrite c line push s
  | .homeWrite a part addr bytes => Sys2Proof.Machine.execHomeWrite a part addr bytes s
  | .homeRead a part addr n => Sys2Proof.Machine.execHomeRead a part addr n s
  | .nearDataOp c op size addr operand => Sys2Proof.Machine.execNearDataOp c op size addr operand s
  | .homeEvictionNotice c line dirty => Sys2Proof.Machine.execHomeEvictionNotice c line dirty s
  | .homeAnswer c line ans => Sys2Proof.Machine.execHomeAnswer c line ans s
  | .batonAck c line dest reason => Sys2Proof.Machine.execBatonAck c line dest reason s
  | .peerCopyExpiry line => Sys2Proof.Machine.execPeerCopyExpiry line s
  | .mailboxSlotWrite req => Sys2Proof.Machine.execMailboxSlotWrite req s
  | .pagerReply req => Sys2Proof.Machine.execPagerReply req s
  | .tlbinvComplete b => Sys2Proof.Machine.execTlbinvComplete b s
  | .groupSwapStop g => Sys2Proof.Machine.execGroupSwapStop g s
  | .swapCoresHalted b => Sys2Proof.Machine.execSwapCoresHalted b s
  | .swapExchangeDone b => Sys2Proof.Machine.execSwapExchangeDone b s
  | .dispatcherTurn b => Sys2Proof.Machine.execDispatcherTurn b s
  | .launchRecordCheck grid => Sys2Proof.Machine.execLaunchRecordCheck grid s
  | .gridCounterRead grid => Sys2Proof.Machine.execGridCounterRead grid s
  | .gridCounterPoll grid => Sys2Proof.Machine.execGridCounterPoll grid s
  | .dispatchStep b => Sys2Proof.Machine.execDispatchStep b s
  | .teamRetire team => Sys2Proof.Machine.execTeamRetire team s
  | .gridEnd grid => Sys2Proof.Machine.execGridEnd grid s
  | .flowControlSend port => Sys2Proof.Machine.execFlowControlSend port s
  | .heldLineDelivery port => Sys2Proof.Machine.execHeldLineDelivery port s
  | .ringUnbindComplete c ring => Sys2Proof.Machine.execRingUnbindComplete c ring s
  | .partitionAssign b => Sys2Proof.Machine.execPartitionAssign b s
  | .partitionRelease b => Sys2Proof.Machine.execPartitionRelease b s
  | .partitionReset b => Sys2Proof.Machine.execPartitionReset b s
  | .firmwareVerify img => Sys2Proof.Machine.execFirmwareVerify img s
  | .fwLoadAndBoot img => Sys2Proof.Machine.execFwLoadAndBoot img s
  | .fwStoreToFlash img => Sys2Proof.Machine.execFwStoreToFlash img s
  | .spdmRequest => Sys2Proof.Machine.execSpdmRequest s
  | .keyInstall b key => Sys2Proof.Machine.execKeyInstall b key s
  | .keyGenerate b => Sys2Proof.Machine.execKeyGenerate b s
  | .keyErase b => Sys2Proof.Machine.execKeyErase b s
  | .unassignedPosition head => Sys2Proof.Machine.execUnassignedPosition head s
  | .unassignedWalkerOpcode word => Sys2Proof.Machine.execUnassignedWalkerOpcode word s
  | .arrivalCheckTrap => Sys2Proof.Machine.execArrivalCheckTrap s
  | .relayWalk b r => Sys2Proof.Machine.execRelayWalk b r s
  | .relayWalkAnswer b r => Sys2Proof.Machine.execRelayWalkAnswer b r s
  | .relayRelease b r => Sys2Proof.Machine.execRelayRelease b r s
  | .relayReleaseAnswer b r => Sys2Proof.Machine.execRelayReleaseAnswer b r s
  | .relayRoom b r => Sys2Proof.Machine.execRelayRoom b r s
  | .relayEnded b r => Sys2Proof.Machine.execRelayEnded b r s
  | .relayFaultMessage b r => Sys2Proof.Machine.execRelayFaultMessage b r s
  | .relayRecall b r => Sys2Proof.Machine.execRelayRecall b r s
  | .relayCancel b r => Sys2Proof.Machine.execRelayCancel b r s
  | .relayHome b r => Sys2Proof.Machine.execRelayHome b r s
  | .relayCancelled b r => Sys2Proof.Machine.execRelayCancelled b r s
  | .linkFailure l => Sys2Proof.Machine.execLinkFailure l s
  | .remoteCompletion req data => Sys2Proof.Machine.execRemoteCompletion req data s
  | .accessRefused req => Sys2Proof.Machine.execAccessRefused req s
  | .tlbinvWrite b v => Sys2Proof.Machine.execTlbinvWrite b v s
  | .ctxctlSwapRequest b v => Sys2Proof.Machine.execCtxctlSwapRequest b v s
  | .mcstatWrite b v => Sys2Proof.Machine.execMcstatWrite b v s
  | .lqtailWrite b n v => Sys2Proof.Machine.execLqtailWrite b n v s
  | .lqctlWrite b n v => Sys2Proof.Machine.execLqctlWrite b n v s
  | .ingressLineFrame port frame fec => Sys2Proof.Machine.execIngressLineFrame port frame fec s
  | .ingressFcFrame port frame => Sys2Proof.Machine.execIngressFcFrame port frame s
  | .ingressLinkChange port lock aligned => Sys2Proof.Machine.execIngressLinkChange port lock aligned s
  | .hostBar2Read addr n stream => Sys2Proof.Machine.execHostBar2Read addr n stream s
  | .hostBar2Write addr bytes stream => Sys2Proof.Machine.execHostBar2Write addr bytes stream s
  | .hostAtomicop op w64 addr operand cmp stream => Sys2Proof.Machine.execHostAtomicop op w64 addr operand cmp stream s
  | .peerRequest device src b port req addr op => Sys2Proof.Machine.execPeerRequest device src b port req addr op s
  | .powerThrottle package board temp => Sys2Proof.Machine.execPowerThrottle package board temp s
  | .thermalShutdown => Sys2Proof.Machine.execThermalShutdown s
  | .registerWrite page off w64 v => Sys2Proof.Machine.execRegisterWrite page off w64 v s
  | .haltFirmwareWake g => Sys2Proof.Machine.execHaltFirmwareWake g s
  | .ualinkPortUp port sec => Sys2Proof.Machine.execUalinkPortUp port sec s
  | .ingressFecCodeword port corrected uncorrectable => Sys2Proof.Machine.execIngressFecCodeword port corrected uncorrectable s
  | .stage1Init training selfTest => Sys2Proof.Machine.execStage1Init training selfTest s
  | .dumpstatWrite v => Sys2Proof.Machine.execDumpstatWrite v s
  | .deviceReset => Sys2Proof.Machine.execDeviceReset s

end Sys2Proof.Machine
end

