-- ==== Sys2Proof/Machine/Pacer.lean ====
section
/-! DEFINITION. The Pacer: ready groups (R258), the choice among them (R259, R260) and pair issue (R261, R262). -/
namespace Sys2Proof.Machine

open Sys2Proof

/-! Engines of a slot (R146, R169, R194, R197, R242, R378). -/

inductive Engine where
  | fma | fp64 | sfu | vp | loadStore | matrix | copy | walker
deriving DecidableEq, Repr

def Engine.code : Engine → Nat
  | .fma => 0
  | .fp64 => 1
  | .sfu => 2
  | .vp => 3
  | .loadStore => 4
  | .matrix => 5
  | .copy => 6
  | .walker => 7

/-- Whether values of a type are 64-bit. -/
def wideTy (ty : Ty) : Bool := ty == .f64 || ty == .n64 || ty == .s64

/-- The engine of a lane floating-point instruction (R146). -/
def fpEngine (ty : Ty) (slow : Bool) : Engine := if slow then .sfu else if ty = .f64 then .fp64 else .fma

/-- The engine of `mul`, `mulh` and `mad` (R146). -/
def mulEngine (ty : Ty) : Engine := if wideTy ty then .fp64 else .fma

/-- The engine of an instruction; those that no table names count as the FMA pipe (R258). -/
def engineOf (i : Instr) : Engine :=
  match i with
  | .mul _ o => mulEngine o.ty
  | .mulImm _ o => mulEngine o.ty
  | .mulh _ o => mulEngine o.ty
  | .mad _ o => mulEngine o.ty
  | .div _ _ | .rem _ _ => .sfu
  | .fadd _ o | .fsub _ o | .fmul _ o | .fmin _ o | .fmax _ o => fpEngine o.ty false
  | .fma _ o => fpEngine o.ty false
  | .fabs _ o | .fneg _ o | .fclass _ o | .fround _ o => fpEngine o.ty false
  | .fcmp _ o => fpEngine o.ty false
  | .fcvt _ o => if wideTy o.dty || wideTy o.sty then .fp64 else .fma
  | .fdiv _ o => fpEngine o.ty true
  | .fsqrt _ o | .frcp _ o | .frsq _ o => fpEngine o.ty true
  | .fsfn _ _ => .sfu
  | .xadd _ _ | .xsub _ _ | .xmul _ _ | .xdiv _ _ | .xfma _ _ | .xsqrt _ _ | .xcmp _ _ | .xround _ _ | .xcvt _ _ => .vp
  | .xld _ _ | .xldStride _ _ | .xst _ _ | .xstStride _ _ | .xnext _ _ _ | .xalloc _ _ _ | .xframe _ _ | .xunframe _ =>
    .loadStore
  | .shfl _ _ | .ld _ _ | .st _ _ | .lds _ _ | .sts _ _ | .bst _ _ | .prf _ _ _ _ | .pushm _ _ _ | .popm _ _ _ |
    .atom _ _ | .red _ _ | .near _ _ | .fence _ _ _ _ => .loadStore
  | .wuacfg _ _ _ _ _ _ | .wuarun _ _ _ | .slotfree _ _ _ _ | .slotstat _ _ _ _ _ _ _ => .loadStore
  | .mmaF16 _ _ | .mmaBf16 _ _ | .mmaE4m3 _ _ | .mmaE5m2 _ _ | .mmaS8 _ _ | .mmaMxf4 _ _ | .mmaDpt _ _ | .mmaF16Sp _ _ |
    .mmaBf16Sp _ _ | .mmaE4m3Sp _ _ | .mmaE5m2Sp _ _ | .mmaS8Sp _ _ | .mmaMxf4Sp _ _ | .mmaDptSp _ _ => .matrix
  | .accZero _ _ _ | .accLd _ _ | .accSt _ _ => .matrix
  | .copy _ _ => .copy
  | .wprog _ _ _ _ _ | .wlaunch _ _ _ _ _ | .wtake _ _ _ _ _ | .wpoll _ _ _ _ _ | .wcancel _ _ _ _ => .walker
  | _ => .fma

/-- Where engine e of a slot keeps its time; the VP datapath is the core's (R259). -/
def engineKey (slot : Nat) (e : Engine) : Nat := if e = .vp then 32 else 8 * slot + e.code

/-- The instructions that may pair-issue (R262). -/
def pairable (i : Instr) : Bool :=
  match i with
  | .nop _ => true
  | .add _ o | .sub _ o | .mul _ o | .mulh _ o | .div _ o | .rem _ o | .min _ o | .max _ o | .and _ o | .or _ o | .xor _ o |
    .shl _ o | .shr _ o | .sra _ o => !o.uni
  | .addImm _ o | .mulImm _ o | .minImm _ o | .maxImm _ o | .andImm _ o | .orImm _ o | .xorImm _ o | .shlImm _ o |
    .shrImm _ o | .sraImm _ o => !o.uni
  | .neg _ o | .abs _ o | .not _ o | .clz _ o | .ctz _ o | .popc _ o | .brev _ o => !o.uni
  | .mad _ o => !o.uni
  | .bfx _ o | .bfi _ o => !o.uni
  | .prmt _ o => !o.uni
  | .cmp _ o => !o.uni
  | .cmpImm _ o => !o.uni
  | .lea _ o => !o.uni
  | .movi _ o => !o.uni
  | .movFile _ o => o.df != .s
  | .sel _ _ | .cvt _ _ | .mov _ _ _ | .mov64 _ _ _ => true
  | .fadd _ _ | .fsub _ _ | .fmul _ _ | .fma _ _ | .fdiv _ _ | .fsqrt _ _ | .frcp _ _ | .frsq _ _ | .fmin _ _ | .fmax _ _ |
    .fabs _ _ | .fneg _ _ | .fcmp _ _ | .fclass _ _ | .fcvt _ _ | .fround _ _ | .fsfn _ _ => true
  | .xadd _ _ | .xsub _ _ | .xmul _ _ | .xfma _ _ | .xdiv _ _ | .xsqrt _ _ | .xcmp _ _ | .xround _ _ | .xneg _ _ | .xabs _ _ |
    .xmov _ _ _ | .xcvt _ _ | .xld _ _ | .xldStride _ _ | .xst _ _ | .xstStride _ _ | .xnext _ _ _ => true
  | .ld _ o | .st _ o => o.ord == .rlx
  | .atom _ o | .red _ o | .near _ o => o.ord == .rlx
  | .lds _ _ | .sts _ _ | .prf _ _ _ _ => true
  | _ => false

/-! Ready groups (R258). -/

/-- Whether an instruction may stall (R197, R237, R299, R364, R388). -/
def mayStall (i : Instr) : Bool := engineOf i == .loadStore || !pairable i

/-- Whether a group is in t as it was in s, and nothing was asked for. -/
def State.sameAt (s t : State) (g : Nat) : Bool :=
  (t.group g).live && (t.group g).run == (s.group g).run && (t.group g).turn == (s.group g).turn &&
    t.flight.length == s.flight.length && t.nextId == s.nextId

/-- The running path of group g looks at its next instruction again. -/
def State.begun (s : State) (g : Nat) : State := (s.at_ g).setRun { (s.group g).run with waits := false }

/-- The instruction at a group's PC, if its arrival takes no stop. -/
def State.nextInstr (s : State) (g : Nat) : Option Instr :=
  match (s.begun g).arrive with
  | .ok (_, i, _) => some i
  | .error _ => none

/-- Whether the group's path stalls: its instruction, tried now, leaves the path as it is and asks for nothing. -/
def State.stalled (s : State) (g : Nat) : Bool :=
  match (s.begun g).arrive with
  | .ok (n, i, x) =>
    mayStall i &&
      (match exec i ((s.begun g).fetched n x) with
       | .next t => (s.begun g).sameAt t g
       | _ => false)
  | .error _ => false

/-- Whether a group has a running path that may go on: it is not stopped (R352, R355) and no path of it is in halt (R114). -/
def Group.runs (g : Group) : Bool := g.live && g.run.mask != 0 && !g.inHalt && !g.halted

/-- Whether the context of a group runs. -/
def State.groupRuns (s : State) (g : Nat) : Bool :=
  let t := s.team (s.group g).team
  (s.group g).runs && s.runsCtx t.part (coreCtx t.core)

/-- Whether a group's path stands before its next instruction: none that it has issued waits for an access, no request of it is
unanswered, and no trap comes first. -/
def Group.free (g : Group) : Bool :=
  g.run.issued.isNone && g.run.asked.isEmpty && g.run.failed.isNone && (g.reports.isEmpty || g.handler.isSome)

/-- Whether a group has a running path that may issue, but for its operands and engine (R258): its instruction is at hand and does
not stall. -/
def State.groupReady (s : State) (g : Nat) : Bool :=
  s.groupRuns g && (s.group g).free && (s.nextInstr g).isSome && !s.stalled g

/-- Whether two groups share a slot of a core. -/
def State.sameSlot (s : State) (g h : Nat) : Bool :=
  (s.team (s.group g).team).core == (s.team (s.group h).team).core && (s.group g).slot == (s.group h).slot

/-- The groups that are ready beside g on its slot, g itself first. -/
def State.rivals (s : State) (g : Nat) : List Nat :=
  g :: ((s.groups.map fun e => e.1).filter fun h =>
    h != g && s.sameSlot g h && s.groupReady h && Config.operandsReady s.tick h)

/-! The choice (R259). -/

/-- Whether group g is older than h (R259). -/
def State.older (s : State) (g h : Nat) : Bool :=
  let a := s.team (s.group g).team
  let b := s.team (s.group h).team
  decide (a.age < b.age) || (a.age == b.age && decide ((s.group g).num < (s.group h).num))

/-- The first of a list under an order: none before it. -/
def firstBy (before : Nat → Nat → Bool) : List Nat → Option Nat
  | [] => none
  | g :: r =>
    match firstBy before r with
    | some h => if before h g then some h else some g
    | none => some g

def State.oldest (s : State) (l : List Nat) : Option Nat := firstBy s.older l

def State.forced (s : State) (g : Nat) : Bool := decide (32 ≤ (s.group g).passed)

/-- How long the engine of the group's next instruction has been idle (R259). -/
def State.idleTime (s : State) (g : Nat) : Nat :=
  let x := s.group g
  let cid := (s.team x.team).core
  let e := match s.nextInstr g with
    | some i => engineOf i
    | none => .fma
  s.now - ((Tbl.find (s.core cid).engineUse (engineKey x.slot e)).getD (s.ctx (ctxKeyOf cid)).resumed)

/-- Whether the Pacer prefers g to h where neither is forced: the longer idle engine, then age (R259). -/
def State.preferred (s : State) (g h : Nat) : Bool :=
  decide (s.idleTime h < s.idleTime g) || (s.idleTime g == s.idleTime h && s.older g h)

/-- The Pacer's choice among ready groups of one slot (R259). -/
def State.pick (s : State) (l : List Nat) : Option Nat :=
  match s.oldest (l.filter s.forced) with
  | some g => some g
  | none => firstBy s.preferred l

/-- The group that the Pacer chooses at an opportunity in which g is ready. -/
def State.pacerChoice (s : State) (g : Nat) : Nat := (s.pick (s.rivals g)).getD g

/-! Pair issue (R261, R262). -/

/-- Whether groups g and h, both ready, are at one PC with disjoint masks on one slot of one team (R261). -/
def State.pairsWith (s : State) (g h : Nat) : Bool :=
  let x := s.group g
  let y := s.group h
  h != g && y.team == x.team && y.slot == x.slot && y.run.pc == x.run.pc && x.run.mask &&& y.run.mask == 0

/-- The group that pairs with g when it is chosen (R261). -/
def State.partner (s : State) (g : Nat) : Option Nat :=
  match s.oldest ((s.rivals g).filter (s.pairsWith g)) with
  | none => none
  | some h =>
    match s.nextInstr g with
    | some i => if pairable i then some h else none
    | none => none

/-! Counting opportunities (R259). -/

/-- The chosen group and its partner have count 0, the other ready groups of the slot are passed over. -/
def State.passOver (s : State) (g : Nat) (mate : Option Nat) : State :=
  (s.rivals g).foldl
    (fun t h =>
      t.setGroup h { t.group h with passed := if h = g ∨ mate = some h then 0 else (t.group h).passed + 1 }) s

/-- The chosen group's engine accepts its instruction now. -/
def State.engineTaken (s : State) (g : Nat) : State :=
  let x := s.group g
  let cid := (s.team x.team).core
  match s.nextInstr g with
  | some i => s.setCore cid { s.core cid with engineUse := Tbl.put (s.core cid).engineUse (engineKey x.slot (engineOf i)) s.now }
  | none => s

end Sys2Proof.Machine
end

