-- ==== Sys2Proof/Machine/Due.lean ====
section
/-! DEFINITION. What may move next: the groups that the Pacer may choose (R258-R260), the walk that a Walker issues next
(R317), the messages that may arrive in the order of their channel (R292), and the events that are due. -/
namespace Sys2Proof.Machine

open Sys2Proof

/-! Groups. -/

/-- The groups that are ready at this opportunity of their slots and that the Pacer chooses (R258, R259). -/
def State.chosenGroups (s : State) : List Nat :=
  (s.groups.map fun e => e.1).filter fun g =>
    s.groupReady g && Config.operandsReady s.tick g && s.pacerChoice g == g

/-- Whether a group may go on inside an instruction: it does so in a swap as well (R193, R355). -/
def State.mayFinish (s : State) (g : Nat) : Bool :=
  let t := s.team (s.group g).team
  let p := s.part t.part
  (s.group g).runs && p.pastat == 2 && p.live == coreCtx t.core && !p.closing &&
    (p.swap.isNone || ((p.swap == some 1 || p.swap == some 2) && (s.group g).inside))

/-- Whether the issue that is to be performed before the group's own still waits (R263). -/
def State.isBehind (s : State) (x : Issued) : Bool :=
  match x.behind with
  | some h => (s.group h).live && (s.group h).run.issued.isSome
  | none => false

/-- The instruction that group g has issued goes on. -/
def State.resume (s : State) (g : Nat) (x : Issued) : Host.Outcome State Fault Refusal :=
  exec x.instr { s.begun g with curN := x.n }

/-- What group g does that is no issue: it takes the trap that a failed request left (R348, R399) or that ends a pending report
(R199); the instruction that it has issued goes on with its accesses; or the checks of arrival stop it (R48). -/
def State.proceed (s : State) (g : Nat) : Host.Outcome State Fault Refusal :=
  let x := s.group g
  let s1 := s.begun g
  match x.run.failed, x.run.issued with
  | some t, _ => .next ((s1.setRun { s1.cg.run with failed := none }).takeTrap t)
  | none, some i => s.resume g i
  | none, none => if !x.reports.isEmpty && x.handler.isNone then exec (.engineReportTaken g) s1 else exec .arrivalCheckTrap s1

/-- Whether it does anything. -/
def State.proceeds (s : State) (g : Nat) : Bool :=
  let x := s.group g
  s.mayFinish g && x.run.asked.isEmpty &&
    match x.run.failed, x.run.issued with
    | some _, _ => true
    | none, some i =>
      !s.isBehind i && (match s.resume g i with
        | .next t => !s.sameAt t g
        | _ => false)
    | none, none => (!x.reports.isEmpty && x.handler.isNone) || (s.nextInstr g).isNone

/-! Walks. -/

def State.walkReady (s : State) (w : Nat) : Bool :=
  (s.walk w).live && (s.walk w).wait == .ready && s.active (w / 64)

/-- The ready context that comes next after the last one issued (R317). -/
def State.nextWalk (s : State) (cid : Nat) : Option Nat :=
  ((List.range 64).map fun i => 64 * cid + ((s.core cid).lastWalk + 1 + i) % 64).find? s.walkReady

/-! Messages. -/

/-- The agents outside among those of the channels: their accesses that wait are performed in order. -/
def outsideAgent : Nat := nodeAgent + 1

/-- The ordered channels: from the home slice to a core or to the node cache, and from these to the home slice (R292); and what
the host (R393) and each peer have still to have performed. -/
def flightChannel (i : Instr) : Option (Bool × Nat × Nat) :=
  match i with
  | .l1Fill c line _ => some (true, c, homeSlice line)
  | .l1Inv c line => some (true, c, homeSlice line)
  | .l1RecallI c line => some (true, c, homeSlice line)
  | .l1RecallS c line => some (true, c, homeSlice line)
  | .l1Push c line => some (true, c, homeSlice line)
  | .l1EvictAnswer c line => some (true, c, homeSlice line)
  | .batonAck c line _ _ => some (true, c, homeSlice line)
  | .homeGets c line => some (false, c, homeSlice line)
  | .homeGetm c line => some (false, c, homeSlice line)
  | .homeEvictionNotice c line _ => some (false, c, homeSlice line)
  | .homeAnswer c line _ => some (false, c, homeSlice line)
  | .bstHomeWrite c line _ => some (false, c, homeSlice line)
  | .nearDataOp c _ _ addr _ => some (false, c, homeSlice (addr / 128))
  | .hostBar2Read _ _ _ | .hostBar2Write _ _ _ | .hostAtomicop _ _ _ _ _ _ | .registerWrite _ _ _ _
  | .lqtailWrite _ _ _ | .lqctlWrite _ _ _ | .ctxctlSwapRequest _ _ | .tlbinvWrite _ _ | .mcstatWrite _ _ =>
    some (false, outsideAgent, 0)
  | .peerRequest device _ _ _ _ _ _ => some (false, outsideAgent, 1 + device)
  | _ => none

/-- Whether a message of the list is on the channel. -/
def channelBusy (seen : List Instr) (i : Instr) : Bool :=
  match flightChannel i with
  | some ch => seen.any fun j => flightChannel j == some ch
  | none => false

/-- The places in flight whose message may arrive next, with the message. -/
def State.arrivals (s : State) : List (Nat × Instr) :=
  ((List.range s.flight.length).zip s.flight).filter fun e => !channelBusy (s.flight.take e.1) e.2

/-! Events that the state makes due. Only those whose step has an effect are kept. -/

def keys {α : Type} (t : Tbl α) : List Nat := t.map fun e => e.1

/-- Engine and Walker events of a core. -/
def coreDue (c : Nat) (x : Core) : List Instr :=
  (x.queued.map fun q => .engineCommandStart c q.seq) ++ (x.copyQ.map fun q => .copyComplete c q.seq) ++
    (x.wcmds.flatMap fun q => [.wlaunchIntake c q.seq, .wlaunchSignal c q.seq]) ++
    (if x.intake.isEmpty then [] else [.walkStart c]) ++ ((keys x.rings).map fun r => .ringUnbindComplete c r)

def quadDue (q : Nat) : List Instr := [.operandStagingDone q, .mmaBlockStep q, .tileCommandComplete q, .wuaRunComplete q]

/-- Groups: timeouts and the stop of a swap. -/
def groupDue (g : Nat) (x : Group) : List Instr :=
  if x.live then
    .groupSwapStop g :: x.allParked.flatMap fun q => [.semwaitTimeout g q.path.id, .waitmTimeout g q.path.id]
  else []

/-- Whether 65536 mesh cycles have passed since the grid's counter was last read (R248). -/
def State.pollDue (s : State) (g : Grid) : Bool :=
  decide (65536 * s.mgmt.coreClk ≤ (s.now - g.polled) * s.mgmt.meshClk)

def State.gridDue (s : State) (k : Nat) (g : Grid) : List Instr :=
  if g.live then
    [.launchRecordCheck k, .gridCounterRead k, .gridEnd k] ++ (if s.pollDue g then [.gridCounterPoll k] else [])
  else []

def partDue (b : Nat) : List Instr :=
  [.tlbinvComplete b, .swapCoresHalted b, .swapExchangeDone b, .dispatcherTurn b, .dispatchStep b]

/-- Everything that may be due. -/
def State.mayBeDue (s : State) : List Instr :=
  (s.cores.flatMap fun e => coreDue e.1 e.2) ++ (keys s.quads).flatMap quadDue ++
    ((keys s.walks).flatMap fun w => [.nodeLineArrival w, .walkRecordAppend w, .relayBusyRetry w]) ++
    (s.groups.flatMap fun e => groupDue e.1 e.2) ++ ((keys s.teams).flatMap fun t => [.hurdleArrival t, .teamRetire t]) ++
    ((keys s.clusters).map fun c => .hurdleCompletion c) ++ ((keys s.mails).map fun m => .pagerReply m) ++
    ((keys s.parts).flatMap partDue) ++ (s.grids.flatMap fun e => s.gridDue e.1 e.2) ++
    ((keys s.ports).flatMap fun p => [.heldLineDelivery p, .flowControlSend p]) ++
    ((keys s.copies).map fun l => .peerCopyExpiry l)

/-! Errors that engines and Walkers meet (R276). -/

/-- The core of an event of an engine or a Walker, and the semaphore of a team that it looks at or counts up; whether it is the
start of a command. -/
structure EngineUse where
  core : Nat
  sem : Option (Nat × Nat)
  starts : Bool

/-- The semaphore that a command waits for, and the one that it counts up. -/
def Sync.waits (y : Sync) (team : Nat) : Option (Nat × Nat) := if y.thr = 0 then none else some (team, y.waitk.toNat)
def Sync.signals (y : Sync) (team : Nat) : Option (Nat × Nat) := if y.inc = 0 then none else some (team, y.sigk.toNat)

def State.engineUse (s : State) (i : Instr) : Option EngineUse :=
  match i with
  | .engineCommandStart c seq =>
    ((s.core c).queued.find? fun x => x.seq == seq && !x.started).map fun x => ⟨c, Sync.waits x.sync x.team, true⟩
  | .wlaunchIntake c seq =>
    ((s.core c).wcmds.find? fun x => x.seq == seq && !x.entered).map fun x => ⟨c, Sync.waits x.sync x.team, true⟩
  | .copyComplete c seq =>
    ((s.core c).copyQ.find? fun x => x.seq == seq && x.started).map fun x => ⟨c, Sync.signals x.sync x.team, false⟩
  | .wlaunchSignal c seq =>
    ((s.core c).wcmds.find? fun x => x.seq == seq).map fun x => ⟨c, Sync.signals x.sync x.team, false⟩
  | .tileCommandComplete q => (s.running q).map fun e => ⟨e.1, Sync.signals e.2.sync e.2.team, false⟩
  | .wuaRunComplete q =>
    match (s.quad q).wuaRun with
    | some (c, seq) => ((s.core c).runQ.find? fun x => x.seq == seq).map fun x => ⟨c, Sync.signals x.sync x.team, false⟩
    | none => none
  | _ => none

/-- Whether the event meets an uncorrectable error: in its command queue, its semaphore, or, at the end of a command, the
range-lock table. -/
def State.usesBad (s : State) (u : EngineUse) : Bool :=
  s.active u.core && s.poison.any fun q => match q with
    | .queue c => c == u.core
    | .locks c => c == u.core && !u.starts
    | .sem t k => u.sem == some (t, k)
    | _ => false

/-- The core whose engine or Walker meets an error with an event: at once where it looks at what is to start, else when the event
comes. -/
def State.engineMeets (s : State) (i : Instr) : Option Nat :=
  match s.engineUse i with
  | some u =>
    if s.usesBad u && (u.starts || match exec i s with
      | .next _ => true
      | _ => false) then some u.core else none
  | none => none

/-- An event: what an agent outside asks of lines of which copies are left has the homes take these back, and waits (R297); an
error in control state that an engine meets is a machine check of its partition (R276). -/
def State.occur (s : State) (i : Instr) : Host.Outcome State Fault Refusal :=
  let at_ (g : AgentId) (served : Bool) (a n : Nat) (write : Bool) : Host.Outcome State Fault Refusal :=
    if served then s.atHomes g (s.partAt a) (linesOf a n) write (fun u => u.post i) (exec i s) else exec i s
  match i with
  | .hostBar2Read addr n stream => at_ .host (s.hostServed addr n stream) addr n false
  | .hostBar2Write addr bytes stream => at_ .host (s.hostServed addr bytes.length stream) addr bytes.length true
  | .hostAtomicop _ w64 addr _ _ stream =>
    let n := if w64 then 8 else 4
    at_ .host (s.hostServed addr n stream && addr % n == 0) addr n true
  | .peerRequest device src b port _ addr op =>
    at_ (.peer device) (s.peerServed device src b port addr op) addr (PeerOp.size op) (PeerOp.writes op)
  | _ =>
    match s.engineMeets i with
    | some c => .next (s.controlCheck (corePart c))
    | none => exec i s

/-- Whether an event takes the machine to a next state. -/
def State.happens (s : State) (i : Instr) : Bool :=
  match s.occur i with
  | .next _ => true
  | _ => false

/-- One way in which the machine may move. -/
inductive Move where
  | group (g : Nat)
  /-- a group goes on without an issue -/
  | proceed (g : Nat)
  | walk (w : Nat)
  /-- the message at a place in flight arrives -/
  | arrive (k : Nat) (i : Instr)
  | due (i : Instr)
  /-- the intake of a core makes a speculative request (R320) -/
  | spec (c : Nat)
deriving DecidableEq, Repr

/-- What the intake of a core requests for a queued walk: the line of its query record, or its first code line (R320). -/
def State.specAddr (s : State) (c : Nat) : Nat :=
  match (s.core c).intake with
  | [] => 0
  | e :: r =>
    let x := nthD e (e :: r) (s.choose % (r.length + 1))
    if s.drawn.choose % 2 = 0 ∧ x.hosted.isNone then x.query.toNat else x.prog.code.toNat

/-- The state without the message at place k. -/
def State.taken (s : State) (k : Nat) : State := { s with flight := s.flight.eraseIdx k }

/-- Every way in which the machine may move. -/
def State.moves (s : State) : List Move :=
  (s.chosenGroups.map Move.group) ++ (((keys s.groups).filter s.proceeds).map Move.proceed) ++
    ((keys s.cores).filterMap fun c => (s.nextWalk c).map Move.walk) ++
    ((s.arrivals.filter fun e => (s.taken e.1).happens e.2).map fun e => .arrive e.1 e.2) ++
    ((s.mayBeDue.filter s.happens).map Move.due) ++
    ((s.cores.filter fun e => !e.2.intake.isEmpty && s.active e.1).map fun e => .spec e.1)

end Sys2Proof.Machine
end

