-- ==== Sys2Proof/Machine/Step.lean ====
section
/-! DEFINITION. One step: which agent moves (log 2), its fetch and its execution; and a program placed from outside (log
6). -/
namespace Sys2Proof.Machine

open Sys2Proof

/-- What a step gives, changed. -/
def mapNext (o : Host.Outcome State Fault Refusal) (f : State → State) : Host.Outcome State Fault Refusal :=
  match o with
  | .next t => .next (f t)
  | o => o

/-- The instruction i of group g, in a line of n, has issued in state s and not completed: it waits for its accesses, those of an
older group of the pair first (R263). -/
def State.noteIssued (t s : State) (g n : Nat) (i : Instr) (behind : Option Nat) : State :=
  let x := t.group g
  if x.run.waits then t.setGroup g { x with run := { x.run with issued := some ⟨n, i, behind, s.nextId⟩ } } else t

/-- Group g issues the instruction at its PC (R37, R48). -/
def State.issueOne (s : State) (g : Nat) : Host.Outcome State Fault Refusal :=
  let s1 := s.begun g
  match s1.arrive with
  | .error _ => exec .arrivalCheckTrap s1
  | .ok (n, i, t) => mapNext (exec i (s1.fetched n t)) fun u => u.noteIssued s g n i none

/-- Group g issues with an older group whose access of the pair still waits, behind it (R263). -/
def State.issueBehind (s : State) (h g : Nat) : State :=
  let s1 := s.begun g
  match s1.arrive with
  | .error _ => s
  | .ok (n, i, t) => ((s1.fetched n t).held).noteIssued s g n i (some h)

/-- Group g has done what it was chosen for: accesses that waited behind one that is complete wait no longer (R263), and after 64
instructions its path gives way (R94, R257). -/
def State.settled (t : State) (g : Nat) : Host.Outcome State Fault Refusal :=
  let free (x : Group) : Group := match x.run.issued with
    | some i => if i.behind = some g then { x with run := { x.run with issued := some { i with behind := none } } } else x
    | none => x
  let t1 := if (t.group g).run.issued.isNone then { t with groups := t.groups.map fun e => (e.1, free e.2) } else t
  if 64 ≤ (t1.group g).turn then exec (.pathTurnEnd g) t1 else .next t1

/-- A step of group g and what it brings about. -/
def settle (g : Nat) (o : Host.Outcome State Fault Refusal) : Host.Outcome State Fault Refusal :=
  match o with
  | .next t => t.settled g
  | o => o

/-- The older and the younger of two groups (R263). -/
def State.byAge (s : State) (g h : Nat) : Nat × Nat := if s.older h g then (h, g) else (g, h)

/-- Both issues of a pair, the older group's first (R263); a machine check that the first one brings ends the second. -/
def State.issuePair (s : State) (g h : Nat) : Host.Outcome State Fault Refusal :=
  let p := s.byAge g h
  match s.issueOne p.1 with
  | .next t =>
    settle p.1
      (if (t.group p.2).live && (t.group p.2).run == (s.group p.2).run then
        if (t.group p.1).run.issued.isSome then .next (t.issueBehind p.1 p.2) else settle p.2 (t.issueOne p.2)
      else .next t)
  | o => o

/-- Whether live control state that the group uses holds an error: its own, a semaphore of its team, or the range-lock table or a
command queue of its core (R276). -/
def State.controlError (s : State) (g : Nat) : Bool :=
  let t := (s.group g).team
  s.poison.any fun q => match q with
    | .control k => k == g
    | .sem k _ => k == t
    | .locks c => c == (s.team t).core
    | .queue c => c == (s.team t).core
    | _ => false

/-- The group g, chosen by the Pacer: an error in its control state (R276) is no issue; else it issues, with its partner if it has
one (R261), and the others of the slot are passed over (R259). -/
def State.issueGroup (s : State) (g : Nat) : Host.Outcome State Fault Refusal :=
  if s.controlError g then .next ((s.at_ g).controlCheck (s.at_ g).partId)
  else
    let s1 := (s.engineTaken g).passOver g (s.partner g)
    match s.partner g with
    | some h => s1.issuePair g h
    | none => settle g (s1.issueOne g)

/-- The walk in context w issues (R317, R319). -/
def State.issueWalk (s : State) (w : Nat) : Host.Outcome State Fault Refusal :=
  let s1 := { s.setCore (w / 64) { s.core (w / 64) with lastWalk := w % 64 } with curWalk := w }
  if s1.poison.contains (.walker w) then .next (s1.controlCheck (corePart (w / 64)))
  else
    match s1.walkFetch with
    | .inl (i, s2) => exec i s2
    | .inr s2 => .next s2

/-- A move of the machine; a forced group is chosen by its event (R259). -/
def State.perform (s : State) (m : Move) : Host.Outcome State Fault Refusal :=
  match m with
  | .group g => if s.forced g then exec (.pacerForce g) s else s.issueGroup g
  | .proceed g => settle g (s.proceed g)
  | .walk w => s.issueWalk w
  | .arrive k i => (s.taken k).occur i
  | .due i => s.occur i
  | .spec c => .next (s.drawn.drawn.speculate c (s.specAddr c))

/-- Whether an event is an access from outside, which a home or a full queue holds back until it can be performed (R297, R364). -/
def State.outsideWaits (s : State) (i : Instr) : Bool :=
  match flightChannel i with
  | some (_, c, _) => c == outsideAgent && s.mgmt.fwstate != 0
  | none => false

/-- An event that the agenda names. -/
def State.eventTurn (s : State) (i : Instr) : Host.Outcome State Fault Refusal :=
  if s.outsideWaits i && (channelBusy s.flight i || !s.happens i) then .next (s.post i) else s.occur i

/-- One of the moves that the machine may make, a free choice (log 2); with none time passes. -/
def State.anyMove (s : State) : Host.Outcome State Fault Refusal :=
  match s.moves with
  | [] => .next s
  | m :: ms => s.perform (nthD m (m :: ms) (Config.choice s.tick % (ms.length + 1)))

/-- Whether the host waits for an access that it made before (R393). -/
def State.hostBehind (s : State) : Bool := s.flight.any fun i => flightChannel i == some (false, outsideAgent, 0)

/-- A turn that the agenda names: what group g does without an issue, an opportunity at which it is ready, or at which the Walker
of walk w issues. Where the Pacer or the Walker chooses another, that one goes first and the turn stays; a turn that cannot be
taken is dropped. An access to BAR0 follows those that the host made before (R393). -/
def State.takeTurn (s : State) (t : Turn) : Host.Outcome State Fault Refusal :=
  let later := { s with agenda := t :: s.agenda }
  match t with
  | .group g =>
    if s.proceeds g then s.perform (.proceed g)
    else if s.groupReady g then
      if s.pacerChoice g = g then s.issueGroup g else later.perform (.group (s.pacerChoice g))
    else .next s
  | .walk w =>
    match s.nextWalk (w / 64) with
    | some k =>
      if k = w then s.issueWalk w
      else if s.walkReady w then later.issueWalk k
      else .next s
    | none => .next s
  | .event i => s.eventTurn i
  | .bar0Read off n => if s.hostBehind then later.anyMove else .next (s.emit (.data (s.bar0Read off n)))
  | .bar0Write off bs =>
    match if s.hostBehind then .fault .notEnabled else s.bar0Write off bs with
    | .fault _ => later.anyMove
    | o => o

/-- The clock and the draw counter advance (log 5, log 7); the host may have written the AtomicOp Requester Enable of
configuration space, which no event of the table writes (R400, log 60); soft errors may have been corrected (R414, log 62);
writes that were under way to their homes reach them (log 70); what waits at a home that is free again is served (R296). -/
def State.ticked (s : State) : State :=
  let s1 := { s with
    tick := s.tick + 1, now := s.now + 1 + Config.lapse s.tick,
    mgmt := { s.mgmt with atomicEnable := Config.atomicRequester s.tick }.corrected fun k => Config.corrections s.tick k }
  (({ s1 with relayHeld := [] }.sendHeld s1.relayHeld).sendSome (Config.homeReached s.tick) s1.unsent).letStale.serveFreed

/-- One step of the device. -/
def step (s : State) : Host.Outcome State Fault Refusal :=
  if s.off then .fault .poweredOff
  else
    let s0 := s.ticked
    if s0.mgmt.overheated then exec .thermalShutdown s0
    else if s0.mgmt.fwstate = 0 then .next s0.enterVerify
    else
      match s0.agenda with
      | t :: rest => { s0 with agenda := rest }.takeTurn t
      | [] => s0.anyMove

/-! A program placed from outside (log 6). -/

/-- The halfwords of a code line that holds one instruction (R34, R35). -/
def lineOfOne (head : Half) (tail : List Half) : List Half :=
  let t := tail.take (headT head) ++ List.replicate (headT head - tail.length) 0
  [0x0800, head] ++ List.replicate (30 - headT head) 0 ++ t

def halfBytes (l : List Half) : List Byte := l.flatMap fun h => leBytes 2 h.toNat

/-- Partition 0 with 128 GiB at 0, its first table at 0x1000, and an identity map of the lowest 2 GiB. -/
def Part.placed (p : Part) : Part :=
  { p with pastat := 2, pacfg := 0, pamem := 0x7F00, papool := 1, ptbase0 := 0x1001, live := 0, swap := .none }

def State.placed (s : State) (turn : Turn) (code : List Byte) : State :=
  { s.setPart 0 (s.part 0).placed with
    agenda := [turn], off := false, mgmt := { s.mgmt with fwstate := 4 }, poison := [], keyTag := [], tlbs := [],
    stamps := [], l2 := []
    mem := putAll s.mem [⟨0x1000, leBytes 8 0x2001⟩, ⟨0x2000, leBytes 8 0x61F⟩, ⟨0x10000, code⟩] }

/-- Team 1 of core 0 with every resource of a core, and its group 1. -/
def Team.placed : Team :=
  { Team.none with live := true, grid := 1, d := 384 * 768, t := 65536, g := 1, groups := [1], nsem := 64 }

/-- Grid 1, whose one team runs. -/
def placedGrid : Grid := { Grid.none with live := true, st := .eligible, placed := 1 }

def Group.placed : Group :=
  { Group.none with
    live := true, team := 1, nv := 256, ns := 64, ssp := 384 * 768 + 65536, run := { Path.none with pc := 0x10002, mask := 0xFFFFFFFF } }

def Walk.placed : Walk :=
  { Walk.none with
    live := true, qb := List.replicate 64 0, team := 1, pc := 0x10000, prog := ⟨0x10000, 2, [], 0⟩ }

/-- s with a core instruction stored where group 1, whose turn it is, fetches. -/
def State.withCore (s : State) (head : Half) (tail : List Half) : State :=
  (((s.setGrid 1 placedGrid).setTeam 1 Team.placed).setGroup 1 Group.placed).placed (.group 1) (halfBytes (lineOfOne head tail))

/-- s with a Walker word stored where walk 0, whose turn it is, fetches, its line in the node cache. -/
def State.withWalker (s : State) (w : Nat) : State :=
  { (((s.setGrid 1 placedGrid).setTeam 1 Team.placed).setWalk 0 Walk.placed).placed (.walk 0) (leBytes 4 w) with
    nodeLines := [512], dir := Tbl.put s.dir 512 { Dir.none with st := .s, node := true } }

def State.withFetchWord (s : State) (nbits w : Nat) : State :=
  if nbits = 16 then s.withCore (BitVec.ofNat 16 w) []
  else
    match decodeCore (BitVec.ofNat 16 (w / 65536)) [BitVec.ofNat 16 w] with
    | .ok _ => s.withCore (BitVec.ofNat 16 (w / 65536)) [BitVec.ofNat 16 w]
    | .error _ => s.withWalker w

end Sys2Proof.Machine
end

