-- ==== Sys2Proof/Safety.lean ====
section
/-! DEFINITION. The terms in which claims are stated: when the operands of an instruction are fine, what a step leaves
unchanged, and what holds of every state of a run. -/
namespace Sys2Proof.Machine

open Sys2Proof

/-! Operands that take no trap (R12, R13, R31, R276). -/

/-- An operand passes the checks of its register for the lanes that read it. -/
def State.operandFine (s : State) (lanes : List Nat) (o : Opnd) : Prop :=
  (o.pair = true → o.reg % 2 = 0) ∧
  (∀ i < o.n, s.beyond o.file (o.reg + i) = false) ∧
  (o.tags = true → ∀ i < o.n, ∀ l ∈ lanes, s.cg.tagged o.file (o.reg + i) l = false) ∧
  (o.read = true → ∀ i < o.n, s.regPoisoned lanes o.file (o.reg + i) = false)

/-- The predicate p of the current group holds no uncorrectable error. -/
def State.predFine (s : State) (p : Nat) : Prop := Poison.preg s.cur p ∉ s.poison

/-- The guard and the operands of an instruction are fine. -/
def State.fine (s : State) (g : Guard) (ops : List Opnd) : Prop :=
  s.predFine g.pred.toNat ∧ ∀ o ∈ ops, s.operandFine (s.lanes g) o

/-! Frames. -/

/-- Only the current group changed, and errors were at most cleared: every other group, every team, core, walk, partition,
grid, message and register outside the group, and every byte of memory are as before. -/
def onlyGroup (s t : State) : Prop :=
  { t with groups := s.groups, poison := s.poison } = s ∧ (∀ h, h ≠ s.cur → t.group h = s.group h) ∧
    (∀ q ∈ t.poison, q ∈ s.poison) ∧ ∀ a, Memory.read t.mem a = Memory.read s.mem a

/-- The running path goes on at its successor, nothing else of the schedule changed (R37). -/
def goesOn (s t : State) : Prop := t.cg.run = s.cg.run.at_ s.succ ∧ t.cg.turn = s.cg.turn + 1

/-- Of the current group only v registers with their tags and the PC changed. -/
def onlyV (s t : State) : Prop :=
  onlyGroup s t ∧ goesOn s t ∧
    { t.cg with v := s.cg.v, vtag := s.cg.vtag, run := s.cg.run, turn := s.cg.turn } = s.cg

/-- Of the current group only s registers and the PC changed. -/
def onlyS (s t : State) : Prop :=
  onlyGroup s t ∧ goesOn s t ∧ { t.cg with s := s.cg.s, run := s.cg.run, turn := s.cg.turn } = s.cg

/-- Of the current group only predicates and the PC changed. -/
def onlyP (s t : State) : Prop :=
  onlyGroup s t ∧ goesOn s t ∧ { t.cg with p := s.cg.p, run := s.cg.run, turn := s.cg.turn } = s.cg

/-- Of the current group only the PC changed. -/
def onlyPc (s t : State) : Prop :=
  onlyGroup s t ∧ goesOn s t ∧ { t.cg with run := s.cg.run, turn := s.cg.turn } = s.cg

/-! Results. -/

/-- v[d], or the pair v[d]:v[d + 1], holds f l in the given lanes, with clear tags; every other register and lane, and
every other tag, is as before. -/
def vHolds (s t : State) (lanes : List Nat) (d : Nat) (wide : Bool) (f : Nat → Nat) : Prop :=
  ∀ r l, l < 32 →
    (t.cg.vreg r l, t.cg.vTagged r l) =
      if l ∈ lanes ∧ r = d then (BitVec.ofNat 32 (f l), false)
      else if l ∈ lanes ∧ wide = true ∧ r = d + 1 then (BitVec.ofNat 32 (f l / 2 ^ 32), false)
      else (s.cg.vreg r l, s.cg.vTagged r l)

/-- In the guarded lanes v[d], or the pair, is a copy of register src l of lane from l, bits and marker (R31), as they were
before the instruction; every other register, lane and marker is as before. -/
def vCopies (s t : State) (lanes : List Nat) (d : Nat) (wide : Bool) (src from_ : Nat → Nat) : Prop :=
  ∀ r l, l < 32 →
    (t.cg.vreg r l, t.cg.vTagged r l) =
      if l ∈ lanes ∧ r = d then (s.cg.vreg (src l) (from_ l), s.cg.vTagged (src l) (from_ l))
      else if l ∈ lanes ∧ wide = true ∧ r = d + 1 then
        (s.cg.vreg (src l + 1) (from_ l), s.cg.vTagged (src l + 1) (from_ l))
      else (s.cg.vreg r l, s.cg.vTagged r l)

/-- s[d], or the pair, holds v; every other s register is as before. -/
def sHolds (s t : State) (d : Nat) (wide : Bool) (v : Nat) : Prop :=
  ∀ r, t.cg.sreg r =
    if r = d then BitVec.ofNat 32 v else if wide = true ∧ r = d + 1 then BitVec.ofNat 32 (v / 2 ^ 32) else s.cg.sreg r

/-- p[d] holds f l in the given lanes, p0 all ones whatever is written (R14); every other predicate and lane is as
before. -/
def pHolds (s t : State) (lanes : List Nat) (d : Nat) (f : Nat → Bool) : Prop :=
  ∀ r l, l < 32 →
    (t.cg.pred r).getLsbD l = if l ∈ lanes ∧ r = d ∧ r ≠ 0 then f l else (s.cg.pred r).getLsbD l

/-- An integer form's result (R117): in v registers by lane, or of a uniform form in s registers when a guarded lane
exists. -/
def intHolds (s t : State) (g : Guard) (uni : Bool) (d : Reg) (wide : Bool) (f : Nat → Nat) : Prop :=
  if uni then
    onlyS s t ∧ (if s.lanes g = [] then t.cg.s = s.cg.s else sHolds s t d.toNat wide (f (lowLane (s.cg.guarded g))))
  else onlyV s t ∧ vHolds s t (s.lanes g) d.toNat wide f

/-- The flags that guarded lanes would raise hold none that the team enables (R74), or the form is `.nf`. -/
def State.noFpTrap (s : State) (lanes : List Nat) (nf : Bool) (f : Nat → Flags) : Prop :=
  nf = true ∨ ∀ l ∈ lanes, f l &&& s.ct.enables = 0

/-- The sticky flags after an instruction whose lanes raise f (R73): ORed in, but for an `.nf` form. -/
def flagsHold (s t : State) (lanes : List Nat) (nf : Bool) (f : Nat → Flags) : Prop :=
  ∀ l, Tbl.get 0 t.cg.fflags l =
    if l ∈ lanes ∧ nf = false then Tbl.get 0 s.cg.fflags l ||| (f l).setWidth 8 else Tbl.get 0 s.cg.fflags l

/-- A lane floating-point result (R73, R134): bits in v registers by lane, flags in the lanes' sticky fields, and nothing
else. -/
def fpHolds (s t : State) (lanes : List Nat) (nf : Bool) (d : Nat) (wide : Bool) (f : Nat → FpOut) : Prop :=
  onlyGroup s t ∧ goesOn s t ∧
    { t.cg with v := s.cg.v, vtag := s.cg.vtag, fflags := s.cg.fflags, run := s.cg.run, turn := s.cg.turn } = s.cg ∧
    vHolds s t lanes d wide (fun l => (f l).bits) ∧ flagsHold s t lanes nf fun l => (f l).flags

/-- The x operands hold values in the lanes that read them: a head that states an extent of 2 to 8 words, all in the window
(R149, R151). -/
def State.windowsFine (s : State) (lanes : List Nat) (xs : List Reg) : Prop :=
  ∀ l ∈ lanes, ∀ x ∈ xs, s.cg.stated x.toNat l ≠ 0 ∧ s.cg.stated x.toNat l ≤ (s.cg.xwin x.toNat).ext

/-- The destination's window holds each lane's value, and no `.exact` form loses bits (R150). -/
def State.fitsWindow (s : State) (lanes : List Nat) (d : Reg) (exact : Bool) (out : Nat → VpOut) : Prop :=
  ∀ l ∈ lanes, (out l).words.length ≤ (s.cg.xwin d.toNat).ext ∧ (exact = true → (out l).changed = false)

/-- A variable-precision result (R150, R73): the words of each lane's value stand from the first word of window d on, the
other words of every window are as before, the markers of d are those of the values, the flags are sticky, and nothing
else changed. -/
def xHolds (s t : State) (lanes : List Nat) (nf : Bool) (d : Nat) (out : Nat → VpOut) : Prop :=
  onlyGroup s t ∧ goesOn s t ∧
    { t.cg with win := s.cg.win, xtag := s.cg.xtag, fflags := s.cg.fflags, run := s.cg.run, turn := s.cg.turn } = s.cg ∧
    (∀ w l, l < 32 →
      t.cg.winWord w l =
        let at_ := s.cg.xb + (s.cg.xwin d).base
        if l ∈ lanes ∧ at_ ≤ w ∧ w < at_ + (out l).words.length then BitVec.ofNat 32 (nthD 0 (out l).words (w - at_))
        else s.cg.winWord w l) ∧
    (∀ x l, l < 32 →
      (Tbl.get 0 t.cg.xtag x).getLsbD l = if l ∈ lanes ∧ x = d then (out l).tag else (Tbl.get 0 s.cg.xtag x).getLsbD l) ∧
    flagsHold s t lanes nf fun l => (out l).flags

/-- The 48-bit address in a v pair. -/
def State.vpair48 (s : State) (a : Reg) (l : Nat) : Nat := s.cg.vpair a.toNat l % 2 ^ 48

/-! Accesses to global memory. -/

/-- An access that has a translation and permission. -/
def LaneAt.mapped (l : LaneAt) : Prop := ∃ loc pa at_ leaf size, l.x = .ok loc pa at_ leaf size

/-- An access whose data can be read (R173): it has a translation and permission, its local bytes hold no uncorrectable
error, host and peer lines are at hand, and before the register page the group's writes are performed (R365). -/
def State.dataFine (s : State) (l : LaneAt) : Prop :=
  ∃ loc pa at_ leaf size, l.x = .ok loc pa at_ leaf size ∧ (loc = 0 → s.readPoisoned pa l.n = false) ∧
    (loc ≠ 0 → loc ≠ 3 → s.reachable s.partId loc pa = true ∧
      s.linesMissing s.cg.run.served s.cg.lastAcq loc pa l.n = []) ∧
    (loc = 3 → s.releaseStop .s 0 = none)

/-- An access that can be read now: no own earlier `bst` or `red` holds it back (R284), and the L1 has been granted its line
(R294). -/
def State.readable (s : State) (l : LaneAt) : Prop := s.dataFine l ∧ s.ownStop [l] = none ∧ s.l1Stop [l] = none

/-- An access whose line of local memory, if it is there, the L1 serves for a write (R294). -/
def State.l1Serves (s : State) (l : LaneAt) : Prop :=
  ∀ pa at_ leaf size, l.x = .ok 0 pa at_ leaf size → s.l1Hit s.coreId (pa / 128) true = true

/-- An access that can be written now: it has a translation and permission, no own earlier `bst` or `red` holds it back, and the
L1 serves its line for a write (R294). -/
def State.writable (s : State) (l : LaneAt) : Prop :=
  l.mapped ∧ (l.isLocal = true → s.ownStop [l] = none) ∧ s.l1Serves l

/-- An access to plaintext local memory without an uncorrectable error (R276, R403). -/
def State.plainLocal (s : State) (l : LaneAt) : Prop :=
  ∃ pa at_ leaf size, l.x = .ok 0 pa at_ leaf size ∧ s.readPoisoned pa l.n = false ∧ keyOf s.partId leaf = 0

/-- Addresses of memory that lie in no leaf entry through which the accesses were translated. -/
def outsideLeaves (ls : List LaneAt) (a : Nat) : Prop :=
  ∀ l ∈ ls, ∀ loc pa at_ leaf size, l.x = .ok loc pa at_ leaf size → a < at_ ∨ at_ + 8 ≤ a

/-- The rectangle operand of an `.x` access is legal, or no lane acts (R186). -/
def State.rectFine (s : State) (lanes : List Nat) (scope : Scope) (r : Reg) : Prop :=
  lanes = [] ∨ scope ≠ .x ∨ rectOk s.partId (s.cg.sreg r.toNat) = true

/-- The group's earlier writes are performed at the scope, as a release needs (R187). -/
def State.released (s : State) (lanes : List Nat) (ord : Order) (scope : Scope) (r : Reg) : Prop :=
  lanes = [] ∨ Order.releases ord = false ∨ s.releaseStop scope (s.rectWord scope r) = none

/-- Of the current group nothing changed but v registers with their tags, the PC and the time of its last system-scope
acquire (R275). -/
def onlyVAcq (s t : State) : Prop :=
  goesOn s t ∧
    { t.cg with v := s.cg.v, vtag := s.cg.vtag, run := s.cg.run, turn := s.cg.turn, lastAcq := s.cg.lastAcq } = s.cg

/-- Of the current group nothing changed but the PC and the time of its last system-scope acquire. -/
def onlyPcAcq (s t : State) : Prop :=
  goesOn s t ∧ { t.cg with run := s.cg.run, turn := s.cg.turn, lastAcq := s.cg.lastAcq } = s.cg

/-- Of the current group nothing changed but the PC. -/
def groupGoesOn (s t : State) : Prop := goesOn s t ∧ { t.cg with run := s.cg.run, turn := s.cg.turn } = s.cg

/-- Nothing outside the group, the TLBs and local memory changed, but for what a write to memory wakes: a group that waits in a
`waitm`, a grid that waits for its counter; no error appeared. -/
def onlyMemory (s t : State) : Prop :=
  { t with
    groups := s.groups, mem := s.mem, poison := s.poison, keyTag := s.keyTag, tlbs := s.tlbs, stamps := s.stamps,
    grids := s.grids } = s ∧
    (∀ q ∈ t.poison, q ∈ s.poison) ∧ ∀ h, h ≠ s.cur → (s.group h).monitor = none → t.group h = s.group h

/-- The same of a store: of the current core only the lines of its L1 changed, and no other core did (R293). -/
def onlyStores (s t : State) : Prop :=
  onlyMemory s { t with cores := s.cores } ∧ { t.cc with l1 := s.cc.l1 } = s.cc ∧ ∀ c, c ≠ s.coreId → t.core c = s.core c

/-- A byte that the writes of one instruction leave at an address of local memory: the last write that covers it (R175). -/
def lastByte (ws : List (LaneAt × List Byte)) (a : Nat) : Option Byte :=
  ws.foldl
    (fun b w => match w.1.x with
      | .ok 0 pa _ _ _ => if pa ≤ a ∧ a < pa + w.2.length then some (nthD 0 w.2 (a - pa)) else b
      | _ => b) none

/-! What holds of every state of a run. -/

/-- Local memory is in its canonical form. -/
def MemoryInv (s : State) : Prop := Memory.wf s.mem = true

end Sys2Proof.Machine
end

