-- ==== Sys2Proof/Certificates/Slice0/Obligations.lean ====
section
/-! DEFINITION. The statements. Each says in its docstring which rules it states; a statement about an instruction's own
effect says that exec answers a next state for all states and operands that meet its hypotheses. -/
namespace Sys2Proof.Claims
end Sys2Proof.Claims

open Sys2Proof Sys2Proof.Machine Sys2Proof.Claims

/-! ### Integer instructions (R115-R133) -/

/-- A two-source integer instruction: its constructor, whether its second source is a shift amount (a single register,
R123), and its value by signedness and width. -/
structure Sys2Proof.Claims.IntRow where
  ins : Guard → IntBin → Instr
  amount : Bool
  val : Bool → Nat → Nat → Nat → Nat

/-- R121-R123: add, sub, mul, mulh, min, max, and, or, xor, shl, shr, sra. -/
def Sys2Proof.Claims.intRows : List IntRow :=
  [⟨.add, false, fun _ w a b => (a + b) % 2 ^ w⟩,
   ⟨.sub, false, fun _ w a b => wrapTo w ((a : Int) - b)⟩,
   ⟨.mul, false, fun _ w a b => a * b % 2 ^ w⟩,
   ⟨.mulh, false, fun sgn w a b => wrapTo w (valueOf sgn w a * valueOf sgn w b / (2 ^ w : Nat))⟩,
   ⟨.min, false, fun sgn w a b => if valueOf sgn w b < valueOf sgn w a then b else a⟩,
   ⟨.max, false, fun sgn w a b => if valueOf sgn w a < valueOf sgn w b then b else a⟩,
   ⟨.and, false, fun _ _ a b => a &&& b⟩,
   ⟨.or, false, fun _ _ a b => a ||| b⟩,
   ⟨.xor, false, fun _ _ a b => a ^^^ b⟩,
   ⟨.shl, true, fun _ w a n => if w ≤ n then 0 else a * 2 ^ n % 2 ^ w⟩,
   ⟨.shr, true, fun _ w a n => if w ≤ n then 0 else a % 2 ^ w / 2 ^ n⟩,
   ⟨.sra, true, fun _ w a n =>
     if w ≤ n then (if signedOf w a < 0 then 2 ^ w - 1 else 0) else wrapTo w (signedOf w a / (2 ^ n : Nat))⟩]

/-- Every integer instruction of two sources completes when its guard and operands are fine, writes the value that its
rule gives to its destination in the guarded lanes (a uniform form once), and changes nothing else (R117, R121-R123). -/
def Sys2Proof.Claims.IntegerTwoSourceResults : Prop :=
  ∀ row ∈ intRows, ∀ (s : State) (g : Guard) (o : IntBin),
    s.fine g
      [opInt o.uni o.b (is64 o.ty && !row.amount) true, opInt o.uni o.a (is64 o.ty) true,
        opInt o.uni o.d (is64 o.ty) false] →
    ∃ t, exec (row.ins g o) s = .next t ∧
      intHolds s t g o.uni o.d (is64 o.ty) fun l =>
        row.val (Ty.signed o.ty) (tyBits o.ty) (s.cg.readInt o.uni (is64 o.ty) o.a l)
          (s.cg.readInt o.uni (is64 o.ty && !row.amount) o.b l)

/-- An integer instruction with an immediate: its constructor, the immediate's value at a width, and its result. -/
structure Sys2Proof.Claims.ImmRow where
  ins : Guard → IntImm → Instr
  imm : Nat → BitVec 16 → Nat
  val : Bool → Nat → Nat → Nat → Nat

/-- R116, R121, R123: the immediate is sign-extended, a shift amount is its unsigned value. -/
def Sys2Proof.Claims.immRows : List ImmRow :=
  let sx := fun w (i : BitVec 16) => wrapTo w i.toInt
  let sh := fun (_ : Nat) (i : BitVec 16) => i.toNat
  [⟨.addImm, sx, fun _ w a b => (a + b) % 2 ^ w⟩,
   ⟨.mulImm, sx, fun _ w a b => a * b % 2 ^ w⟩,
   ⟨.minImm, sx, fun sgn w a b => if valueOf sgn w b < valueOf sgn w a then b else a⟩,
   ⟨.maxImm, sx, fun sgn w a b => if valueOf sgn w a < valueOf sgn w b then b else a⟩,
   ⟨.andImm, sx, fun _ _ a b => a &&& b⟩,
   ⟨.orImm, sx, fun _ _ a b => a ||| b⟩,
   ⟨.xorImm, sx, fun _ _ a b => a ^^^ b⟩,
   ⟨.shlImm, sh, fun _ w a n => if w ≤ n then 0 else a * 2 ^ n % 2 ^ w⟩,
   ⟨.shrImm, sh, fun _ w a n => if w ≤ n then 0 else a % 2 ^ w / 2 ^ n⟩,
   ⟨.sraImm, sh, fun _ w a n =>
     if w ≤ n then (if signedOf w a < 0 then 2 ^ w - 1 else 0) else wrapTo w (signedOf w a / (2 ^ n : Nat))⟩]

/-- The same for the forms with an immediate (R116, R121, R123). -/
def Sys2Proof.Claims.IntegerImmediateResults : Prop :=
  ∀ row ∈ immRows, ∀ (s : State) (g : Guard) (o : IntImm),
    s.fine g [opInt o.uni o.a (is64 o.ty) true, opInt o.uni o.d (is64 o.ty) false] →
    ∃ t, exec (row.ins g o) s = .next t ∧
      intHolds s t g o.uni o.d (is64 o.ty) fun l =>
        row.val (Ty.signed o.ty) (tyBits o.ty) (s.cg.readInt o.uni (is64 o.ty) o.a l) (row.imm (tyBits o.ty) o.imm)

/-- An integer instruction of one source: whether it counts (a single register, R124), and its value. -/
structure Sys2Proof.Claims.UnRow where
  ins : Guard → IntUn → Instr
  count : Bool
  val : Nat → Nat → Nat

/-- R121, R123, R124: neg, abs, not, clz, ctz, popc, brev. -/
def Sys2Proof.Claims.unRows : List UnRow :=
  [⟨.neg, false, fun w a => wrapTo w (-(a : Int))⟩,
   ⟨.abs, false, fun w a => wrapTo w (signedOf w a).natAbs⟩,
   ⟨.not, false, fun w a => 2 ^ w - 1 - a % 2 ^ w⟩,
   ⟨.clz, true, fun w a => if a % 2 ^ w = 0 then w else w - 1 - Nat.log2 (a % 2 ^ w)⟩,
   ⟨.ctz, true, fun w a => ((List.range w).find? fun i => a.testBit i).getD w⟩,
   ⟨.popc, true, fun w a => ((List.range w).filter fun i => a.testBit i).length⟩,
   ⟨.brev, false, fun w a => (List.range w).foldl (fun r i => if a.testBit (w - 1 - i) then r + 2 ^ i else r) 0⟩]

/-- The same for the instructions of one source (R121, R123, R124). -/
def Sys2Proof.Claims.IntegerOneSourceResults : Prop :=
  ∀ row ∈ unRows, ∀ (s : State) (g : Guard) (o : IntUn),
    s.fine g [opInt o.uni o.a (is64 o.ty) true, opInt o.uni o.d (is64 o.ty && !row.count) false] →
    ∃ t, exec (row.ins g o) s = .next t ∧
      intHolds s t g o.uni o.d (is64 o.ty && !row.count) fun l =>
        row.val (tyBits o.ty) (s.cg.readInt o.uni (is64 o.ty) o.a l)

/-- Division and remainder with the exceptional cases of R122: a zero divisor gives the largest value, or 1 for a negative
signed dividend, and the remainder is the dividend; the most negative value over minus one wraps. Neither traps. -/
def Sys2Proof.Claims.DivisionResults : Prop :=
  ∀ (s : State) (g : Guard) (o : IntBin),
    s.fine g
      [opInt o.uni o.b (is64 o.ty) true, opInt o.uni o.a (is64 o.ty) true, opInt o.uni o.d (is64 o.ty) false] →
    (∃ t, exec (.div g o) s = .next t ∧
      intHolds s t g o.uni o.d (is64 o.ty) fun l =>
        let w := tyBits o.ty
        let a := s.cg.readInt o.uni (is64 o.ty) o.a l
        let b := s.cg.readInt o.uni (is64 o.ty) o.b l
        if b % 2 ^ w = 0 then (if Ty.signed o.ty = true ∧ signedOf w a < 0 then 1 else 2 ^ w - 1)
        else wrapTo w (Int.tdiv (valueOf (Ty.signed o.ty) w a) (valueOf (Ty.signed o.ty) w b))) ∧
    (∃ t, exec (.rem g o) s = .next t ∧
      intHolds s t g o.uni o.d (is64 o.ty) fun l =>
        let w := tyBits o.ty
        let a := s.cg.readInt o.uni (is64 o.ty) o.a l
        let b := s.cg.readInt o.uni (is64 o.ty) o.b l
        if b % 2 ^ w = 0 then a
        else wrapTo w (Int.tmod (valueOf (Ty.signed o.ty) w a) (valueOf (Ty.signed o.ty) w b)))

/-- mad adds its third source to the product, modulo 2^w (R121). -/
def Sys2Proof.Claims.MultiplyAddResult : Prop :=
  ∀ (s : State) (g : Guard) (o : IntTri),
    s.fine g
      [opInt o.uni o.c (is64 o.ty) true, opInt o.uni o.b (is64 o.ty) true, opInt o.uni o.a (is64 o.ty) true,
        opInt o.uni o.d (is64 o.ty) false] →
    ∃ t, exec (.mad g o) s = .next t ∧
      intHolds s t g o.uni o.d (is64 o.ty) fun l =>
        let rd (r : Reg) : Nat := s.cg.readInt o.uni (is64 o.ty) r l
        (rd o.a * rd o.b + rd o.c) % 2 ^ tyBits o.ty
/-- Bit fields, byte permutation, conversion, address and immediate moves (R125, R126, R129, R130, R133):
each completes and writes the value of its rule. -/
def Obligations.IntegerOtherResults : Prop :=
  (∀ (s : State) (g : Guard) (o : IntField),
    s.fine g [opInt o.uni o.a (is64 o.ty) true, opInt o.uni o.d (is64 o.ty) false] →
    ∃ t, exec (.bfx g o) s = .next t ∧
      intHolds s t g o.uni o.d (is64 o.ty) fun l =>
        let w := tyBits o.ty
        let a := valueOf (Ty.signed o.ty) w (s.cg.readInt o.uni (is64 o.ty) o.a l)
        let len := min o.len.toNat w
        let f := wrapTo len (a / (2 ^ o.pos.toNat : Nat))
        if len = 0 then 0 else if Ty.signed o.ty then wrapTo w (signedOf len f) else f) ∧
  (∀ (s : State) (g : Guard) (o : IntField),
    s.fine g
      [opInt o.uni o.b (is64 o.ty) true, opInt o.uni o.a (is64 o.ty) true, opInt o.uni o.d (is64 o.ty) false] →
    ∃ t, exec (.bfi g o) s = .next t ∧
      intHolds s t g o.uni o.d (is64 o.ty) fun l =>
        let w := tyBits o.ty
        let a := s.cg.readInt o.uni (is64 o.ty) o.a l
        let b := s.cg.readInt o.uni (is64 o.ty) o.b l
        let len := min o.len.toNat w
        a - (a &&& ((2 ^ len - 1) * 2 ^ o.pos.toNat % 2 ^ w)) + b % 2 ^ len * 2 ^ o.pos.toNat % 2 ^ w) ∧
  (∀ (s : State) (g : Guard) (o : Prmt),
    s.fine g [opInt o.uni o.b false true, opInt o.uni o.a false true, opInt o.uni o.d false false] →
    ∃ t, exec (.prmt g o) s = .next t ∧
      intHolds s t g o.uni o.d false fun l =>
        let both := s.cg.readInt o.uni false o.a l % 2 ^ 32 + 2 ^ 32 * (s.cg.readInt o.uni false o.b l % 2 ^ 32)
        let byte (j : Nat) : Nat :=
          if o.sel.toNat.testBit (12 + j) then 0 else both / 256 ^ bits o.sel.toNat (3 * j + 2) (3 * j) % 256
        byte 0 + 2 ^ 8 * byte 1 + 2 ^ 16 * byte 2 + 2 ^ 24 * byte 3) ∧
  (∀ (s : State) (g : Guard) (o : LeaOp),
    s.fine g [opInt o.uni o.b (is64 o.ty) true, opInt o.uni o.a true true, opInt o.uni o.d true false] →
    ∃ t, exec (.lea g o) s = .next t ∧
      intHolds s t g o.uni o.d true fun l =>
        wrapTo 64
          (s.cg.readInt o.uni true o.a l +
            valueOf (Ty.signed o.ty) (tyBits o.ty) (s.cg.readInt o.uni (is64 o.ty) o.b l) * (2 ^ o.sh.toNat : Nat))) ∧
  (∀ (s : State) (g : Guard) (o : CvtOp),
    s.fine g [opV o.a (is64 o.sty) true, opV o.d (is64 o.dty) false] →
    ∃ t, exec (.cvt g o) s = .next t ∧
      intHolds s t g false o.d (is64 o.dty) fun l =>
        let v := valueOf (Ty.signed o.sty) (tyBits o.sty) (s.cg.readV (is64 o.sty) o.a.toNat l)
        let w := tyBits o.dty
        let lo : Int := if Ty.signed o.dty then -(2 ^ (w - 1) : Nat) else 0
        let hi : Int := if Ty.signed o.dty then (2 ^ (w - 1) : Nat) - 1 else (2 ^ w : Nat) - 1
        wrapTo (max w 32) (if o.sat then max lo (min hi v) else valueOf (Ty.signed o.dty) w (wrapTo w v))) ∧
  (∀ (s : State) (g : Guard) (o : MoviOp),
    s.fine g [opInt o.uni o.d (is64 o.ty) false] →
    ∃ t, exec (.movi g o) s = .next t ∧
      intHolds s t g o.uni o.d (is64 o.ty) fun _ =>
        if o.ty = .s64 then wrapTo 64 o.imm.toInt else o.imm.toNat)

/-- cmp writes its answer to a predicate in the guarded lanes, also in its uniform form, and nothing else changes; p0
stays true (R14, R117, R127). -/
def Sys2Proof.Claims.CompareResults : Prop :=
  (∀ (s : State) (g : Guard) (o : CmpOp),
    s.fine g [opInt o.uni o.b (is64 o.ty) true, opInt o.uni o.a (is64 o.ty) true] →
    ∃ t, exec (.cmp g o) s = .next t ∧ onlyP s t ∧
      pHolds s t (s.lanes g) o.d.toNat fun l =>
        let v (r : Reg) : Int := valueOf (Ty.signed o.ty) (tyBits o.ty) (s.cg.readInt o.uni (is64 o.ty) r l)
        condInt o.cond (v o.a) (v o.b)) ∧
  (∀ (s : State) (g : Guard) (o : CmpImm),
    s.fine g [opInt o.uni o.a (is64 o.ty) true] →
    ∃ t, exec (.cmpImm g o) s = .next t ∧ onlyP s t ∧
      pHolds s t (s.lanes g) o.d.toNat fun l =>
        let w := tyBits o.ty
        condInt o.cond (valueOf (Ty.signed o.ty) w (s.cg.readInt o.uni (is64 o.ty) o.a l))
          (valueOf (Ty.signed o.ty) w (wrapTo w o.imm.toInt))) ∧
  ∀ (g : Group) (l : Nat), l < 32 → (g.pred 0).getLsbD l = true

/-- sel, shfl, mov and mov (64) copy v registers with their markers (R31, R128, R131, R132): sel by the predicate, shfl from
the guarded lane that B names, else from the lane itself. -/
def Sys2Proof.Claims.CopyResults : Prop :=
  (∀ (s : State) (g : Guard) (o : SelOp),
    s.fine g [(opV o.b (is64 o.ty) true).copied, (opV o.a (is64 o.ty) true).copied, opV o.d (is64 o.ty) false] →
    s.predFine o.p.toNat →
    ∃ t, exec (.sel g o) s = .next t ∧ onlyV s t ∧
      vCopies s t (s.lanes g) o.d.toNat (is64 o.ty)
        (fun l => if (s.cg.pred o.p.toNat).getLsbD l then o.a.toNat else o.b.toNat) fun l => l) ∧
  (∀ (s : State) (g : Guard) (o : ShflOp),
    s.fine g [opV o.b false true, (opV o.a (is64 o.ty) true).copied, opV o.d (is64 o.ty) false] →
    ∃ t, exec (.shfl g o) s = .next t ∧ onlyV s t ∧
      vCopies s t (s.lanes g) o.d.toNat (is64 o.ty) (fun _ => o.a.toNat) fun l =>
        let k := (s.cg.vreg o.b.toNat l).toNat % 32
        if k ∈ s.lanes g then k else l) ∧
  (∀ (s : State) (g : Guard) (d a : Reg),
    (s.fine g [(opV a false true).copied, opV d false false] →
      ∃ t, exec (.mov g d a) s = .next t ∧ onlyV s t ∧
        vCopies s t (s.lanes g) d.toNat false (fun _ => a.toNat) fun l => l) ∧
    (s.fine g [(opV a true true).copied, opV d true false] →
      ∃ t, exec (.mov64 g d a) s = .next t ∧ onlyV s t ∧
        vCopies s t (s.lanes g) d.toNat true (fun _ => a.toNat) fun l => l))

/-- mov between files (R132): to v, each guarded lane takes its own v register with its marker, the s register, or 1 or 0
of its predicate; to s, the lowest guarded lane's v register, the s register, or the mask of the guarded lanes whose
predicate is true, and nothing without a guarded lane; to p, each guarded lane's v register other than 0, its bit of the s
register, or its predicate. -/
def Sys2Proof.Claims.MoveFileResults : Prop :=
  ∀ (s : State) (g : Guard) (o : MovFile),
    let m := s.cg.guarded g
    let lanes := s.lanes g
    let one (l : Nat) : Nat := match o.af with
      | .v => (s.cg.vreg o.a.toNat l).toNat
      | .s => (s.cg.sreg o.a.toNat).toNat
      | .p => if (s.cg.pred o.a.toNat).getLsbD l then 1 else 0
    let src : List Opnd := match o.af with
      | .v => [if o.df = .v then (opV o.a false true).copied else opV o.a false true]
      | .s => [opS o.a false true]
      | .p => []
    let dst : List Opnd := match o.df with
      | .v => [opV o.d false false]
      | .s => [opS o.d false false]
      | .p => []
    s.fine g dst → (∀ x ∈ src, s.operandFine (if o.df = .s ∧ o.af = .v then lanes.take 1 else lanes) x) →
    (o.af = .p → s.predFine o.a.toNat) →
    ∃ t, exec (.movFile g o) s = .next t ∧
      match o.df with
      | .v => onlyV s t ∧
          if o.af = .v then vCopies s t lanes o.d.toNat false (fun _ => o.a.toNat) fun l => l
          else vHolds s t lanes o.d.toNat false one
      | .s => onlyS s t ∧
          if lanes = [] then t.cg.s = s.cg.s
          else sHolds s t o.d.toNat false (if o.af = .p then (m &&& s.cg.pred o.a.toNat).toNat else one (lowLane m))
      | .p => onlyP s t ∧
          pHolds s t lanes o.d.toNat fun l =>
            if o.af = .s then (s.cg.sreg o.a.toNat).getLsbD l else one l != 0

/-! ### Lane floating point (R134-R145) -/

/-- A floating instruction of two sources: its constructor and its result on elements, by type and rounding mode. -/
structure Sys2Proof.Claims.FpRow where
  ins : Guard → FpBin → Instr
  val : Ty → Mode → Nat → Nat → FpOut

/-- R137-R139: the exact result of the decoded operands, rounded once in the mode in force; fmin and fmax choose. -/
def Sys2Proof.Claims.fpRows : List FpRow :=
  let dec (t : Ty) (x : Nat) : Val := (Ty.enc t).decode x
  [⟨.fadd, fun t m x y => fpRound t m (Val.add m (dec t x) (dec t y))⟩,
   ⟨.fsub, fun t m x y => fpRound t m (Val.add m (dec t x) (dec t y).neg)⟩,
   ⟨.fmul, fun t m x y => fpRound t m (Val.mul (dec t x) (dec t y))⟩,
   ⟨.fdiv, fun t m x y => fpRound t m (Val.div (Ty.fmt t).p (dec t x) (dec t y))⟩,
   ⟨.fmin, fun t _ x y => minMaxBits (Ty.enc t) false x y⟩,
   ⟨.fmax, fun t _ x y => minMaxBits (Ty.enc t) true x y⟩]

/-- Floating instructions of two sources complete when their operands are fine and no enabled flag is raised: each element
of the destination is the rule's result (both elements of a packed type), the flags become sticky, nothing else changes
(R71-R74, R78, R137-R139). -/
def Sys2Proof.Claims.FloatTwoSourceResults : Prop :=
  ∀ row ∈ fpRows, ∀ (s : State) (g : Guard) (o : FpBin),
    let w := Ty.wide o.ty
    let f (l : Nat) : FpOut :=
      onElements o.ty (fun x y _ => row.val o.ty (s.cg.mode o.rnd l) x y) (s.cg.readV w o.a.toNat l)
        (s.cg.readV w o.b.toNat l) 0
    s.fine g [opV o.b w true, opV o.a w true, opV o.d w false] →
    s.noFpTrap (s.lanes g) o.nf (fun l => (f l).flags) →
    ∃ t, exec (row.ins g o) s = .next t ∧ fpHolds s t (s.lanes g) o.nf o.d.toNat w f

/-- A floating instruction of one source whose elements are computed apart. -/
structure Sys2Proof.Claims.FpUnRow where
  ins : Guard → FpUn → Instr
  val : Ty → Mode → Nat → FpOut

/-- R138, R140: fsqrt, frcp, frsq, and the sign operations, which raise nothing; the sign is the element's top bit. -/
def Sys2Proof.Claims.fpUnRows : List FpUnRow :=
  let dec (t : Ty) (x : Nat) : Val := (Ty.enc t).decode x
  let top (t : Ty) : Nat := 2 ^ ((Ty.enc t).eb + (Ty.enc t).fb)
  [⟨.fsqrt, fun t m x => fpRound t m (Val.sqrt (Ty.fmt t).p (dec t x))⟩,
   ⟨.frcp, fun t m x => fpRound t m (Val.recip (Ty.fmt t).p (dec t x))⟩,
   ⟨.frsq, fun t m x => fpRound t m (Val.rsqrt (Ty.fmt t).p (dec t x))⟩,
   ⟨.fabs, fun t _ x => ⟨x % top t, 0⟩⟩,
   ⟨.fneg, fun t _ x => ⟨if x < top t then x + top t else x - top t, 0⟩⟩]

/-- The same for one source, fma, fround, fclass, fcvt and fsfn (R138, R140, R137, R144, R142, R143, R145): fround, fclass
and fcvt take element 0 of a packed source. -/
def Sys2Proof.Claims.FloatOtherResults : Prop :=
  (∀ row ∈ fpUnRows, ∀ (s : State) (g : Guard) (o : FpUn),
    let w := Ty.wide o.ty
    let f (l : Nat) : FpOut :=
      onElements o.ty (fun x _ _ => row.val o.ty (s.cg.mode o.rnd l) x) (s.cg.readV w o.a.toNat l) 0 0
    s.fine g [opV o.a w true, opV o.d w false] → s.noFpTrap (s.lanes g) o.nf (fun l => (f l).flags) →
    ∃ t, exec (row.ins g o) s = .next t ∧ fpHolds s t (s.lanes g) o.nf o.d.toNat w f) ∧
  (∀ (s : State) (g : Guard) (o : FpTri),
    let w := Ty.wide o.ty
    let dec (x : Nat) : Val := (Ty.enc o.ty).decode x
    let f (l : Nat) : FpOut :=
      onElements o.ty
        (fun x y z => fpRound o.ty (s.cg.mode o.rnd l) (Val.fma (s.cg.mode o.rnd l) (dec x) (dec y) (dec z)))
        (s.cg.readV w o.a.toNat l) (s.cg.readV w o.b.toNat l) (s.cg.readV w o.c.toNat l)
    s.fine g [opV o.c w true, opV o.b w true, opV o.a w true, opV o.d w false] →
    s.noFpTrap (s.lanes g) o.nf (fun l => (f l).flags) →
    ∃ t, exec (.fma g o) s = .next t ∧ fpHolds s t (s.lanes g) o.nf o.d.toNat w f) ∧
  (∀ (s : State) (g : Guard) (o : FpUn),
    let w := Ty.wide o.ty
    let x (l : Nat) : Nat := element0 o.ty (s.cg.readV w o.a.toNat l)
    let f (l : Nat) : FpOut :=
      let r := Val.roundIntegral (s.cg.mode o.rnd l) ((Ty.enc o.ty).decode (x l))
      ⟨(Ty.enc o.ty).encode r.val, r.flags⟩
    (s.fine g [opV o.a w true, opV o.d w false] → s.noFpTrap (s.lanes g) o.nf (fun l => (f l).flags) →
      ∃ t, exec (.fround g o) s = .next t ∧ fpHolds s t (s.lanes g) o.nf o.d.toNat w f) ∧
    (s.fine g [opV o.a w true, opV o.d false false] →
      ∃ t, exec (.fclass g o) s = .next t ∧
        fpHolds s t (s.lanes g) o.nf o.d.toNat false fun l =>
          ⟨2 ^ classBit (Ty.enc o.ty) (s.cg.readV w o.a.toNat l), 0⟩)) ∧
  (∀ (s : State) (g : Guard) (o : FcvtOp),
    let f (l : Nat) : FpOut :=
      cvtResult o.dty (s.cg.mode o.rnd l) (cvtValue o.sty (s.cg.readV (Ty.wide o.sty) o.a.toNat l))
    s.fine g [opV o.a (Ty.wide o.sty) true, opV o.d (Ty.wide o.dty) false] →
    s.noFpTrap (s.lanes g) o.nf (fun l => (f l).flags) →
    ∃ t, exec (.fcvt g o) s = .next t ∧ fpHolds s t (s.lanes g) o.nf o.d.toNat (Ty.wide o.dty) f) ∧
  (∀ (s : State) (g : Guard) (o : FsfnOp),
    let f (l : Nat) : FpOut :=
      onElements o.ty (fun x _ _ => fpRound o.ty (s.cg.mode o.rnd l) (sfnExact o.fn ((Ty.enc o.ty).decode x)))
        (s.cg.readV false o.a.toNat l) 0 0
    s.fine g [opV o.a false true, opV o.d false false] → s.noFpTrap (s.lanes g) o.nf (fun l => (f l).flags) →
    ∃ t, exec (.fsfn g o) s = .next t ∧ fpHolds s t (s.lanes g) o.nf o.d.toNat false f)

/-- fcmp writes its answer to a predicate in the guarded lanes and raises its flags (R73, R141). -/
def Sys2Proof.Claims.FloatCompareResult : Prop :=
  ∀ (s : State) (g : Guard) (o : FcmpOp),
    let w := Ty.wide o.ty
    let r (l : Nat) : Bool × Flags :=
      Cond.onVals o.cond ((Ty.enc o.ty).decode (s.cg.readV w o.a.toNat l)) ((Ty.enc o.ty).decode (s.cg.readV w o.b.toNat l))
    s.fine g [opV o.b w true, opV o.a w true] → s.noFpTrap (s.lanes g) o.nf (fun l => (r l).2) →
    ∃ t, exec (.fcmp g o) s = .next t ∧ onlyGroup s t ∧ goesOn s t ∧
      { t.cg with p := s.cg.p, fflags := s.cg.fflags, run := s.cg.run, turn := s.cg.turn } = s.cg ∧
      pHolds s t (s.lanes g) o.d.toNat (fun l => (r l).1) ∧ flagsHold s t (s.lanes g) o.nf fun l => (r l).2

/-- FP_TRAP (R74, R341): when guarded lanes would raise an enabled flag, nothing is written and the group traps with cause
0x08, with the lowest such lane, the flags of that lane in `%tval` [4:0] and the enabled flags that the lanes would raise in
[12:8]. -/
def Sys2Proof.Claims.flagTraps (s : State) (i : Instr) (lanes : List Nat) (f : Nat → Flags) : Prop :=
  ∀ l ls, lanes.filter (fun k => f k &&& s.ct.enables != 0) = l :: ls →
    exec i s =
      .next (s.takeTrap
        (Trap.onLane 0x08
          ((f l).toNat + 256 * ((l :: ls).foldl (fun a k => a ||| (f k &&& s.ct.enables)) (0 : Flags)).toNat) 0 l))

/-- Every lane floating-point instruction but its .nf form traps on an enabled flag before anything is written (R74, R341);
fabs, fneg and fclass raise none. -/
def Sys2Proof.Claims.FloatTrap : Prop :=
  (∀ row ∈ fpRows, ∀ (s : State) (g : Guard) (o : FpBin),
    let w := Ty.wide o.ty
    s.fine g [opV o.b w true, opV o.a w true, opV o.d w false] → o.nf = false →
    flagTraps s (row.ins g o) (s.lanes g) fun l =>
      (onElements o.ty (fun x y _ => row.val o.ty (s.cg.mode o.rnd l) x y) (s.cg.readV w o.a.toNat l)
        (s.cg.readV w o.b.toNat l) 0).flags) ∧
  (∀ row ∈ fpUnRows, ∀ (s : State) (g : Guard) (o : FpUn),
    let w := Ty.wide o.ty
    s.fine g [opV o.a w true, opV o.d w false] → o.nf = false →
    flagTraps s (row.ins g o) (s.lanes g) fun l =>
      (onElements o.ty (fun x _ _ => row.val o.ty (s.cg.mode o.rnd l) x) (s.cg.readV w o.a.toNat l) 0 0).flags) ∧
  (∀ (s : State) (g : Guard) (o : FpTri),
    let w := Ty.wide o.ty
    let dec (x : Nat) : Val := (Ty.enc o.ty).decode x
    s.fine g [opV o.c w true, opV o.b w true, opV o.a w true, opV o.d w false] → o.nf = false →
    flagTraps s (.fma g o) (s.lanes g) fun l =>
      (onElements o.ty
        (fun x y z => fpRound o.ty (s.cg.mode o.rnd l) (Val.fma (s.cg.mode o.rnd l) (dec x) (dec y) (dec z)))
        (s.cg.readV w o.a.toNat l) (s.cg.readV w o.b.toNat l) (s.cg.readV w o.c.toNat l)).flags) ∧
  (∀ (s : State) (g : Guard) (o : FpUn),
    let w := Ty.wide o.ty
    s.fine g [opV o.a w true, opV o.d w false] → o.nf = false →
    flagTraps s (.fround g o) (s.lanes g) fun l =>
      (Val.roundIntegral (s.cg.mode o.rnd l)
        ((Ty.enc o.ty).decode (element0 o.ty (s.cg.readV w o.a.toNat l)))).flags) ∧
  (∀ (s : State) (g : Guard) (o : FcvtOp),
    s.fine g [opV o.a (Ty.wide o.sty) true, opV o.d (Ty.wide o.dty) false] → o.nf = false →
    flagTraps s (.fcvt g o) (s.lanes g) fun l =>
      (cvtResult o.dty (s.cg.mode o.rnd l) (cvtValue o.sty (s.cg.readV (Ty.wide o.sty) o.a.toNat l))).flags) ∧
  (∀ (s : State) (g : Guard) (o : FsfnOp),
    s.fine g [opV o.a false true, opV o.d false false] → o.nf = false →
    flagTraps s (.fsfn g o) (s.lanes g) fun l =>
      (onElements o.ty (fun x _ _ => fpRound o.ty (s.cg.mode o.rnd l) (sfnExact o.fn ((Ty.enc o.ty).decode x)))
        (s.cg.readV false o.a.toNat l) 0 0).flags) ∧
  (∀ (s : State) (g : Guard) (o : FcmpOp),
    let w := Ty.wide o.ty
    s.fine g [opV o.b w true, opV o.a w true] → o.nf = false →
    flagTraps s (.fcmp g o) (s.lanes g) fun l =>
      (Cond.onVals o.cond ((Ty.enc o.ty).decode (s.cg.readV w o.a.toNat l))
        ((Ty.enc o.ty).decode (s.cg.readV w o.b.toNat l))).2)

/-! ### Variable precision (R147-R168) -/

structure Sys2Proof.Claims.VpRow where
  ins : Guard → VpBin → Instr
  val : Mode → Val → Val → Exact

/-- R153: sums, differences, products and quotients of the operands at their full stored precisions. -/
def Sys2Proof.Claims.vpRows : List VpRow :=
  [⟨.xadd, fun m a b => Val.add m a b⟩, ⟨.xsub, fun m a b => Val.add m a b.neg⟩, ⟨.xmul, fun _ a b => Val.mul a b⟩,
   ⟨.xdiv, fun _ a b => Val.div 231 a b⟩]

/-- Variable-precision arithmetic (R86, R87, R150, R153, R154): the exact result is rounded once to the lane's `%prec` in
the mode in force and written to the window with the extent of that precision. -/
def Sys2Proof.Claims.VpArithmeticResults : Prop :=
  (∀ row ∈ vpRows, ∀ (s : State) (g : Guard) (o : VpBin),
    let m (l : Nat) : Mode := s.cg.mode o.rnd l
    let out (l : Nat) : VpOut := vpRound (s.cg.precOf l) (m l) (row.val (m l) (s.cg.xval o.a l) (s.cg.xval o.b l)) l
    s.fine g [opX o.b true, opX o.a true, opX o.d false] → s.windowsFine (s.lanes g) [o.b, o.a] →
    s.fitsWindow (s.lanes g) o.d o.exact out → s.noFpTrap (s.lanes g) o.nf (fun l => (out l).flags) →
    ∃ t, exec (row.ins g o) s = .next t ∧ xHolds s t (s.lanes g) o.nf o.d.toNat out) ∧
  (∀ (s : State) (g : Guard) (o : VpTri),
    let m (l : Nat) : Mode := s.cg.mode o.rnd l
    let out (l : Nat) : VpOut :=
      vpRound (s.cg.precOf l) (m l) (Val.fma (m l) (s.cg.xval o.a l) (s.cg.xval o.b l) (s.cg.xval o.c l)) l
    s.fine g [opX o.c true, opX o.b true, opX o.a true, opX o.d false] → s.windowsFine (s.lanes g) [o.c, o.b, o.a] →
    s.fitsWindow (s.lanes g) o.d o.exact out → s.noFpTrap (s.lanes g) o.nf (fun l => (out l).flags) →
    ∃ t, exec (.xfma g o) s = .next t ∧ xHolds s t (s.lanes g) o.nf o.d.toNat out) ∧
  (∀ (s : State) (g : Guard) (o : VpUn) (root : Bool),
    let out (l : Nat) : VpOut :=
      vpRound (s.cg.precOf l) (s.cg.mode o.rnd l)
        (if root then Val.sqrt 231 (s.cg.xval o.a l) else (s.cg.xval o.a l).forConvert) l
    s.fine g [opX o.a true, opX o.d false] → s.windowsFine (s.lanes g) [o.a] →
    s.fitsWindow (s.lanes g) o.d o.exact out → s.noFpTrap (s.lanes g) o.nf (fun l => (out l).flags) →
    ∃ t, exec (if root then .xsqrt g o else .xround g o) s = .next t ∧ xHolds s t (s.lanes g) o.nf o.d.toNat out)

/-- xneg, xabs and xmov copy the words of a value, its head's sign bit flipped, cleared or kept, without flags; xmov copies
the marker too (R31, R156). xcvt rounds a v value to the lane's precision, or a window's value to a type (R157). xcmp
compares at the stored precisions (R155). -/
def Sys2Proof.Claims.VpOtherResults : Prop :=
  (∀ (s : State) (g : Guard) (o : VpSign) (isAbs : Bool),
    let head (h : Nat) : Nat := if isAbs then h % 2 ^ 31 else if h < 2 ^ 31 then h + 2 ^ 31 else h - 2 ^ 31
    let out (l : Nat) : VpOut :=
      { lane := l, words := (s.cg.xwords o.a.toNat l).modifyHead head, flags := 0, changed := false, pneed := 0,
        tag := false, addr := 0 }
    s.fine g [opX o.a true, opX o.d false] → s.windowsFine (s.lanes g) [o.a] → s.fitsWindow (s.lanes g) o.d false out →
    ∃ t, exec (if isAbs then .xabs g o else .xneg g o) s = .next t ∧ xHolds s t (s.lanes g) true o.d.toNat out) ∧
  (∀ (s : State) (g : Guard) (d a : Reg),
    let out (l : Nat) : VpOut :=
      { lane := l, words := s.cg.xwords a.toNat l, flags := 0, changed := false, pneed := 0,
        tag := s.cg.tagged 2 a.toNat l, addr := 0 }
    s.fine g [(opX a true).copied, opX d false] → s.windowsFine (s.lanes g) [a] → s.fitsWindow (s.lanes g) d false out →
    ∃ t, exec (.xmov g d a) s = .next t ∧ xHolds s t (s.lanes g) true d.toNat out) ∧
  (∀ (s : State) (g : Guard) (o : XcvtOp), o.fromVp = false →
    let out (l : Nat) : VpOut :=
      vpRound (s.cg.precOf l) (s.cg.mode o.rnd l) (xcvtSource o.ty (s.cg.readV (Ty.wide o.ty) o.a.toNat l)) l
    s.fine g [opV o.a (Ty.wide o.ty) true, opX o.d false] → s.fitsWindow (s.lanes g) o.d o.exact out →
    s.noFpTrap (s.lanes g) o.nf (fun l => (out l).flags) →
    ∃ t, exec (.xcvt g o) s = .next t ∧ xHolds s t (s.lanes g) o.nf o.d.toNat out) ∧
  (∀ (s : State) (g : Guard) (o : XcvtOp), o.fromVp = true →
    let f (l : Nat) : FpOut := xcvtResult o.ty (s.cg.mode o.rnd l) (s.cg.xval o.a l)
    s.fine g [opX o.a true, opV o.d (Ty.wide o.ty) false] → s.windowsFine (s.lanes g) [o.a] →
    s.noFpTrap (s.lanes g) o.nf (fun l => (f l).flags) →
    ∃ t, exec (.xcvt g o) s = .next t ∧ fpHolds s t (s.lanes g) o.nf o.d.toNat (Ty.wide o.ty) f) ∧
  (∀ (s : State) (g : Guard) (o : XcmpOp),
    let r (l : Nat) : Bool × Flags := Cond.onVals o.cond (s.cg.xval o.a l) (s.cg.xval o.b l)
    s.fine g [opX o.b true, opX o.a true] → s.windowsFine (s.lanes g) [o.b, o.a] →
    s.noFpTrap (s.lanes g) o.nf (fun l => (r l).2) →
    ∃ t, exec (.xcmp g o) s = .next t ∧ onlyGroup s t ∧ goesOn s t ∧
      { t.cg with p := s.cg.p, fflags := s.cg.fflags, run := s.cg.run, turn := s.cg.turn } = s.cg ∧
      pHolds s t (s.lanes g) o.d.toNat (fun l => (r l).1) ∧ flagsHold s t (s.lanes g) o.nf fun l => (r l).2)

/-- PREC_EXHAUSTED (R150): when a lane's value has more words than the window, or an .exact form would lose bits, nothing is
written and the group traps with cause 0x06 at the lowest such lane; `%tval` holds the precision that would hold the value in
[31:24] and 1 in [23:16] of the second kind, the value's extent in [15:12], the window's in [11:8] and the register in [7:0];
`%taddr` the element's address, 0 where there is none. -/
def Sys2Proof.Claims.precTraps (s : State) (i : Instr) (lanes : List Nat) (d : Reg) (exact : Bool) (out : Nat → VpOut)
    (addr : Nat → Nat) : Prop :=
  let ext := (s.cg.xwin d.toNat).ext
  let tooLong := lanes.filter fun k => ext < (out k).words.length
  let tval (l : Nat) : Nat := 4096 * (out l).words.length + 256 * ext + d.toNat
  (∀ l ls, tooLong = l :: ls → exec i s = .next (s.takeTrap (Trap.onLane 0x06 (tval l) (addr l) l))) ∧
    (tooLong = [] → exact = true → ∀ l ls, lanes.filter (fun k => (out k).changed) = l :: ls →
      exec i s = .next (s.takeTrap (Trap.onLane 0x06 (2 ^ 24 * (out l).pneed + 2 ^ 16 + tval l) (addr l) l)))

/-- What stops an instruction that writes a window: first the window (R150), then the flags (R74). -/
def Sys2Proof.Claims.vpTraps (s : State) (i : Instr) (lanes : List Nat) (d : Reg) (nf exact : Bool) (out : Nat → VpOut)
    (addr : Nat → Nat) : Prop :=
  precTraps s i lanes d exact out addr ∧
    (nf = false → s.fitsWindow lanes d exact out → flagTraps s i lanes fun l => (out l).flags)

/-- Every variable-precision instruction that writes a window takes PREC_EXHAUSTED and FP_TRAP before anything is written
(R74, R150); xcmp and xcvt to a type take FP_TRAP. xneg, xabs and xmov raise no flag. -/
def Sys2Proof.Claims.WindowTooSmall : Prop :=
  (∀ row ∈ vpRows, ∀ (s : State) (g : Guard) (o : VpBin),
    let m (l : Nat) : Mode := s.cg.mode o.rnd l
    s.fine g [opX o.b true, opX o.a true, opX o.d false] → s.windowsFine (s.lanes g) [o.b, o.a] →
    vpTraps s (row.ins g o) (s.lanes g) o.d o.nf o.exact
      (fun l => vpRound (s.cg.precOf l) (m l) (row.val (m l) (s.cg.xval o.a l) (s.cg.xval o.b l)) l) fun _ => 0) ∧
  (∀ (s : State) (g : Guard) (o : VpTri),
    let m (l : Nat) : Mode := s.cg.mode o.rnd l
    s.fine g [opX o.c true, opX o.b true, opX o.a true, opX o.d false] → s.windowsFine (s.lanes g) [o.c, o.b, o.a] →
    vpTraps s (.xfma g o) (s.lanes g) o.d o.nf o.exact
      (fun l => vpRound (s.cg.precOf l) (m l) (Val.fma (m l) (s.cg.xval o.a l) (s.cg.xval o.b l) (s.cg.xval o.c l)) l)
      fun _ => 0) ∧
  (∀ (s : State) (g : Guard) (o : VpUn) (root : Bool),
    s.fine g [opX o.a true, opX o.d false] → s.windowsFine (s.lanes g) [o.a] →
    vpTraps s (if root then .xsqrt g o else .xround g o) (s.lanes g) o.d o.nf o.exact
      (fun l => vpRound (s.cg.precOf l) (s.cg.mode o.rnd l)
        (if root then Val.sqrt 231 (s.cg.xval o.a l) else (s.cg.xval o.a l).forConvert) l) fun _ => 0) ∧
  (∀ (s : State) (g : Guard) (o : VpSign) (d a : Reg),
    let out (r : Reg) (l : Nat) : VpOut :=
      { lane := l, words := s.cg.xwords r.toNat l, flags := 0, changed := false, pneed := 0, tag := false, addr := 0 }
    (s.fine g [opX o.a true, opX o.d false] → s.windowsFine (s.lanes g) [o.a] →
      precTraps s (.xneg g o) (s.lanes g) o.d false (out o.a) (fun _ => 0) ∧
      precTraps s (.xabs g o) (s.lanes g) o.d false (out o.a) (fun _ => 0)) ∧
    (s.fine g [(opX a true).copied, opX d false] → s.windowsFine (s.lanes g) [a] →
      precTraps s (.xmov g d a) (s.lanes g) d false (out a) (fun _ => 0))) ∧
  (∀ (s : State) (g : Guard) (o : XcvtOp),
    (o.fromVp = false → s.fine g [opV o.a (Ty.wide o.ty) true, opX o.d false] →
      vpTraps s (.xcvt g o) (s.lanes g) o.d o.nf o.exact
        (fun l => vpRound (s.cg.precOf l) (s.cg.mode o.rnd l)
          (xcvtSource o.ty (s.cg.readV (Ty.wide o.ty) o.a.toNat l)) l) fun _ => 0) ∧
    (o.fromVp = true → o.nf = false → s.fine g [opX o.a true, opV o.d (Ty.wide o.ty) false] →
      s.windowsFine (s.lanes g) [o.a] →
      flagTraps s (.xcvt g o) (s.lanes g) fun l => (xcvtResult o.ty (s.cg.mode o.rnd l) (s.cg.xval o.a l)).flags)) ∧
  (∀ (s : State) (g : Guard) (o : XcmpOp),
    s.fine g [opX o.b true, opX o.a true] → s.windowsFine (s.lanes g) [o.b, o.a] → o.nf = false →
    flagTraps s (.xcmp g o) (s.lanes g) fun l => (Cond.onVals o.cond (s.cg.xval o.a l) (s.cg.xval o.b l)).2) ∧
  (∀ (s : State) (g : Guard) (nf exact : Bool) (rnd : Rnd) (d a b : Reg) (imm : BitVec 16),
    let run (i : Instr) (ops : List Opnd) (va : Nat → Nat) : Prop :=
      let at_ (l : Nat) : VpAt := s.vpAt vpLoadAcc l (va l)
      s.fine g (ops ++ [opX d false]) →
      (∀ l ∈ s.lanes g, va l % 4 = 0 ∧ s.readable (at_ l).head ∧ (at_ l).head.isReg = false ∧
        statedExtent (s.readAt (at_ l).head) ≠ 0 ∧ ∀ x ∈ (at_ l).rest, s.readable x ∧ x.isReg = false) →
      vpTraps s i (s.lanes g) d nf exact (fun l => s.vpLoaded rnd d (at_ l)) va
    run (.xld g ⟨nf, rnd, exact, d, a, imm⟩) [opV a true true]
      (fun l => wrapTo 48 ((s.cg.vpair a.toNat l : Nat) + imm.toInt)) ∧
    run (.xldStride g ⟨nf, rnd, exact, d, a, b, imm⟩) [opV b false true, opV a true true]
      (fun l => (s.cg.vpair a.toNat l + 4 * imm.toNat * (s.cg.vreg b.toNat l).toNat) % 2 ^ 48))

/-! ### Memory (R170-R193) -/

/-- ld completes when every guarded lane's access is aligned and readable: its destination holds the value read, extended
below 32 bits, with a clear marker. Memory changes only in the leaf entries (their accessed bits, R360). A group that waits
in no waitm keeps everything else (R171, R173, R177, R294). -/
def Sys2Proof.Claims.LoadResult : Prop :=
  ∀ (s : State) (g : Guard) (o : MemOp),
    let lanes := s.lanes g
    let ls := s.memLanes o lanes Need.read
    s.fine g (rectOps o.scope o.b ++ [opV o.a true true, opV o.d (size64 o.size) false]) →
    s.rectFine lanes o.scope o.b → (∀ l ∈ ls, l.va % sizeBytes o.size = 0) → (∀ l ∈ ls, s.readable l) →
    ∃ t, exec (.ld g o) s = .next t ∧
      vHolds s t lanes o.d.toNat (size64 o.size) (fun l =>
        extendRead o.size
          (s.readAt
            (s.laneAt l (s.globalAt o.a o.off.toInt l) (sizeBytes o.size)
              { Need.read with plain := decide (4 ≤ sizeBytes o.size) }))) ∧
      (∀ a, outsideLeaves ls a → Memory.read t.mem a = Memory.read s.mem a) ∧
      (s.cg.monitor = none → s.cg.run.mask ≠ 0 → onlyVAcq s t ∧ onlyMemory s t)

/-- A load of plaintext local memory reads the little-endian value of its bytes, where it has not read their line before (R6,
R171). -/
def Sys2Proof.Claims.LoadReadsBytes : Prop :=
  ∀ (s : State) (l : LaneAt) (pa at_ leaf size : Nat),
    l.x = .ok 0 pa at_ leaf size → s.keyTag = [] → keyOf s.partId leaf = 0 → s.keptLine ⟨pa / 128, 0⟩ = none →
    s.readAt l = (List.range l.n).foldr (fun i v => (Memory.read s.mem (pa + i)).toNat + 256 * v) 0

/-- st, none of whose accesses is made, completes when every guarded lane's access is aligned and writable and, for a
releasing form, the group's earlier writes are performed. Every byte of local memory holds what the highest lane
that stores to it wrote (R175); a byte that no lane stores to and that lies in no leaf entry is as before. With
local addresses only, a group that waits in no waitm keeps everything else, and no core changes but in its L1 (R177,
R187, R293). The model's choices it rests on: logs 1 and 70. -/
def Obligations.StoreResult : Prop :=
  ∀ (s : State) (g : Guard) (o : MemOp),
    let lanes := s.lanes g
    let ls := s.memLanes o lanes Need.write
    let ws := s.storeWrites o.d o.size ls
    s.fine g (rectOps o.scope o.b ++ [opV o.a true true, (opV o.d (size64 o.size) true).copied]) →
    s.rectFine lanes o.scope o.b → (∀ l ∈ ls, l.va % sizeBytes o.size = 0) → (∀ l ∈ ls, s.writable l) →
    s.released lanes o.ord o.scope o.b → s.regPageStop ls (ws.map fun w => leValue w.2) = none → s.cg.run.under = [] →
    ∃ t, exec (.st g o) s = .next t ∧
      ((∀ l ∈ ls, l.isLocal = true) →
        (∀ a, Memory.read t.mem a = (lastByte ws a).getD (Memory.read (s.touched ls true).mem a)) ∧
        (∀ a, lastByte ws a = none → outsideLeaves ls a → Memory.read t.mem a = Memory.read s.mem a) ∧
        (s.cg.monitor = none → s.cg.run.mask ≠ 0 → onlyPcAcq s t ∧ onlyStores s t))

/-- lds and sts reach the team's data area at the offset in v[a] plus the immediate: in range, aligned, unlocked. lds reads
the little-endian bytes there, sts writes them, the highest lane last; global memory is untouched (R20, R21, R179, R180). -/
def Sys2Proof.Claims.ScratchpadResults : Prop :=
  ∀ (s : State) (g : Guard) (o : ScrOp),
    let lanes := s.lanes g
    let n := sizeBytes o.size
    let at_ (l : Nat) : Nat := wrapTo 32 ((s.cg.vreg o.a.toNat l).toNat + o.off.toInt)
    let inData : Prop := ∀ l ∈ lanes, at_ l % n = 0 ∧ at_ l + n ≤ s.ct.d
    (s.fine g [opV o.a false true, opV o.d (size64 o.size) false] → inData →
      (∀ l ∈ lanes, s.cc.lockAt (s.ct.base + at_ l) n true = none ∧
        s.scrPoisoned s.coreId (s.ct.base + at_ l) n = false) →
      ∃ t, exec (.lds g o) s = .next t ∧ onlyV s t ∧
        vHolds s t lanes o.d.toNat (size64 o.size) fun l =>
          extendRead o.size (leValue (s.cc.scrBytes (s.ct.base + at_ l) n))) ∧
    (s.fine g [opV o.a false true, (opV o.d (size64 o.size) true).copied] → inData →
      (∀ l ∈ lanes, s.cc.lockAt (s.ct.base + at_ l) n false = none) →
      ∃ t, exec (.sts g o) s = .next t ∧ goesOn s t ∧
        { t.cg with run := s.cg.run, turn := s.cg.turn } = s.cg ∧
        { t with groups := s.groups, cores := s.cores, poison := s.poison } = s ∧
        (∀ a, Memory.read t.mem a = Memory.read s.mem a) ∧ { t.cc with scr := s.cc.scr } = s.cc ∧
        (∀ c, c ≠ s.coreId → t.core c = s.core c) ∧ (∀ h, h ≠ s.cur → t.group h = s.group h) ∧
        ∀ a, Tbl.get 0 t.cc.scr a =
          lanes.foldl (fun b l =>
            if s.ct.base + at_ l ≤ a ∧ a < s.ct.base + at_ l + n then
              nthD 0 (leBytes n (s.cg.readV (size64 o.size) o.d.toNat l)) (a - (s.ct.base + at_ l))
            else b) (Tbl.get 0 s.cc.scr a))

/-- pushm and popm move k registers of the guarded lanes between v and the group's stack, 128 bytes a register, %ssp down
before and up after; they complete inside the stack (R22, R181). Without a guarded lane they only advance. -/
def Sys2Proof.Claims.StackResults : Prop :=
  ∀ (s : State) (g : Guard) (d : Reg) (n : BitVec 5),
    let k := n.toNat + 1
    let lanes := s.lanes g
    (s.fine g [(opRun d.toNat k true).copied] → lanes ≠ [] → s.stackLo + 128 * k ≤ s.cg.ssp → s.cg.ssp ≤ s.stackHi →
      ∃ t, exec (.pushm g d n) s = .next t ∧ goesOn s t ∧
        { t.cg with ssp := s.cg.ssp, run := s.cg.run, turn := s.cg.turn } = s.cg ∧ t.cg.ssp = s.cg.ssp - 128 * k ∧
        { t with groups := s.groups, cores := s.cores, poison := s.poison } = s ∧
        (∀ a, Memory.read t.mem a = Memory.read s.mem a) ∧ { t.cc with scr := s.cc.scr } = s.cc ∧
        (∀ c, c ≠ s.coreId → t.core c = s.core c) ∧ (∀ h, h ≠ s.cur → t.group h = s.group h) ∧
        (∀ j < k, ∀ l ∈ lanes,
          leValue (t.cc.scrBytes (s.ct.base + s.cg.ssp - 128 * k + 128 * j + 4 * l) 4) =
            (s.cg.vreg (d.toNat + j) l).toNat) ∧
        (∀ a, a < s.ct.base + s.cg.ssp - 128 * k ∨ s.ct.base + s.cg.ssp ≤ a →
          Tbl.get 0 t.cc.scr a = Tbl.get 0 s.cc.scr a)) ∧
    (s.fine g [opRun d.toNat k false] → lanes ≠ [] → s.stackLo ≤ s.cg.ssp → s.cg.ssp + 128 * k ≤ s.stackHi →
      (∀ j < k, ∀ l ∈ lanes, s.scrPoisoned s.coreId (s.ct.base + s.cg.ssp + 128 * j + 4 * l) 4 = false) →
      ∃ t, exec (.popm g d n) s = .next t ∧ onlyGroup s t ∧ goesOn s t ∧
        { t.cg with v := s.cg.v, vtag := s.cg.vtag, ssp := s.cg.ssp, run := s.cg.run, turn := s.cg.turn } = s.cg ∧
        t.cg.ssp = s.cg.ssp + 128 * k ∧
        ∀ r l, l < 32 →
          (t.cg.vreg r l, t.cg.vTagged r l) =
            if l ∈ lanes ∧ d.toNat ≤ r ∧ r < d.toNat + k then
              (BitVec.ofNat 32 (leValue (s.cc.scrBytes (s.ct.base + s.cg.ssp + 128 * (r - d.toNat) + 4 * l) 4)), false)
            else (s.cg.vreg r l, s.cg.vTagged r l)) ∧
    (lanes = [] → s.predFine g.pred.toNat →
      (s.fine g [(opRun d.toNat k true).copied] → ∃ t, exec (.pushm g d n) s = .next t ∧ onlyPc s t) ∧
      (s.fine g [opRun d.toNat k false] → ∃ t, exec (.popm g d n) s = .next t ∧ onlyPc s t))

/-- Variable-precision stores write the words of each lane's value from the element's address on; loads read a head and the
words it states, copying the value where it fits the window, and change nothing else; xnext gives the address behind it
(R158-R161). The forms with a stride scale the index by 4 times the immediate. -/
def Sys2Proof.Claims.VpMemoryResults : Prop :=
  (∀ (s : State) (g : Guard) (nf exact : Bool) (rnd : Rnd) (d a b : Reg) (imm : BitVec 16),
    let run (i : Instr) (ops : List Opnd) (va : Nat → Nat) : Prop :=
      let at_ (l : Nat) : VpAt := s.vpAt vpLoadAcc l (va l)
      let words (l : Nat) : List Nat := s.readAt (at_ l).head :: (at_ l).rest.map s.readAt
      let lanes := s.lanes g
      let w0 := s.cg.xb + (s.cg.xwin d.toNat).base
      s.fine g (ops ++ [opX d false]) →
      (∀ l ∈ lanes, va l % 4 = 0 ∧ s.readable (at_ l).head ∧ (at_ l).head.isReg = false ∧
        statedExtent (s.readAt (at_ l).head) ≠ 0 ∧ (∀ x ∈ (at_ l).rest, s.readable x ∧ x.isReg = false) ∧
        (words l).length ≤ (s.cg.xwin d.toNat).ext) →
      ∃ t, exec i s = .next t ∧
        (∀ w l, l < 32 → t.cg.winWord w l =
          if l ∈ lanes ∧ w0 ≤ w ∧ w < w0 + (words l).length then BitVec.ofNat 32 (nthD 0 (words l) (w - w0))
          else s.cg.winWord w l) ∧
        (∀ x l, l < 32 → (Tbl.get 0 t.cg.xtag x).getLsbD l =
          (!(decide (l ∈ lanes) && decide (x = d.toNat)) && (Tbl.get 0 s.cg.xtag x).getLsbD l)) ∧
        (s.cg.monitor = none → s.cg.run.mask ≠ 0 → goesOn s t ∧ onlyMemory s t ∧
          { t.cg with win := s.cg.win, xtag := s.cg.xtag, fflags := s.cg.fflags, run := s.cg.run, turn := s.cg.turn } = s.cg ∧
          ∀ l, Tbl.get 0 t.cg.fflags l = Tbl.get 0 s.cg.fflags l)
    run (.xld g ⟨nf, rnd, exact, d, a, imm⟩) [opV a true true]
      (fun l => wrapTo 48 ((s.cg.vpair a.toNat l : Nat) + imm.toInt)) ∧
    run (.xldStride g ⟨nf, rnd, exact, d, a, b, imm⟩) [opV b false true, opV a true true]
      (fun l => (s.cg.vpair a.toNat l + 4 * imm.toNat * (s.cg.vreg b.toNat l).toNat) % 2 ^ 48)) ∧
  (∀ (s : State) (g : Guard) (nf : Bool) (d a b : Reg) (imm : BitVec 16),
    let run (i : Instr) (ops : List Opnd) (va : Nat → Nat) : Prop :=
      let words (l : Nat) : List Nat := s.cg.xwords d.toNat l
      let puts := (s.lanes g).flatMap fun l =>
        (s.vpWordsAt l (va l) 0 (words l).length Need.write).zip ((words l).map (leBytes 4))
      s.fine g (ops ++ [(opX d true).copied]) → s.windowsFine (s.lanes g) [d] →
      (∀ l ∈ s.lanes g, va l % 4 = 0) →
      (∀ p ∈ puts, p.1.isLocal = true ∧ s.writable p.1) → s.cg.run.under = [] →
      ∃ t, exec i s = .next t ∧
        (∀ a, Memory.read t.mem a =
          (lastByte puts a).getD (Memory.read (s.touched (puts.map fun p => p.1) true).mem a)) ∧
        (s.cg.monitor = none → s.cg.run.mask ≠ 0 → onlyPcAcq s t ∧ onlyStores s t)
    run (.xst g ⟨nf, d, a, imm⟩) [opV a true true] (fun l => wrapTo 48 ((s.cg.vpair a.toNat l : Nat) + imm.toInt)) ∧
    run (.xstStride g ⟨nf, d, a, b, imm⟩) [opV b false true, opV a true true]
      (fun l => (s.cg.vpair a.toNat l + 4 * imm.toNat * (s.cg.vreg b.toNat l).toNat) % 2 ^ 48)) ∧
  (∀ (s : State) (g : Guard) (d a : Reg),
    let head (l : Nat) : LaneAt := s.laneAt l (s.vpair48 a l) 4 Need.read
    s.fine g [opV a true true, opV d true false] →
    (∀ l ∈ s.lanes g, s.vpair48 a l % 4 = 0 ∧ s.readable (head l) ∧ (head l).isReg = false ∧
      statedExtent (s.readAt (head l)) ≠ 0) →
    ∃ t, exec (.xnext g d a) s = .next t ∧
      vHolds s t (s.lanes g) d.toNat true (fun l => (s.vpair48 a l + 4 * statedExtent (s.readAt (head l))) % 2 ^ 48) ∧
      (s.cg.monitor = none → s.cg.run.mask ≠ 0 → onlyVAcq s t ∧ onlyMemory s t))

/-- The window map and its frames (R163-R167): xalloc gives its entry the extent asked for and keeps every other entry and,
while no frame is spilled, the words of every window, those added reading 0 or the marker; xframe pushes the map, passing
the carried entries with their words; xunframe pops it, handing the carried entries back at the larger of the two extents
with the callee's words, the caller's other entries with their own, from the window area or from the record of a spilled
frame. -/
def Sys2Proof.Claims.FrameResults : Prop :=
  (∀ (s : State) (g : Guard) (d : Reg) (e : AllocSize),
    let n := match e with
      | .words k => k.toNat
      | .prec => ((s.lanes g).map fun l => vpExtent (s.cg.precOf l)).foldl Nat.max 0
    let len := mapLength (Tbl.set Win.none s.cg.xmap d.toNat (s.cg.allocated d.toNat n))
    s.predFine g.pred.toNat → s.lanes g ≠ [] → len ≤ s.cg.nw → Tbl.wf 0 s.cg.win = true →
    s.spillStop ((s.cg.spillCount (s.cg.xb + len) false).getD 0) = none →
    ∃ t, exec (.xalloc g d e) s = .next t ∧ goesOn s t ∧ (t.cg.xwin d.toNat).ext = n ∧ t.cg.depth = s.cg.depth ∧
      (∀ x, x ≠ d.toNat → t.cg.xwin x = s.cg.xwin x) ∧
      (s.cg.xb + len ≤ s.cg.nw → onlyGroup s t ∧
        (∀ x l j, l < 32 → x ≠ d.toNat → j < (s.cg.xwin x).ext → t.cg.xword x l j = s.cg.xword x l j) ∧
        (∀ l j, l < 32 → j < (s.cg.xwin d.toNat).ext → j < n → t.cg.xword d.toNat l j = s.cg.xword d.toNat l j) ∧
        (∀ l j, l < 32 → (s.cg.xwin d.toNat).ext ≤ j → j < n → t.cg.xword d.toNat l j =
          if j = 0 ∧ s.cg.uninit = true then markerHead n else 0))) ∧
  (∀ (s : State) (g : Guard) (a : Option Reg) (j : Nat),
    let c : Mask := match a with
      | some r => s.cg.sreg r.toNat
      | none => 0
    let ops := match a with
      | some r => [opS r false true]
      | none => []
    let n := ((carried c).map fun x => (s.cg.xwin x).ext).foldl (· + ·) 0
    s.fine g ops → s.lanes g ≠ [] → (∀ x ∈ carried c, (s.cg.xwin x).ext ≠ 0) → Tbl.wf 0 s.cg.win = true →
    s.cg.spillCount (s.cg.xb + mapLength s.cg.xmap + n) true = some j → s.spillStop j = none →
    ∃ t, exec (.xframe g a) s = .next t ∧ goesOn s t ∧ t.cg.depth = s.cg.depth + 1 ∧ t.cg.carry = c ∧
      (∀ x, (t.cg.xwin x).ext = if x ∈ carried c then (s.cg.xwin x).ext else 0) ∧
      (j = 0 → onlyGroup s t ∧
        ∀ x ∈ carried c, ∀ l k, l < 32 → k < (s.cg.xwin x).ext → t.cg.xword x l k = s.cg.xword x l k)) ∧
  (∀ (s : State) (g : Guard),
    let f := s.callerFrame
    s.predFine g.pred.toNat → s.lanes g ≠ [] → s.cg.depth ≠ 0 → (s.cg.frames ≠ [] ∨ s.recordStop = none) →
    Group.noRoom s.cg s.callerGroup s.cg.held = none → Tbl.wf 0 s.cg.win = true →
    (∀ x y, x ≠ y → (Tbl.get Win.none f.map x).meets (Tbl.get Win.none f.map y) = false) →
    ∃ t, exec (.xunframe g) s = .next t ∧ onlyGroup s t ∧ goesOn s t ∧ t.cg.depth = s.cg.depth - 1 ∧
      t.cg.carry = f.carry ∧ t.cg.frames = s.cg.frames.dropLast ∧
      (∀ x, (t.cg.xwin x).ext =
        if x ∈ s.cg.held then max (Tbl.get Win.none f.map x).ext (s.cg.xwin x).ext else (Tbl.get Win.none f.map x).ext) ∧
      (∀ x ∈ s.cg.held, ∀ l k, l < 32 → k < (s.cg.xwin x).ext → t.cg.xword x l k = s.cg.xword x l k) ∧
      ∀ x, x ∉ s.cg.held → ∀ l k, l < 32 → k < (Tbl.get Win.none f.map x).ext → t.cg.xword x l k =
        (if s.cg.frames = [] then
          leValue (s.cc.scrBytes (s.ct.base + s.cg.ssp + 128 + 128 * ((Tbl.get Win.none f.map x).base + k) + 4 * l) 4)
        else (s.cg.winWord (s.cg.callerBase + (Tbl.get Win.none f.map x).base + k) l).toNat))

/-- bst takes one baton entry for each line it touches, with every core of the destination set to answer, and sends the
bytes of each line to its home, which writes them (R190, R191, R298, R299); memory itself is as the marks of the
leaf entries leave it. The model's choice it rests on: log 1. -/
def Obligations.BatonStoreResult : Prop :=
  ∀ (s : State) (g : Guard) (o : BstOp),
    let lanes := s.lanes g
    let set := s.cg.sreg o.b.toNat
    let ls := lanes.map fun l => s.laneAt l (s.globalAt o.a o.off.toInt l) (sizeBytes o.size) Need.write
    let ws := s.storeWrites o.d o.size ls
    let lines := localLines ls
    s.fine g (rectOps o.scope o.rect ++ [opS o.b false true, opV o.a true true, (opV o.d (size64 o.size) true).copied]) →
    s.rectFine lanes o.scope o.rect → s.setOk set = true → (∀ l ∈ ls, l.va % sizeBytes o.size = 0) →
    (∀ l ∈ ls, l.isLocal = true) → s.released lanes o.ord o.scope o.rect →
    s.cc.batons.length + lines.length ≤ 64 →
    ∃ t, exec (.bst g o) s = .next t ∧ t.mem = (s.touched ls true).mem ∧
      t.cc.batons = s.cc.batons ++ lines.map (fun k => ⟨s.cur, k, set, s.setCores set⟩) ∧
      t.flight = s.flight ++ (lines.zip (List.range lines.length)).map (fun e =>
        .bstHomeWrite s.coreId e.1 ⟨s.setCores set, ⟨s.nextId + e.2, 0, s.homePuts e.1 (lastWrites ws)⟩⟩) ∧
      (s.cg.monitor = none → s.cg.run.mask ≠ 0 → onlyPcAcq s t)

/-- One lane of an atomic on memory: the old value is read and what the operation writes is written, the other lanes'
operations before or after it (R175, R182). -/
def Sys2Proof.Claims.atomStep (s : State) (o : AtomOps) (acc : Memory × List (Nat × Nat)) (l : LaneAt) :
    Memory × List (Nat × Nat) :=
  let lane := l.lane.getD 0
  match l.x with
  | .ok 0 pa _ _ _ =>
    let old := leValue (readBytes acc.1 pa l.n)
    match atomicResult o.op o.size old (s.atomOperand o o.b lane) (s.atomOperand o o.cmp lane) with
    | some v => (writeBytes acc.1 pa (leBytes l.n v), acc.2 ++ [(lane, old)])
    | none => (acc.1, acc.2 ++ [(lane, old)])
  | _ => (acc.1, acc.2 ++ [(lane, 0)])

/-- The old value of a lane among those that an atomic read. -/
def Sys2Proof.Claims.oldOf (olds : List (Nat × Nat)) (l : Nat) : Nat := ((olds.find? fun e => e.1 == l).map fun e => e.2).getD 0

/-- atom and the reductions of near perform the lanes in ascending order, each indivisibly, on plaintext memory whose leaf
entries carry their marks, and write each lane's old value to the destination and no other register (R175, R182, R184): atom
once its L1 serves the lines for a write, near once the home performs them, which lets go of the lines that it held. -/
def Sys2Proof.Claims.AtomicResults : Prop :=
  ∀ (s : State) (g : Guard) (o : AtomOps), o.op ≠ .gather →
    let lanes := s.lanes g
    let ls := s.atomLanes o lanes { Need.both with atomic := true, sys := o.scope == .s }
    let r := ls.foldl (atomStep s o) ((s.touched ls true).mem, [])
    let performed (t : State) : Prop := t.mem = r.1 ∧ vHolds s t lanes o.d.toNat (size64 o.size) (oldOf r.2) ∧
      (s.cg.monitor = none → s.cg.run.mask ≠ 0 → onlyVAcq s t ∧ onlyStores s { t with dir := s.dir })
    s.fine g (atomRegs o true) → s.rectFine lanes o.scope o.rect → (∀ l ∈ ls, l.va % sizeBytes o.size = 0) →
    (∀ l ∈ ls, s.plainLocal l ∧ s.ownStop [l] = none) → s.keyTag = [] → s.released lanes o.ord o.scope o.rect →
    s.cg.run.under = [] →
    ((∀ l ∈ ls, s.l1Serves l) → ∃ t, exec (.atom g o) s = .next t ∧ performed t ∧ t.dir = s.dir) ∧
    (s.homeHeld (.group s.cur) (localLines ls) true = none → o.op ≠ .cas → o.op ≠ .xchg →
      ∃ t, exec (.near g o) s = .next t ∧ performed t ∧ t.dir = (s.letGo (.group s.cur) (localLines ls)).dir)

/-- An atomic of which some lanes reach host or peer memory: its checks made, it marks its leaves, asks the home of each such lane
for the operation and the L1 for the lines of the others, and waits. Once the answers have come and the other lanes are
performed the instruction completes, no check is made again, each lane's destination holds its answer or old value, and nothing
else changes (R173, R394). -/
def Sys2Proof.Claims.RemoteAtomics : Prop :=
  (∀ (s : State) (g : Guard) (o : AtomOps),
    let lanes := s.lanes g
    let ls := s.atomLanes o lanes { Need.both with atomic := true, sys := o.scope == .s }
    let late := (localLines (ls.filter LaneAt.isLocal)).filter fun k => !s.l1Hit s.coreId k true
    let far := ls.filter fun l => !l.isLocal
    let u := s.touched ls true
    s.fine g (atomRegs o true) → s.rectFine lanes o.scope o.rect → far ≠ [] →
    (∀ l ∈ ls, l.va % sizeBytes o.size = 0 ∧ ∃ loc pa at_ leaf size, l.x = .ok loc pa at_ leaf size ∧ loc ≠ 3 ∧
      (loc = 0 → s.readPoisoned pa l.n = false) ∧
      (loc ≠ 0 → s.reachable s.partId loc pa = true ∧ s.carries s.partId loc pa o.op false o.scope = true)) →
    s.released lanes o.ord o.scope o.rect → s.ownStop ls = none → s.cg.run.under = [] →
    ∃ t asks, exec (.atom g o) s = .next t ∧
      asks.map (fun a => (a.lane, a.va, a.atomic.map fun x => (x.op, x.size, x.operand, x.cmp))) =
        far.map (fun l => (l.lane.getD 0, l.va, some (o.op, o.size, BitVec.ofNat 64 (s.atomOperand o o.b (l.lane.getD 0)),
          BitVec.ofNat 64 (s.atomOperand o o.cmp (l.lane.getD 0))))) ∧
      asks.map (fun a => some (a.loc, a.addr)) = far.map LaneAt.place ∧
      t = (late.foldl (fun t k => t.l1Ask t.coreId k true) (u.setRun { u.cg.run with under := ls })).askPath asks) ∧
  (∀ (s : State) (g : Guard) (o : AtomOps),
    let ls := s.cg.run.under
    let lane (l : LaneAt) : Nat := l.lane.getD 0
    ls ≠ [] → (ls.map lane).Nodup → s.openAt ls = [] →
    ∃ t, exec (.atom g o) s = .next t ∧ onlyGroup s t ∧ onlyVAcq s t ∧
      vHolds s t (ls.map lane) o.d.toNat (size64 o.size) (oldOf (s.atomOlds ls)) ∧
      ∀ l ∈ ls, l.isLocal = false → ∀ bs, s.cg.run.served.find? (fun e => e.1 == atomKey (lane l)) = some bs →
        oldOf (s.atomOlds ls) (lane l) = leValue bs.2)

/-- red sends the operation of each lane to the home of its address, which performs it without a result (R183); a gather reads
consecutive elements of one line into consecutive registers, and no other, once no core owns the line; the home lets go of the
lines that it held for it (R184). -/
def Sys2Proof.Claims.NearMemoryResults : Prop :=
  (∀ (s : State) (g : Guard) (o : AtomOps),
    let lanes := s.lanes g
    let ls := s.atomLanes o lanes { Need.both with atomic := true, sys := o.scope == .s }
    s.fine g (atomRegs o false) → s.rectFine lanes o.scope o.rect → (∀ l ∈ ls, l.va % sizeBytes o.size = 0) →
    (∀ l ∈ ls, s.plainLocal l) → s.released lanes o.ord o.scope o.rect →
    ∃ t, exec (.red g o) s = .next t ∧ t.mem = (s.touched ls true).mem ∧
      t.flight = s.flight ++ (ls.zip (List.range ls.length)).map (fun e =>
        .nearDataOp s.coreId o.op o.size ((e.1.place.getD (0, 0)).2)
          ⟨BitVec.ofNat 64 (s.atomOperand o o.b (e.1.lane.getD 0)), ⟨s.nextId + e.2, 0, []⟩⟩) ∧
      (s.cg.monitor = none → s.cg.run.mask ≠ 0 → onlyPcAcq s t ∧ t.cores = s.cores)) ∧
  (∀ (s : State) (g : Guard) (o : AtomOps), o.op = .gather →
    let lanes := s.lanes g
    let w := sizeBytes o.size
    let n := o.count.toNat + 1
    let at_ (l : Nat) : LaneAt := s.laneAt l (s.globalAt o.a o.off.toInt l) (w * n) Need.read
    s.fine g (rectOps o.scope o.rect ++ [opV o.a true true, ⟨0, o.d.toNat, gatherRegs o, size64 o.size, false, false⟩]) →
    s.rectFine lanes o.scope o.rect →
    (∀ l ∈ lanes, (at_ l).va % w = 0 ∧ (at_ l).va % 128 + w * n ≤ 128 ∧ (at_ l).isLocal = true ∧ s.dataFine (at_ l) ∧
      s.ownStop [at_ l] = none) → s.homeHeld (.group s.cur) (localLines (lanes.map at_)) false = none →
    s.released lanes o.ord o.scope o.rect →
    ∃ t, exec (.near g o) s = .next t ∧
      (∀ l ∈ lanes, ∀ i < n,
        t.cg.readV (size64 o.size) (o.d.toNat + i * regCount (size64 o.size)) l % 2 ^ (8 * w) =
          s.readAt (at_ l) / 2 ^ (8 * w * i) % 2 ^ (8 * w)) ∧
      (∀ r l, l < 32 → ¬(l ∈ lanes ∧ o.d.toNat ≤ r ∧ r < o.d.toNat + gatherRegs o) →
        t.cg.vreg r l = s.cg.vreg r l ∧ t.cg.vTagged r l = s.cg.vTagged r l) ∧
      (∀ a, outsideLeaves (lanes.map at_) a → Memory.read t.mem a = Memory.read s.mem a) ∧
      t.dir = (s.letGo (.group s.cur) (localLines (lanes.map at_))).dir ∧
      (s.cg.monitor = none → s.cg.run.mask ≠ 0 → onlyVAcq s t ∧ onlyMemory s { t with dir := s.dir }))

/-- fence completes once the group's writes are performed at the scope, and notes a system-scope acquire; prf only
counts misses and asks for lines, and never traps on its addresses (R178, R187, R188, R275). The model's choices it
rests on: logs 1 and 25. -/
def Obligations.FenceAndPrefetch : Prop :=
  (∀ (s : State) (g : Guard) (ord : Order) (scope : Scope) (b : Reg),
    s.fine g (rectOps scope b) → s.rectFine (s.lanes g) scope b → s.released (s.lanes g) ord scope b →
    ∃ t, exec (.fence g ord scope b) s = .next t ∧ onlyGroup s t ∧ onlyPcAcq s t ∧
      t.cg.lastAcq = if s.lanes g ≠ [] ∧ Order.acquires ord = true ∧ scope = .s then s.now else s.cg.lastAcq) ∧
  (∀ (s : State) (g : Guard) (l2 : Bool) (a : Reg) (off : BitVec 16),
    s.fine g [opV a true true] →
    ∃ t, exec (.prf g l2 a off) s = .next t ∧ t.mem = s.mem ∧
      (s.cg.monitor = none → s.cg.run.mask ≠ 0 → groupGoesOn s t) ∧
      { t.cc with l1 := s.cc.l1, specmiss := s.cc.specmiss } = s.cc)

/-- A form of global access: its instruction, what names it in `%tval`, its accesses, its operands, its rectangle, and whether
it writes. -/
structure Sys2Proof.Claims.MemForm where
  ins : Instr
  acc : Acc
  size : Nat
  lanes : List LaneAt
  regs : List Opnd
  scope : Scope
  rect : Reg
  windows : List Reg
  writes : Bool

/-- ld, st, atom, red, the reductions of near, xld, xst and xnext. -/
def Sys2Proof.Claims.memForms (s : State) (g : Guard) (o : MemOp) (p : AtomOps) (x : XldOp) (y : XstOp) (d : Reg) :
    List MemForm :=
  let lanes := s.lanes g
  let al := s.atomLanes p lanes { Need.both with atomic := true, sys := p.scope == .s }
  let head (r : Reg) (off : BitVec 16) (need : Need) : List LaneAt :=
    lanes.map fun l => s.laneAt l (wrapTo 48 ((s.cg.vpair r.toNat l : Nat) + off.toInt)) 4 need
  [⟨.ld g o, memAcc 0 0 o.scope o.size, sizeBytes o.size, s.memLanes o lanes Need.read,
      rectOps o.scope o.b ++ [opV o.a true true, opV o.d (size64 o.size) false], o.scope, o.b, [], false⟩,
    ⟨.st g o, memAcc 1 0 o.scope o.size, sizeBytes o.size, s.memLanes o lanes Need.write,
      rectOps o.scope o.b ++ [opV o.a true true, (opV o.d (size64 o.size) true).copied], o.scope, o.b, [], true⟩,
    ⟨.atom g p, memAcc 3 p.op.code.toNat p.scope p.size, sizeBytes p.size, al, atomRegs p true, p.scope, p.rect, [], true⟩,
    ⟨.red g p, memAcc 4 p.op.code.toNat p.scope p.size, sizeBytes p.size, al, atomRegs p false, p.scope, p.rect, [], true⟩,
    ⟨.near g p, memAcc 5 p.op.code.toNat p.scope p.size, sizeBytes p.size, al, atomRegs p true, p.scope, p.rect, [], true⟩,
    ⟨.xld g x, ⟨6, 0, 0, 4⟩, 4, head x.a x.off Need.read, [opV x.a true true, opX x.d false], .g, 0, [], false⟩,
    ⟨.xst g y, ⟨7, 0, 0, 4⟩, 4, head y.a y.off Need.write, [opV y.a true true, (opX y.d true).copied], .g, 0, [y.d], true⟩,
    ⟨.xnext g d x.a, ⟨8, 0, 0, 4⟩, 4, head x.a 0 Need.read, [opV x.a true true, opV d true false], .g, 0, [], false⟩]

/-- Where a global access traps (R173, R174, R358-R361): at the lowest lane that is misaligned, MISALIGNED_ADDR; every lane
aligned, at the lowest lane without a translation, its page fault; where every lane has one, at the lowest lane whose page
does not permit the access, PERM_FAULT with the page's location. Nothing is accessed. -/
def Sys2Proof.Claims.AccessTraps : Prop :=
  ∀ (s : State) (g : Guard) (o : MemOp) (p : AtomOps) (x : XldOp) (y : XstOp) (d : Reg), p.op ≠ .gather →
    s.cg.run.under = [] →
    ∀ f ∈ memForms s g o p x y d,
      s.fine g f.regs → s.rectFine (s.lanes g) f.scope f.rect → s.windowsFine (s.lanes g) f.windows →
      ∀ pre l post, f.lanes = pre ++ l :: post →
        ((∀ m ∈ pre, m.va % f.size = 0) → l.va % f.size ≠ 0 →
          exec f.ins s = .next (s.takeTrap ⟨causeMisaligned, f.acc.word 3 false, l.va, l.lane, none⟩)) ∧
        (∀ lv r e, (∀ m ∈ f.lanes, m.va % f.size = 0) → (∀ m ∈ pre, m.mapped) → l.x = .fault lv r e →
          exec f.ins s = .next (s.pageFault ⟨l.lane, lv, r, e, l.va, l.va, f.acc.word 3 false, f.writes⟩)) ∧
        (∀ loc cls, (∀ m ∈ f.lanes, m.va % f.size = 0) → (∀ m ∈ pre, m.mapped) → (∀ m ∈ f.lanes, ∀ lv r e, m.x ≠ .fault lv r e) →
          l.x = .perm loc cls →
          exec f.ins s = .next (s.takeTrap ⟨causePerm, f.acc.word loc cls, l.va, l.lane, none⟩))

/-- ld meets an uncorrectable error, at the lowest lane whose bytes hold one: DATA_ERROR, with the accessed bits of its pages set
and no register written (R173, R276, R360). -/
def Sys2Proof.Claims.LoadDataError : Prop :=
  ∀ (s : State) (g : Guard) (o : MemOp),
    let lanes := s.lanes g
    let ls := s.memLanes o lanes Need.read
    s.fine g (rectOps o.scope o.b ++ [opV o.a true true, opV o.d (size64 o.size) false]) →
    s.rectFine lanes o.scope o.b → (∀ l ∈ ls, l.va % sizeBytes o.size = 0 ∧ l.mapped) →
    ∀ pre l post, ls = pre ++ l :: post → (∀ m ∈ pre, s.dataFine m) →
      ∀ pa at_ leaf size, l.x = .ok 0 pa at_ leaf size → s.readPoisoned pa l.n = true →
        exec (.ld g o) s = .next ((s.markLeaves (ls.map fun m => m.x) false).takeTrap
          ⟨causeData, accessWord 0 0 0 o.scope.code.toNat o.size.code.toNat false, l.va, l.lane, none⟩)

/-- Translation by the tables in memory (R358-R361). An entry that is not valid faults with its level and reason 0, a malformed
one with reason 1, a table outside the partition's mappable memory with reason 2; a valid leaf that permits the access gives
its location, the frame plus the offset in its page of 2 GiB, 16 MiB or 128 KiB; and no translation reaches local memory
outside the mappable memory of its partition. -/
def Sys2Proof.Claims.TableWalk : Prop :=
  (∀ (s : State) (b va lvl t fuel : Nat) (n : Need),
    let at_ := t + 8 * levelIndex va lvl
    let e := s.entryAt at_
    s.memPoisoned at_ 8 = false →
    (e % 2 = 0 → s.walkTable b va n lvl t (fuel + 1) = .fault lvl 0 e) ∧
    (e % 2 = 1 → entryMalformed e lvl (s.confidential b) = true → s.walkTable b va n lvl t (fuel + 1) = .fault lvl 1 e) ∧
    (e % 2 = 1 → entryMalformed e lvl (s.confidential b) = false → e / 2 % 2 = 0 →
      s.walkTable b va n lvl t (fuel + 1) =
        if s.mappable b (frameOf e) 4096 then s.walkTable b va n (lvl + 1) (frameOf e) fuel else .fault lvl 2 e) ∧
    (e % 2 = 1 → entryMalformed e lvl (s.confidential b) = false → e / 2 % 2 = 1 → frameOf e % pageSize lvl = 0 →
      bits e 8 7 ≠ 3 → (bits e 8 7 = 0 → s.mappable b (frameOf e) (pageSize lvl) = true) → leafCheck e n = none →
      s.walkTable b va n lvl t (fuel + 1) = .ok (bits e 8 7) (frameOf e + va % pageSize lvl) at_ e (pageSize lvl))) ∧
  (∀ (s : State) (b ctx va : Nat) (n : Need) (loc pa at_ leaf size : Nat),
    s.translate b ctx va n = .ok loc pa at_ leaf size →
    (loc = 0 → s.mappable b pa 1 = true) ∧ pa % size = va % size ∧ (size = 2 ^ 31 ∨ size = 2 ^ 24 ∨ size = 2 ^ 17) ∧
      leaf = s.entryAt at_ ∧ leaf % 2 = 1 ∧ loc = bits leaf 8 7 ∧ s.mappable b at_ 8 = true ∧
      (n.r = true → leaf.testBit 2 = true) ∧ (n.w = true → leaf.testBit 3 = true) ∧ (n.x = true → leaf.testBit 4 = true))

/-! ### Control and synchronisation (R93-R114, R257, R341, R342) -/

/-- Of the current group only its paths changed. -/
def Sys2Proof.Claims.onlyPaths (s t : State) : Prop :=
  onlyGroup s t ∧
    { t.cg with
      run := s.cg.run, ready := s.cg.ready, parked := s.cg.parked, turn := s.cg.turn, nextPath := s.cg.nextPath } = s.cg

/-- The paths of a group that run or are ready, in order (R257): those with a lane. -/
def Sys2Proof.Claims.runnable (l : List Path) : List Path := l.filter fun p => p.mask != 0

/-- The running path of s ended: the paths ready before keep their order, and paths with the given PCs and masks join them
(R95, R257). -/
def Sys2Proof.Claims.runEnds (s t : State) (new : List (Addr × Mask)) : Prop :=
  t.cg.turn = 0 ∧ t.cg.parked = s.cg.parked ∧
    ∃ ps, runnable (t.cg.run :: t.cg.ready) = runnable s.cg.ready ++ ps ∧ ps.map (fun p => (p.pc, p.mask)) = new ∧
      ∀ p ∈ ps, p.since = none ∧ p.served = [] ∧ p.under = [] ∧ p.asked = [] ∧ p.failed = none ∧ p.issued = none

/-- The running path of s parked for a reason at a PC: the paths ready before are the group's runnable paths (R93). -/
def Sys2Proof.Claims.parks (s t : State) (why : Why) (pc : Addr) : Prop :=
  t.cg.turn = 0 ∧ runnable (t.cg.run :: t.cg.ready) = runnable s.cg.ready ∧
    ∃ q, t.cg.parked = s.cg.parked ++ [q] ∧ q.why = why ∧ q.path.pc = pc ∧ q.path.mask = s.cg.run.mask ∧
      q.path.since = match why with
        | .sem _ => some (s.cg.run.since.getD s.now)
        | _ => s.cg.run.since

/-- branch_split (R95): one path for each distinct target, in the order of the lowest lane that takes it, then the lanes
whose guard is false at the successor. -/
def Sys2Proof.Claims.branches (s t : State) (g : Guard) (target : Nat → Addr) : Prop :=
  let rest := s.cg.run.mask &&& ~~~s.cg.guarded g
  runEnds s t
    ((((s.lanes g).map target).eraseDups.map fun a => (a, maskOf fun l => decide (l ∈ s.lanes g) && target l == a)) ++
      if rest = 0 then [] else [(s.succ, rest)])

/-- The group is in its handler (R341): %tcause, %tval, %tpc and %taddr written, the trapped path's mask kept, the other
paths stopped, one path at %tvec + 2; no memory, no other register and no other group changed. -/
def Sys2Proof.Claims.trapped (s t : State) (cause tval taddr : Nat) (lane : Option Nat) : Prop :=
  onlyGroup s t ∧
    t.cg.tcause = BitVec.ofNat 32 (cause + (match lane with
      | some l => 2 ^ 8 * (l % 32) + 2 ^ 13
      | none => 0)) ∧
    t.cg.tval = BitVec.ofNat 32 tval ∧ t.cg.tpc = s.cg.run.pc.setWidth 64 ∧
    t.cg.taddr = BitVec.ofNat 64 (taddr % 2 ^ 48) ∧
    t.cg.handler = some ⟨s.cg.run.mask, s.cg.ready, s.cg.parked⟩ ∧ t.cg.ready = [] ∧ t.cg.parked = [] ∧
    t.cg.run.pc = s.ct.tvec.setWidth 48 + 2 ∧ t.cg.run.mask = s.cg.run.mask ∧
    { t.cg with
      tcause := s.cg.tcause, tval := s.cg.tval, tpc := s.cg.tpc, taddr := s.cg.taddr, handler := s.cg.handler,
      run := s.cg.run, ready := s.cg.ready, parked := s.cg.parked, turn := s.cg.turn, nextPath := s.cg.nextPath } = s.cg

/-- nop only advances. bra, brx, ret and call split the path as branch_split does, at PC plus the immediate or at the
pair of v[a], modulo 2^48; call first writes the successor to the pair v[d] of the guarded lanes. A branch without a
guarded lane only advances (R95, R97, R99). The model's choice it rests on: log 68. -/
def Obligations.BranchResults : Prop :=
  (∀ (s : State) (g : Guard), s.fine g [] → ∃ t, exec (.nop g) s = .next t ∧ onlyPc s t) ∧
  (∀ (s : State) (g : Guard) (off : BitVec 32),
    let target (_ : Nat) : Addr := BitVec.ofInt 48 (s.cg.run.pc.toNat + off.toInt)
    s.fine g [] →
    ∃ t, exec (.bra g off) s = .next t ∧
      if s.lanes g = [] then onlyPc s t else onlyPaths s t ∧ branches s t g target) ∧
  (∀ (s : State) (g : Guard) (a : Reg) (i : Instr), (i = .brx g a ∨ i = .ret g a) →
    let target (l : Nat) : Addr := BitVec.ofNat 48 (s.vpair48 a l)
    s.fine g [opV a true true] →
    ∃ t, exec i s = .next t ∧
      if s.lanes g = [] then onlyPc s t else onlyPaths s t ∧ branches s t g target) ∧
  (∀ (s : State) (g : Guard) (d : Reg) (off : BitVec 32),
    let target (_ : Nat) : Addr := BitVec.ofInt 48 (s.cg.run.pc.toNat + off.toInt)
    s.fine g [opV d true false] →
    ∃ t, exec (.call g d off) s = .next t ∧ vHolds s t (s.lanes g) d.toNat true (fun _ => s.succ.toNat) ∧
      if s.lanes g = [] then onlyPc s t
      else branches s t g target ∧ onlyGroup s t ∧
        { t.cg with
          v := s.cg.v, vtag := s.cg.vtag, run := s.cg.run, ready := s.cg.ready, turn := s.cg.turn,
          nextPath := s.cg.nextPath } = s.cg)

/-- Whether barrier n is released when the lanes m exit: every lane that is left in its mask waits on it (R98, R100). -/
def Sys2Proof.Claims.freesBarrier (s : State) (m : Mask) (n : Nat) : Prop :=
  s.cg.cvWaiting n &&& ((s.cg.conv n).mask &&& ~~~m) = (s.cg.conv n).mask &&& ~~~m

/-- The lanes m have exited: of the paths l that were parked those on a released barrier are ready behind the paths before, at
their PCs, those of one PC joined; the others stay parked (R98, R100). -/
def Sys2Proof.Claims.frees (s t : State) (m : Mask) (l : List Parked) (before : List Path) : Prop :=
  let freed (q : Parked) : Prop := ∃ n < 8, q.why = .cv n ∧ freesBarrier s m n
  (∀ q, q ∈ t.cg.parked ↔ q ∈ l ∧ ¬ freed q) ∧
    ∃ ps, runnable (t.cg.run :: t.cg.ready) = before ++ ps ∧
      (∀ q ∈ l, freed q → ∀ k, q.path.mask.getLsbD k = true → ∃ p ∈ ps, p.pc = q.path.pc ∧ p.mask.getLsbD k = true) ∧
      ∀ p ∈ ps, ∀ k, p.mask.getLsbD k = true → ∃ q ∈ l, freed q ∧ p.pc = q.path.pc ∧ q.path.mask.getLsbD k = true

/-- exit removes its lanes from the running path and from every convergence barrier, which releases a barrier all of whose
remaining lanes wait: the paths that waited on it become ready. A path with lanes left goes on, else the next ready path runs,
or none while paths stay parked, and a group without a lane retires. In handler mode the lanes leave the return mask too, and
when no handler lane is left handler mode ends without a return, the stopped paths resuming (R98, R100, R342). yield ends the
path's turn and changes nothing else (R99). -/
def Sys2Proof.Claims.ExitAndYield : Prop :=
  (∀ (s : State) (g : Guard),
    let m := s.cg.guarded g
    let left (n : Nat) : Mask := (s.cg.conv n).mask &&& ~~~m
    s.predFine g.pred.toNat →
    (m = 0 → ∃ t, exec (.exit g) s = .next t ∧ onlyPc s t) ∧
    (m ≠ 0 → s.cg.run.mask &&& ~~~m ≠ 0 →
      ∃ t, exec (.exit g) s = .next t ∧ onlyGroup s t ∧
        t.cg.run = { s.cg.run.at_ s.succ with mask := s.cg.run.mask &&& ~~~m } ∧
        (∀ h, t.cg.handler = some h → h.ret &&& m = 0) ∧
        (∀ n < 8, t.cg.conv n =
          if s.cg.cvWaiting n &&& left n = left n then ⟨0, false⟩ else ⟨left n, (s.cg.conv n).armed⟩) ∧
        frees s t m s.cg.parked ({ s.cg.run.at_ s.succ with mask := s.cg.run.mask &&& ~~~m } :: runnable s.cg.ready) ∧
        { t.cg with
          c := s.cg.c, run := s.cg.run, ready := s.cg.ready, parked := s.cg.parked, handler := s.cg.handler,
          turn := s.cg.turn } = s.cg) ∧
    (m ≠ 0 → s.cg.run.mask = m → (runnable s.cg.ready ≠ [] ∨ ∃ q ∈ s.cg.parked, q.path.mask ≠ 0) →
      ∃ t, exec (.exit g) s = .next t ∧ onlyGroup s t ∧ t.cg.live = s.cg.live ∧
        t.cg.handler.map (fun h => h.ret) = s.cg.handler.map (fun h => h.ret &&& ~~~m) ∧
        frees s t m s.cg.parked (runnable s.cg.ready)) ∧
    (m ≠ 0 → s.cg.run.mask = m → s.cg.ready = [] → s.cg.parked = [] → ∀ h, s.cg.handler = some h →
      ((runnable h.ready ≠ [] ∨ ∃ q ∈ h.parked, q.path.mask ≠ 0) →
        ∃ t, exec (.exit g) s = .next t ∧ onlyGroup s t ∧ t.cg.live = s.cg.live ∧ t.cg.handler = none ∧
          frees s t m h.parked (runnable h.ready)) ∧
      (h.ready = [] → h.parked = [] → ∃ t, exec (.exit g) s = .next t ∧ (t.group s.cur).live = false)) ∧
    (m ≠ 0 → s.cg.run.mask = m → ∀ p r, s.cg.ready = p :: r → p.mask ≠ 0 → s.cg.handler = none →
      ∃ t, exec (.exit g) s = .next t ∧ onlyGroup s t ∧ t.cg.run = p ∧ t.cg.live = s.cg.live) ∧
    (m ≠ 0 → s.cg.run.mask = m → s.cg.ready = [] → s.cg.parked = [] → s.cg.handler = none →
      ∃ t, exec (.exit g) s = .next t ∧ (t.group s.cur).live = false ∧ (t.group s.cur).run.mask = 0 ∧
        (∀ r, (t.group s.cur).sreg r = s.cg.sreg r))) ∧
  (∀ (s : State) (g : Guard), s.predFine g.pred.toNat →
    ∃ t, exec (.yield g) s = .next t ∧
      if s.lanes g = [] then onlyPc s t
      else onlyPaths s t ∧ t.cg.parked = s.cg.parked ∧ t.cg.turn = 0 ∧
        t.cg.run :: t.cg.ready = s.cg.ready ++ [s.cg.run.at_ s.succ])

/-- trap and brk enter the handler with cause 0x38 or 0x39, the immediate in %tval, the lowest guarded lane in %tcause, the
instruction's PC in %tpc and its successor in %taddr; without a guarded lane they only advance (R102, R341). -/
def Sys2Proof.Claims.SoftwareTraps : Prop :=
  ∀ (s : State) (g : Guard) (imm : BitVec 16) (i : Instr) (cause : Nat),
    (i = .trap g imm ∧ cause = 0x38 ∨ i = .brk g imm ∧ cause = 0x39) → s.predFine g.pred.toNat →
    (s.lanes g = [] → ∃ t, exec i s = .next t ∧ onlyPc s t) ∧
    (∀ l r, s.lanes g = l :: r → s.cg.handler = none → s.ct.tvec ≠ 0 →
      ∃ t, exec i s = .next t ∧ trapped s t cause imm.toNat s.succ.toNat (some l))

/-- A trap outside handler mode enters the handler at %tvec + 2; in handler mode, or with %tvec 0, it is a grid machine
check of source 4: no group enters a handler, and a path that ran goes on as it was or ends with its grid (R341, R352). -/
def Sys2Proof.Claims.TrapEntry : Prop :=
  (∀ (s : State) (k : Trap), s.cg.handler = none → s.ct.tvec ≠ 0 → k.tpc = none →
    trapped s (s.takeTrap k) k.cause k.tval k.taddr k.lane) ∧
  (∀ (s : State) (k : Trap), (s.cg.handler ≠ none ∨ s.ct.tvec = 0) → (s.part (s.grid s.ct.grid).part).mcstat = 0 →
    let t := s.takeTrap k
    let w := (t.part (s.grid s.ct.grid).part).mcstat.toNat
    w % 256 = 4 ∧ w / 256 % 256 = k.cause % 256 ∧
      ∀ h, ((t.group h).handler = (s.group h).handler ∧ (t.group h).run = (s.group h).run) ∨
        ((t.group h).live = false ∧ (t.group h).handler = none ∧ (t.group h).run.mask = 0))

/-- An operand that is no pair, lies beyond its count or carries the marker takes its trap before the instruction does
anything, in this order, whatever comes after it; shown for the wide add. Privileged forms in the other mode take
ILLEGAL_OP with reason 4: setc of a supervisor register, halt; and tret outside a handler (R12, R13, R31, R24, R113,
R114). -/
def Sys2Proof.Claims.TrapCauses : Prop :=
  ∀ (s : State), s.cg.handler = none → s.ct.tvec ≠ 0 →
    (∀ (g : Guard) (o : IntBin), o.uni = false → o.ty = .n64 → s.predFine g.pred.toNat →
      (o.b.toNat % 2 = 1 → ∃ t, exec (.add g o) s = .next t ∧ trapped s t 0x03 o.b.toNat 0 none) ∧
      (o.b.toNat % 2 = 0 → o.a.toNat % 2 = 0 → o.d.toNat % 2 = 0 → s.cg.nv ≤ o.b.toNat →
        ∃ t, exec (.add g o) s = .next t ∧ trapped s t 0x04 o.b.toNat 0 none) ∧
      (o.b.toNat % 2 = 0 → o.a.toNat % 2 = 0 → o.d.toNat % 2 = 0 → o.b.toNat + 1 < s.cg.nv → o.a.toNat + 1 < s.cg.nv →
        o.d.toNat + 1 < s.cg.nv →
        ∀ l r, s.lanes g = l :: r → s.cg.vTagged o.b.toNat l = true →
          ∃ t, exec (.add g o) s = .next t ∧ trapped s t 0x05 o.b.toNat 0 (some l))) ∧
    (∀ (g : Guard) (uni : Bool) (num : BitVec 8) (a : Reg), s.cg.sup = false → (num.toNat = 0x33 ∨ num.toNat = 0x34) →
      ∃ t, exec (.setc g uni num a) s = .next t ∧
        trapped s t 0x01 (((encode (.setc g uni num a)).headD 0).toNat + 2 ^ 16 * 4) 0 none) ∧
    (s.cg.sup = false →
      ∃ t, exec .halt s = .next t ∧ trapped s t 0x01 (((encode .halt).headD 0).toNat + 2 ^ 16 * 4) 0 none) ∧
    (∃ t, exec .tret s = .next t ∧ trapped s t 0x01 (((encode .tret).headD 0).toNat + 2 ^ 16 * 4) 0 none)

/-- tret in handler mode ends it: the stopped paths resume in their states and the trapped path, with its mask, joins them
at %tpc (R113, R342). halt in supervisor mode blocks the group at its successor (R114). -/
def Sys2Proof.Claims.ReturnAndHalt : Prop :=
  (∀ (s : State) (h : Handler), s.cg.handler = some h →
    ∃ t, exec .tret s = .next t ∧ onlyGroup s t ∧ t.cg.handler = none ∧ t.cg.parked = h.parked ∧ t.cg.turn = 0 ∧
      (runnable (t.cg.run :: t.cg.ready)).map (fun p => (p.pc, p.mask)) =
        (runnable h.ready).map (fun p => (p.pc, p.mask)) ++ (if h.ret = 0 then [] else [(s.cg.tpc.setWidth 48, h.ret)]) ∧
      { t.cg with
        handler := s.cg.handler, run := s.cg.run, ready := s.cg.ready, parked := s.cg.parked, turn := s.cg.turn,
        nextPath := s.cg.nextPath } = s.cg) ∧
  (∀ (s : State), s.cg.sup = true →
    ∃ t, exec .halt s = .next t ∧ onlyPaths s t ∧ parks s t .halt s.succ)

/-- cvset arms its barrier with the guarded lanes in the mask, added to those of an armed one. cvwait goes on at a barrier
that is not armed or names none of the path's lanes; else those lanes wait there and the others go on, and when every lane
of the mask waits, the barrier is idle and one path for each waiting PC resumes behind it (R100). -/
def Sys2Proof.Claims.ConvergenceResults : Prop :=
  (∀ (s : State) (g : Guard) (c : Reg) (mask : BitVec 32),
    let j := s.cg.guarded g &&& mask
    let m := if (s.cg.conv c.toNat).armed then (s.cg.conv c.toNat).mask ||| j else j
    s.predFine g.pred.toNat →
    ∃ t, exec (.cvset g c mask) s = .next t ∧ onlyGroup s t ∧ goesOn s t ∧
      (∀ n, t.cg.conv n = if n = c.toNat then ⟨m, decide (m ≠ 0)⟩ else s.cg.conv n) ∧
      { t.cg with c := s.cg.c, run := s.cg.run, turn := s.cg.turn } = s.cg) ∧
  (∀ (s : State) (c : Reg),
    let b := s.cg.conv c.toNat
    let w := s.cg.run.mask &&& b.mask
    let rest := s.cg.run.mask &&& ~~~b.mask
    let other : List (Addr × Mask) := if rest = 0 then [] else [(s.succ, rest)]
    ∃ t, exec (.cvwait c) s = .next t ∧
      if b.armed = false ∨ w = 0 then onlyPc s t
      else
        onlyGroup s t ∧ (∀ n, n ≠ c.toNat → t.cg.conv n = s.cg.conv n) ∧
        if (s.cg.cvWaiting c.toNat ||| w) &&& b.mask = b.mask then
          t.cg.conv c.toNat = ⟨0, false⟩ ∧ t.cg.parked = s.cg.parked.filter (fun q => q.why != .cv c.toNat) ∧
            ∃ ps, (runnable (t.cg.run :: t.cg.ready)).map (fun p => (p.pc, p.mask)) =
                (runnable s.cg.ready).map (fun p => (p.pc, p.mask)) ++ other ++ ps ∧ (ps.map Prod.fst).Nodup ∧
              ∀ pc l, (∃ p ∈ ps, p.1 = pc ∧ p.2.getLsbD l = true) ↔
                (w.getLsbD l = true ∧ pc = s.succ) ∨
                ∃ q ∈ s.cg.parked, q.why = .cv c.toNat ∧ q.path.pc = pc ∧ q.path.mask.getLsbD l = true
        else
          t.cg.conv c.toNat = b ∧
            (runnable (t.cg.run :: t.cg.ready)).map (fun p => (p.pc, p.mask)) =
              (runnable s.cg.ready).map (fun p => (p.pc, p.mask)) ++ other ∧
            ∃ q, t.cg.parked = s.cg.parked ++ [q] ∧ q.why = .cv c.toNat ∧ q.path.pc = s.succ ∧ q.path.mask = w)

/-- vote gathers a predicate over the guarded lanes: the mask, the count or the lowest of those in which it is true, 32 for
none, to s[d]; or a test of them to p[d] of the guarded lanes (R103). -/
def Sys2Proof.Claims.VoteResults : Prop :=
  ∀ (s : State) (g : Guard) (op : VoteOp) (d a : Reg),
    let lanes := s.lanes g
    let yes (l : Nat) : Bool := (s.cg.pred a.toNat).getLsbD l
    let word := op = .mask ∨ op = .count ∨ op = .lead
    s.fine g (if word then [opS d false false] else []) → s.predFine a.toNat →
    ∃ t, exec (.vote g op d a) s = .next t ∧
      if lanes = [] then onlyPc s t
      else
        match op with
        | .mask => onlyS s t ∧ sHolds s t d.toNat false (maskOf fun l => decide (l ∈ lanes) && yes l).toNat
        | .count => onlyS s t ∧ sHolds s t d.toNat false (lanes.filter yes).length
        | .lead => onlyS s t ∧ sHolds s t d.toNat false ((lanes.filter yes).headD 32)
        | .every => onlyP s t ∧ pHolds s t lanes d.toNat fun _ => lanes.all yes
        | .none => onlyP s t ∧ pHolds s t lanes d.toNat fun _ => !lanes.any yes
        | .some => onlyP s t ∧ pHolds s t lanes d.toNat fun _ => lanes.any yes
        | .split => onlyP s t ∧ pHolds s t lanes d.toNat fun _ => lanes.any yes && !lanes.all yes

/-- Semaphore k of the current team has the value v, every other semaphore its old one; of the groups only paths changed,
those of the team that waited for the semaphore being ready; no memory changed. -/
def Sys2Proof.Claims.semWritten (s t : State) (k : Nat) (v : Half) : Prop :=
  { t with groups := s.groups, teams := s.teams, poison := s.poison } = s ∧
    (∀ n, (t.team s.cg.team).sem n = if n = k then v else s.ct.sem n) ∧
    { t.team s.cg.team with sems := s.ct.sems } = s.ct ∧ (∀ u, u ≠ s.cg.team → t.team u = s.team u) ∧
    (∀ h, h ∉ s.ct.groups → h ≠ s.cur → t.group h = s.group h) ∧
    (∀ h, h ≠ s.cur →
      { t.group h with
        run := (s.group h).run, ready := (s.group h).ready, parked := (s.group h).parked,
        handler := (s.group h).handler, turn := (s.group h).turn } = s.group h) ∧
    ∀ h ∈ s.ct.groups, h ≠ s.cur → ∀ q ∈ (s.group h).parked, q.why = .sem k → q.path.mask ≠ 0 →
      q.path ∈ (t.group h).run :: (t.group h).ready ∧ q ∉ (t.group h).parked

/-- Of the current group, whose path goes on, only its paths and predicates changed: those that waited for semaphore k are
ready. -/
def Sys2Proof.Claims.semGoesOn (s t : State) (k : Nat) : Prop :=
  goesOn s t ∧
    (s.cur ∈ s.ct.groups → ∀ q ∈ s.cg.parked, q.why = .sem k → q.path ∈ t.cg.ready ∧ q ∉ t.cg.parked) ∧
    { t.cg with
      p := s.cg.p, run := s.cg.run, ready := s.cg.ready, parked := s.cg.parked, handler := s.cg.handler,
      turn := s.cg.turn } = s.cg

/-- semset writes its value and semadd the sum; a sum beyond 0xFFFF or below 0 is saturated, and the trap SEM_OVERFLOW
follows with the index and the direction in %tval (R104). While earlier writes of the group are not performed with respect
to the team, both wait and change nothing else (R187). -/
def Sys2Proof.Claims.SemaphoreUpdates : Prop :=
  ∀ (s : State) (g : Guard) (k : Reg) (x : BitVec 16),
    let sum : Int := (s.ct.sem k.toNat).toNat + x.toInt
    s.fine g [opK k] → s.cg.run.mask ≠ 0 →
    (s.lanes g = [] → ∀ i, (i = .semset g k x ∨ i = .semadd g k x) → ∃ t, exec i s = .next t ∧ onlyPc s t) ∧
    (s.lanes g ≠ [] → s.releaseStop .t 0 = none →
      (∃ t, exec (.semset g k x) s = .next t ∧ semWritten s t k.toNat x ∧ semGoesOn s t k.toNat ∧ t.cg.p = s.cg.p) ∧
      (0 ≤ sum → sum ≤ 0xFFFF →
        ∃ t, exec (.semadd g k x) s = .next t ∧ semWritten s t k.toNat (BitVec.ofInt 16 sum) ∧ semGoesOn s t k.toNat ∧
          t.cg.p = s.cg.p) ∧
      ((sum < 0 ∨ 0xFFFF < sum) → s.cg.handler = none → s.ct.tvec ≠ 0 →
        ∃ t, exec (.semadd g k x) s = .next t ∧ semWritten s t k.toNat (if sum < 0 then 0 else 0xFFFF) ∧
          t.cg.tcause = 0x24 ∧ t.cg.tval = BitVec.ofNat 32 (k.toNat + if sum < 0 then 256 else 0) ∧
          t.cg.tpc = s.cg.run.pc.setWidth 64 ∧ t.cg.taddr = s.succ.setWidth 64 ∧
          t.cg.run.pc = s.ct.tvec.setWidth 48 + 2 ∧ t.cg.run.mask = s.cg.run.mask)) ∧
    (s.lanes g ≠ [] → s.cg.deferred = none → (s.batonPending .t 0 = true ∨ s.earlierOpen .t = true) →
      exec (.semset g k x) s = .next (s.setRun { s.cg.run with waits := true }) ∧
        exec (.semadd g k x) s = .next (s.setRun { s.cg.run with waits := true }))

/-- semwait at a semaphore that has reached the threshold sets p[d] in the guarded lanes, and its .dec form subtracts the
threshold; past the limit of %wtimeout it clears p[d] and changes no semaphore; else the path blocks at the instruction
(R105). -/
def Sys2Proof.Claims.SemaphoreWait : Prop :=
  ∀ (s : State) (g : Guard) (d k : Reg) (dec : Bool) (thr : BitVec 16),
    let v := s.ct.sem k.toNat
    let start := s.cg.run.since.getD s.now
    s.fine g [opK k] → s.cg.run.mask ≠ 0 →
    ∃ t, exec (.semwait g d k dec thr) s = .next t ∧
      if s.lanes g = [] then onlyPc s t
      else if thr.toNat ≤ v.toNat then
        pHolds s t (s.lanes g) d.toNat (fun _ => true) ∧
          if dec then semWritten s t k.toNat (v - thr) ∧ semGoesOn s t k.toNat else onlyP s t
      else if s.cg.wtimeout ≠ 0 ∧ start + s.cg.wtimeout.toNat ≤ s.now then
        onlyP s t ∧ pHolds s t (s.lanes g) d.toNat fun _ => false
      else onlyPaths s t ∧ parks s t (.sem k.toNat) s.cg.run.pc

/-- The arrival states of the team's groups after its last arrival (R106): every path that waited is runnable, its group
idle, and every group without one is completed; the phase number advances. -/
def Sys2Proof.Claims.phaseDone (s t : State) (own : Bool) : Prop :=
  (t.team s.cg.team).phase = s.ct.phase + 1 ∧
    ∀ h ∈ s.liveGroups s.cg.team,
      let waits := (s.group h).allParked.filter fun q => q.why == .team true
      (t.group h).barT = (if waits ≠ [] ∨ (own = true ∧ h = s.cur) then .idle else .completed) ∧
      ∀ q ∈ (s.group h).parked, q.why = .team true → q.path.mask ≠ 0 →
        q.path ∈ (t.group h).run :: (t.group h).ready ∧ q ∉ (t.group h).parked

/-- bar.arrive.t and bar.wait.t (R106): an idle or completed group becomes pending and an arrival goes on, but a wait at a
completed phase goes on, idle; a wait, or an arrival of a pending group, blocks until the phase completes, which the last
arrival of the team's live groups does. -/
def Sys2Proof.Claims.TeamBarrier : Prop :=
  ∀ (s : State) (g : Guard) (b : Reg) (wait : Bool),
    let i : Instr := if wait then .barWait g .t b else .barArrive g .t b
    let gs := s.liveGroups s.cg.team
    let last : Prop := ∀ h ∈ gs, h ≠ s.cur → (s.group h).barT = .pending
    s.predFine g.pred.toNat → s.cg.run.mask ≠ 0 → s.cur ∈ gs →
    ((wait = true ∧ s.cg.barT ≠ .idle) ∨ s.releaseStop .t 0 = none) →
    ∃ t, exec i s = .next t ∧ (∀ a, Memory.read t.mem a = Memory.read s.mem a) ∧
      if s.lanes g = [] then onlyPc s t
      else if s.cg.barT = .pending then onlyPaths s t ∧ parks s t (.team wait) s.succ
      else if wait = true ∧ s.cg.barT = .completed then
        t.cg.barT = .idle ∧ onlyGroup s t ∧ goesOn s t ∧
          { t.cg with barT := s.cg.barT, run := s.cg.run, turn := s.cg.turn } = s.cg
      else
        (¬ last → t.cg.barT = .pending ∧ t.ct.phase = s.ct.phase ∧ onlyGroup s t ∧
          if wait then parks s t (.team true) s.succ else goesOn s t) ∧
        (last → (∀ h ∈ gs, ∀ q ∈ (s.group h).allParked, q.why ≠ .team false) → phaseDone s t wait ∧
          if wait then ∃ p ∈ t.cg.run :: t.cg.ready, p.pc = s.succ ∧ p.mask = s.cg.run.mask
          else t.cg.run = s.cg.run.at_ s.succ)

/-- bar.arrive.x and bar.wait.x with a legal rectangle (R107): while another rectangle is open the path blocks at the
instruction; else a group that is not pending opens its rectangle and becomes pending, an arrival going on and a wait
blocking; a wait at a completed phase goes on, idle. A rectangle that is not legal is ILLEGAL_OP with reason 4. -/
def Sys2Proof.Claims.RectangleBarrier : Prop :=
  ∀ (s : State) (g : Guard) (b : Reg) (wait : Bool),
    let i : Instr := if wait then .barWait g .x b else .barArrive g .x b
    let w := s.cg.sreg b.toNat
    let r := Rect.ofWord w
    let c := Rect.ofWord (s.cluster s.ct.cluster).rect
    let legal : Prop := w.toNat / 2 ^ 16 = 0 ∧ (c.x0 ≤ r.x0 ∧ r.x0 ≤ r.x1 ∧ r.x1 ≤ c.x1) ∧
      (c.y0 ≤ r.y0 ∧ r.y0 ≤ r.y1 ∧ r.y1 ≤ c.y1) ∧
      (r.x0 ≤ coreX s.coreId ∧ coreX s.coreId ≤ r.x1) ∧ (r.y0 ≤ coreY s.coreId ∧ coreY s.coreId ≤ r.y1)
    let x := s.cluster s.ct.cluster
    let other : Prop := x.openRect ≠ none ∧ x.openRect ≠ some w
    s.fine g [opS b false true] →
    (¬ legal → s.lanes g ≠ [] → s.cg.handler = none → s.ct.tvec ≠ 0 →
      ∃ t, exec i s = .next t ∧ trapped s t 0x01 (((encode i).headD 0).toNat + 2 ^ 16 * 4) 0 none) ∧
    (legal → s.cg.run.mask ≠ 0 →
      ((wait = true ∧ s.cg.barX ≠ .idle) ∨ s.releaseStop .x w = none) →
      ∃ t, exec i s = .next t ∧ (∀ a, Memory.read t.mem a = Memory.read s.mem a) ∧
        if s.lanes g = [] then onlyPc s t
        else if wait = true ∧ s.cg.barX = .completed then
          t.cg.barX = .idle ∧ onlyGroup s t ∧ goesOn s t ∧
            { t.cg with barX := s.cg.barX, run := s.cg.run, turn := s.cg.turn } = s.cg
        else if other ∧ ¬ (wait = true ∧ s.cg.barX = .pending) then onlyPaths s t ∧ parks s t (.rect none) s.cg.run.pc
        else if s.cg.barX = .pending then onlyPaths s t ∧ parks s t (.rect (some wait)) s.succ
        else t.cg.barX = .pending ∧ (t.cluster s.ct.cluster).openRect = some w ∧
          { t with groups := s.groups, clusters := s.clusters, poison := s.poison } = s ∧
          if wait then parks s t (.rect (some true)) s.succ else goesOn s t)

/-- waitm on an aligned, readable word: a value other than s[b] is cause 0, a word of the host, a peer or the register page
cause 5, both at once; else the monitor watches the word's 32-byte sector and the path blocks (R108, R109). -/
def Obligations.MonitoredWait : Prop :=
  ∀ (s : State) (g : Guard) (ord : Order) (scope : Scope) (d a b : Reg),
    let va := s.cg.spair a.toNat % 2 ^ 48
    let l : LaneAt := ⟨none, va, 4, s.xlate va { Need.read with plain := true }⟩
    let at_ (n : Nat) (t : State) : Prop := goesOn s t ∧ t.cg.monitor = none ∧ sHolds s t d.toNat false n
    s.fine g [opS b false true, opS a true true, opS d false false] → s.cg.run.mask ≠ 0 → va % 4 = 0 → s.readable l →
    (∀ q ∈ s.cg.allParked, q.isWaitm = false) →
    ∃ t, exec (.waitm g ord scope d a b) s = .next t ∧
      if s.lanes g = [] then onlyPc s t
      else
        (∀ x, outsideLeaves [l] x → Memory.read t.mem x = Memory.read s.mem x) ∧ onlyMemory s t ∧
        if BitVec.ofNat 32 (s.readAt l) ≠ s.cg.sreg b.toNat then at_ 0 t
        else if l.isLocal = false then at_ 5 t
        else parks s t (.waitm d s.now) s.succ ∧ (∀ r, t.cg.sreg r = s.cg.sreg r) ∧
          ∀ pa at_ leaf size, l.x = .ok 0 pa at_ leaf size → t.cg.monitor = some (pa / 32)

/-- launch passes the 64-byte record to the context's intake of 256 with its grid's priority and answers 0, or 1 when the
intake is full (R110). -/
def Obligations.LaunchResult : Prop :=
  ∀ (s : State) (g : Guard) (d a : Reg),
    let va := s.cg.spair a.toNat % 2 ^ 48
    let ls := s.uniAt va 64 8
    let old := (s.ctx s.ctxKey).intake
    s.fine g [opS a true true, opS d false false] → va % 64 = 0 → s.cg.monitor = none →
    (∀ l ∈ ls, s.readable l) →
    ∃ t, exec (.launch g d a) s = .next t ∧
      if s.lanes g = [] then onlyPc s t
      else goesOn s t ∧ (∀ x, outsideLeaves ls x → Memory.read t.mem x = Memory.read s.mem x) ∧
        onlyMemory s { t with ctxs := s.ctxs } ∧
        sHolds s t d.toNat false (if old.length < 256 then 0 else 1) ∧
        (t.ctx s.ctxKey).intake =
          (if old.length < 256 then old ++ [(ls.map fun l => BitVec.ofNat 64 (s.readAt l), (s.grid s.ct.grid).prio)]
           else old)

/-- What a lane reads of a read-only control register, by R24's table: fields at their places, reserved bits 0. -/
def Sys2Proof.Claims.readOnly (s : State) (n l : Nat) : Option Nat :=
  if 0x40 ≤ n then some ((s.cg.xwin (n - 0x40)).base * 2 ^ 4 + (s.cg.xwin (n - 0x40)).ext)
  else
    match n with
    | 0x00 => some l
    | 0x01 => some (s.cg.num + s.cg.slot * 2 ^ 8)
    | 0x02 => some s.ct.index
    | 0x03 => some (s.ct.core % 16 + s.ct.core / 16 % 16 * 2 ^ 4 + s.ct.part * 2 ^ 8)
    | 0x04 => some (4 * (s.ct.core % 16) + s.physRow (s.ct.core % 16) (s.ct.core / 16 % 16) / 4)
    | 0x05 => some (s.grid s.ct.grid).id.toNat
    | 0x06 => some (s.cluster s.ct.cluster).rect.toNat
    | 0x07 => some s.cg.run.mask.toNat
    | 0x13 => some s.cg.xb
    | _ => none

/-- getc reads the control register into v by lane, or into s from the lowest guarded lane (R24, R111); a read-only register
gives the lane, group, slot, team, core, quad, grid, cluster rectangle, mask, window base or map entry that R24 names. -/
def Sys2Proof.Claims.ControlRead : Prop :=
  ∀ (s : State) (g : Guard) (uni : Bool) (d : Reg) (num : BitVec 8),
    let wide := decide (num.toNat ∈ [0x20, 0x23, 0x24, 0x34])
    s.fine g [opInt uni d wide false] →
    ∃ t, exec (.getc g uni d num) s = .next t ∧
      intHolds s t g uni d wide fun l => (readOnly s num.toNat l).getD (s.ctrlRead num.toNat l)

/-- setc with legal values (R24-R27): lane registers take each guarded lane's value, the enables of %fflags and every other
register the lowest guarded lane's; reads give what is written, ignored bits as 0; every other control register, every
register and all of memory is unchanged. -/
def Sys2Proof.Claims.ControlWrite : Prop :=
  ∀ (s : State) (g : Guard) (uni : Bool) (num : BitVec 8) (a : Reg),
    let n := num.toNat
    let wide := decide (n ∈ [0x20, 0x23, 0x24, 0x34])
    let lanes := s.lanes g
    let v (l : Nat) : Nat := s.cg.readInt uni wide a l
    let checked := if n = 0x10 ∨ n = 0x11 ∨ n = 0x12 then lanes else lanes.take 1
    n ∈ [0x10, 0x11, 0x12, 0x14, 0x20, 0x21, 0x22, 0x23, 0x24, 0x30, 0x31, 0x32, 0x33, 0x34] →
    (n = 0x33 ∨ n = 0x34 → s.cg.sup = true) → s.fine g [opInt uni a wide true] →
    (∀ l ∈ checked,
      (n = 0x10 → 8 ≤ v l ∧ v l ≤ 231) ∧ (n = 0x11 → v l ≤ 4) ∧
      (n = 0x12 → v l &&& 0x1F1F = v l) ∧ (n = 0x14 ∨ n = 0x32 → v l < 2 ^ 20) ∧ (n = 0x21 → v l < 2 ^ 14) ∧
      (n = 0x31 → 1 ≤ v l ∧ v l ≤ 8)) →
    ∃ t, exec (.setc g uni num a) s = .next t ∧
      if lanes = [] then onlyPc s t
      else goesOn s t ∧
        (∀ m l, l < 32 → t.ctrlRead m l =
          if m ≠ n then s.ctrlRead m l
          else
            let low := v (lanes.headD 0)
            if n = 0x10 ∨ n = 0x11 then (if l ∈ lanes then v l else s.ctrlRead n l)
            else if n = 0x12 then (if l ∈ lanes then v l % 32 else s.cg.sticky l) + 256 * (low / 256)
            else if n = 0x14 ∨ n = 0x32 then low / 8 * 8
            else if n = 0x20 ∨ n = 0x34 then low / 64 * 64
            else if n = 0x23 ∨ n = 0x24 then low % 2 ^ 48
            else low) ∧
        { t with groups := s.groups, teams := s.teams, cores := s.cores, ctxs := s.ctxs } = s ∧
        (∀ h, h ≠ s.cur → t.group h = s.group h) ∧
        { t.cg with
          prec := s.cg.prec, round := s.cg.round, fflags := s.cg.fflags, ssp := s.cg.ssp, tcause := s.cg.tcause,
          tval := s.cg.tval, tpc := s.cg.tpc, taddr := s.cg.taddr, wtimeout := s.cg.wtimeout, run := s.cg.run,
          turn := s.cg.turn } = s.cg
/-! ### Commands of the engines, walks and rings (R195-R209, R235-R240, R372, R379-R388) -/

/-- A command with the core's next sequence number stands at the tail of a queue, with one range lock for each of its
operand ranges at the lowest free indices (R197, R198, R200); the path goes on; nothing else changed. -/
def Sys2Proof.Claims.queued (s t : State) (q : Core → List Cmd) (op : CmdOp) (sync : Sync) (areas : List Area) : Prop :=
  goesOn s t ∧ { t.cg with run := s.cg.run, turn := s.cg.turn } = s.cg ∧ (∀ h, h ≠ s.cur → t.group h = s.group h) ∧
    { t with groups := s.groups, cores := s.cores } = s ∧ (∀ c, c ≠ s.coreId → t.core c = s.core c) ∧
    t.cc.seq = s.cc.seq + 1 ∧
    (∃ c, q t.cc = q s.cc ++ [c] ∧ c.seq = s.cc.seq ∧ c.group = s.cur ∧ c.team = s.cg.team ∧ c.pc = s.cg.run.pc ∧
      c.sync = sync ∧ c.op = op ∧ c.started = false ∧ c.mute = false) ∧
    (∃ ls, t.cc.locks = s.cc.locks ++ ls ∧ ls.map (fun k => k.idx) = s.cc.freeLocks.take areas.length ∧
      ls.map (fun k => (k.lo, k.hi, k.dst, k.seq)) =
        areas.map fun a => (s.ct.base + a.start, s.ct.base + a.start + a.len - 1, a.dst, s.cc.seq)) ∧
    t.cc.tileQ.length + t.cc.copyQ.length + t.cc.runQ.length =
      s.cc.tileQ.length + s.cc.copyQ.length + s.cc.runQ.length + 1 ∧
    { t.cc with
      seq := s.cc.seq, locks := s.cc.locks, tileQ := s.cc.tileQ, copyQ := s.cc.copyQ, runQ := s.cc.runQ } = s.cc

/-- A command's ranges are multiples of u, lie in the team's data area, and the lock table has room for them; the tile it
names waits for no command of another group; the group's earlier writes are performed (R197, R201). -/
def Sys2Proof.Claims.mayQueue (s : State) (op : CmdOp) (u : Nat) (areas : List Area) : Prop :=
  (∀ a ∈ areas, a.start % u = 0 ∧ a.start + a.len ≤ s.ct.d) ∧ areas.length ≤ s.cc.freeLocks.length ∧
    (∀ c ∈ s.cc.tileQ, op.tile ≠ none → c.op.tile = op.tile → c.group = s.cur) ∧ s.releaseStop .t 0 = none

/-- The matrix instructions (R203): constructor, element format, sparse. -/
def Sys2Proof.Claims.mmaRows : List ((Guard → MmaOps → Instr) × MmaFmt × Bool) :=
  [(.mmaF16, .f16, false), (.mmaBf16, .bf16, false), (.mmaE4m3, .e4m3, false), (.mmaE5m2, .e5m2, false),
   (.mmaS8, .s8, false), (.mmaMxf4, .mxf4, false), (.mmaDpt, .dpt, false), (.mmaF16Sp, .f16, true),
   (.mmaBf16Sp, .bf16, true), (.mmaE4m3Sp, .e4m3, true), (.mmaE5m2Sp, .e5m2, true), (.mmaS8Sp, .s8, true),
   (.mmaMxf4Sp, .mxf4, true), (.mmaDptSp, .dpt, true)]

/-- Every mma with legal operands and a queue with room enters the tile queue, its A, B and side ranges locked (R197,
R202-R204); without a guarded lane it only advances. -/
def Sys2Proof.Claims.MatrixIssue : Prop :=
  ∀ row ∈ mmaRows, ∀ (s : State) (g : Guard) (o : MmaOps),
    let side := row.2.1.side row.2.2
    let at_ (r : Reg) : Nat := (s.cg.sreg r.toNat).toNat
    let offA := if o.wua then 0 else at_ o.a
    let offE := if side then at_ o.e else 0
    let op := CmdOp.mma row.2.1 row.2.2 o offA (at_ o.b) offE
    let areas := mmaAreas row.2.1 row.2.2 o offA (at_ o.b) offE
    s.fine g
      ((if side then [opS o.e false true] else []) ++ syncOps o.sync ++ [opS o.b false true] ++
        if o.wua then [] else [opS o.a false true]) →
    (s.lanes g = [] → ∃ t, exec (row.1 g o) s = .next t ∧ onlyPc s t) ∧
    (s.lanes g ≠ [] → mayQueue s op 8 areas → s.cc.tileQ.length < 8 →
      ∃ t, exec (row.1 g o) s = .next t ∧ queued s t (fun c => c.tileQ) op o.sync areas)

/-- The ranges that an untransposed mma with packed rows locks (R203, R204): 8,192 bytes of A, 8,192 of B or 16,384 in a
sparse form, and the side area of 64 metadata rows of K / 8 bytes and 128 rows of K / 32 scales, where K is 1,024 bits of
elements, twice that in a sparse form. -/
def Sys2Proof.Claims.MatrixRanges : Prop :=
  ∀ row ∈ mmaRows, ∀ (o : MmaOps) (offA offB offE : Nat), o.wua = false → o.pa = 0 → o.pb = 0 → o.ta = false →
    o.tb = false →
    let bits := match row.2.1 with
      | .f16 => 16
      | .bf16 => 16
      | .mxf4 => 4
      | _ => 8
    let k := 1024 / bits * if row.2.2 then 2 else 1
    let side := (if row.2.2 then 64 * (k / 8) else 0) + (match row.2.1 with
      | .mxf4 => 128 * (k / 32)
      | .dpt => 128 * (k / 32)
      | _ => 0)
    mmaAreas row.2.1 row.2.2 o offA offB offE =
      ⟨offA, 8192, false⟩ :: ⟨offB, if row.2.2 then 16384 else 8192, false⟩ ::
        if side = 0 then [] else [⟨offE, side, false⟩]

/-- zero, acc.ld and acc.st enter the tile queue, the scratchpad rows of a move locked, those that a store writes as a
destination (R197, R200, R207, R208). -/
def Sys2Proof.Claims.AccumulatorIssue : Prop :=
  (∀ (s : State) (g : Guard) (k : Reg) (sync : Sync),
    s.fine g (syncOps sync) →
    (s.lanes g = [] → ∃ t, exec (.accZero g k sync) s = .next t ∧ onlyPc s t) ∧
    (s.lanes g ≠ [] → mayQueue s (.zero k.toNat) 8 [] → s.cc.tileQ.length < 8 →
      ∃ t, exec (.accZero g k sync) s = .next t ∧ queued s t (fun c => c.tileQ) (.zero k.toNat) sync [])) ∧
  (∀ (s : State) (g : Guard) (o : AccOps) (store : Bool),
    let i : Instr := if store then .accSt g o else .accLd g o
    let off := (s.cg.sreg o.a.toNat).toNat
    let row := 64 * o.fmt.bytes
    let pitch := if o.pitch.toNat = 0 then row else 8 * o.pitch.toNat
    let op := if store then CmdOp.accSt o.t.toNat off o.fmt o.tr pitch else .accLd o.t.toNat off o.fmt o.tr pitch
    let areas : List Area := [⟨off, 63 * pitch + row, store⟩]
    s.fine g (syncOps o.sync ++ [opS o.a false true]) →
    (s.lanes g = [] → ∃ t, exec i s = .next t ∧ onlyPc s t) ∧
    (s.lanes g ≠ [] → mayQueue s op 8 areas → s.cc.tileQ.length < 8 →
      ∃ t, exec i s = .next t ∧ queued s t (fun c => c.tileQ) op o.sync areas))

/-- copy enters the copy queue of 16 with its two sides, strides, row length and rows, the scratchpad sides locked (R197,
R200, R209). -/
def Sys2Proof.Claims.CopyIssue : Prop :=
  ∀ (s : State) (g : Guard) (o : CopyOps),
    let gsrc := o.dir = .gs ∨ o.dir = .gg
    let gdst := o.dir = .sg ∨ o.dir = .gg
    let side (global : Bool) (r : Reg) : Nat :=
      if global then s.cg.spair r.toNat % 2 ^ 48 else (s.cg.sreg r.toNat).toNat
    let src := side (decide gsrc) o.a
    let dst := side (decide gdst) o.d
    let sstr := (s.cg.sreg o.b.toNat).toNat
    let dstr := (s.cg.sreg o.e.toNat).toNat
    let rows := o.rows.toNat + 1
    let op := CmdOp.copy o.dir src dst sstr dstr o.bytes.toNat rows
    let areas : List Area := (if gsrc then [] else [⟨src, (rows - 1) * sstr + o.bytes.toNat, false⟩]) ++
      if gdst then [] else [⟨dst, (rows - 1) * dstr + o.bytes.toNat, true⟩]
    s.fine g
      (opS o.e false true :: (syncOps o.sync ++ [opS o.b false true, opS o.a (decide gsrc) true, opS o.d (decide gdst) true])) →
    (s.lanes g = [] → ∃ t, exec (.copy g o) s = .next t ∧ onlyPc s t) ∧
    (s.lanes g ≠ [] → mayQueue s op 4 areas → (∀ n ∈ [src, dst, sstr, dstr, o.bytes.toNat], n % 4 = 0) →
      s.cc.copyQ.length < 16 →
      ∃ t, exec (.copy g o) s = .next t ∧ queued s t (fun c => c.copyQ) op o.sync areas)

/-- wprog registers its program, from a table of descriptors or an empty one, now, under its number in the partition context
(R236). -/
def Obligations.ProgramRegistration : Prop :=
  ∀ (s : State) (g : Guard) (d a b : Reg) (words : BitVec 16),
    let id := (s.cg.sreg d.toNat).toNat
    let p := s.cg.spair a.toNat % 2 ^ 48
    let t64 := s.cg.spair b.toNat
    let ls := if t64 = 0 then [] else s.uniAt (t64 % 2 ^ 48) 128 8
    let descs : List DWord :=
      if t64 = 0 then List.replicate 16 0 else ls.map fun l => BitVec.ofNat 64 (s.readAt l)
    s.fine g [opS b true true, opS a true true, opS d false true] →
    (s.lanes g = [] → ∃ t, exec (.wprog g d a b words) s = .next t ∧ onlyPc s t) ∧
    (s.lanes g ≠ [] → id < 64 → p % 64 = 0 → t64 % 2 ^ 48 % 8 = 0 → (∀ l ∈ ls, s.readable l) →
      (∀ x ∈ descs, x.toNat / 2 ^ 38 = 0) →
      ∃ t, exec (.wprog g d a b words) s = .next t ∧ (s.cg.monitor = none → groupGoesOn s t) ∧
        (∀ x, outsideLeaves ls x → Memory.read t.mem x = Memory.read s.mem x) ∧ onlyMemory s { t with ctxs := s.ctxs } ∧
        ∀ n, Tbl.get Prog.none (t.ctx s.ctxKey).progs n =
          if n = id then ⟨BitVec.ofNat 48 p, words.toNat + 1, descs, s.now⟩
          else Tbl.get Prog.none (s.ctx s.ctxKey).progs n)

/-- wlaunch of a registered program makes a command with the core's next sequence number and one query for each guarded
lane, in ascending order, when at most 1,024 walks are in or before the intake (R237). -/
def Sys2Proof.Claims.WalkLaunch : Prop :=
  ∀ (s : State) (g : Guard) (a b : Reg) (queue : BitVec 2) (sync : Sync),
    let id := (s.cg.sreg b.toNat).toNat
    let prog := Tbl.get Prog.none (s.ctx s.ctxKey).progs id
    s.fine g (syncOps sync ++ [opS b false true, opV a true true]) →
    (s.lanes g = [] → ∃ t, exec (.wlaunch g a b queue sync) s = .next t ∧ onlyPc s t) ∧
    (s.lanes g ≠ [] → id < 64 → prog.words ≠ 0 → (∀ l ∈ s.lanes g, s.vpair48 a l % 64 = 0) →
      s.releaseStop .t 0 = none → s.cc.intakeLoad + (s.lanes g).length ≤ 1024 →
      ∃ t, exec (.wlaunch g a b queue sync) s = .next t ∧ groupGoesOn s t ∧ t.cc.seq = s.cc.seq + 1 ∧
        { t with groups := s.groups, cores := s.cores } = s ∧ (∀ c, c ≠ s.coreId → t.core c = s.core c) ∧
        { t.cc with seq := s.cc.seq, wcmds := s.cc.wcmds } = s.cc ∧
        ∃ w, t.cc.wcmds = s.cc.wcmds ++ [w] ∧ w.seq = s.cc.seq ∧ w.group = s.cur ∧ w.team = s.cg.team ∧
          w.pc = s.cg.run.pc ∧ w.sync = sync ∧ w.queue = queue.toNat ∧ w.pid = id ∧ w.prog = prog ∧
          w.queries = (s.lanes g).map (fun l => (l, BitVec.ofNat 48 (s.vpair48 a l))) ∧ w.entered = false ∧
          w.left = (s.lanes g).length)

/-- wtake gives the oldest records of its queue to the guarded lanes from the lowest on, four words each, marks those lanes
in p[b] and counts them in s[a]; the records leave the queue, whose others keep their order, and its emptied chunks go back to the
pool (R238, R327). wpoll reads how many records it holds with its overflow flag, and how many walks are on their way to it, and
may clear the flag (R239). -/
def Sys2Proof.Claims.QueueResults : Prop :=
  (∀ (s : State) (g : Guard) (d a b : Reg) (queue : BitVec 2),
    let c := s.ct.cq queue.toNat
    let lanes := s.lanes g
    let n := min c.held lanes.length
    let got := (lanes.zip (List.range n)).map fun e => (e.1, s.recordAt s.partId c e.2)
    let back := if c.held ≤ n then c.chunks.length else (c.skip + n) / 256
    s.fine g [opS a false false, opRun d.toNat 4 false] →
    (∀ i < n, s.memPoisoned (s.recordAddr s.partId c i) 16 = false) →
    ∃ t, exec (.wtake g d a b queue) s = .next t ∧
      if lanes = [] then onlyPc s t
      else goesOn s t ∧
        t.ct.cq queue.toNat =
          { c with
            held := c.held - n, chunks := c.chunks.drop back,
            skip := if c.held ≤ n then 0 else (c.skip + n) % 256 } ∧
        (∀ i, i + n < c.held → t.recordAt s.partId (t.ct.cq queue.toNat) i = s.recordAt s.partId c (i + n)) ∧
        (t.part s.partId).cqfree = (s.part s.partId).cqfree + back ∧
        (∀ e ∈ got, t.cg.vreg d.toNat e.1 = e.2.w0 ∧ t.cg.vreg (d.toNat + 1) e.1 = e.2.w1 ∧
          t.cg.vreg (d.toNat + 2) e.1 = e.2.w2 ∧ t.cg.vreg (d.toNat + 3) e.1 = e.2.w3 ∧
          ∀ j < 4, t.cg.vTagged (d.toNat + j) e.1 = false) ∧
        (∀ r l, l < 32 → (∀ e ∈ got, e.1 ≠ l) ∨ r < d.toNat ∨ d.toNat + 4 ≤ r → t.cg.vreg r l = s.cg.vreg r l) ∧
        pHolds s t (lanesOf s.cg.run.mask) b.toNat (fun l => got.any fun e => e.1 == l) ∧
        sHolds s t a.toNat false n ∧
        (∀ k, k ≠ queue.toNat → t.ct.cq k = s.ct.cq k) ∧ (∀ x, Memory.read t.mem x = Memory.read s.mem x) ∧
        { t with groups := s.groups, teams := s.teams, parts := s.parts, poison := s.poison } = s ∧
        { t.cg with
          v := s.cg.v, vtag := s.cg.vtag, p := s.cg.p, s := s.cg.s, run := s.cg.run, turn := s.cg.turn } = s.cg) ∧
  (∀ (s : State) (g : Guard) (d a : Reg) (queue : BitVec 2) (clr : Bool),
    let c := s.ct.cq queue.toNat
    s.fine g [opS a false false, opS d false false] →
    ∃ t, exec (.wpoll g d a queue clr) s = .next t ∧
      if s.lanes g = [] then onlyPc s t
      else goesOn s t ∧
        (∀ r, t.cg.sreg r =
          if r = a.toNat then BitVec.ofNat 32 (s.walksToward s.coreId s.cg.team queue.toNat)
          else if r = d.toNat then BitVec.ofNat 32 (min c.held 65535 + if c.ovf then 65536 else 0)
          else s.cg.sreg r) ∧
        t.ct.cq queue.toNat = { c with ovf := c.ovf && !clr } ∧
        { t with groups := s.groups, teams := s.teams, poison := s.poison } = s ∧
        { t.cg with s := s.cg.s, run := s.cg.run, turn := s.cg.turn } = s.cg)

/-- wcancel ends the walks that the group, or for a .team form the team, launched toward a queue: none is in an intake or
waits to enter it any more, a wlaunch whose walks waited has none left to wait for, and s[d] counts them, at once when none is
away on another device; else the path waits for those, every other walk ended (R240). -/
def Sys2Proof.Claims.WalkCancel : Prop :=
  ∀ (s : State) (g : Guard) (d : Reg) (queue : BitVec 2) (team : Bool),
    let x := s.doomed s.coreId s.cg.team (if team then none else some s.cur) (some queue.toNat)
    let away := x.contexts.filter fun w => (s.walk w).relayed.isSome
    let mine (tm grp q : Nat) : Prop := tm = s.cg.team ∧ q = queue.toNat ∧ (team = true ∨ grp = s.cur)
    s.fine g [opS d false false] →
    ∃ t, exec (.wcancel g d queue team) s = .next t ∧
      if s.lanes g = [] then onlyPc s t
      else t.mem = s.mem ∧
        (if away = [] then goesOn s t ∧ sHolds s t d.toNat false x.count
         else parks s t (.cancel d (x.count - away.length) away) s.succ ∧ ∀ w ∈ away, (t.walk w).cancel = true) ∧
        (∀ w ∈ x.contexts, w ∉ away → (t.walk w).live = false) ∧
        (∀ e ∈ t.cc.intake, e.hosted = none → ¬ mine e.team e.group e.queue) ∧
        (∀ w ∈ t.cc.wcmds, w.entered = false → ¬ mine w.team w.group w.queue) ∧
        (∀ w ∈ s.cc.wcmds, w.entered = false → mine w.team w.group w.queue →
          ∃ w' ∈ t.cc.wcmds, w'.seq = w.seq ∧ w'.entered = true ∧ w'.queries = [] ∧ w'.left = 0) ∧
        ∀ r l, t.cg.vreg r l = s.cg.vreg r l

/-- wuacfg loads a block of 1,024 bytes of the data area when no run is queued and answers 0, or leaves the configuration
and answers bit 31, a reason and an offset; its .stat form reads the status and may clear its flags (R386). wuarun queues a
run with its descriptor, its rows and outputs locked (R387, R388). -/
def Sys2Proof.Claims.WarmupIssue : Prop :=
  (∀ (s : State) (g : Guard) (d a : Reg) (off : BitVec 16),
    let at_ := wrapTo 32 ((s.cg.sreg a.toNat).toNat + off.toInt)
    let block := s.cc.scrBytes (s.ct.base + at_) 1024
    let bad := blockChecks block
    s.fine g [opS a false true, opS d false false] →
    (s.lanes g = [] → ∃ t, exec (.wuacfg g false false d a off) s = .next t ∧ onlyPc s t) ∧
    (s.lanes g ≠ [] → at_ % 8 = 0 → at_ + 1024 ≤ s.ct.d → s.cc.lockAt (s.ct.base + at_) 1024 true = none →
      s.scrError s.coreId s.ct.base [(at_, 1024)] = none → s.cc.runQ = [] →
      ∃ t, exec (.wuacfg g false false d a off) s = .next t ∧ goesOn s t ∧
        { t.cg with s := s.cg.s, run := s.cg.run, turn := s.cg.turn } = s.cg ∧
        { t with groups := s.groups, cores := s.cores, poison := s.poison } = s ∧
        { t.cc with wuaCfg := s.cc.wuaCfg } = s.cc ∧
        match bad with
        | [] => sHolds s t d.toNat false 0 ∧ t.cc.wuaCfg = some block
        | e :: _ => sHolds s t d.toNat false (2 ^ 31 + 2 ^ 16 * e.2 + e.1) ∧ t.cc.wuaCfg = s.cc.wuaCfg)) ∧
  (∀ (s : State) (g : Guard) (clr : Bool) (d a : Reg) (off : BitVec 16),
    s.fine g [opS d false false] →
    ∃ t, exec (.wuacfg g true clr d a off) s = .next t ∧
      if s.lanes g = [] then onlyPc s t
      else goesOn s t ∧
        sHolds s t d.toNat false
          (s.cc.wuaStat.toNat + (if s.cc.wuaCfg.isSome then 2 ^ 8 else 0) + 2 ^ 16 * s.cc.runQ.length) ∧
        t.cc.wuaStat = (if clr then 0 else s.cc.wuaStat) ∧
        { t with groups := s.groups, cores := s.cores, poison := s.poison } = s ∧
        { t.cc with wuaStat := s.cc.wuaStat } = s.cc) ∧
  (∀ (s : State) (g : Guard) (a : Reg) (sync : Sync),
    let at_ := (s.cg.sreg a.toNat).toNat
    let l := s.cc.scrBytes (s.ct.base + at_) 64
    let r := RunDesc.of l
    let cfg := s.cc.wuaCfg.getD []
    let areas := runAreas cfg r
    s.fine g (syncOps sync ++ [opS a false true]) →
    (s.lanes g = [] → ∃ t, exec (.wuarun g a sync) s = .next t ∧ onlyPc s t) ∧
    (s.lanes g ≠ [] → at_ % 8 = 0 → at_ + 64 ≤ s.ct.d → s.scrError s.coreId s.ct.base [(at_, 64)] = none →
      (∀ e ∈ runUnits cfg r, e.1 % 32 = 0) → mayQueue s (.run l) 1 areas → runIllegal s.cc.wuaCfg l r = false →
      s.cc.runQ.length < 4 →
      ∃ t, exec (.wuarun g a sync) s = .next t ∧ queued s t (fun c => c.runQ) (.run l) sync areas))

/-- A slot ring: bind makes an empty ring over its slots with the next epoch, get and drops read its counts and flags and
may clear them, unbind begins to unbind and blocks, slotfree frees the oldest filled slots, at most as many as there are;
every other ring and all of memory is unchanged (R372, R379, R380). -/
def Sys2Proof.Claims.RingResults : Prop :=
  ∀ (s : State) (g : Guard) (ring : BitVec 2) (clr : Bool) (d a b : Reg),
    let r := ring.toNat
    let x := s.ring r
    let mine : Prop := x.bound = true ∧ x.team = s.cg.team
    let base := (s.cg.sreg a.toNat).toNat
    let cfg := (s.cg.sreg b.toNat).toNat
    let slots := cfg % 64 + 1
    let size := cfg / 2 ^ 8 % 16 + 1
    let sem := cfg / 2 ^ 16 % 256
    let word := x.epoch * 2 ^ 24 + (if x.bound then 2 ^ 19 else 0) + (if x.semSat then 2 ^ 18 else 0) +
      (if x.tooLong then 2 ^ 17 else 0) + (if x.overflow then 2 ^ 16 else 0) + 2 ^ 8 * (x.slots - x.filled) + x.filled
    let frame (t : State) : Prop := goesOn s t ∧ (∀ n, n ≠ r → t.ring n = s.ring n) ∧
      { t with groups := s.groups, cores := s.cores, poison := s.poison } = s ∧
      { t.cg with s := s.cg.s, run := s.cg.run, turn := s.cg.turn } = s.cg
    let free := min base x.filled
    s.lanes g ≠ [] →
    (s.fine g [opS d false false] → mine →
      (∃ t, exec (.slotstat g .get ring clr d a b) s = .next t ∧ frame t ∧ sHolds s t d.toNat false word ∧
        t.ring r = if clr then { x with semSat := false, tooLong := false, overflow := false } else x) ∧
      ∃ t, exec (.slotstat g .drops ring clr d a b) s = .next t ∧ frame t ∧ sHolds s t d.toNat false x.dropped ∧
        t.ring r = if clr then { x with dropped := 0 } else x) ∧
    (s.fine g [opS b false true, opS a false true] → x.bound = false → cfg / 2 ^ 6 % 4 = 0 → cfg / 2 ^ 12 % 16 = 0 →
      cfg / 2 ^ 24 = 0 → sem < s.ct.nsem → base % 64 = 0 → base + slots * (1024 * size) ≤ s.ct.d →
      ∃ t, exec (.slotstat g .bind ring clr d a b) s = .next t ∧ frame t ∧ t.cg.s = s.cg.s ∧
        t.ring r =
          { bound := true, team := s.cg.team, base := base, slots := slots, size := size, sem := sem, produce := 0,
            consume := 0, filled := 0, freed := 0, skipped := 0, overflow := false, tooLong := false, semSat := false,
            dropped := 0, gap := 0, epoch := if x.epoch = 255 then 1 else x.epoch + 1, unbinding := false }) ∧
    (s.fine g [] → mine →
      ∃ t, exec (.slotstat g .unbind ring clr d a b) s = .next t ∧ parks s t (.unbind r) s.succ ∧
        t.ring r = { x with unbinding := true } ∧ (∀ n, n ≠ r → t.ring n = s.ring n) ∧
        { t with groups := s.groups, cores := s.cores } = s ∧ (∀ h, h ≠ s.cur → t.group h = s.group h) ∧
        (∀ c, c ≠ s.coreId → t.core c = s.core c) ∧ { t.cc with rings := s.cc.rings } = s.cc ∧
        { t.cg with
          run := s.cg.run, ready := s.cg.ready, parked := s.cg.parked, turn := s.cg.turn, nextPath := s.cg.nextPath } = s.cg) ∧
    (s.fine g [opS a false true, opS d false false] → mine → s.slotLock x free = none → s.releaseStop .t 0 = none →
      ∃ t, exec (.slotfree g d a ring) s = .next t ∧ frame t ∧ sHolds s t d.toNat false free ∧
        t.ring r =
          { x with
            consume := (x.consume + free) % x.slots, filled := x.filled - free, freed := x.freed + BitVec.ofNat 16 free })

/-- One element of an array operation (R384) at place i, from the elements of its sources: the value, and whether it was clamped to
32 bits. -/
def Sys2Proof.Claims.arrayOp (cfg : List Byte) (op param i : Nat) (a b c : Nat → Int) : Int × Bool :=
  let sat (v : Int) : Int × Bool :=
    if v < -(2 ^ 31 : Int) then (-(2 ^ 31 : Int), true) else if (2 ^ 31 : Int) ≤ v then (2 ^ 31 - 1, true) else (v, false)
  let sh : Int := (2 ^ (param % 2 ^ 5) : Nat)
  let n := signedOf 6 param
  let d := param % 2 ^ 11
  let f := 2 ^ (param % 2 ^ 3)
  let entry (k : Nat) : Int := signedOf 16 (leValue ((cfg.drop (0x200 + 2 * k)).take 2))
  match op with
  | 1 => sat (a i + b i)
  | 2 => sat (a i - b i)
  | 3 => sat (a i * b i / sh)
  | 4 => sat (a i * b i / sh + c i)
  | 5 => (min (a i) (b i), false)
  | 6 => (max (a i) (b i), false)
  | 7 => sat (if 0 ≤ n then a i * (2 ^ n.toNat : Nat) else a i / (2 ^ (-n).toNat : Nat))
  | 8 => (min (max (a i) (b i)) (c i), false)
  | 9 => (entry (min (max (a i / sh) 0) 255).toNat, false)
  | 10 => (if i < 16 * d then 0 else a (i - 16 * d), false)
  | 11 => (if a i ≠ 0 then b i else c i, false)
  | 12 => sat (((List.range f).map fun j => a (f * i + j)).foldl (· + ·) 0)
  | 13 => (a (f * i), false)
  | _ => (0, false)

/-- What the Warm-up Array computes when it takes a run that meets no error (R383-R385, R388, R389), for a configuration that
passed its checks: each element is a sequence of 16 values for each beat of its rate, made from its sources by its operation; an
enabled output converts one of them and stands in the scratchpad, or is what the Matrix Engine is fed; the sticky flags of the
array tell which outputs overflowed and whether an element was clamped; no group, no tile and no memory changes. -/
def Sys2Proof.Claims.WarmupRun : Prop :=
  ∀ (s : State) (cid turn : Nat) (c : Cmd) (desc cfg : List Byte),
    let qk := s.quadKey cid
    let r := RunDesc.of desc
    let base := (s.team c.team).base
    let x := s.core cid
    let n := 16 * (r.beats * r.rows)
    let byte (k : Nat) : Nat := (nthD 0 cfg k).toNat
    let word (k : Nat) : Nat := leValue ((cfg.drop k).take 4)
    let el (k : Nat) : Nat := 0x40 + 16 * k
    let len (k : Nat) : Nat := n / nthD 1 (elemRates cfg 16) k
    let input (j off str i : Nat) : Int :=
      let v := leValue (x.scrBytes (base + (off + i / (16 * r.beats) * str) + 2 * (i % (16 * r.beats))) 2)
      if byte 2 / 2 ^ j % 2 = 1 then signedOf 16 v else v
    let out (o : Nat) : Nat := 0x140 + 16 * o
    let size (o : Nat) : Nat := if byte (out o + 1) % 8 = 0 then 2 else 1
    let code (o : Nat) (v : Int) : Nat × Bool :=
      convertOut (byte (out o + 1) % 8) (byte (out o + 3) % 32) (byte (out o + 4)) (byte (out o + 2) % 2 == 1) v
    let source (o : Nat) : Nat := byte (out o) % 16
    let place (o : Nat) : Nat := base + r.out o % 2 ^ 19
    let bytes (o : Nat) : Nat := size o * len (source o)
    let stored (o : Nat) : Prop := outEnabled cfg o = true ∧ r.toEngine o = false
    s.active cid = true → s.arrayPick qk = some (cid, c, turn) → c.op = .run desc → x.wuaCfg = some cfg →
    blockChecks cfg = [] → s.badBeat cid base cfg r = none →
    (∀ y, x.tileQ.head? = some y → y.seq ≠ c.seq) → (∀ y, s.copyStarts cid = some y → y.seq ≠ c.seq) →
    ∃ (t : State) (seq : Nat → List Int),
      let src (k j i : Nat) : Int :=
        match byte (el k + 1 + j) with
        | 0 => 0
        | 1 => input 0 r.x r.xstr i
        | 2 => input 1 r.y0 r.ystr i
        | 3 => input 2 r.y1 r.ystr i
        | 4 => signedOf 32 (word (el k + 4))
        | 5 => signedOf 32 (word (el k + 8))
        | m => nthD 0 (seq (m - 16)) i
      let value (k i : Nat) : Int × Bool :=
        arrayOp cfg (byte (el k) % 16) (word (el k + 12)) i (src k 0) (src k 1) (src k 2)
      exec (.engineCommandStart cid c.seq) s = .next t ∧
        (∀ k < 16, seq k = (List.range (len k)).map fun i => (value k i).1) ∧
        (∀ o < 2, stored o → (o = 1 ∨ ¬ stored 1 ∨ place 0 + bytes 0 ≤ place 1 ∨ place 1 + bytes 1 ≤ place 0) →
          ∀ i < len (source o),
            (t.core cid).scrBytes (place o + size o * i) (size o) = leBytes (size o) (code o (nthD 0 (seq (source o)) i)).1) ∧
        (∀ a, (∀ o < 2, stored o → a < place o ∨ place o + bytes o ≤ a) → Tbl.get 0 (t.core cid).scr a = Tbl.get 0 x.scr a) ∧
        (∀ o < 2, outEnabled cfg o = true → r.toEngine o = true →
          (outEnabled cfg (1 - o) = true → r.toEngine (1 - o) = false) →
          (t.quad qk).stream = (seq (source o)).flatMap fun v => leBytes (size o) (code o v).1) ∧
        (∀ o < 2, (t.core cid).wuaStat.getLsbD o =
          (x.wuaStat.getLsbD o || (outEnabled cfg o && (seq (source o)).any fun v => (code o v).2))) ∧
        (t.core cid).wuaStat.getLsbD 2 =
          (x.wuaStat.getLsbD 2 || (List.range 16).any fun k => (List.range (len k)).any fun i => (value k i).2) ∧
        (t.quad qk).wuaRun = some (cid, c.seq) ∧ t.mem = s.mem ∧ t.groups = s.groups ∧
        ∀ k, (t.core k).tiles = (s.core k).tiles
/-! ### Walker instructions (R212-R233, R320-R323) -/

/-- Only the walk that runs changed. -/
def Sys2Proof.Claims.onlyWalk (s t : State) : Prop :=
  { t with walks := s.walks } = s ∧ ∀ w, w ≠ s.curWalk → t.walk w = s.walk w

/-- The next word of the walk's program lies in its extent (R50, R222). -/
def Sys2Proof.Claims.walkOn (s : State) : Prop := s.cw.inside (s.cw.pc.toNat + 4) = true

/-- The walk that runs goes on at the given PC and changed nothing but the registers that f gives (R212, R222). -/
def Sys2Proof.Claims.walkAt (s t : State) (pc : Addr) (f : Nat → Nat) : Prop :=
  onlyWalk s t ∧ t.cw.pc = pc ∧ (∀ r < 32, t.cw.reg r = f r) ∧
    { t.cw with w := s.cw.w, pc := s.cw.pc, served := s.cw.served } = s.cw

/-- It goes on at its next word with w[d] = v modulo 2^64; w0 reads 0 whatever is written (R212). -/
def Sys2Proof.Claims.walkHolds (s t : State) (d : WReg) (v : Nat) : Prop :=
  walkAt s t (s.cw.pc + 4) fun r => if r = d.toNat ∧ r ≠ 0 then v % 2 ^ 64 else s.cw.reg r

/-- A queue of a team holds records more, in order (R234, R327, R328): it takes the chunks of the pool that they need and lack
from those that no queue holds, their bytes are stored in the pool, 16 for each record behind the last one held, nothing else
of memory changes, and the sticky flag is set when 65536 are held. With as many distinct chunks as its records need each new
record reads back. -/
def Sys2Proof.Claims.appended (s t : State) (team queue : Nat) (rs : List Record) : Prop :=
  let c := (s.team team).cq queue
  let c1 := (t.team team).cq queue
  let b := (s.team team).part
  c1 = { c with held := c.held + rs.length, chunks := c1.chunks, ovf := c.ovf || decide (65536 ≤ c.held + rs.length) } ∧
    (∃ new, c1.chunks = c.chunks ++ new ∧ new.length ≤ c.needs rs.length ∧ ∀ k ∈ new, k ∈ s.chunksFree b) ∧
    (t.part b).cqfree = (s.part b).cqfree - c.needs rs.length ∧
    t.mem = putAll s.mem
      ((rs.zip (List.range rs.length)).map fun e => ⟨s.recordAddr b c1 (c.held + e.2), recordBytes e.1⟩) ∧
    (c1.chunks.Nodup → c1.skip + c1.held ≤ 256 * c1.chunks.length →
      ∀ i r, rs[i]? = some r → t.recordAt b c1 (c.held + i) = r)

/-- The walk that runs ends with a record of WALK_FAULT of a reason in its queue, which has room, behind the records not
yet released; its context is free (R217, R329). -/
def Sys2Proof.Claims.walkFaults (s t : State) (reason : Nat) : Prop :=
  (t.walk s.curWalk).live = false ∧
    ∃ r, appended s t s.cw.team s.cw.queue (s.cw.emits ++ [r]) ∧
      r.w0 = 0 ∧ r.w1 = BitVec.ofNat 32 (0x30 + 2 ^ 8 * reason) ∧ r.w2 = s.cw.faultWord ∧ r.w3.toNat / 2 ^ 28 = 1

/-- A local walk, of which no checkpoint of a release away from home is kept, whose queue has room for n records. -/
def Sys2Proof.Claims.walkRoom (s : State) (n : Nat) : Prop :=
  s.cw.hosted = none ∧ s.cw.due = none ∧ s.queueRoom s.cw.team s.cw.queue n = true

/-- A release of the walk that runs (R231): its records go to its team's queue in order, behind a checkpoint at pc. -/
def Sys2Proof.Claims.checkpointed (s t : State) (pc : Addr) : Prop :=
  appended s t s.cw.team s.cw.queue s.cw.emits ∧
    t.cw.emits = [] ∧ t.cw.cp.pc = pc ∧ t.cw.cp.qb = s.cw.qb ∧
    t.cw.cp.w = (List.range 15).map (fun i => BitVec.ofNat 64 (s.cw.reg (i + 1))) ∧
    t.cw.cp.stack = s.fullStack s.curWalk ∧ (∀ r < 32, t.cw.reg r = s.cw.reg r) ∧ t.cw.stack = s.cw.stack ∧
    ∀ h, (s.group h).monitor = none → t.group h = s.group h

/-- The walk that runs goes to device dev by a port with its checkpoint at pc (R215, R233, R334, R336): the message names this
device, the walk's context, queue, team, group, lane, program, code and words, and carries its new serial, the one after the last
of its context. -/
def Sys2Proof.Claims.relayedTo (s t : State) (dev port : Nat) (pc : Addr) : Prop :=
  let cid := s.curWalk / 64
  let n := Tbl.get 0 (s.core cid).serials (s.curWalk % 64) + 1
  checkpointed s t pc ∧ t.cw.wait = .answer dev ∧ t.cw.serial = n ∧
    t.out = s.out ++ [.relay dev (s.pairedPart (corePart cid) dev) port (messageBytes 1
      { RelayMsg.none with
        device := s.mgmt.devnum.toNat % 8, part := corePart cid, core := 15 * (coreX cid % 4) + coreY cid, ctx := s.curWalk % 64,
        queue := s.cw.queue, team := (s.team s.cw.team).index % 2 ^ 16, group := (s.group s.cw.group).num, lane := s.cw.lane,
        program := s.cw.pid, code := s.cw.prog.code.setWidth 64, words := s.cw.prog.words, serial := n, body := some t.cw.cp })]

/-- The way to device dev is open: a port is up, and nothing of the pair waits (R397). -/
def Sys2Proof.Claims.wayTo (s : State) (dev port : Nat) : Prop :=
  let b := corePart (s.curWalk / 64)
  s.portFor b dev = some port ∧ s.pairHeld b dev = false ∧ s.relayHeld.any (fun h => h.part == b && h.device == dev) = false

/-- The Walker integer operations (R218) on n bits: constructor and the value of n bits. -/
def Sys2Proof.Claims.walkRows : List ((WBin → Instr) × (Bool → Nat → Nat → Nat → Nat)) :=
  [(.wadd, fun _ n x y => (x + y) % 2 ^ n), (.wsub, fun _ n x y => wrapTo n ((x : Int) - y)),
   (.wand, fun _ _ x y => x &&& y), (.wor, fun _ _ x y => x ||| y),
   (.wshl, fun _ n x y => if n ≤ y then 0 else x * 2 ^ y % 2 ^ n),
   (.wshr, fun sgn n x y => wrapTo n (valueOf sgn n x / (2 ^ min y n : Nat))),
   (.wmin, fun sgn n x y => if valueOf sgn n y < valueOf sgn n x then y else x),
   (.wmax, fun sgn n x y => if valueOf sgn n x < valueOf sgn n y then y else x)]

/-- The Walker floating-point operations (R219). -/
def Sys2Proof.Claims.walkFpRows : List ((WBin → Instr) × (Ty → Nat → Nat → Nat)) :=
  [(.wfadd, fun t x y => (fpRound t .rne (Val.add .rne ((Ty.enc t).decode x) ((Ty.enc t).decode y))).bits),
   (.wfmul, fun t x y => (fpRound t .rne (Val.mul ((Ty.enc t).decode x) ((Ty.enc t).decode y))).bits),
   (.wfmin, fun t x y => (minMaxBits (Ty.enc t) false x y).bits),
   (.wfmax, fun t x y => (minMaxBits (Ty.enc t) true x y).bits)]

/-- The scalar operations of a walk write their result, of 32 or 64 bits, extended by sign or by zeros, to w[d] and change
nothing else (R212, R218-R220). -/
def Sys2Proof.Claims.WalkScalarResults : Prop :=
  (∀ row ∈ walkRows, ∀ (s : State) (o : WBin),
    let n := if o.f0 then 32 else 64
    let v := row.2 o.f1 n (s.cw.reg o.a.toNat % 2 ^ n) (s.cw.reg o.b.toNat % 2 ^ n)
    walkOn s →
    ∃ t, exec (row.1 o) s = .next t ∧ walkHolds s t o.d (if o.f1 then wrapTo 64 (signedOf n v) else v)) ∧
  (∀ row ∈ walkFpRows, ∀ (s : State) (o : WBin),
    let t := if o.f0 then Ty.f64 else Ty.f32
    let v (r : WReg) : Nat := if o.f0 then s.cw.reg r.toNat else s.cw.reg r.toNat % 2 ^ 32
    walkOn s → ∃ u, exec (row.1 o) s = .next u ∧ walkHolds s u o.d (row.2 t (v o.a) (v o.b))) ∧
  (∀ (s : State) (o : WCmpOp),
    let n := if o.f0 then 32 else 64
    let t := if o.f0 then Ty.f64 else Ty.f32
    let v (r : WReg) : Nat := if o.f0 then s.cw.reg r.toNat else s.cw.reg r.toNat % 2 ^ 32
    let x := valueOf o.f1 n (s.cw.reg o.a.toNat % 2 ^ n)
    let y := valueOf o.f1 n (s.cw.reg o.b.toNat % 2 ^ n)
    walkOn s →
    (∃ u, exec (.wcmp o) s = .next u ∧ walkHolds s u o.d (if condInt o.cond x y then 1 else 0)) ∧
    ∃ u, exec (.wfcmp o) s = .next u ∧
      walkHolds s u o.d (if (Cond.onVals o.cond ((Ty.enc t).decode (v o.a)) ((Ty.enc t).decode (v o.b))).1 then 1 else 0)) ∧
  (∀ (s : State) (d a b c : WReg) (imm : BitVec 16), walkOn s →
    (∃ t, exec (.wmov d a) s = .next t ∧ walkHolds s t d (s.cw.reg a.toNat)) ∧
    (∃ t, exec (.wli d a imm) s = .next t ∧ walkHolds s t d (s.cw.reg a.toNat * 2 ^ 16 + imm.toNat)) ∧
    ∃ t, exec (.wsel d a b c) s = .next t ∧
      walkHolds s t d (if s.cw.reg c.toNat ≠ 0 then s.cw.reg a.toNat else s.cw.reg b.toNat))

/-- Branches of a walk go to the word at their offset when taken, inside the program's extent (R222): j always, jz and jnz
by w[a], jmask while w[a] has a bit, whose lowest it clears and numbers in w31. A target outside is WALK_FAULT reason 2. -/
def Sys2Proof.Claims.WalkBranches : Prop :=
  ∀ (s : State) (a : WReg) (off : BitVec 26) (short : BitVec 21),
    let target (d : Int) : Int := s.cw.pc.toNat + 4 * d
    let x := s.cw.reg a.toNat
    let stay (t : State) (pc : Addr) : Prop := walkAt s t pc s.cw.reg
    (s.cw.inside (target off.toInt) = true →
      ∃ t, exec (.j off) s = .next t ∧ stay t (BitVec.ofInt 48 (target off.toInt))) ∧
    (s.cw.inside (target off.toInt) = false → walkRoom s (s.cw.emits.length + 1) →
      ∃ t, exec (.j off) s = .next t ∧ walkFaults s t 2) ∧
    (walkOn s → s.cw.inside (target short.toInt) = true →
      (∃ t, exec (.jz a short) s = .next t ∧
        stay t (if x = 0 then BitVec.ofInt 48 (target short.toInt) else s.cw.pc + 4)) ∧
      (∃ t, exec (.jnz a short) s = .next t ∧
        stay t (if x ≠ 0 then BitVec.ofInt 48 (target short.toInt) else s.cw.pc + 4)) ∧
      (x = 0 → ∃ t, exec (.jmask a short) s = .next t ∧ stay t (s.cw.pc + 4)) ∧
      ∀ k < 64, x % 2 ^ k = 0 → x / 2 ^ k % 2 = 1 →
        ∃ t, exec (.jmask a short) s = .next t ∧
          walkAt s t (BitVec.ofInt 48 (target short.toInt)) fun r =>
            if r = 31 then k else if r = a.toNat then x - 2 ^ k else s.cw.reg r)

/-- wld reads an aligned field inside a node buffer or the query block, sign-extended for s32, else zero-extended; one
outside is WALK_FAULT reason 0x0A (R221). ndec writes the fields of a descriptor to consecutive registers, scaled and
extended, or faults with reason 9 or 0x0A (R225). -/
def Sys2Proof.Claims.WalkFieldResults : Prop :=
  (∀ (s : State) (o : WLd),
    let buf := if o.src.toNat < 4 then s.cw.node o.src.toNat else s.cw.qb
    let n := match o.size with
      | .n64 => 8
      | .n16 => 2
      | _ => 4
    let off := (s.cw.reg o.a.toNat + o.off.toNat) % 2 ^ 64
    let v := leValue ((buf.drop off).take n)
    (off + n ≤ buf.length → off % n = 0 → walkOn s →
      ∃ t, exec (.wld o) s = .next t ∧ walkHolds s t o.d (if o.size = .s32 then wrapTo 64 (signedOf 32 v) else v)) ∧
    ((buf.length < off + n ∨ off % n ≠ 0) → walkRoom s (s.cw.emits.length + 1) →
      ∃ t, exec (.wld o) s = .next t ∧ walkFaults s t 0x0A)) ∧
  (∀ (s : State) (d : WReg) (n : BitVec 2) (k : BitVec 4),
    let desc := (nthD 0 s.cw.prog.descs k.toNat).toNat
    let first := bits desc 9 0
    let stride := bits desc 19 10
    let width := bits desc 25 20 + 1
    let signed := bits desc 26 26 = 1
    let count := bits desc 31 27
    let scale := bits desc 37 32
    let field (i : Nat) : Nat := leValue (s.cw.node n.toNat) / 2 ^ (first + i * stride) % 2 ^ width
    let value (i : Nat) : Nat := wrapTo 64 ((if signed then signedOf width (field i) else (field i : Int)) * (2 ^ scale : Nat))
    (count ≠ 0 → d.toNat + count ≤ 32 → first + (count - 1) * stride + width ≤ 1024 → walkOn s →
      ∃ t, exec (.ndec d n k) s = .next t ∧
        walkAt s t (s.cw.pc + 4) fun r =>
          if d.toNat ≤ r ∧ r < d.toNat + count ∧ r ≠ 0 then value (r - d.toNat) else s.cw.reg r) ∧
    (walkRoom s (s.cw.emits.length + 1) →
      ((count = 0 ∨ 32 < d.toNat + count) → ∃ t, exec (.ndec d n k) s = .next t ∧ walkFaults s t 9) ∧
      (count ≠ 0 → d.toNat + count ≤ 32 → 1024 < first + (count - 1) * stride + width →
        ∃ t, exec (.ndec d n k) s = .next t ∧ walkFaults s t 0x0A)))

/-- nfetch of a readable line waits for it in its node buffer, on this device (R215, R224); a pointer with a reserved bit is
WALK_FAULT reason 8. A line of another device sends the walk there, with a checkpoint at this nfetch (R215, R233), if the pointer is
in w0 to w15, which a checkpoint holds; in another register it is reason 0x0B. -/
def Sys2Proof.Claims.NodeFetch : Prop :=
  ∀ (s : State) (n : BitVec 2) (pf : Bool) (a : WReg),
    let p := s.cw.reg a.toNat
    let addr := p % 2 ^ 48
    (p / 2 ^ 52 = 0 → p % 2 ^ 7 = 0 → (p / 2 ^ 51 % 2 = 0 ∨ p / 2 ^ 48 % 8 = s.mgmt.devnum.toNat % 8) →
      ∀ bs, s.walkRead s.curWalk addr 128 = .bytes bs →
      ∃ t, exec (.nfetch n pf a) s = .next t ∧ t.cw.wait = .node n (BitVec.ofNat 48 addr) ∧
        { t.cw with wait := s.cw.wait } = s.cw ∧ (∀ w, w ≠ s.curWalk → t.walk w = s.walk w)) ∧
    ((p / 2 ^ 52 ≠ 0 ∨ p % 2 ^ 7 ≠ 0) → walkRoom s (s.cw.emits.length + 1) →
      ∃ t, exec (.nfetch n pf a) s = .next t ∧ walkFaults s t 8) ∧
    (p / 2 ^ 52 = 0 → p % 2 ^ 7 = 0 → p / 2 ^ 51 % 2 = 1 → p / 2 ^ 48 % 8 ≠ s.mgmt.devnum.toNat % 8 →
      (15 < a.toNat → walkRoom s (s.cw.emits.length + 1) → ∃ t, exec (.nfetch n pf a) s = .next t ∧ walkFaults s t 0x0B) ∧
      (a.toNat ≤ 15 → s.spillFault s.curWalk = none → walkRoom s s.cw.emits.length →
        ∀ port, wayTo s (p / 2 ^ 48 % 8) port →
          ∃ t, exec (.nfetch n pf a) s = .next t ∧ relayedTo s t (p / 2 ^ 48 % 8) port s.cw.pc))

/-- The ray test of tbox (R226, R322) lists the children hit, none before one whose bound is less, of two with equal bounds
that of lower index first: a bit for each, their number, and their indices by fours, 15 behind the last. An empty child is never
hit, nor one that the axes whose products the spec states miss. Of a child on an axis of which it states no product, 0 times an
infinity, and which the other axes hit, it is free whether it is listed and where (the model's free values, log 5). The box
test lists the children whose bounds overlap the query's, in index order. -/
def Sys2Proof.Claims.BoxTest : Prop :=
  ∀ (s : State) (o : WTest),
    let node := s.cw.node o.n.toNat
    let ray (c : Nat) : Slab := boxRay s.cw.qb node (Enc.f32.decode (s.cw.reg o.a.toNat % 2 ^ 32)) c
    let near (c : Nat) : Val := match ray c with
      | .span tn _ _ => tn
      | _ => .zero false
    let overlaps (c : Nat) : Bool := !boxEmpty node c &&
      (List.range 3).all fun x => Val.le (boxLo node c x) (f32At s.cw.qb (52 + 4 * x)) &&
        Val.le (f32At s.cw.qb (40 + 4 * x)) (boxHi node c x)
    let hit (c : Nat) : Prop := if o.flag then overlaps c = true else ∃ tn tf, ray c = .span tn tf false
    let stated (c : Nat) : Prop := o.flag = true ∨ ∀ tn tf, ray c ≠ .span tn tf true
    walkOn s →
    ∃ t v, exec (.tbox o) s = .next t ∧ walkHolds s t o.d v ∧
      ∃ l : List Nat, l.Nodup ∧ (∀ c ∈ l, c < 8) ∧ (∀ c < 8, stated c → (c ∈ l ↔ hit c)) ∧
        (o.flag = false → ∀ i j, i < j → j < l.length → stated (nthD 0 l i) → stated (nthD 0 l j) →
          Val.lt (near (nthD 0 l j)) (near (nthD 0 l i)) = false ∧
            (Val.lt (near (nthD 0 l i)) (near (nthD 0 l j)) = false → nthD 0 l i < nthD 0 l j)) ∧
        (o.flag = true → l.Pairwise (· < ·)) ∧ v / 2 ^ 8 % 16 = l.length ∧
        (∀ c < 8, v / 2 ^ c % 2 = if c ∈ l then 1 else 0) ∧
        ∀ i < 8, v / 2 ^ (12 + 4 * i) % 16 = (l[i]?).getD 15

/-- What ttri writes for what it finds (R227): the distance, the status and the sign of det, or 0. -/
def Sys2Proof.Claims.triWord : TriHit → Nat
  | .miss => 0
  | .hit t status neg => Enc.f32.encode t + 2 ^ 32 * status + if neg then 2 ^ 34 else 0

/-- Where the spec states no product for an edge of a ray test, tbox and ttri complete all the same, and the walk goes on: they
write the 44 and 35 bits that the test gives for some free value (the model's free values, log 5). Of that value tbox takes two
things for such a child: whether it is hit, and a bound between those that the other axes leave. -/
def Obligations.FreeTestResults : Prop :=
  ∀ (s : State) (o : WTest), o.flag = false → walkOn s →
    let node := s.cw.node o.n.toNat
    let tfar := Enc.f32.decode (s.cw.reg o.a.toNat % 2 ^ 32)
    (∃ t f, exec (.tbox o) s = .next t ∧
      (let hits := boxHits f s.cw.qb node tfar
       let v := boxResult (hits.map fun e => e.1)
       v < 2 ^ 44 ∧ walkHolds s t o.d v ∧
         ∀ c < 8, ∀ tn tf, boxRay s.cw.qb node tfar c = .span tn tf true →
           ∀ k, (c, k) ∈ hits → Val.le tn k = true ∧ Val.le k tf = true)) ∧
    (byteAt node 0x7C % 8 ≤ 4 → o.j.toNat < byteAt node 0x7C % 8 →
      (∀ i < 3, byteAt node (0x70 + 3 * o.j.toNat + i) < 8) →
      let vert (i axis : Nat) : Val := f32At node (12 * byteAt node (0x70 + 3 * o.j.toNat + i) + 4 * axis)
      ∃ t f, exec (.ttri o) s = .next t ∧ triWord (triTest f s.cw.qb (vert 0) (vert 1) (vert 2) tfar) < 2 ^ 35 ∧
        walkHolds s t o.d (triWord (triTest f s.cw.qb (vert 0) (vert 1) (vert 2) tfar)))

/-- ttri tests triangle j of a node (R227, R323): 0 beyond its count and for a miss, which a NaN among its numbers is; for a
hit the distance, the status and the sign of det. A count above 4 or an index above 7 is WALK_FAULT reason 1. -/
def Sys2Proof.Claims.TriangleTest : Prop :=
  ∀ (s : State) (o : WTest),
    let node := s.cw.node o.n.toNat
    let count := byteAt node 0x7C % 8
    let j := o.j.toNat
    let idx (i : Nat) : Nat := byteAt node (0x70 + 3 * j + i)
    let vert (i axis : Nat) : Val := f32At node (12 * idx i + 4 * axis)
    let tfar := Enc.f32.decode (s.cw.reg o.a.toNat % 2 ^ 32)
    let r (f : Nat) : TriHit := triTest f s.cw.qb (vert 0) (vert 1) (vert 2) tfar
    (count ≤ 4 → walkOn s →
      (count ≤ j → ∃ t, exec (.ttri o) s = .next t ∧ walkHolds s t o.d 0) ∧
      (j < count → (∀ i < 3, idx i < 8) →
        ((∀ f, r f = .miss) → ∃ t, exec (.ttri o) s = .next t ∧ walkHolds s t o.d 0) ∧
        (∀ t1 st neg, (∀ f, r f = .hit t1 st neg) →
          ∃ t, exec (.ttri o) s = .next t ∧
            walkHolds s t o.d (Enc.f32.encode t1 + 2 ^ 32 * st + if neg then 2 ^ 34 else 0)) ∧
        ((tfar.isNan = true ∨ ∃ i < 3, ∃ x < 3, (vert i x).isNan = true) → ∀ f, r f = .miss))) ∧
    (walkRoom s (s.cw.emits.length + 1) → (4 < count ∨ j < count ∧ ∃ i < 3, 8 ≤ idx i) →
      ∃ t, exec (.ttri o) s = .next t ∧ walkFaults s t 1)

/-- tdist adds 64 bytes of element products, or squared differences, to w[a] with one rounding (R228); tkey counts the
separators below, or not above, the key and names the first equal one (R229). The model's choice it rests on: log
78. -/
def Obligations.DistanceAndKey : Prop :=
  (∀ (s : State) (o : WDist),
    let chunk (buf : List Byte) (h : Bool) : List Byte := (buf.drop (if h then 64 else 0)).take 64
    let x := distElems o.fmt (chunk (s.cw.node o.n.toNat) o.h)
    let q := distElems o.fmt (chunk (if o.src.toNat < 4 then s.cw.node o.src.toNat else s.cw.qb) o.qh)
    let terms := (x.zip q).map fun e => if o.ip then Val.mul e.1 e.2 else
      let d := (Val.add .rne e.1 e.2.neg).toVal
      Val.mul d d
    walkOn s →
    ∃ t, exec (.tdist o) s = .next t ∧
      walkHolds s t o.d (Enc.f32.encode (exactSum terms (Enc.f32.decode (s.cw.reg o.a.toNat % 2 ^ 32))))) ∧
  (∀ (s : State) (o : WKey),
    let c := s.cw.reg o.b.toNat
    let num (v : Nat) : Int := valueOf o.signed 32 (v % 2 ^ 32)
    let key := num (s.cw.reg o.a.toNat)
    let sep (i : Nat) : Int := num (leValue (((s.cw.node o.n.toNat).drop (4 * i)).take 4))
    let below := ((List.range c).filter fun i => if o.strict then sep i < key else sep i ≤ key).length
    (c ≤ 16 → walkOn s →
      ∃ t, exec (.tkey o) s = .next t ∧
        ((∀ i < c, sep i ≠ key) → walkHolds s t o.d below) ∧
        ∀ e < c, sep e = key → (∀ i < e, sep i ≠ key) → walkHolds s t o.d (below + 2 ^ 5 + 2 ^ 6 * e)) ∧
    (16 < c → walkRoom s (s.cw.emits.length + 1) → ∃ t, exec (.tkey o) s = .next t ∧ walkFaults s t 0x0A))

/-- The walk stack of at most 40 entries, the newest 16 at most in the context (R223): push and pop with resident entries;
a push onto 16 resident ones spills the oldest of them; a pop of an empty stack clears both registers; pop follows push. -/
def Sys2Proof.Claims.WalkStackResults : Prop :=
  (∀ (s : State) (a : WReg), s.cw.stack.length < 40 → walkOn s →
    let full := s.cw.stack ++ [BitVec.ofNat 64 (s.cw.reg a.toNat)]
    (s.cw.resident < 16 →
      ∃ t, exec (.spush a) s = .next t ∧ t.cw.stack = full ∧ t.cw.resident = s.cw.resident + 1 ∧
        t.cw.pc = s.cw.pc + 4 ∧ onlyWalk s t ∧ ∀ r < 32, t.cw.reg r = s.cw.reg r) ∧
    (16 ≤ s.cw.resident → ∀ base, s.spillSlot s.curWalk = some base →
      ∃ t, exec (.spush a) s = .next t ∧ t.cw.stack = full ∧ t.cw.resident = s.cw.resident ∧
        t.cw.pc = s.cw.pc + 4 ∧ (∀ r < 32, t.cw.reg r = s.cw.reg r) ∧
        (∀ x, Memory.read t.mem x = Memory.read s.mem x) ∧
        leValue ((t.core (s.curWalk / 64)).scrBytes (base + 8 * s.cw.spilled) 8) =
          (nthD 0 s.cw.stack s.cw.spilled).toNat)) ∧
  (∀ (s : State) (a : WReg), s.cw.stack.length = 40 → walkRoom s (s.cw.emits.length + 1) →
    ∃ t, exec (.spush a) s = .next t ∧ walkFaults s t 3) ∧
  (∀ (s : State) (d a : WReg), walkOn s →
    let put (r : Nat) (top flag : Nat) : Nat :=
      if r = a.toNat ∧ r ≠ 0 then flag else if r = d.toNat ∧ r ≠ 0 then top else s.cw.reg r
    (s.cw.stack = [] →
      ∃ t, exec (.spop d a) s = .next t ∧ walkAt s t (s.cw.pc + 4) fun r => put r 0 0) ∧
    (∀ rest top, s.cw.stack = rest ++ [top] → (1 < s.cw.resident ∨ rest = []) →
      ∃ t, exec (.spop d a) s = .next t ∧ onlyWalk s t ∧ t.cw.pc = s.cw.pc + 4 ∧ t.cw.stack = rest ∧
        t.cw.resident = s.cw.resident - 1 ∧ ∀ r < 32, t.cw.reg r = put r top.toNat 1) ∧
    (∀ rest top base, s.cw.stack = rest ++ [top] → s.cw.resident ≤ 1 → rest ≠ [] →
      s.spillSlot s.curWalk = some base →
      s.scrPoisoned (s.curWalk / 64) (base + 8 * (rest.length - 1)) 8 = false →
      ∃ t, exec (.spop d a) s = .next t ∧ onlyWalk s t ∧ t.cw.pc = s.cw.pc + 4 ∧ t.cw.resident = 1 ∧
        t.cw.stack.length = rest.length ∧
        t.cw.stack.getLast? =
          some (BitVec.ofNat 64
            (leValue ((s.core (s.curWalk / 64)).scrBytes (base + 8 * (rest.length - 1)) 8))) ∧
        ∀ r < 32, t.cw.reg r = put r top.toNat 1))

/-- emit holds a record of w[b], w[a] and w[d] back, releasing the 8 held first; ckpt releases the records held and takes a
checkpoint at the next instruction; relay to this device does the same, to another device it sends the walk there with its
checkpoint and a new serial; done releases and ends the walk, whose wlaunch has one walk fewer to wait for. A walk whose queue lacks room
waits (R230-R233, R329). -/
def Sys2Proof.Claims.WalkReleases : Prop :=
  (∀ (s : State) (d a b : WReg), walkOn s →
    let r : Record := ⟨BitVec.ofNat 32 (s.cw.reg b.toNat), BitVec.ofNat 32 (s.cw.reg a.toNat),
      BitVec.ofNat 32 (s.cw.reg d.toNat), s.recordWord s.curWalk 0⟩
    (s.cw.emits.length < 8 →
      ∃ t, exec (.emit d a b) s = .next t ∧ onlyWalk s t ∧ t.cw.emits = s.cw.emits ++ [r] ∧ t.cw.pc = s.cw.pc + 4 ∧
        ∀ r < 32, t.cw.reg r = s.cw.reg r) ∧
    (8 ≤ s.cw.emits.length → s.cw.live = true → walkRoom s s.cw.emits.length → s.spillFault s.curWalk = none →
      ∃ t, exec (.emit d a b) s = .next t ∧ t.cw.emits = [r] ∧ t.cw.cp.pc = s.cw.pc ∧ t.cw.pc = s.cw.pc + 4 ∧
        appended s t s.cw.team s.cw.queue s.cw.emits)) ∧
  (∀ (s : State) (a : WReg) (i : Instr), (i = .ckpt ∨ i = .relay a ∧ s.cw.reg a.toNat % 8 = s.mgmt.devnum.toNat % 8) →
    s.spillFault s.curWalk = none → s.cw.hosted = none → s.cw.due = none → walkOn s →
    (s.queueRoom s.cw.team s.cw.queue s.cw.emits.length = true →
      ∃ t, exec i s = .next t ∧ checkpointed s t (s.cw.pc + 4) ∧ t.cw.wait = .ready ∧ t.cw.pc = s.cw.pc + 4) ∧
    (s.queueRoom s.cw.team s.cw.queue s.cw.emits.length = false →
      ∃ t, exec i s = .next t ∧ onlyWalk s t ∧ t.cw = { s.cw with wait := .room .next })) ∧
  (∀ (s : State) (a : WReg),
    let dev := s.cw.reg a.toNat % 8
    dev ≠ s.mgmt.devnum.toNat % 8 → s.spillFault s.curWalk = none → walkRoom s s.cw.emits.length →
    ∀ port, wayTo s dev port →
    ∃ t, exec (.relay a) s = .next t ∧ relayedTo s t dev port (s.cw.pc + 4)) ∧
  (∀ (s : State), walkRoom s s.cw.emits.length →
    ∃ t, exec .done s = .next t ∧ (t.walk s.curWalk).live = false ∧
      appended s t s.cw.team s.cw.queue s.cw.emits ∧
      (t.core (s.curWalk / 64)).wcmds =
        (s.core (s.curWalk / 64)).wcmds.map fun c => if c.seq = s.cw.seq then { c with left := c.left - 1 } else c) ∧
  (∀ (s : State), s.cw.hosted = none → s.queueRoom s.cw.team s.cw.queue s.cw.emits.length = false →
    ∃ t, exec .done s = .next t ∧ onlyWalk s t ∧ t.cw = { s.cw with wait := .room .finish })
/-! ### Steps of groups and engines that no instruction makes (R94, R105-R109, R114, R198-R209, R259, R266, R308-R311, R388) -/

/-- A parked path of group g is runnable and no longer parked. -/
def Sys2Proof.Claims.woken (t : State) (g : Nat) (q : Parked) : Prop :=
  (q.path.mask ≠ 0 → q.path ∈ (t.group g).run :: (t.group g).ready) ∧ q ∉ (t.group g).parked

/-- Only group g changed. -/
def Sys2Proof.Claims.onlyOther (s t : State) (g : Nat) : Prop :=
  { t with groups := s.groups } = s ∧ ∀ h, h ≠ g → t.group h = s.group h

/-- A pending report is taken as a trap at the group's PC (R199). A path that has issued 64 instructions gives way (R94). A
group passed over 32 times may be taken next, its count left to its issue (R259). Limits that have passed bring a semwait back to its instruction and end a
waitm with cause 3 (R105, R109). Firmware wakes a halted group (R114). -/
def Sys2Proof.Claims.GroupEvents : Prop :=
  (∀ (s : State) (g : Nat) (r : Report) (rest : List Report),
    let s1 := { s with cur := g }
    let s2 := s1.setCg { s1.cg with reports := rest }
    (s.group g).reports = r :: rest → (s.group g).live = true → (s.group g).handler = none →
    (s.group g).run.mask ≠ 0 → s1.ct.tvec ≠ 0 →
    ∃ t, exec (.engineReportTaken g) s = .next t ∧ trapped s2 t r.cause r.tval.toNat r.taddr.toNat none) ∧
  (∀ (s : State) (g : Nat), 64 ≤ (s.group g).turn →
    ∃ t, exec (.pathTurnEnd g) s = .next t ∧ onlyOther s t g ∧ (t.group g).turn = 0 ∧
      (t.group g).run :: (t.group g).ready = (s.group g).ready ++ [(s.group g).run] ∧
      { t.group g with run := (s.group g).run, ready := (s.group g).ready, turn := (s.group g).turn } = s.group g) ∧
  (∀ (s : State) (g : Nat), (s.group g).live = true → 32 ≤ (s.group g).passed →
    exec (.pacerForce g) s = .next { s with agenda := .group g :: s.agenda }) ∧
  (∀ (s : State) (g : Nat) (q : Parked) (k : Nat),
    q ∈ (s.group g).parked → q.why = .sem k → (s.group g).live = true → (s.group g).halted = false →
    s.active (s.team (s.group g).team).core = true → (s.group g).wtimeout ≠ 0 →
    (q.path.since.getD s.now) + (s.group g).wtimeout.toNat ≤ s.now →
    ∃ t, exec (.semwaitTimeout g q.path.id) s = .next t ∧ onlyOther s t g ∧ woken t g q ∧
      (∀ r, (t.group g).sreg r = (s.group g).sreg r) ∧ ∀ u, t.team u = s.team u) ∧
  (∀ (s : State) (g : Nat) (q : Parked) (d : Reg) (start : Nat),
    q ∈ (s.group g).parked → q.why = .waitm d start → (∀ p ∈ (s.group g).allParked, p.isWaitm = true → p = q) →
    (s.group g).live = true → (s.group g).halted = false → s.active (s.team (s.group g).team).core = true →
    (s.group g).wtimeout ≠ 0 → start + (s.group g).wtimeout.toNat ≤ s.now →
    ∃ t, exec (.waitmTimeout g q.path.id) s = .next t ∧ onlyOther s t g ∧ woken t g q ∧ (t.group g).monitor = none ∧
      ∀ r, (t.group g).sreg r = if r = d.toNat then 3 else (s.group g).sreg r) ∧
  (∀ (s : State) (g : Nat) (q : Parked), q ∈ (s.group g).parked → q.why = .halt → (s.group g).live = true →
    ∃ t, exec (.haltFirmwareWake g) s = .next t ∧ onlyOther s t g ∧ woken t g q)

/-- The Hurdle (R107, R266): a team whose live groups are all pending arrives at the open phase; when every team of the
rectangle has arrived or has no group left, the phase completes: its waiters run on, and an arrival is left completed. The
phase of a context that is swapped out stands still (R266). -/
def Obligations.HurdleEvents : Prop :=
  (∀ (s : State) (u : Nat) (w : Word), (s.team u).live = true → (s.team u).arrivedX = false →
    (s.cluster (s.team u).cluster).openRect = some w → s.liveGroups u ≠ [] → s.active (s.team u).core = true →
    (∀ g ∈ s.liveGroups u, (s.group g).barX = .pending) →
    ∃ t, exec (.hurdleArrival u) s = .next t ∧ (t.team u) = { s.team u with arrivedX := true } ∧
      (t.cluster (s.team u).cluster).arrived = (s.cluster (s.team u).cluster).arrived ++ [u] ∧
      { t with teams := s.teams, clusters := s.clusters } = s ∧ ∀ v, v ≠ u → t.team v = s.team v) ∧
  (∀ (s : State) (u c : Nat), s.active (s.team u).core = false →
    exec (.hurdleArrival u) s = .fault .notEnabled ∧
      (u ∈ (s.cluster c).teams → exec (.hurdleCompletion c) s = .fault .notEnabled)) ∧
  (∀ (s : State) (c : Nat) (w : Word), (s.cluster c).openRect = some w →
    (∀ u ∈ (s.cluster c).teams, s.active (s.team u).core = true) →
    (∀ u ∈ (s.cluster c).teams, (s.team u).live = true → (Rect.ofWord w).has (s.team u).core = true →
      (s.team u).arrivedX = true ∨ s.liveGroups u = []) →
    (∀ u ∈ (s.cluster c).teams, ∀ g ∈ s.liveGroups u, ∀ q ∈ (s.group g).allParked, q.why ≠ .rect (some false)) →
    ∃ t, exec (.hurdleCompletion c) s = .next t ∧ (t.cluster c).openRect = none ∧ (t.cluster c).arrived = [] ∧
      (t.cluster c).phase = (s.cluster c).phase + 1 ∧ t.mem = s.mem ∧
      ∀ u ∈ (s.cluster c).teams, (t.team u).arrivedX = false ∧
        ∀ g ∈ s.liveGroups u, (s.group g).barX = .pending →
          (t.group g).barX =
            (if ∃ q ∈ (s.group g).allParked, q.why = .rect (some true) then .idle else .completed) ∧
          ∀ q ∈ (s.group g).parked, q.why = .rect (some true) → woken t g q)

/-- The checks of arrival at a PC whose line can be read, in order (R36, R38, R44, R48): a line that is not well formed, a PC
that is no head of the line, a reserved encoding. The leaf entry of the line's page is marked accessed first (R360). An unassigned position is ILLEGAL_OP with reason 0, an unassigned Walker
opcode WALK_FAULT reason 1 (R59, R70). -/
def Sys2Proof.Claims.ArrivalTraps : Prop :=
  (∀ (s : State) (bs : List Byte) (x : Xlat), s.cg.handler = none → s.ct.tvec ≠ 0 → s.fetchBytes = .ok (bs, x) →
    let l := halvesOfBytes bs
    let pc := s.cg.run.pc.toNat
    let at_ := pc % 64
    let s1 := s.markLeaf x false
    (lineWellFormed l = false →
      ∃ t, exec .arrivalCheckTrap s = .next t ∧ t.cg.tcause = 0x02 ∧ t.cg.taddr = BitVec.ofNat 64 pc ∧
        t.cg.tval = BitVec.ofNat 32 ((1 + lineN l + lineTails l (lineN l)) % 2 ^ 8 + 2 ^ 8 * lineN l +
          if (lineHalf l 0).toNat % 2 ^ 11 ≠ 0 then 2 ^ 13 else 0) ∧
        t.cg.tpc = BitVec.ofNat 64 (pc / 64 * 64 + 2) ∧ t.cg.run.pc = s.ct.tvec.setWidth 48 + 2) ∧
    (lineWellFormed l = true → (at_ % 2 = 1 ∨ at_ = 0) →
      ∃ t, exec .arrivalCheckTrap s = .next t ∧ trapped s1 t 0x13 0 pc none) ∧
    (lineWellFormed l = true → at_ % 2 = 0 → lineN l < at_ / 2 →
      ∃ t, exec .arrivalCheckTrap s = .next t ∧ trapped s1 t 0x13 (lineN l) pc none) ∧
    (lineWellFormed l = true → at_ % 2 = 0 → 0 < at_ → at_ / 2 ≤ lineN l →
      ∀ r, decodeAt l (at_ / 2) = .error r → r.reason ≠ 0 →
        ∃ t, exec .arrivalCheckTrap s = .next t ∧ trapped s1 t 0x01 (r.head.toNat + 2 ^ 16 * r.reason) 0 none)) ∧
  (∀ (s : State) (head : BitVec 16), s.cg.handler = none → s.ct.tvec ≠ 0 →
    ∃ t, exec (.unassignedPosition head) s = .next t ∧ trapped s t 0x01 head.toNat 0 none) ∧
  (∀ (s : State) (word : BitVec 32), s.cw.live = true → s.cw.wait = .ready → walkRoom s (s.cw.emits.length + 1) →
    (let op := word.toNat / 2 ^ 26
     op = 0 ∨ (0x0D ≤ op ∧ op ≤ 0x0F) ∨ (0x14 ≤ op ∧ op ≤ 0x17) ∨ (0x25 ≤ op ∧ op ≤ 0x27) ∨ 0x2D ≤ op) →
    ∃ t, exec (.unassignedWalkerOpcode word) s = .next t ∧ walkFaults s t 1)

/-- A command has left its core's queues with its range locks (R198). -/
def Sys2Proof.Claims.dropped (t : State) (cid : Nat) (c : Cmd) : Prop :=
  (∀ x, x ∈ (t.core cid).tileQ ∨ x ∈ (t.core cid).copyQ ∨ x ∈ (t.core cid).runQ → x.seq ≠ c.seq) ∧
    ∀ k ∈ (t.core cid).locks, k.seq ≠ c.seq

/-- A command has left, and its signal, if it is not muted, has added its increment to its semaphore (R198, R311). -/
def Sys2Proof.Claims.completed (s t : State) (cid : Nat) (c : Cmd) : Prop :=
  dropped t cid c ∧
    let old := ((s.team c.team).sem c.sync.sigk.toNat).toNat
    (c.mute = false → old + c.sync.inc.toNat ≤ 0xFFFF →
      ((t.team c.team).sem c.sync.sigk.toNat).toNat = old + c.sync.inc.toNat) ∧
    ∀ k, (k ≠ c.sync.sigk.toNat ∨ c.mute = true) → (t.team c.team).sem k = (s.team c.team).sem k

/-- The signal of a command overflows no semaphore (R198). -/
def Sys2Proof.Claims.signalFits (s : State) (c : Cmd) : Prop :=
  ((s.team c.team).sem c.sync.sigk.toNat).toNat + c.sync.inc.toNat ≤ 0xFFFF

/-- Word n of a copy command (R209): the 4 bytes at src + r·sstr + 4k, which lie where the direction says, in the state that the
word's read leaves, are those that stand at dst + r·dstr + 4k in t, or are sent there as a write; the word that lies in the source
ranges of its own copy ends with a free value (log 5) and is not spoken of. -/
def Sys2Proof.Claims.wordCopied (s t : State) (cid : Nat) (c : Cmd) (dir : CopyDir) (src dst sstr dstr bytes rows n : Nat) : Prop :=
  let base := (s.team c.team).base
  let b := corePart cid
  let r := n / (bytes / 4)
  let k := n % (bytes / 4)
  let gs : Prop := dir = .gs ∨ dir = .gg
  let gd : Prop := dir = .sg ∨ dir = .gg
  let sa := if gs then (src + r * sstr + 4 * k) % 2 ^ 48 else src + r * sstr + 4 * k
  let da := if gd then (dst + r * dstr + 4 * k) % 2 ^ 48 else dst + r * dstr + 4 * k
  let x := s.translateVia (s.engineUnits cid) b (coreCtx cid) sa Need.read
  let u := if gs then s.markLeaf x false |>.fillQuad cid sa x else s
  let y := u.translateVia (u.engineUnits cid) b (coreCtx cid) da Need.write
  ((decide gs == decide gd) && inRows (decide gs) src sstr bytes rows da) = true ∨
    ∃ bs : List Byte,
      (¬ gs → bs = (s.core cid).scrBytes (base + sa) 4) ∧
      (gs → ∃ loc pa at_ leaf size, x = .ok loc pa at_ leaf size ∧
        (loc = 0 → bs = u.readKeyed (keyOf b leaf) pa 4) ∧
        (loc ≠ 0 → bs = s.remoteBytes c.served (s.group c.group).lastAcq loc pa 4)) ∧
      (¬ gd → (t.core cid).scrBytes (base + da) 4 = bs ∧
        (∀ a, a < base + da ∨ base + da + 4 ≤ a → Tbl.get 0 (t.core cid).scr a = Tbl.get 0 (s.core cid).scr a) ∧ t.mem = u.mem) ∧
      (gd → (t.core cid).scr = (s.core cid).scr ∧ ∃ loc pa at_ leaf size, y = .ok loc pa at_ leaf size ∧
        (loc = 0 → t.mem = writeBytes (u.markLeaf y true).mem pa bs) ∧
        (loc ≠ 0 → t.mem = (u.markLeaf y true).mem ∧
          ∃ req ∈ t.remotes, req.2.who = .copy cid c.seq ∧ req.2.loc = loc ∧ req.2.addr = pa ∧ req.2.write = some bs))

/-- Engine commands start in the order of R198 once their wait is met: the head of the tile queue, the next of at most
four copies, the run that the Warm-up Array picks (R381). A copy that no word stops copies each of its words, in any
direction, of any length and strides, the words in ascending order (the model's choice, log 77); it waits for writes
to the host or a peer, and then, like a run, leaves its queue and signals (R209, R388). A run that met a word in
error reports ENGINE_FAULT (R388). The model's choices it rests on: logs 5, 29, 34 and 77. -/
def Obligations.CommandEvents : Prop :=
  (∀ (s : State) (cid : Nat) (c : Cmd) (rest : List Cmd), s.active cid = true → c.started = false →
    (c.sync.thr = 0 ∨ c.sync.thr.toNat ≤ ((s.team c.team).sem c.sync.waitk.toNat).toNat) →
    ((s.core cid).tileQ = c :: rest →
      ∃ t, exec (.engineCommandStart cid c.seq) s = .next t ∧ t.mem = s.mem ∧ t.groups = s.groups ∧
        ∃ x, (t.core cid).tileQ.head? = some x ∧ x = { c with started := true }) ∧
    ((∀ x ∈ (s.core cid).tileQ.head?, x.seq ≠ c.seq) → (∀ x ∈ (s.core cid).copyQ, x.seq = c.seq → x = c) →
      (s.core cid).copyQ.find? (fun x => !x.started) = some c →
      ((s.core cid).copyQ.filter fun x => x.started).length < 4 →
      ∃ t, exec (.engineCommandStart cid c.seq) s = .next t ∧ { t with cores := s.cores } = s ∧
        (t.core cid).copyQ = (s.core cid).copyQ.map fun x => if x.seq = c.seq then { c with started := true } else x)) ∧
  (∀ (s : State) (cid : Nat) (c : Cmd) (n : Nat), s.active cid = true →
    (∀ x ∈ (s.core cid).tileQ.head?, x.seq ≠ c.seq) → (∀ x ∈ (s.core cid).copyQ, x.seq ≠ c.seq) →
    s.arrayPick (s.quadKey cid) = some (cid, c, n) →
    ∃ t, exec (.engineCommandStart cid c.seq) s = .next t ∧ t.mem = s.mem ∧
      (t.quad (s.quadKey cid)).wuaRun = some (cid, c.seq) ∧ (t.quad (s.quadKey cid)).wuaTurn = n) ∧
  (∀ (s s1 : State) (cid : Nat) (c : Cmd),
    (s.core cid).copyQ.find? (fun x => x.seq == c.seq && x.started) = some c → s.active cid = true →
    s.copyWaits cid c.seq = false → c.moved ≤ c.op.words →
    s.copyWords cid c c.op.words (c.op.words - c.moved) = (s1, none, 0) → s1.copyWaits cid c.seq = false →
    s1.hostWrites (· == .copy cid c.seq) = false →
    ∃ t, exec (.copyComplete cid c.seq) s = .next t ∧ completed s1 t cid c ∧ (signalFits s1 c → t.mem = s1.mem) ∧
      (t.core cid).scr = (s1.core cid).scr) ∧
  (∀ (u : Nat → State) (cid : Nat) (c : Cmd) (dir : CopyDir) (src dst sstr dstr bytes rows : Nat),
    let n := bytes / 4 * rows
    let s := u c.moved
    let host := (u n).hostWrites (· == .copy cid c.seq)
    c.op = .copy dir src dst sstr dstr bytes rows → c.moved ≤ n →
    (s.core cid).copyQ.find? (fun x => x.seq == c.seq && x.started) = some c → s.active cid = true →
    s.copyWaits cid c.seq = false → (∀ i, c.moved ≤ i → i < n → (u i).copyWord cid c i = (u (i + 1), none)) →
    (∀ i, c.moved ≤ i → i < n → wordCopied (u i) (u (i + 1)) cid c dir src dst sstr dstr bytes rows i) ∧
    ((u n).copyWaits cid c.seq = false → host = false →
      ∃ t, exec (.copyComplete cid c.seq) s = .next t ∧ completed (u n) t cid c ∧ (signalFits (u n) c → t.mem = (u n).mem) ∧
        (t.core cid).scr = ((u n).core cid).scr) ∧
    (((u n).copyWaits cid c.seq = true ∨ host = true ∧ c.moved < n) →
      exec (.copyComplete cid c.seq) s = .next ((u n).setCopy cid c.seq fun x => { x with moved := n }))) ∧
  (∀ (s : State) (cid : Nat) (c : Cmd) (src dst sstr dstr bytes rows : Nat),
    let base := (s.team c.team).base
    let n := bytes / 4 * rows
    let at_ (start stride i : Nat) : Nat := start + i / (bytes / 4) * stride + 4 * (i % (bytes / 4))
    c.op = .copy .ss src dst sstr dstr bytes rows → c.moved = 0 → (∀ x ∈ [src, dst, sstr, dstr, bytes], x % 4 = 0) →
    (s.core cid).copyQ.find? (fun x => x.seq == c.seq && x.started) = some c → s.active cid = true →
    s.copyWaits cid c.seq = false → s.hostWrites (· == .copy cid c.seq) = false →
    (∀ i < n, s.scrPoisoned cid (base + at_ src sstr i) 4 = false ∧
      ∀ j < n, at_ dst dstr i ≠ at_ src sstr j ∧ (i ≠ j → at_ dst dstr i ≠ at_ dst dstr j)) →
    ∃ t, exec (.copyComplete cid c.seq) s = .next t ∧ completed s t cid c ∧
      (∀ i < n, (t.core cid).scrBytes (base + at_ dst dstr i) 4 = (s.core cid).scrBytes (base + at_ src sstr i) 4) ∧
      ∀ a, (∀ i < n, a < base + at_ dst dstr i ∨ base + at_ dst dstr i + 4 ≤ a) →
        Tbl.get 0 (t.core cid).scr a = Tbl.get 0 (s.core cid).scr a) ∧
  (∀ (s : State) (q cid : Nat) (c : Cmd), (s.quad q).wuaRun = some (cid, c.seq) →
    (s.core cid).runQ.find? (fun x => x.seq == c.seq) = some c → s.active cid = true → s.fed q cid = none →
    ((s.quad q).streamErr = none → (s.quad q).stream = [] →
      ∃ t, exec (.wuaRunComplete q) s = .next t ∧ completed s t cid c ∧ (t.quad q).wuaRun = none ∧
        (signalFits s c → t.mem = s.mem)) ∧
    (∀ off, (s.quad q).streamErr = some off → (s.group c.group).live = true →
      ∃ t, exec (.wuaRunComplete q) s = .next t ∧ dropped t cid c ∧ (t.quad q).wuaRun = none ∧ (t.quad q).stream = [] ∧
        t.mem = s.mem ∧ t.teams = s.teams ∧
        (t.group c.group).reports = (s.group c.group).reports ++
          [⟨0x23, BitVec.ofNat 32 (2 ^ 16 * (c.seq.toNat % 2 ^ 16) + 2 ^ 12 * 2 + 2 ^ 10 * 3), BitVec.ofNat 64 off, c.pc, c.seq⟩]))

/-- The Matrix Engine (R205-R208, R307-R311): staging reads the operand rows once, in order, for the running command or
ahead for the next (R310), and takes a `wua` operand row by row from the Warm-up Array (R389); a block step writes
the 64 sums of products of its block, each with one rounding, and no other element; zero, acc.ld and acc.st move the
64 by 64 elements of a tile, and a completed command leaves the queue and signals. The model's choices it rests on:
logs 2 and 67. -/
def Obligations.MatrixEvents : Prop :=
  (∀ (s : State) (q cid : Nat) (c : Cmd), s.running q = some (cid, c) → (s.quad q).staged = false →
    s.active cid = true → stageRows c.op ≠ [] →
    let x := s.quad q
    let base := (s.team c.team).base
    let read (k : Nat) (d : Cmd) : List Byte :=
      ((stageRows d.op).map fun e => (s.core k).scrBytes ((s.team d.team).base + e.1) e.2).flatten
    let legal (buf : List Byte) : Prop :=
      ∀ f sp o a b e, c.op = .mma f sp o a b e → badNibble (sideOf (mmaGeo f sp o) buf) (mmaGeo f sp o) = none
    let only (t : State) : Prop := { t with quads := s.quads } = s ∧ ∀ k, k ≠ q → t.quad k = s.quad k
    let ends (t : State) (buf : List Byte) : Prop :=
      only t ∧ (t.quad q).staged = true ∧ (t.quad q).buf = buf ∧ (t.quad q).cursor = 0 ∧
        (t.quad q).running = x.running
    (∀ y, s.readsAhead q cid c = some y →
      ∃ t, exec (.operandStagingDone q) s = .next t ∧ only t ∧
        ∃ e, t.quad q = { x with ahead := some (y.core, y.cmd.seq, ⟨read y.core y.cmd, e⟩) }) ∧
    (s.readsAhead q cid c = none → s.tileError q cid c.op = false →
      (c.op.wua = false → x.buf = [] →
        (x.own = none → s.scrError cid base (stageRows c.op) = none → legal (read cid c) →
          ∃ t, exec (.operandStagingDone q) s = .next t ∧ ends t (read cid c) ∧ (t.quad q).stream = x.stream) ∧
        (∀ bs, x.own = some ⟨bs, none⟩ → legal bs →
          ∃ t, exec (.operandStagingDone q) s = .next t ∧ ends t bs ∧ (t.quad q).stream = x.stream)) ∧
      (c.op.wua = true → 128 ≤ x.stream.length → ∀ bs, x.own = some ⟨bs, none⟩ →
        (x.rows < 63 →
          ∃ t, exec (.operandStagingDone q) s = .next t ∧ only t ∧
            t.quad q = { x with buf := x.buf ++ x.stream.take 128, rows := x.rows + 1, stream := x.stream.drop 128 }) ∧
        (x.rows = 63 → legal (x.buf ++ x.stream.take 128 ++ bs) →
          ∃ t, exec (.operandStagingDone q) s = .next t ∧ ends t (x.buf ++ x.stream.take 128 ++ bs) ∧
            (t.quad q).stream = x.stream.drop 128)))) ∧
  (∀ (s : State) (q cid : Nat) (c : Cmd) (f : MmaFmt) (sp : Bool) (o : MmaOps) (offA offB side : Nat),
    s.running q = some (cid, c) → c.op = .mma f sp o offA offB side → (s.quad q).staged = true →
    (s.quad q).cursor < 64 → s.active cid = true →
    let g := mmaGeo f sp o
    let buf := (s.quad q).buf
    let b := (s.quad q).cursor
    let extra := sideOf g buf
    let a (i : Nat) : List (Nat × Nat) :=
      (rowPositions sp g extra i).zip (lineCodes o.ta g.half g.aLen g.aRows (buf.take 8192) i)
    let bs (j : Nat) : List Nat := lineCodes o.tb g.half g.bLen g.bRows ((buf.drop 8192).take (g.bRows * g.bLen)) j
    ∃ t, exec (.mmaBlockStep q) s = .next t ∧ (t.quad q).cursor = b + 1 ∧ t.mem = s.mem ∧ t.groups = s.groups ∧
      (∀ k, k ≠ cid → t.core k = s.core k) ∧ (t.core cid).scr = (s.core cid).scr ∧
      ∀ n i j, i < 64 → j < 64 → n < 4 →
        (t.core cid).tile n i j =
          if n = o.t.toNat ∧ i / 8 = b % 8 ∧ j / 8 = b / 8 then
            BitVec.ofNat 32 (Enc.f32.encode
              (dot (products f g extra i j (a i) (bs j)) (if o.zc then .zero false
                else Enc.f32.decode ((s.core cid).tile o.t.toNat i j).toNat)))
          else (s.core cid).tile n i j) ∧
  (∀ (s : State) (q cid : Nat) (c : Cmd), s.running q = some (cid, c) → s.active cid = true →
    (∀ f sp o x y z, c.op = .mma f sp o x y z → (s.quad q).staged = true → (s.quad q).cursor = 64 →
      ∃ t, exec (.tileCommandComplete q) s = .next t ∧ completed s t cid c ∧ (signalFits s c → t.mem = s.mem)) ∧
    (∀ n < 4, c.op = .zero n →
      ∃ t, exec (.tileCommandComplete q) s = .next t ∧ completed s t cid c ∧
        ∀ k i j, k < 4 → i < 64 → j < 64 →
          (t.core cid).tile k i j = if k = n then 0 else (s.core cid).tile k i j) ∧
    (∀ n off fmt tr pitch, n < 4 → c.op = .accLd n off fmt tr pitch → (s.quad q).staged = true →
      (s.quad q).buf.length = 4096 * fmt.bytes →
      ∃ t, exec (.tileCommandComplete q) s = .next t ∧ completed s t cid c ∧
        ∀ i j, i < 64 → j < 64 →
          (t.core cid).tile n i j =
            BitVec.ofNat 32
              (accDecode fmt
                (leValue (((s.quad q).buf.drop ((if tr then 64 * j + i else 64 * i + j) * fmt.bytes)).take fmt.bytes)))) ∧
    (∀ n off fmt tr pitch, c.op = .accSt n off fmt tr pitch → s.tileError q cid c.op = false → 64 * fmt.bytes ≤ pitch →
      ∃ t, exec (.tileCommandComplete q) s = .next t ∧ completed s t cid c ∧
        ∀ i j, i < 64 → j < 64 →
          leValue ((t.core cid).scrBytes ((s.team c.team).base + off + i * pitch + fmt.bytes * j) fmt.bytes) =
            accEncode fmt (if tr then (s.core cid).tile n j i else (s.core cid).tile n i j)))
/-! ### Steps of walks and of the coherence protocol (R213, R224, R237, R270, R275, R292-R299, R316, R318, R329, R336) -/

/-- Partition b reaches device d by a port, and nothing of the pair waits (R397). -/
def Sys2Proof.Claims.pathOpen (s : State) (b d : Nat) : Prop :=
  (s.portFor b d).isSome = true ∧ s.pairHeld b d = false ∧ ∀ h ∈ s.relayHeld, h.part = b → h.device ≠ d

/-- What went out is a message of a type to the partition of device d that is paired with b, by the pair's port (R334, R397). -/
def Sys2Proof.Claims.messageTo (s t : State) (b d type : Nat) (m : RelayMsg) : Prop :=
  t.out = s.out ++ [.relay d (s.pairedPart b d) ((s.portFor b d).getD 0) (messageBytes type (usedBy type m))]

/-- A wlaunch's walks enter the intake once its wait is met (R237); the oldest entry takes the lowest free context, its
query read (R213, R316); an awaited node line fills its buffer (R224), and a walk that waits for a code line or for
an owner's copy goes on (R297, R319); a release that waited for room is performed (R329), or its sender told of the
room (R336); a wlaunch whose walks have all ended signals (R237); a busy peer is asked again (R336). The model's
choices it rests on: logs 19 and 73. -/
def Obligations.WalkEvents : Prop :=
  (∀ (s : State) (c : Nat) (w : WCmd),
    (s.core c).wcmds.find? (fun x => x.seq == w.seq && !x.entered) = some w → s.active c = true →
    (w.sync.thr = 0 ∨ w.sync.thr.toNat ≤ ((s.team w.team).sem w.sync.waitk.toNat).toNat) →
    ∃ t, exec (.wlaunchIntake c w.seq) s = .next t ∧ { t with cores := s.cores } = s ∧
      (∀ k, k ≠ c → t.core k = s.core k) ∧
      (t.core c).intake = (s.core c).intake ++
        w.queries.map (fun q => ⟨q.2, w.team, w.group, q.1, w.queue, w.seq, w.pid, w.prog, w.acq, none⟩) ∧
      ∀ x ∈ (t.core c).wcmds, x.seq = w.seq → x.entered = true) ∧
  (∀ (s : State) (c k pa at_ leaf size : Nat) (e : Intake) (rest : List Intake),
    (s.core c).intake = e :: rest → e.hosted = none → s.active c = true → c < 1024 →
    k < 64 → (s.walk (64 * c + k)).live = false → (∀ i < k, (s.walk (64 * c + i)).live = true) →
    s.translateVia (s.engineUnits c) (corePart c) (coreCtx c) e.query.toNat Need.read = .ok 0 pa at_ leaf size →
    (s.nodeHas (pa / 128) = true ∨ s.homeFree (.walk (64 * c + k)) (pa / 128) false = true) → s.memPoisoned pa 64 = false →
    ∃ t, exec (.walkStart c) s = .next t ∧ (t.core c).intake = rest ∧
      let x := t.walk (64 * c + k)
      x.live = true ∧ x.wait = .ready ∧ x.qb = s.readKeyed (keyOf (corePart c) leaf) pa 64 ∧ x.pc = e.prog.code ∧
        x.prog = e.prog ∧ x.stack = [] ∧ x.emits = [] ∧ x.lane = e.lane ∧ x.team = e.team ∧ x.queue = e.queue ∧
        (∀ r < 32, x.reg r = if r = 1 then e.query.toNat else 0) ∧ x.cp.pc = e.prog.code) ∧
  (∀ (s : State) (w : Nat) (n : BitVec 2) (addr : Addr) (bs : List Byte),
    (s.walk w).live = true → (s.walk w).wait = .node n addr → s.walkRead w addr.toNat 128 = .bytes bs →
    (∀ pa a l z, s.walkXlat w addr.toNat = .ok 0 pa a l z → s.nodeHas (pa / 128) = true) →
    bs.length = 128 → (s.walk w).inside ((s.walk w).pc.toNat + 4) = true →
    ∃ t, exec (.nodeLineArrival w) s = .next t ∧ (t.walk w).wait = .ready ∧ (t.walk w).pc = (s.walk w).pc + 4 ∧
      ∀ m < 4, (t.walk w).node m = if m = n.toNat then bs else (s.walk w).node m) ∧
  (∀ (s : State) (w line : Nat), (s.walk w).live = true →
    ((s.walk w).wait = .code line →
      (s.nodeHas line = true →
        exec (.nodeLineArrival w) s = .next (s.setWalk w { s.walk w with wait := .ready })) ∧
      (s.nodeCanAsk line = true →
        exec (.nodeLineArrival w) s =
          .next { s with nodeMiss := s.nodeMiss ++ [line], flight := s.flight ++ [.nodeCacheFill (corePart (w / 64)) line] })) ∧
    ((s.walk w).wait = .home line → s.homeFree (.walk w) line false = true →
      exec (.nodeLineArrival w) s = .next (s.setWalk w { s.walk w with wait := .ready }))) ∧
  (∀ (s : State) (w : Nat),
    let x := s.walk w
    x.live = true → s.active (w / 64) = true → s.queueRoom x.team x.queue x.emits.length = true →
    (x.wait = .room .next → x.hosted = none → x.inside (x.pc.toNat + 4) = true →
      ∃ t, exec (.walkRecordAppend w) s = .next t ∧ (t.walk w).wait = .ready ∧ (t.walk w).emits = [] ∧
        (t.walk w).pc = x.pc + 4 ∧ appended s t x.team x.queue x.emits) ∧
    (∀ d, x.wait = .away d → x.emits ≠ [] → pathOpen s (corePart (w / 64)) d →
      ∃ t, exec (.walkRecordAppend w) s = .next t ∧ (t.walk w).emits = [] ∧
        messageTo s t (corePart (w / 64)) d 5 (s.walkMsg w))) ∧
  (∀ (s : State) (c : Nat) (w : WCmd),
    (s.core c).wcmds.find? (fun x => x.seq == w.seq && x.entered && x.left == 0) = some w → s.active c = true →
    let old := ((s.team w.team).sem w.sync.sigk.toNat).toNat
    ∃ t, exec (.wlaunchSignal c w.seq) s = .next t ∧ (∀ x ∈ (t.core c).wcmds, x.seq ≠ w.seq) ∧
      (old + w.sync.inc.toNat ≤ 0xFFFF → t.mem = s.mem ∧
        ((t.team w.team).sem w.sync.sigk.toNat).toNat = old + w.sync.inc.toNat)) ∧
  (∀ (s : State) (w d until_ : Nat),
    let x := s.walk w
    x.live = true → x.wait = .busy d until_ → until_ ≤ s.now → s.active (w / 64) = true →
    pathOpen s (corePart (w / 64)) d →
    ∃ t, exec (.relayBusyRetry w) s = .next t ∧ t.walk w = { x with wait := .answer d } ∧
      messageTo s t (corePart (w / 64)) d 1 { s.walkMsg w with body := some x.cp })

/-- What an L1 does with a message for a line (R294, R295): its new state, and its answer to the home. -/
def Sys2Proof.Claims.l1After (s t : State) (c line : Nat) (st : Option L1State) (a : Option CohAnswer) : Prop :=
  t.l1State c line = st ∧ (∀ k, k ≠ line → t.l1State c k = s.l1State c k) ∧ t.mem = s.mem ∧ t.dir = s.dir ∧
    t.flight = s.flight ++ match a with
      | some x => [.homeAnswer c line x]
      | none => []

/-- The L1's transitions by state (R293, R294): fills end the waiting states, and the accesses that waited go on before
anything else; invalidations and recalls give the line up or make it shared and are answered, an eviction notice
under way answers that it crossed. Pushes (R295) are installed as P in a free way within the quota, and refused with
reason 1 to 4 beyond it, in a state of waiting, on a halted core, or where no way can be freed. The node cache takes
a filled line and gives an invalidated one up, and answers (R274, R292). The model's choices it rests on: logs 8, 9
and 76. -/
def Obligations.L1Events : Prop :=
  (∀ (s : State) (c line : Nat), c ≠ nodeAgent → s.memPoisoned (128 * line) 128 = false →
    s.l1Error c (128 * line) 128 = false →
    let st := s.l1State c line
    let crossed := st = some .ei ∨ st = some .mi
    let held := st = some .s ∨ st = some .p ∨ st = some .e ∨ st = some .m
    (∀ excl, ∃ t, exec (.l1Fill c line excl) s = .next t ∧
      l1After s t c line
        (if st = some .is_ then some (if excl then .e else .s)
         else if st = some .im ∨ st = some .sm then some .m else st) none ∧
      t.agenda = if st = some .is_ ∨ st = some .im ∨ st = some .sm then (s.waitingOn c).map Turn.group ++ s.agenda
        else s.agenda) ∧
    (∃ t, exec (.l1Inv c line) s = .next t ∧
      l1After s t c line (if held then none else if st = some .sm then some .im else st)
        (some (if crossed then .crossed else .clean))) ∧
    (∃ t, exec (.l1RecallI c line) s = .next t ∧
      l1After s t c line (if held then none else if st = some .sm then some .im else st)
        (some (if crossed then .crossed else if st = some .m then .data else .clean))) ∧
    (∃ t, exec (.l1RecallS c line) s = .next t ∧
      l1After s t c line (if st = some .e ∨ st = some .m then some .s else st)
        (some (if crossed then .crossed else if st = some .m then .data else .clean))) ∧
    (∃ t, exec (.l1EvictAnswer c line) s = .next t ∧ l1After s t c line (if crossed then none else st) none) ∧
    ∃ t, exec (.l1Push c line) s = .next t ∧
      ((st = some .s ∨ st = some .p) → l1After s t c line st (some .installed)) ∧
      (st ≠ none → st ≠ some .s → st ≠ some .p → l1After s t c line st (some (.refused 2))) ∧
      (st = none → (s.core c).halted = true → l1After s t c line none (some (.refused 3))) ∧
      (st = none → (s.core c).halted = false → (2 ≤ (s.core c).pushedIn line ∨ 256 ≤ (s.core c).pushed) →
        l1After s t c line none (some (.refused 1))) ∧
      (st = none → (s.core c).halted = false → (s.core c).pushedIn line < 2 → (s.core c).pushed < 256 →
        (((s.core c).ways line).length < 8 → l1After s t c line (some .p) (some .installed)) ∧
        (8 ≤ ((s.core c).ways line).length →
          (∀ e ∈ (s.core c).ways line, e.st ≠ .s ∧ e.st ≠ .e ∧ e.st ≠ .m) → l1After s t c line none (some (.refused 4))))) ∧
  (∀ (s : State) (line : Nat),
    (∀ excl, ∃ t, exec (.l1Fill nodeAgent line excl) s = .next t ∧ line ∈ t.nodeLines ∧ line ∉ t.nodeMiss ∧
      t.cores = s.cores ∧ t.mem = s.mem ∧ t.flight = s.flight) ∧
    ∃ t, exec (.l1Inv nodeAgent line) s = .next t ∧ t.nodeLines = s.nodeLines.filter (· != line) ∧ t.cores = s.cores ∧
      t.mem = s.mem ∧ t.flight = s.flight ++ [.homeAnswer nodeAgent line .clean])

/-- The directory entry of a line and what the home sent. -/
def Sys2Proof.Claims.homeAfter (s t : State) (line : Nat) (d : Dir) (msgs : List Instr) : Prop :=
  t.dirOf line = d ∧ (∀ k, k ≠ line → t.dirOf k = s.dirOf k) ∧ t.flight = s.flight ++ msgs ∧ t.cores = s.cores

/-- Local memory once the home has performed the access of a request: the bytes that another agent writes stand in it (R297), and
so does what a `red` makes of the word it names (R183, R273). -/
def Sys2Proof.Claims.performed (s t : State) (req : Instr) : Prop :=
  match req with
  | .homeWrite _ _ addr bytes => t.mem = if bytes = [] then s.mem else putAll s.mem [⟨addr, bytes⟩]
  | .nearDataOp _ op size addr ⟨operand, job⟩ =>
    let n := sizeBytes size
    (s.remote job.req).live = true → (t.remote job.req).live = false ∧
      t.mem = match atomicResult op size (leValue (s.readKeyed job.key addr n)) (operand.toNat % 2 ^ (8 * n)) 0 with
        | some v => putAll s.mem [⟨addr, leBytes n v⟩]
        | none => s.mem
  | _ => t.mem = s.mem

/-- The agents that a shared line's entry names: cores, and the node cache. -/
def Sys2Proof.Claims.holders (d : Dir) : List Nat := d.sharers ++ if d.node then [nodeAgent] else []

/-- The entry of a line of which no copy is left. -/
def Sys2Proof.Claims.noCopy (d : Dir) : Dir := { d with st := .i, sharers := [], node := false, owner := 0, busy := none }

/-- The home of a line that is not busy and for which its slice has a way (R296-R298): reads get a shared copy, the only one an
exclusive one; writes get the line exclusively once the other copies have gone; the node cache a copy beside the sharers; a bst
writes and pushes the line to its destinations; writes of other agents, and a `red`, take the copies back first and are then
performed, and for an access that its agent makes itself the home takes the copies back and holds the line for it. A slice without a
way takes a line back first (R270); what leaves the slice meanwhile changes nothing else unless it holds an error (R276). -/
def Sys2Proof.Claims.HomeRequests : Prop :=
  (∀ (s0 s : State) (c line : Nat), s0.l2Take line = some s → (s0.dirOf line).busy = none → (s0.dirOf line).waiting = [] →
    let d := s.dirOf line
    let others := (holders d).filter (· != c)
    let excl : Dir := { d with st := .e, sharers := [], node := false, owner := c, busy := none }
    ((∀ k, Poison.l2 k ∉ s0.poison) → { s with l2 := s0.l2, copies := s0.copies } = s0) ∧
    (∃ t, exec (.homeGets c line) s0 = .next t ∧ t.mem = s.mem ∧
      match d.st with
      | .i => homeAfter s t line excl [.l1Fill c line true]
      | .s => homeAfter s t line
          { d with st := .s, sharers := if c ∈ d.sharers then d.sharers else d.sharers ++ [c], owner := 0 }
          [.l1Fill c line false]
      | .e => homeAfter s t line { d with busy := some ([d.owner], .grant c false [d.owner]) } [.l1RecallS d.owner line]) ∧
    (∃ t, exec (.homeGetm c line) s0 = .next t ∧ t.mem = s.mem ∧
      match d.st with
      | .i => homeAfter s t line excl [.l1Fill c line true]
      | .s => homeAfter s t line (if others = [] then excl else { d with busy := some (others, .grant c true []) })
          (if others = [] then [.l1Fill c line true] else others.map fun k => .l1Inv k line)
      | .e => homeAfter s t line { d with busy := some ([d.owner], .grant c true []) } [.l1RecallI d.owner line]) ∧
    (∀ b, ∃ t, exec (.nodeCacheFill b line) s0 = .next t ∧ t.mem = s.mem ∧
      match d.st with
      | .i => homeAfter s t line { d with st := .s, sharers := [], node := true, owner := 0 } [.l1Fill nodeAgent line false]
      | .s => homeAfter s t line { d with st := .s, node := true, owner := 0 } [.l1Fill nodeAgent line false]
      | .e => homeAfter s t line { d with busy := some ([d.owner], .node [d.owner]) } [.l1RecallS d.owner line]) ∧
    (∀ dests job, dests ≠ [] → s.memPoisoned (128 * line) 128 = false → (d.st = .i ∨ d.st = .e) →
      (s.remote job.req).live = true → (∀ p ∈ job.puts, p.key = 0) →
      ∃ t, exec (.bstHomeWrite c line ⟨dests, job⟩) s0 = .next t ∧
        if d.st = .i then
          t.mem = putAll s.mem (job.puts.map fun p => ⟨p.pa, p.data⟩) ∧ (t.remote job.req).live = false ∧
          homeAfter s t line
            { d with st := .s, sharers := dests, node := false, owner := 0, busy := some (dests, .pushed c []) }
            (dests.map fun k => .l1Push k line)
        else t.mem = s.mem ∧
          homeAfter s t line { d with busy := some ([d.owner], .push c dests [] job) } [.l1RecallI d.owner line]) ∧
    (∀ dests job, d.st = .s →
      let gone := c :: (holders d).filter fun k => k != c && !dests.contains k
      ∃ t, exec (.bstHomeWrite c line ⟨dests, job⟩) s0 = .next t ∧ t.mem = s.mem ∧
        homeAfter s t line
          { d with busy := some (gone, .push c dests (d.sharers.filter fun k => k != c && dests.contains k) job) }
          (gone.map fun k => .l1Inv k line)) ∧
    (∀ (req : Instr) (a : AgentId) (part off : Nat), off < 128 →
      ((∃ bytes, bytes ≠ [] ∧ req = .homeWrite a part (128 * line + off) bytes) ∨
        ∃ op size v, req = .nearDataOp c op size (128 * line + off) v) →
      ∃ t, exec req s0 = .next t ∧
        match d.st with
        | .i => performed s t req ∧ homeAfter s t line (noCopy d) []
        | .s => if holders d = [] then performed s t req ∧ homeAfter s t line (noCopy d) []
            else t.mem = s.mem ∧ homeAfter s t line { d with busy := some (holders d, .perform req) }
              ((holders d).map fun k => .l1Inv k line)
        | .e => t.mem = s.mem ∧
          homeAfter s t line { d with busy := some ([d.owner], .perform req) } [.l1RecallI d.owner line]) ∧
    ∀ (a : AgentId) (part off n : Nat), off < 128 →
      (∃ t, exec (.homeWrite a part (128 * line + off) []) s0 = .next t ∧ t.mem = s.mem ∧
        match d.st with
        | .i => homeAfter s t line { noCopy d with busy := some ([], .held a true) } []
        | .s => if holders d = [] then homeAfter s t line { noCopy d with busy := some ([], .held a true) } []
            else homeAfter s t line { d with busy := some (holders d, .hold a true .i []) }
              ((holders d).map fun k => .l1Inv k line)
        | .e => homeAfter s t line { d with busy := some ([d.owner], .hold a true .i []) } [.l1RecallI d.owner line]) ∧
      ∃ t, exec (.homeRead a part (128 * line + off) n) s0 = .next t ∧ t.mem = s.mem ∧
        homeAfter s t line
          { d with busy := some (if d.st = .e then ([d.owner], .hold a false .s [d.owner]) else ([], .held a false)) }
          (if d.st = .e then [.l1RecallS d.owner line] else [])) ∧
  (∀ (s : State) (c line : Nat) (dirty : Bool),
    let d := s.dirOf line
    d.busy = none → d.waiting = [] → s.memPoisoned (128 * line) 128 = false → s.l1Error c (128 * line) 128 = false →
    ∃ t, exec (.homeEvictionNotice c line dirty) s = .next t ∧ t.mem = s.mem ∧
      homeAfter s t line (if d.st = .e ∧ d.owner = c then noCopy d else d) [.l1EvictAnswer c line]) ∧
  (∀ (s : State) (c line : Nat), (s.dirOf line).busy = none → (s.dirOf line).waiting = [] → s.l2Make line = none → s.l2Victims line ≠ [] →
    s.l2Evicting line = false →
    ∃ t, exec (.homeGets c line) s = .next t ∧ t.mem = s.mem ∧
      ∃ v ∈ s.l2Victims line,
        let e := s.dirOf v
        let from_ := if e.st = .e then [e.owner] else holders e
        from_ ≠ [] → t.dirOf v = { e with busy := some (from_, .evict) } ∧
          t.flight = .homeGets c line :: s.flight ++
            from_.map (fun k => if e.st = .e then .l1RecallI k v else .l1Inv k v))

/-- A request to a line that is busy or for which others wait waits behind them (R296). An answer that is not the last leaves the line busy; the last one makes the
grant, performs the access, holds the line for the agent that makes it, or lets the line leave its slice (R270, R297); the answer to a push counts at the destination's
counters, and once the last has come each is acknowledged to the sender, which clears the destination from its oldest baton of
the line (R298, R299, R301). A copy of a peer's line lasts 65,536 mesh cycles (R275). -/
def Sys2Proof.Claims.HomeAnswers : Prop :=
  (∀ (s : State) (c line : Nat) (req : Instr), ((s.dirOf line).busy ≠ none ∨ (s.dirOf line).waiting ≠ []) →
    (req = .homeGets c line ∨ req = .homeGetm c line ∨ req = .nodeCacheFill c line ∨
      (∃ p, req = .bstHomeWrite c line p) ∨ (∃ b, req = .homeEvictionNotice c line b) ∨
      (∃ a p off bs, off < 128 ∧ req = .homeWrite a p (128 * line + off) bs) ∨
      (∃ a p off n, off < 128 ∧ req = .homeRead a p (128 * line + off) n) ∨
      ∃ op z off v, off < 128 ∧ req = .nearDataOp c op z (128 * line + off) v) →
    ∃ t, exec req s = .next t ∧ t.mem = s.mem ∧
      homeAfter s t line { s.dirOf line with waiting := (s.dirOf line).waiting ++ [req] } []) ∧
  (∀ (s : State) (c line : Nat) (a : CohAnswer) (l : List Nat) (k : HomeThen),
    let d := s.dirOf line
    d.busy = some (l, k) → c ∈ l → (∀ u r, k ≠ .pushed u r) →
    (l.filter (· != c) ≠ [] → ∃ t, exec (.homeAnswer c line a) s = .next t ∧ t.mem = s.mem ∧
      homeAfter s t line { d with busy := some (l.filter (· != c), k) } []) ∧
    (l.filter (· != c) = [] → d.waiting = [] → ∃ t, exec (.homeAnswer c line a) s = .next t ∧
      (∀ core ex keep, k = .grant core ex keep → t.mem = s.mem ∧
        homeAfter s t line
          (if ex then { d with st := .e, sharers := [], node := false, owner := core, busy := none }
           else { d with st := .s, sharers := if core ∈ keep then keep else keep ++ [core], node := false, owner := 0,
                         busy := none })
          [.l1Fill core line ex]) ∧
      (∀ keep, k = .node keep → t.mem = s.mem ∧
        homeAfter s t line { d with st := .s, sharers := keep, node := true, owner := 0, busy := none }
          [.l1Fill nodeAgent line false]) ∧
      (∀ st keep node, k = .settle st keep node → t.mem = s.mem ∧
        homeAfter s t line { d with st := st, sharers := keep, node := node, owner := 0, busy := none } []) ∧
      (∀ req, k = .perform req → performed s t req ∧ homeAfter s t line (noCopy d) []) ∧
      (∀ g write st keep, k = .hold g write st keep → t.mem = s.mem ∧
        homeAfter s t line
          { d with st := st, sharers := keep, node := false, owner := 0, busy := some ([], .held g write) } []) ∧
      (k = .evict → (∀ j, Poison.l2 j ∈ s.poison → j / 4 ≠ line) → t.mem = s.mem ∧ line ∉ t.l2 ∧ homeAfter s t line (noCopy d) []))) ∧
  (∀ (s : State) (c line sender : Nat) (a : CohAnswer) (l : List Nat) (res : List (Nat × Nat)),
    let d := s.dirOf line
    let p := s.part (corePart c)
    let r := CohAnswer.reason a
    let all := res ++ [(c, r)]
    let keep := d.sharers.filter fun k => !(all.any fun e => e.1 == k && e.2 != 0)
    d.busy = some (l, .pushed sender res) → c ∈ l →
    ∃ t, exec (.homeAnswer c line a) s = .next t ∧ t.mem = s.mem ∧
      (l.filter (· != c) ≠ [] → homeAfter s t line { d with busy := some (l.filter (· != c), .pushed sender all) } []) ∧
      (l.filter (· != c) = [] → d.waiting = [] →
        homeAfter s t line
          { d with st := if keep = [] then .i else .s, sharers := keep, node := false, owner := 0, busy := none }
          (all.map fun e => .batonAck sender line e.1 e.2)) ∧
      (d.waiting = [] →
        ∀ i, Tbl.get 0 (t.part (corePart c)).pushins i =
            (if r = 0 ∧ i = coreIndex c then bump (Tbl.get 0 p.pushins i) else Tbl.get 0 p.pushins i) ∧
          Tbl.get 0 (t.part (corePart c)).pushref i =
            if r ≠ 0 ∧ i = coreIndex c then bump (Tbl.get 0 p.pushref i) else Tbl.get 0 p.pushref i)) ∧
  (∀ (s : State) (c line dest reason : Nat) (l r : List Baton) (b : Baton),
    (s.core c).batons = l ++ b :: r → (∀ x ∈ l, x.line ≠ line ∨ dest ∉ x.pending) → b.line = line → dest ∈ b.pending →
    ∃ t, exec (.batonAck c line dest reason) s = .next t ∧ { t with cores := s.cores } = s ∧
      (t.core c).batons = l ++ (if b.pending.filter (· != dest) = [] then []
        else [{ b with pending := b.pending.filter (· != dest) }]) ++ r) ∧
  (∀ (s : State) (line : Nat) (x : HomeCopy), Tbl.find s.copies line = some x →
    65536 * s.mgmt.coreClk ≤ (s.now - x.filled) * s.mgmt.meshClk →
    ∃ t, exec (.peerCopyExpiry line) s = .next t ∧ { t with copies := s.copies } = s ∧ Tbl.find t.copies line = none ∧
      ∀ k, k ≠ line → Tbl.find t.copies k = Tbl.find s.copies k)
/-! ### Faults, translations, swaps and launches (R98, R114, R243-R256, R346-R350, R354-R357, R364) -/

/-- A mailbox slot in plaintext local memory. -/
def Sys2Proof.Claims.plainSlot (s : State) (m : Mail) (p : MailAt) : Prop :=
  s.slotAt m = some p ∧ p.key = 0 ∧ s.keyTag = []

/-- A fault message first takes its ticket, counting the mailbox's tail up, then stands in its slot: its ticket, state 1 with the
kind, level and reason, and its body; supervisor groups of the context in halt wake (R114, R346, R347). A reply in state 2
clears word 0x04 and acts: 1 repeats the access, 2 fails it, anything else is a grid machine check of source 5 (R348, R352). -/
def Sys2Proof.Claims.MailboxEvents : Prop :=
  (∀ (s : State) (req : Nat) (p : MailAt),
    let m := s.mail req
    let n := leValue (readBytes s.mem p.pa 4)
    m.live = true → m.posted = false → m.reserved = false → s.runsCtx m.part m.ctx = true →
    s.mailAddr m.part m.ctx m.box = some p → p.key = 0 → s.keyTag = [] → s.homeFree (.mail req) (p.pa / 128) true = true →
    ∃ t, exec (.mailboxSlotWrite req) s = .next t ∧ t.mail req = { m with reserved := true, ticket := n } ∧
      readBytes t.mem p.pa 4 = leBytes 4 ((n + 1) % 2 ^ 32) ∧ t.flight = s.flight ++ [.mailboxSlotWrite req]) ∧
  (∀ (s : State) (req : Nat) (p : MailAt),
    let m := s.mail req
    m.live = true → m.posted = false → m.reserved = true → s.runsCtx m.part m.ctx = true → plainSlot s m p →
    s.homeFree (.mail req) (p.pa / 128) true = true →
    s.mailRead p 4 1 = 0 → s.mailRead p 0 4 = (m.ticket + 2 ^ 32 - 2 ^ m.size) % 2 ^ 32 →
    ∃ t, exec (.mailboxSlotWrite req) s = .next t ∧
      readBytes t.mem p.pa 4 = leBytes 4 m.ticket ∧
      readBytes t.mem (p.pa + 4) 4 = leBytes 4 (1 + 2 ^ 8 * m.kind + 2 ^ 24 * m.level + 2 ^ 27 * m.reason) ∧
      readBytes t.mem (p.pa + 8) 8 = leBytes 8 m.address.toNat ∧
      readBytes t.mem (p.pa + 16) 4 = leBytes 4 m.access.toNat ∧
      readBytes t.mem (p.pa + 20) 4 = leBytes 4 m.grid.toNat ∧
      readBytes t.mem (p.pa + 24) 4 = leBytes 4 m.team.toNat ∧
      readBytes t.mem (p.pa + 28) 4 = leBytes 4 m.wher.toNat ∧
      readBytes t.mem (p.pa + 32) 8 = leBytes 8 m.pc.toNat ∧
      readBytes t.mem (p.pa + 40) 8 = leBytes 8 m.entry.toNat ∧
      readBytes t.mem (p.pa + 48) 4 = leBytes 4 m.seqno.toNat ∧
      (if m.who = .notice then (t.mail req).live = false else t.mail req = { m with posted := true }) ∧
      ∀ g q, (s.group g).live = true → (s.group g).sup = true → (s.team (s.group g).team).part = m.part →
        coreCtx (s.team (s.group g).team).core = m.ctx → q ∈ (s.group g).parked → q.why = .halt →
        (q.path.mask ≠ 0 → q.path ∈ (t.group g).run :: (t.group g).ready) ∧ q ∉ (t.group g).parked) ∧
  (∀ (s : State) (req : Nat) (p : MailAt),
    let m := s.mail req
    m.live = true → m.posted = true → s.runsCtx m.part m.ctx = true → plainSlot s m p → s.mailRead p 4 1 = 2 →
    s.homeFree (.mail req) (p.pa / 128) true = true →
    let reply := s.mailRead p 6 1
    ∃ t, exec (.pagerReply req) s = .next t ∧ (t.mail req).live = false ∧
      (reply = 1 → readBytes t.mem (p.pa + 4) 4 = [0, 0, 0, 0]) ∧
      (∀ g k lane q, m.who = .path g k lane → (s.group g).live = true → q ∈ (s.group g).parked → q.why = .mail req →
        q.path.mask ≠ 0 → (reply = 1 ∨ reply = 2) →
        ∃ x ∈ (t.group g).run :: (t.group g).ready, x.id = q.path.id ∧ x.pc = q.path.pc ∧ x.mask = q.path.mask ∧
          if reply = 1 then x.failed = none
          else ∃ f, x.failed = some f ∧ f.cause = 0x10 ∧ f.tval = m.access.toNat % 2 ^ 20 ∧ f.taddr = m.address.toNat) ∧
      (∀ g, s.mailGrid m req = some g → (s.grid g).live = true → reply ≠ 1 → reply ≠ 2 →
        (s.part (s.grid g).part).mcstat = 0 →
        (t.part (s.grid g).part).mcstat.toNat % 256 = 5))

/-- Where the tables put a write of the partition that is checked again (R189, R364). -/
def Sys2Proof.Claims.againAt (s : State) (b : Nat) (x : Remote) : Xlat :=
  s.translate b (s.part b).live x.va.toNat (againNeed x.atomic.isSome x.tval)

/-- The tables still put a write at its place. -/
def Sys2Proof.Claims.staysAt (s : State) (b : Nat) (x : Remote) : Prop :=
  ∃ a l z, againAt s b x = .ok x.loc x.addr a l z

/-- The tables no longer permit a write. -/
def Sys2Proof.Claims.barred (s : State) (b : Nat) (x : Remote) : Prop :=
  ∀ loc pa a l z, againAt s b x ≠ .ok loc pa a l z

/-- The deferred fault of a discarded write of group g is held: it, or one of an address no higher (R189). -/
def Sys2Proof.Claims.faultHeld (t : State) (g : Nat) (x : Remote) : Prop :=
  ∃ d, (t.group g).deferred = some d ∧ d.addr.toNat ≤ x.va.toNat

/-- A tlbinv value that names a request enters the queue of 16 and counts in tlbreq, any other is discarded; once the accesses
through what it names are performed, those of an instruction under way too, a request counts in tlbdone, and no unit of the live
context holds an entry that it names; writes that have not left their groups, and a `red` on its way to its home, are checked again:
each stays, goes where its page lies now, or becomes a deferred fault (R189, R344, R364). -/
def Sys2Proof.Claims.InvalidationEvents : Prop :=
  (∀ (s : State) (b : Nat) (v : DWord),
    let n := v.toNat
    let legal : Prop := n / 2 ^ 48 = 0 ∧ n / 2 ^ 5 % 2 ^ 12 = 0 ∧ n / 4 % 2 = 0 ∧ n / 8 % 4 ≠ 3 ∧ n % 4 < 2
    (¬ legal → exec (.tlbinvWrite b v) s = .next s) ∧
    (legal → (s.part b).tlbq.length < 16 →
      ∃ t, exec (.tlbinvWrite b v) s = .next t ∧ { t with parts := s.parts } = s ∧
        t.part b = { s.part b with tlbreq := (s.part b).tlbreq + 1, tlbq := (s.part b).tlbq ++ [v] })) ∧
  (∀ (s : State) (b : Nat) (v : DWord) (r : List DWord), (s.part b).tlbq = v :: r →
    (s.tlbinvOpen b v = [] → s.tlbinvWaits b v = false →
      ∃ t, exec (.tlbinvComplete b) s = .next t ∧ (t.part b).tlbq = r ∧ (t.part b).tlbdone = (s.part b).tlbdone + 1 ∧
        ∀ u ∈ s.unitsOf b (s.part b).live, ∀ e ∈ t.tlbs, e.1 = u → ∀ x ∈ e.2, tlbinvNames v x = false) ∧
    ((∃ e ∈ s.tlbinvOpen b v, (e.2.away && e.2.loc == 2 && e.2.write.isSome) = false) ∨ s.tlbinvOpen b v = [] ∧
        (∃ e ∈ s.groups, e.2.live = true ∧ (s.team e.2.team).part = b ∧
          ∃ l ∈ e.2.run.under, s.tlbinvReaches b v l.va = true) →
      exec (.tlbinvComplete b) s = .fault .notEnabled)) ∧
  (∀ (s : State) (b : Nat) (v : DWord) (r : List DWord),
    (s.part b).tlbq = v :: r → s.tlbinvWaits b v = false → (s.remotes.map Prod.fst).Nodup →
    (∀ i ∈ s.flight, jobOf i = none) →
    (∀ e ∈ s.remotes, e.2.live = true ∧ e.2.part = b ∧ e.2.loc ≠ 0 ∧ e.2.sent = false ∧ 2 ^ 16 ≤ e.2.tval.toNat ∧
      s.tlbinvReaches b v e.2.va.toNat = true ∧ s.markLeaf (againAt s b e.2) true = s ∧
      (∃ g, e.2.who = .store g ∧ (s.group g).live = true) ∧ (staysAt s b e.2 ∨ barred s b e.2)) →
    ∃ t, exec (.tlbinvComplete b) s = .next t ∧ t.mem = s.mem ∧ t.flight = s.flight ∧
      (∀ e, e ∈ t.remotes ↔ e ∈ s.remotes ∧ staysAt s b e.2) ∧
      (∀ e ∈ s.remotes, barred s b e.2 → ∀ g, e.2.who = .store g → faultHeld t g e.2) ∧
      ∀ g d, (t.group g).deferred = some d → (s.group g).deferred = some d ∨
        ∃ e ∈ s.remotes, barred s b e.2 ∧ e.2.who = .store g ∧ d = ⟨e.2.va, e.2.tval⟩) ∧
  (∀ (s : State) (b g req loc pa a l z : Nat) (v : DWord) (r : List DWord) (x : Remote) (bs : List Byte),
    (s.part b).tlbq = v :: r → s.tlbinvWaits b v = false → s.remotes = [(req, x)] → (∀ i ∈ s.flight, jobOf i = none) →
    x.live = true → x.part = b → x.who = .store g → x.loc ≠ 0 → x.sent = false → x.write = some bs → x.atomic = none →
    s.tlbinvReaches b v x.va.toNat = true → (s.group g).live = true → againAt s b x = .ok loc pa a l z →
    s.markLeaf (againAt s b x) true = s → (loc ≠ x.loc ∨ pa ≠ x.addr) →
    ∃ t, exec (.tlbinvComplete b) s = .next t ∧
      (loc = 0 → t.flight = s.flight ++ [.bstHomeWrite (s.team (s.group g).team).core (pa / 128)
        ⟨[], ⟨req, 0, [⟨x.va.toNat, pa, keyOf b l, bs⟩]⟩⟩]) ∧
      (loc ≠ 0 → s.reachable b loc pa = true → t.flight = s.flight ∧ ∃ y, t.remotes = [(req, y)] ∧
        y.who = x.who ∧ y.loc = loc ∧ y.addr = pa ∧ y.n = bs.length ∧ y.write = some bs ∧ y.sent = false) ∧
      (loc ≠ 0 → s.reachable b loc pa = false → t.remotes = [] ∧ faultHeld t g x)) ∧
  (∀ (s : State) (b g c : Nat) (op : AtomOp) (size : Size) (addr : Nat) (operand : DWord) (j : HomeJob) (v : DWord)
      (r : List DWord) (x : Remote) (pre post : List Instr),
    (s.part b).tlbq = v :: r → s.tlbinvWaits b v = false →
    s.flight = pre ++ .nearDataOp c op size addr ⟨operand, j⟩ :: post → (∀ i ∈ pre ++ post, jobOf i = none) →
    s.remotes = [(j.req, x)] → x.live = true → x.part = b → x.who = .store g → x.loc = 0 →
    s.tlbinvReaches b v x.va.toNat = true → (s.group g).live = true →
    let place := s.translate b (s.part b).live x.va.toNat (againNeed true x.tval)
    ((∃ a l z, place = .ok 0 addr a l z) →
      ∃ t, exec (.tlbinvComplete b) s = .next t ∧ t.remotes = s.remotes ∧ t.flight = s.flight) ∧
    ((∀ loc pa a l z, place ≠ .ok loc pa a l z) →
      ∃ t, exec (.tlbinvComplete b) s = .next t ∧ t.remotes = [] ∧ t.flight = pre ++ post ∧ faultHeld t g x))

/-- A swap of the contexts (R355): a request on an assigned partition without one starts it; each group stops at an
instruction boundary once its stores and pushes are complete, its running path behind the ready ones (R94, R257),
and its core takes no pushes from its last group's stop on (R302); with nothing outstanding the context is saved,
its copies to be issued again (R210); the other one becomes live, its groups running again, a message of a path that
has no ticket yet gone, or its saved state holds an uncorrectable error and the partition takes a machine check of
source 2 (R276, R352, R354, R357). The model's choice it rests on: log 53. -/
def Obligations.SwapEvents : Prop :=
  (∀ (s : State) (b : Nat) (v : Word),
    ∃ t, exec (.ctxctlSwapRequest b v) s = .next t ∧ { t with parts := s.parts } = s ∧
      t.part b = if v.getLsbD 8 = true ∧ (s.part b).swap = none ∧ (s.part b).pastat = 2
        then { s.part b with swap := some 1 } else s.part b) ∧
  (∀ (s : State) (g : Nat),
    let t0 := s.team (s.group g).team
    (s.group g).live = true → (s.group g).halted = false → (s.part t0.part).pastat = 2 →
    (s.part t0.part).swap = some 2 → (s.part t0.part).live = coreCtx t0.core →
    (∀ x ∈ (s.core t0.core).batons, x.group ≠ g) → (∀ e ∈ s.remotes, e.2.live = true → e.2.who ≠ .store g) →
    ((s.group g).run.issued ≠ none → exec (.groupSwapStop g) s = .fault .notEnabled) ∧
    ((s.group g).run.issued = none → ∃ t, exec (.groupSwapStop g) s = .next t ∧ (t.group g).halted = true ∧
      ((s.group g).run.mask ≠ 0 →
        (t.group g).run :: (t.group g).ready = (s.group g).ready ++ [(s.group g).run.rested]) ∧
      { t with groups := s.groups, cores := s.cores } = s ∧ (∀ h, h ≠ g → t.group h = s.group h) ∧
      ((∀ e ∈ t.groups, e.2.live = true → (t.team e.2.team).core = t0.core → e.2.halted = true) →
        (t.core t0.core).halted = true))) ∧
  (∀ (s : State) (b : Nat), (s.part b).pastat = 2 →
    ((s.part b).swap = some 1 →
      ∃ t, exec (.swapCoresHalted b) s = .next t ∧ (t.part b).swap = some 2 ∧ t.mem = s.mem) ∧
    ((s.part b).swap = some 2 → (∀ e ∈ s.ctxGroups b (s.part b).live, e.2.halted = true) →
      ∃ t, exec (.swapCoresHalted b) s = .next t ∧ (t.part b).swap = some 3 ∧
        { t with parts := s.parts, cores := s.cores } = s ∧
        ∀ c ∈ bandCores b (s.part b).live, (t.core c).halted = true) ∧
    ((s.part b).swap = some 3 → s.swapQuiet b (s.part b).live = true → s.partPosts b = false →
      ∃ t, exec (.swapCoresHalted b) s = .next t ∧ (t.part b).swap = some 4 ∧
        ∀ c ∈ bandCores b (s.part b).live, ∀ x ∈ (t.core c).copyQ, x.moved = 0 ∧ x.served = [])) ∧
  (∀ (s : State) (b : Nat), (s.part b).pastat = 2 → (s.part b).swap = some 4 → (s.part b).live < 2 →
    s.asked (.boot b) = false →
    let new := 1 - (s.part b).live
    (.shadow (2 * b + new) ∈ s.poison → (s.part b).mcstat = 0 →
      ∃ t, exec (.swapExchangeDone b) s = .next t ∧ (t.part b).pastat = 3 ∧ (t.part b).mcstat.toNat % 2 ^ 8 = 2) ∧
    (.shadow (2 * b + new) ∉ s.poison → (s.ctx (2 * b + new)).hasRun = true →
      ∃ t, exec (.swapExchangeDone b) s = .next t ∧ (t.part b).live = new ∧ (t.part b).swap = none ∧
        t.mem = s.mem ∧ (∀ e ∈ s.ctxGroups b new, (t.group e.1).halted = false) ∧
        ∀ req, (s.mail req).live = true → (s.mail req).reserved = false → (s.mail req).part = b → (s.mail req).ctx = new →
          (∃ g k l, (s.mail req).who = .path g k l) → (t.mail req).live = false ∧ .mailboxSlotWrite req ∉ t.flight))

/-- lqtail and lqctl (R243, R244): a tail beyond the queue's size stops it with error 1, a size outside 1 to 16 with error 2;
the tail of a disabled queue sets its head; disabling clears its status and forgets a record read. -/
def Sys2Proof.Claims.QueueRegisters : Prop :=
  ∀ (s : State) (b n : Nat) (v : Word),
    let q := s.queue b n
    let on := q.ctl.getLsbD 8
    let waiting (h : Word) : Nat := (v - h).toNat
    ((s.part b).pastat = 2 →
      ∃ t, exec (.lqtailWrite b n v) s = .next t ∧ (∀ k, k ≠ n → t.queue b k = s.queue b k) ∧
        t.queue b n =
          if on = false then { q with tail := v, head := v }
          else if q.stat.getLsbD 8 = false ∧ 2 ^ (q.ctl.toNat % 32) < waiting q.head then
            { q with tail := v, stat := 0x101 }
          else { q with tail := v }) ∧
    ((s.part b).pastat ≠ 2 → exec (.lqtailWrite b n v) s = .next s) ∧
    ∃ t, exec (.lqctlWrite b n v) s = .next t ∧ { t with parts := s.parts, remotes := s.remotes } = s ∧
      t.remotes.length = s.remotes.length ∧
      let size := if on then q.ctl &&& 0x1F else v &&& 0x1F
      let ctl := (v &&& 0x3100) ||| size
      (v.getLsbD 8 = false → t.queue b n = { q with ctl := ctl, stat := 0, served := [] } ∧
        ∀ e ∈ t.remotes, e.2.who ≠ .queue b n) ∧
      (v.getLsbD 8 = true → (size.toNat < 1 ∨ 16 < size.toNat) → t.queue b n = { q with ctl := ctl, stat := 0x102 }) ∧
      (v.getLsbD 8 = true → 1 ≤ size.toNat → size.toNat ≤ 16 →
        t.queue b n =
          if q.stat.getLsbD 8 = false ∧ 2 ^ size.toNat < (q.tail - q.head).toNat then { q with ctl := ctl, stat := 0x101 }
          else { q with ctl := ctl })

/-- A record at the turn of a queue or of the device intake becomes a live grid with an identifier that no live grid of the
partition has, at most the queue's priority, and the next age (R244, R247); its checks end it or make it wait or eligible
(R246, R248). -/
def Sys2Proof.Claims.LaunchEvents : Prop :=
  (∀ (s : State) (b k : Nat),
    let ctx := (s.part b).live
    let turn := (s.ctx (2 * b + ctx)).turn
    s.runsCtx b ctx = true → s.liveGrids b < 64 →
    ((List.range 9).map fun i => (turn + i) % 9).find? (s.turnReady b) = some k →
    let made (t : State) (r : List DWord) (cap : Nat) : Prop :=
      let g := t.grid s.nextId
      g.live = true ∧ g.st = .accepted ∧ g.part = b ∧ g.ctx = ctx ∧ g.rec_ = r ∧ g.prio = min (recPrio r) cap ∧
        g.age = (s.part b).nextAge ∧ (∀ e ∈ s.grids, e.2.live = true → e.2.part = b → e.2.id ≠ g.id) ∧
        (t.ctx (2 * b + ctx)).turn = (k + 1) % 9
    (∀ bs, k < 8 → (s.headRead b k).r = .bytes bs →
      ∃ t, exec (.dispatcherTurn b) s = .next t ∧ made t (dwordsOf bs 8) ((s.queue b k).ctl.toNat / 2 ^ 12 % 4) ∧
        (t.queue b k).head = (s.queue b k).head + 1) ∧
    (k < 8 → ((s.headRead b k).r = .bad ∨ (s.headRead b k).r = .noPath) →
      ∃ t, exec (.dispatcherTurn b) s = .next t ∧ (t.queue b k).stat = 0x103 ∧
        ∀ i, (t.grid i).live = (s.grid i).live) ∧
    (∀ r cap rest, k = 8 → (s.ctx (2 * b + ctx)).intake = (r, cap) :: rest →
      ∃ t, exec (.dispatcherTurn b) s = .next t ∧ made t r cap ∧ (t.ctx (2 * b + ctx)).intake = rest)) ∧
  (∀ (s : State) (gid : Nat),
    let g := s.grid gid
    g.live = true → g.st = .accepted → s.runsCtx g.part g.ctx = true → s.asked (.grid gid) = false →
    (∀ w, g.recordBad false = some w → s.dispStuck (.grid gid) g.part (s.descRead gid) = false →
      ∃ t, exec (.launchRecordCheck gid) s = .next t ∧ t.grid gid = { g with st := .ending 3 w }) ∧
    (∀ bs, g.recordBad false = none → (s.descRead gid).r = .bytes bs → g.waitAt = 0 →
      g.signalAt = 0 →
      let desc := dwordsOf bs 16
      ∃ t, exec (.launchRecordCheck gid) s = .next t ∧
        match descBad desc with
        | some w => (t.grid gid).st = .ending 1 w
        | none =>
          if g.teams % (Desc.of desc).cores ≠ 0 then (t.grid gid).st = .ending 3 4
          else if trialFits (Desc.of desc) (s.part g.part).pgcfg g.part g.ctx g.teams = false then
            (t.grid gid).st = .ending 2 0
          else (t.grid gid).st = .eligible ∧ (t.grid gid).desc = desc)) ∧
  (∀ (s : State) (gid : Nat) (bs : List Byte) (pa at_ leaf size : Nat),
    let g := s.grid gid
    s.mayRead gid = true →
    s.counterRead gid = ⟨[(g.waitAt, .ok 0 pa at_ leaf size)], .bytes bs⟩ →
    let seen (t : State) : Prop :=
      if g.waitFor ≤ leValue bs then (t.grid gid).st = .eligible
      else (t.grid gid).st = .waiting ∧ (t.grid gid).sector = some (pa / 32) ∧ (t.grid gid).polled = s.now
    (g.hit = true → ∃ t, exec (.gridCounterRead gid) s = .next t ∧ seen t) ∧
    ∃ t, exec (.gridCounterPoll gid) s = .next t ∧ seen t)

/-- The state in which a group starts (R29): the registers 0, or under .uninit the v registers marked, the launch arguments'
address in s0:s1, the predicates false, the windows as declared, every lane at precision 39 and rounding mode 0, and nothing
parked, armed or pending. -/
def Sys2Proof.Claims.groupStarts (x : Desc) (args : DWord) (n : Nat) (r : Group) : Prop :=
  r.live = true ∧ r.num = n ∧ r.run.pc = BitVec.ofNat 48 x.entry ∧ r.run.mask = 0xFFFFFFFF ∧ r.ready = [] ∧ r.parked = [] ∧
    r.handler = none ∧ r.nv = x.nv ∧ r.ns = x.ns ∧ r.nw = x.nw ∧ r.ssp = x.d + (n + 1) * x.t ∧ r.xb = 0 ∧
    (∀ k, r.sreg k = if k = 0 then args.setWidth 32 else if k = 1 then (args >>> 32).setWidth 32 else 0) ∧
    (∀ k, k ≠ 0 → r.pred k = 0) ∧ (∀ k, r.conv k = ⟨0, false⟩) ∧
    (∀ l, r.precOf l = 39 ∧ r.roundOf l = 0 ∧ r.sticky l = 0) ∧
    (∀ k < 32, r.xwin k = ⟨winBase (nthD 0 x.wins k), winExt (nthD 0 x.wins k)⟩) ∧
    (x.uninit = false → (∀ k l, r.vreg k l = 0) ∧ ∀ w l, r.winWord w l = 0) ∧
    (x.uninit = true → ∀ k < x.nv, ∀ l < 32, r.vreg k l = 0x7FB5B5B5 ∧ r.vTagged k l = true) ∧
    r.tcause = 0 ∧ r.tval = 0 ∧ r.tpc = 0 ∧ r.taddr = 0 ∧ r.wtimeout = 0 ∧ r.reports = [] ∧ r.deferred = none ∧
    r.monitor = none

/-- The first grid in order of priority and age whose next cluster fits starts it (R252, R253), those before it that do not fit
passed over; a waiting co-resident grid starts with every cluster or keeps all behind it waiting. One team to a core with its
grid's next indices, its semaphores, trap enables, %tvec and %wspill 0, its data area 0 in every byte, its completion queues
empty, and each of its groups in its initial state (R29, R255). -/
def Sys2Proof.Claims.DispatchStart : Prop :=
  (∀ (s : State) (b gid : Nat) (g : Grid) (pre rest : List (Nat × Grid)) (q : Pool) (c : PlacedCluster),
    let ctx := (s.part b).live
    let x := Desc.of g.desc
    s.runsCtx b ctx = true → s.dispatchOrder b ctx = pre ++ (gid, g) :: rest → s.grid gid = g →
    (∀ e ∈ pre, ((Desc.of e.2.desc).coresident = false ∨ e.2.placed ≠ 0) ∧
      (s.pool b ctx).placeCluster (Desc.of e.2.desc) (s.part b).pgcfg b ctx = none) →
    (x.coresident = false ∨ g.placed ≠ 0) → (s.pool b ctx).placeCluster x (s.part b).pgcfg b ctx = some (q, c) →
    ∃ t, exec (.dispatchStep b) s = .next t ∧ (t.grid gid).placed = g.placed + c.teams.length ∧ t.mem = s.mem ∧
      ∀ i, ∀ p : Nat × Placed, c.teams[i]? = some p → ∃ k,
        let u := t.team k
        u.live = true ∧ u.core = p.1 ∧ u.grid = gid ∧ u.index = g.placed + i ∧ u.base = p.2.base ∧ u.d = x.d ∧
          u.nsem = x.sems ∧ u.groups.length = p.2.groups.length ∧ (∀ n, u.sem n = 0) ∧ u.enables = 0 ∧ u.tvec = 0 ∧
          u.wspill = 0 ∧ (∀ n, (u.cq n).held = 0 ∧ (u.cq n).chunks = []) ∧
          (∀ a, u.base ≤ a → a < u.base + x.d → Tbl.get 0 (t.core u.core).scr a = 0) ∧
          ∀ n, ∀ h, u.groups[n]? = some h →
            (t.group h).team = k ∧ (t.group h).sup = false ∧ (t.group h).lastAcq = s.now ∧
              groupStarts x (nthD 0 g.rec_ 1) n (t.group h)) ∧
  (∀ (s : State) (b gid : Nat) (g : Grid) (rest : List (Nat × Grid)),
    let ctx := (s.part b).live
    let x := Desc.of g.desc
    s.runsCtx b ctx = true → s.dispatchOrder b ctx = (gid, g) :: rest → s.grid gid = g → x.coresident = true →
    g.placed = 0 →
    match (s.pool b ctx).placeAll x (s.part b).pgcfg b ctx (g.teams / x.cores) with
    | none => exec (.dispatchStep b) s = .fault .notEnabled
    | some l =>
      ∃ t, exec (.dispatchStep b) s = .next t ∧ (t.grid gid).placed = (l.map fun c => c.teams.length).sum ∧ t.mem = s.mem)

/-- A team without a group, a command or a walk left retires and gives its resources back, the walks it hosts going home
(R98, R256, R336). A grid whose teams have all retired, its writes performed, stores its status word and adds to its signal
counter, and its place is free (R249). -/
def Sys2Proof.Claims.GridEnd : Prop :=
  (∀ (s : State) (u : Nat),
    let x := s.team u
    x.live = true → s.liveGroups u = [] → s.settles x.part (coreCtx x.core) = true → s.teamBusy u = false →
    ∃ t, exec (.teamRetire u) s = .next t ∧ (t.team u).live = false ∧
      (t.grid x.grid).retired = (s.grid x.grid).retired + 1 ∧
      (t.part x.part).cqfree = (s.part x.part).cqfree + x.chunks ∧ t.mem = s.mem ∧ t.groups = s.groups ∧
      (∀ n, ∀ r, Tbl.find (t.core x.core).rings n = some r → r.team = u → r.bound = false) ∧
      ∀ w ∈ s.hostedBy u, match (s.walk w).wait with
        | .released a false => (t.walk w).wait = .goHome a
        | .goHome a => (t.walk w).wait = .goHome a
        | _ => (t.walk w).live = false) ∧
  (∀ (s : State) (gid st d pa at_ leaf size : Nat),
    let g := s.grid gid
    s.gridOutcome gid = some (st, d) → g.st ≠ .signalling → s.settles g.part g.ctx = true → s.gridQuiet gid = true →
    s.gridPosts gid = false → s.homeHeld (.grid gid) (s.endLines gid) true = none → s.keyTag = [] → keyOf g.part leaf = 0 →
    (g.signalAt = 0 → g.statusAt ≠ 0 → g.statusAt % 8 = 0 → g.statusAt < 2 ^ 48 →
      s.dispXlate g.part g.ctx g.statusAt Need.write = .ok 0 pa at_ leaf size →
      ∃ t, exec (.gridEnd gid) s = .next t ∧ (t.grid gid).live = false ∧
        readBytes t.mem pa 8 = leBytes 8 (st + 2 ^ 8 * d + 2 ^ 32 * g.tag.toNat) ∧
        (∀ a, a < pa ∨ pa + 8 ≤ a → a < at_ ∨ at_ + 8 ≤ a → Memory.read t.mem a = Memory.read s.mem a) ∧
        ∀ u ∈ s.allTeams gid, (t.team u).live = false) ∧
    (g.statusAt = 0 → g.signalAt ≠ 0 → g.signalAt % 8 = 0 → g.signalAt < 2 ^ 48 → g.noSignal = false →
      s.signalXlate gid = .ok 0 pa at_ leaf size → s.memPoisoned pa 8 = false →
      ∃ t, exec (.gridEnd gid) s = .next t ∧ (t.grid gid).live = false ∧
        leValue (readBytes t.mem pa 8) = (leValue (readBytes s.mem pa 8) + 1) % 2 ^ 64 ∧
        ∀ u ∈ s.allTeams gid, (t.team u).live = false))
/-! ### Image ingress (R366-R379) -/

/-- What a ring does with a line of its stream (R373-R375): a line that needs more slots than the ring has, or than are
free, sets its flag and is charged as a drop; else it takes its slots, in order, the semaphore rises by their number, and
nothing outside those slots is written. A line of one slot stands there with its header and its pixels. -/
def Sys2Proof.Claims.lineDelivered (s t : State) (port : Nat) (e : Stream) (x : Line) : Prop :=
  let r := (s.core e.core).ring e.ring
  let q := max 1 (ceilDiv x.pixels ((1024 * r.size - 64) / 2))
  let dropped : Ring :=
    { r with
      dropped := if r.dropped < 2 ^ 32 - 1 then r.dropped + 1 else r.dropped
      gap := if r.gap < 0xFFFF then r.gap + 1 else r.gap
      skipped := r.skipped + BitVec.ofNat 16 q }
  let r' := (t.core e.core).ring e.ring
  let k := ((s.team r.team).sem r.sem).toNat + q
  let base := (s.team r.team).base + r.base
  let slot := base + r.produce % r.slots * (1024 * r.size)
  let w := if x.format = 0 then 8 else if x.format = 1 then 10 else if x.format = 2 then 12 else 16
  t.mem = s.mem ∧ (∀ c n, (c ≠ e.core ∨ n ≠ e.ring) → (t.core c).ring n = (s.core c).ring n) ∧
    (r.slots < q → r' = { dropped with tooLong := true } ∧ t.teams = s.teams ∧ (t.core e.core).scr = (s.core e.core).scr) ∧
    (q ≤ r.slots → r.slots - r.filled < q →
      r' = { dropped with overflow := true } ∧ t.teams = s.teams ∧ (t.core e.core).scr = (s.core e.core).scr) ∧
    (q ≤ r.slots → q ≤ r.slots - r.filled →
      r' = { r with
        produce := (r.produce + q) % r.slots, filled := r.filled + q, gap := 0, semSat := r.semSat || decide (0xFFFF < k) } ∧
        (t.team r.team).sem r.sem = BitVec.ofNat 16 (min k 0xFFFF) ∧
        (∀ a,
          (∀ i < q, a < base + (r.produce + i) % r.slots * (1024 * r.size) ∨
            base + (r.produce + i) % r.slots * (1024 * r.size) + max 64 (1024 * r.size) ≤ a) →
          Tbl.get 0 (t.core e.core).scr a = Tbl.get 0 (s.core e.core).scr a) ∧
        (x.pixels ≤ (1024 * r.size - 64) / 2 → x.stamp.length = 8 →
          (t.core e.core).scrBytes slot 24 =
            leBytes 4 x.frame ++ leBytes 4 (x.number + 2 ^ 16 * x.format) ++ leBytes 4 (x.pixels + 2 ^ 16 * x.pixels) ++
              leBytes 4 (r.gap + 2 ^ 16 * x.stream + 2 ^ 22 * port) ++ x.stamp ∧
            ∀ i < x.pixels,
              (t.core e.core).scrBytes (slot + 64 + 2 * i) 2 = leBytes 2 (x.payload / 2 ^ (i * w) % 2 ^ w)))

/-- A received line frame (R369, R374, R377). A port that is off ignores it; a bad frame counts in igcrc; a line whose ring
does not take it in igstale. With no held line due, a line of a live ring is delivered and one of another context is held,
or dropped and counted in ighold. -/
def Sys2Proof.Claims.LineFrames : Prop :=
  ∀ (s : State) (port : Nat) (frame : List Byte) (fec : Bool),
    let n := frame.length
    let body := frame.take (n - 4)
    let x := Line.of body
    let p := s.port port
    let e := s.stream port x.stream
    let r := (s.core e.core).ring e.ring
    let w := if x.format = 0 then 8 else if x.format = 1 then 10 else if x.format = 2 then 12 else 16
    let bad : Prop := fec = true ∨ n < 28 ∨ (crc32 body).toNat ≠ wordAt frame (n - 4) ∨ wordAt frame 0 % 2 ^ 16 ≠ 0x0101 ∨
      wordAt frame 0 / 2 ^ 22 % 4 ≠ 0 ∨ wordAt frame 8 / 2 ^ 18 ≠ 0 ∨ wordAt frame 12 / 2 ^ 16 ≠ 0 ∨
      n ≠ 28 + (x.pixels * w + 7) / 8
    let takes : Prop := e.on = true ∧ r.bound = true ∧ r.epoch = x.epoch
    let live : Prop := (s.part (corePart e.core)).live = coreCtx e.core ∧
      ((s.part (corePart e.core)).swap = none ∨ (s.part (corePart e.core)).swap = some 1)
    let on : Prop := p.ctl.getLsbD 0 = true ∧ p.link = true
    (¬ on → exec (.ingressLineFrame port frame fec) s = .next s) ∧
      (on → bad → ∃ t, exec (.ingressLineFrame port frame fec) s = .next t ∧ { t with ports := s.ports } = s ∧
        t.port port = { p with crc := bump p.crc }) ∧
      (on → ¬ bad → (∀ h ∈ p.held, s.heldReady h = false) →
        ∃ t, exec (.ingressLineFrame port frame fec) s = .next t ∧
          { t with ports := s.ports, cores := s.cores, teams := s.teams, groups := s.groups, poison := s.poison } = s ∧
          (¬ takes → t.port port = { p with stale := bump p.stale } ∧ t.cores = s.cores) ∧
          (takes → ¬ live → t.cores = s.cores ∧
            t.port port =
              if p.heldBytes + body.length ≤ 2 ^ 20 then
                { p with held := p.held ++ [⟨body, s.strmOf port x.stream, false⟩] }
              else { p with held := p.held ++ [⟨body, s.strmOf port x.stream, true⟩], hold := bump p.hold }) ∧
          (takes → live → t.port port = p ∧ lineDelivered s t port e x))

/-- A flow-control frame is dropped and counted (R369); a held line whose context is live again is delivered, or charged to
its ring, or counted as stale (R377); the link and the codeword counters follow what the port sees (R366, R368). -/
def Sys2Proof.Claims.PortEvents : Prop :=
  (∀ (s : State) (port : Nat) (frame : List Byte),
    ∃ t, exec (.ingressFcFrame port frame) s = .next t ∧ { t with ports := s.ports } = s ∧
      t.port port =
        if (s.port port).ctl.getLsbD 0 = true ∧ (s.port port).link = true
        then { s.port port with crc := bump (s.port port).crc } else s.port port) ∧
  (∀ (s : State) (port : Nat) (l r : List Held) (h : Held),
    (s.port port).held = l ++ h :: r → (∀ y ∈ l, s.heldReady y = false) → h ∉ l → s.heldReady h = true →
    let e := Stream.of h.entry
    let x := Line.of h.frame
    let ring := (s.core e.core).ring e.ring
    let q := max 1 (ceilDiv x.pixels ((1024 * ring.size - 64) / 2))
    ∃ t, exec (.heldLineDelivery port) s = .next t ∧ (t.port port).held = l ++ r ∧ t.mem = s.mem ∧
      if e.on = true ∧ ring.bound = true ∧ ring.epoch = x.epoch then
        t.port port = { s.port port with held := l ++ r } ∧
          if h.dropped = true then
            t.teams = s.teams ∧ (t.core e.core).ring e.ring =
              { ring with
                dropped := if ring.dropped < 2 ^ 32 - 1 then ring.dropped + 1 else ring.dropped
                gap := if ring.gap < 0xFFFF then ring.gap + 1 else ring.gap
                skipped := ring.skipped + BitVec.ofNat 16 q }
          else lineDelivered s t port e x
      else t.cores = s.cores ∧ t.port port = { s.port port with held := l ++ r, stale := bump (s.port port).stale }) ∧
  (∀ (s : State) (port : Nat) (lock : BitVec 4) (aligned : Bool),
    ∃ t, exec (.ingressLinkChange port lock aligned) s = .next t ∧ { t with ports := s.ports } = s ∧
      t.port port = { s.port port with lock := lock, link := lock == 15 && aligned }) ∧
  (∀ (s : State) (port : Nat) (cor unc : Bool),
    let up (on : Bool) (w : DWord) : DWord := if on = true ∧ w ≠ BitVec.allOnes 64 then w + 1 else w
    ∃ t, exec (.ingressFecCodeword port cor unc) s = .next t ∧ { t with ports := s.ports } = s ∧
      t.port port = { s.port port with
        cw := up true (s.port port).cw, cwcor := up cor (s.port port).cwcor, cwunc := up unc (s.port port).cwunc }) ∧
  (∀ (s : State) (c ring : Nat) (q : Parked) (g : Nat), ((s.core c).ring ring).unbinding = true →
    ∃ t, exec (.ringUnbindComplete c ring) s = .next t ∧
      { t with cores := s.cores, groups := s.groups } = s ∧
      (t.core c).ring ring = { (s.core c).ring ring with bound := false, unbinding := false } ∧
      (t.core c).scr = (s.core c).scr ∧
      (g ∈ (s.team ((s.core c).ring ring).team).groups → q ∈ (s.group g).parked → q.why = .unbind ring → woken t g q))

/-- An enabled port sends one flow-control frame for up to sixteen enabled streams: type 2, version 1, the number of
entries, for each bound ring its slots, size, epoch, stream and limit, and the CRC (R371, R375). -/
def Sys2Proof.Claims.FlowControl : Prop :=
  ∀ (s : State) (port : Nat),
    let on := (List.range 64).filter fun n => (s.stream port n).on
    (s.port port).ctl.getLsbD 0 = true → on ≠ [] → on.length ≤ 16 →
    ∃ (t : State) (es : List (List Byte)), exec (.flowControlSend port) s = .next t ∧ es.length = on.length ∧
      (let body : List Byte := leBytes 4 (0x0102 + 2 ^ 16 * on.length) ++ es.flatten
       t = { s with out := s.out ++ [.frame port (body ++ leBytes 4 (crc32 body).toNat)] }) ∧
      ∀ i n : Nat, on[i]? = some n →
        let r := (s.core (s.stream port n).core).ring (s.stream port n).ring
        r.bound = true →
          es[i]? = some (leBytes 8 (2 ^ 40 * (r.slots - 1) + 2 ^ 32 * (r.size - 1) + 2 ^ 24 * r.epoch + 2 ^ 16 * n +
            (r.slots + r.freed.toNat + r.skipped.toNat) % 2 ^ 16))
/-! ### Partitions, firmware, power (R401-R418) -/

/-- A partition as a command leaves it: both contexts hold nothing (R353, R402). -/
def Sys2Proof.Claims.emptied (s t : State) (b : Nat) : Prop :=
  (∀ e ∈ t.groups, (s.team e.2.team).part ≠ b) ∧ (∀ e ∈ t.teams, e.2.part ≠ b) ∧
    (∀ c, corePart c = b → t.core c = Core.none) ∧ (∀ e ∈ t.grids, e.2.part ≠ b) ∧
    ∀ e ∈ t.walks, corePart (e.1 / 64) ≠ b

/-- The range of a confidential partition reads as 0 afterwards and no byte outside it changed; the memory of any other
stays (R402). -/
def Sys2Proof.Claims.scrubbed (s t : State) (b : Nat) : Prop :=
  ∀ a, Memory.read t.mem a =
    if s.confidential b = true ∧ s.partBase b ≤ a ∧ a < s.partBase b + s.partSize b then 0 else Memory.read s.mem a

/-- fwmr k was extended with D, and no other measurement changed (R409). -/
def Sys2Proof.Claims.measured (s t : State) (k : Nat) (d : List Byte) : Prop :=
  ∀ j, Tbl.get 0 t.mgmt.fwmr j =
    if j = k then BitVec.ofNat 256 (leValue (sha256 (leBytes 32 (Tbl.get 0 s.mgmt.fwmr k).toNat ++ d)))
    else Tbl.get 0 s.mgmt.fwmr j

/-- A partition command failed: pastat [15:8] holds the error and nothing else changed (R402). -/
def Sys2Proof.Claims.commandFailed (s t : State) (b e : Nat) : Prop :=
  { t with parts := s.parts } = s ∧ (∀ c, c ≠ b → t.part c = s.part c) ∧
    { t.part b with served := (s.part b).served } = { s.part b with paerr := e }

/-- The partition is assigned and its pager grid runs, at priority 3, with a record and a descriptor (R402). -/
def Sys2Proof.Claims.pagerRuns (s t : State) (b : Nat) (r d : List DWord) : Prop :=
  (t.part b).pastat = 2 ∧ (t.part b).paerr = 0 ∧
    (t.part b).pgcfg = BitVec.ofNat 32
      (2 ^ 8 + 4 * b + if (s.part b).pacfg.toNat / 256 % 4 = 2 then 2 ^ 24 + 2 ^ 16 * (4 * b + 3) else 0) ∧
    (t.grid s.nextId).live = true ∧ (t.grid s.nextId).pager = true ∧ (t.grid s.nextId).prio = 3 ∧
    (t.grid s.nextId).rec_ = r ∧ (t.grid s.nextId).desc = d

/-- Assignment of a partition (R401, R402, R409): from another state error 7; a range outside memory or meeting another
partition's error 1, a pool that is zero or not smaller than the range 2, confidential without a key or a bound stream 3,
three pager cores 6, a pager record beyond the fitted memory 4. Without pager cores the partition is assigned, empty,
scrubbed when confidential, its counters 0, its tables' bases kept, and measured. With them the pager grid starts at
priority 3. -/
def Sys2Proof.Claims.PartitionAssigned : Prop :=
  ∀ (s : State) (b : Nat), s.mgmt.fwstate = 4 → s.asked (.boot b) = false →
    let p := s.part b
    let fitted := 128 * 2 ^ 30
    let hi := s.partBase b + s.partSize b
    let outside : Prop := fitted < hi ∨
      ∃ c < 4, c ≠ b ∧ (s.part c).pastat ≠ 0 ∧ s.partBase b < s.partBase c + s.partSize c ∧ s.partBase c < hi
    let pool : Prop := p.papool.toNat % 65536 = 0 ∨ s.partSize b ≤ p.papool.toNat % 65536 * 4096
    let keyless : Prop := p.pacfg.getLsbD 0 = true ∧ (p.key = none ∨ Tbl.get false s.mgmt.ide (p.pacfg.toNat / 16 % 4) = false)
    let pagers := p.pacfg.toNat / 256 % 4
    (p.pastat ≠ 0 → ∃ t, exec (.partitionAssign b) s = .next t ∧ commandFailed s t b 7) ∧
    (p.pastat = 0 →
      (outside → ∃ t, exec (.partitionAssign b) s = .next t ∧ commandFailed s t b 1) ∧
      (¬ outside → pool → ∃ t, exec (.partitionAssign b) s = .next t ∧ commandFailed s t b 2) ∧
      (¬ outside → ¬ pool → keyless → ∃ t, exec (.partitionAssign b) s = .next t ∧ commandFailed s t b 3) ∧
      (¬ outside → ¬ pool → ¬ keyless →
        (pagers = 3 → ∃ t, exec (.partitionAssign b) s = .next t ∧ commandFailed s t b 6) ∧
        (pagers = 1 ∨ pagers = 2 → fitted < p.paimg.toNat + 64 →
          ∃ t, exec (.partitionAssign b) s = .next t ∧ commandFailed s t b 4) ∧
        (pagers = 0 → ∃ t, exec (.partitionAssign b) s = .next t ∧ emptied s t b ∧ scrubbed s t b ∧
          measured s t (4 + b) (leBytes 4 p.pacfg.toNat ++ leBytes 4 p.pamem.toNat ++ leBytes 4 p.papool.toNat) ∧
          (∀ c, c ≠ b → t.part c = s.part c) ∧
          let q := t.part b
          q.pastat = 2 ∧ q.paerr = 0 ∧ q.live = 0 ∧ q.swap = none ∧ q.pgcfg = 0 ∧ q.mccount = 0 ∧ q.pushref = [] ∧
            q.pushins = [] ∧ q.cqfree = p.papool.toNat % 65536 ∧ q.ptbase0 = p.ptbase0 ∧ q.ptbase1 = p.ptbase1 ∧
            q.queues = p.queues ∧ q.key = p.key) ∧
        (pagers = 1 ∨ pagers = 2 → ((s.assignBase b).bootRead b 0).r = .bad →
          ∃ t, exec (.partitionAssign b) s = .next t ∧ commandFailed s t b 4) ∧
        (∀ r d, pagers = 1 ∨ pagers = 2 → ((s.assignBase b).bootRead b 0).r = .ok r d →
          ∃ t, exec (.partitionAssign b) s = .next t ∧ pagerRuns s t b r d)))

/-- Firmware has begun to end a partition for a command (R402): every grid of it ends with LAUNCH_ABORTED, its groups issue nothing
more, what its intakes held for peers has gone home, and the command goes on later; memory stands. -/
def Sys2Proof.Claims.closes (s t : State) (b : Nat) (cmd : Instr) : Prop :=
  (t.part b).closing = true ∧ (t.part b).swap = none ∧ t.mem = s.mem ∧ t.flight.getLast? = some cmd ∧
    (∀ c, corePart c = b → ∀ e ∈ (t.core c).intake, e.hosted = none) ∧
    ∀ g ∈ s.gridsAll b, (s.grid g).live = true → (t.grid g).live = true ∧ (t.grid g).st = .ending 5 0 ∧
      ∀ u ∈ s.teamsOf g, ∀ h ∈ (s.team u).groups, (t.group h).live = false

/-- Release and reset (R402, R409): from a state in which they are not legal error 7, a release beside a live grid that is
no pager error 5. Firmware first ends the grids under R249 and sends the hosted walks home; once none is left, a release empties the
contexts, clears both table bases and the key, disables the queues, measures 0xFFFFFFFF and leaves the partition unassigned; a reset
keeps the bases and ends assigned, its pager started, or stopped with error 4 when its pager record lies beyond the fitted memory. -/
def Sys2Proof.Claims.PartitionEnded : Prop :=
  ∀ (s : State) (b : Nat), s.mgmt.fwstate = 4 →
    let p := s.part b
    let pagers := p.pacfg.toNat / 256 % 4
    let off (t : State) : Prop := ∀ n, (t.queue b n).enabled = false ∧ (t.queue b n).stat = 0
    (p.closing = false → p.pastat ≠ 2 → ∃ t, exec (.partitionRelease b) s = .next t ∧ commandFailed s t b 7) ∧
    (p.closing = false → p.pastat = 2 → (∃ g ∈ s.gridsAll b, (s.grid g).pager = false) →
      ∃ t, exec (.partitionRelease b) s = .next t ∧ commandFailed s t b 5) ∧
    (p.closing = false → p.pastat = 2 → (∀ g ∈ s.gridsAll b, (s.grid g).pager = true) →
      ∃ t, exec (.partitionRelease b) s = .next t ∧ closes s t b (.partitionRelease b)) ∧
    (p.pastat = 0 → s.asked (.boot b) = false →
      ∃ t, exec (.partitionReset b) s = .next t ∧ commandFailed s t b 7) ∧
    (p.closing = false → p.pastat ≠ 0 → s.asked (.boot b) = false →
      ∃ t, exec (.partitionReset b) s = .next t ∧ closes s t b (.partitionReset b)) ∧
    (p.closing = true → (s.gridsAll b ≠ [] ∨ ∃ e ∈ s.walks, e.2.live = true ∧ e.2.hosted ≠ none ∧ corePart (e.1 / 64) = b) →
      exec (.partitionRelease b) s = .fault .notEnabled ∧
        (p.pastat ≠ 0 → exec (.partitionReset b) s = .fault .notEnabled)) ∧
    (p.closing = true → s.gridsAll b = [] →
      (∀ e ∈ s.walks, e.2.live = true → corePart (e.1 / 64) = b → e.2.hosted = none) →
      (∃ t, exec (.partitionRelease b) s = .next t ∧ emptied s t b ∧ scrubbed s t b ∧
        measured s t (4 + b) [0xFF, 0xFF, 0xFF, 0xFF] ∧ (∀ c, c ≠ b → t.part c = s.part c) ∧ off t ∧
        (t.part b).pastat = 0 ∧ (t.part b).paerr = 0 ∧ (t.part b).ptbase0 = 0 ∧ (t.part b).ptbase1 = 0 ∧
        (t.part b).key = none ∧ (t.part b).closing = false) ∧
      (p.pastat ≠ 0 → s.asked (.boot b) = false →
        (pagers = 0 →
          ∃ t, exec (.partitionReset b) s = .next t ∧ emptied s t b ∧ scrubbed s t b ∧ off t ∧
            (∀ c, c ≠ b → t.part c = s.part c) ∧ (t.part b).pastat = 2 ∧ (t.part b).paerr = 0 ∧
            (t.part b).ptbase0 = p.ptbase0 ∧ (t.part b).ptbase1 = p.ptbase1 ∧ (t.part b).live = 0 ∧
            (t.part b).swap = none ∧ (t.part b).key = p.key ∧ (t.part b).closing = false) ∧
        (pagers ≠ 0 → 128 * 2 ^ 30 < p.paimg.toNat + 64 →
          ∃ t, exec (.partitionReset b) s = .next t ∧ emptied s t b ∧ scrubbed s t b ∧ off t ∧ (t.part b).pastat = 3 ∧
            (t.part b).paerr = 4 ∧ (t.part b).ptbase0 = p.ptbase0 ∧ (t.part b).ptbase1 = p.ptbase1) ∧
        ∀ r d, pagers = 1 ∨ pagers = 2 → ((s.resetBase b).bootRead b 0).r = .ok r d →
          ∃ t, exec (.partitionReset b) s = .next t ∧ pagerRuns s t b r d ∧ off t))

/-- The first check of R406 that an image fails, and none for an image that may run. -/
def Sys2Proof.Claims.verdict (svn : Half) (b : List Byte) (e : Option Nat) : Prop :=
  let word (off : Nat) : Nat := leValue ((b.drop off).take 4)
  let section_ (s : Nat) : List Byte := (b.drop (word (0x10 + 8 * s))).take (word (0x14 + 8 * s))
  let zero (off n : Nat) : Prop := ∀ x ∈ (b.drop off).take n, x = 0
  let shape : Prop := 512 ≤ b.length ∧ b.length ≤ 2 ^ 24 ∧ word 0 = 0x4957465A ∧ word 4 = 1 ∧
    word 8 / 2 ^ 16 % 2 ^ 15 = 0 ∧ zero 0x30 208 ∧ zero 0x160 96 ∧ zero 0x1FC 4 ∧
    (∀ s < 4, word (0x10 + 8 * s) + word (0x14 + 8 * s) ≤ b.length) ∧
    (Config.boardSense = none → 100 ≤ Config.packageLimit (section_ 2) ∧ Config.packageLimit (section_ 2) ≤ 550)
  let key := (b.drop 0x1C0).take 60
  let known : Prop := sha256 key = Config.rootKeyHash
  let signed : Prop := hssVerify key (section_ 3) (b.take 512) = true
  let recent : Prop := svn.toNat ≤ leValue ((b.drop 8).take 2)
  let whole : Prop := ∀ s < 3, sha256 (section_ s) = (b.drop (0x100 + 32 * s)).take 32
  (e = some 2 ∧ ¬ shape) ∨ (e = some 3 ∧ shape ∧ ¬ known) ∨ (e = some 4 ∧ shape ∧ known ∧ ¬ signed) ∨
    (e = some 5 ∧ shape ∧ known ∧ signed ∧ ¬ recent) ∨ (e = some 6 ∧ shape ∧ known ∧ signed ∧ recent ∧ ¬ whole) ∨
    (e = none ∧ shape ∧ known ∧ signed ∧ recent ∧ whole)

/-- A verified image runs stage 1: state 3, its version in fwstat, and fwmr 1 to 3 extended (R406, R407). -/
def Sys2Proof.Claims.imageRuns (s t : State) (b : List Byte) : Prop :=
  let word (off : Nat) : Nat := leValue ((b.drop off).take 4)
  let section_ (k : Nat) : List Byte := (b.drop (word (0x10 + 8 * k))).take (word (0x14 + 8 * k))
  let ext (k : Nat) (d : List Byte) : BitVec 256 :=
    BitVec.ofNat 256 (leValue (sha256 (leBytes 32 (Tbl.get 0 s.mgmt.fwmr k).toNat ++ d)))
  t.mgmt.fwstate = 3 ∧ t.mgmt.flash = some b ∧ t.mgmt.image = some b ∧ t.mgmt.fwver.toNat = word 12 % 2 ^ 16 ∧
    ∀ k, Tbl.get 0 t.mgmt.fwmr k =
      if k = 1 then ext 1 (b.take 512) else if k = 2 then ext 2 (section_ 0)
      else if k = 3 then ext 3 (section_ 1 ++ section_ 2) else Tbl.get 0 s.mgmt.fwmr k

/-- Verification of the flash image, and of a recovery image from host memory, which is first written to flash, once verified,
and then boots; images are stored to flash in the ready state without running (R405-R408). A write of flash that did not end
leaves bytes there that fail verification. -/
def Sys2Proof.Claims.ImageCommands : Prop :=
  (∀ (s : State), s.mgmt.fwstate = 1 → s.mgmt.fwcmd = 0 →
    exec (.firmwareVerify none) s = .next { s with mgmt := { s.mgmt with fwstate := 2, fwerr := 1 } } ∧
    ∀ (b : List Byte) (e : Option Nat), verdict s.mgmt.fwsvn b e →
      let torn : Prop := s.mgmt.flashTorn = true
      (torn → e = none → exec (.firmwareVerify (some b)) s = .fault .notEnabled) ∧
      ((torn ∧ e ≠ none) ∨ (¬ torn ∧ (s.mgmt.flash = none ∨ s.mgmt.flash = some b)) →
        ∃ t, exec (.firmwareVerify (some b)) s = .next t ∧ { t with mgmt := s.mgmt } = s ∧
          match e with
          | some n => t.mgmt = { s.mgmt with fwstate := 2, fwerr := n }
          | none => imageRuns s t b)) ∧
  (∀ (s : State) (b : List Byte) (e : Option Nat),
    let m := s.mgmt
    let len := m.fwreclen.toNat
    let legal : Prop := 4096 ≤ len ∧ len ≤ 2 ^ 24 ∧ len % 4096 = 0
    let begun : State := { s with mgmt := { m with flashing := some b, flashTorn := true } }
    (m.fwcmd = 1 → m.flashing = none →
      exec (.fwLoadAndBoot none) s =
        .next { s with mgmt := { m with fwcmd := 0, fwresult := 7, fwstate := 2, fwerr := 7 } } ∧
      (b.length = len →
        (¬ legal → exec (.fwLoadAndBoot (some b)) s =
          .next { s with mgmt := { m with fwcmd := 0, fwresult := 2, fwstate := 2, fwerr := 2 } }) ∧
        (legal → verdict m.fwsvn b e → exec (.fwLoadAndBoot (some b)) s = .next (match e with
          | some n => { s with mgmt := { m with fwcmd := 0, fwresult := n, fwstate := 2, fwerr := n } }
          | none => begun)))) ∧
    (m.fwcmd = 1 → m.flashing = some b →
      ∃ t, exec (.fwLoadAndBoot (some b)) s = .next t ∧ { t with mgmt := s.mgmt } = s ∧ imageRuns s t b ∧
        t.mgmt.fwcmd = 0 ∧ t.mgmt.fwresult = 0 ∧ t.mgmt.flashing = none ∧ t.mgmt.flashTorn = false) ∧
    (m.fwcmd = 2 → m.flashing = none →
      exec (.fwStoreToFlash none) s = .next { s with mgmt := { m with fwcmd := 0, fwresult := 7 } } ∧
      (b.length = len →
        (¬ legal → exec (.fwStoreToFlash (some b)) s = .next { s with mgmt := { m with fwcmd := 0, fwresult := 2 } }) ∧
        (legal → verdict m.fwsvn b e → exec (.fwStoreToFlash (some b)) s = .next (match e with
          | some n => { s with mgmt := { m with fwcmd := 0, fwresult := n } }
          | none => begun)))) ∧
    (m.fwcmd = 2 → m.flashing = some b →
      exec (.fwStoreToFlash (some b)) s = .next { s with mgmt :=
        { m with flash := some b, flashing := none, flashTorn := false, fwcmd := 0, fwresult := 0 } }))

/-- Stage 1 (R407, R413, R417): fusemap holds the fuses; failed training, self-test and board power fail start-up with
errors 8, 9 and 10; else the device is ready, its limits those of the sense code, and fwsvn only rises. -/
def Sys2Proof.Claims.StageOne : Prop :=
  ∀ (s : State) (training selfTest : Bool), s.mgmt.fwstate = 3 →
    let failed (e : Nat) : State :=
      { s with mgmt := { s.mgmt with fusemap := Config.siteFuses, fwstate := 5, fwerr := e } }
    let tested : Prop := training = true ∧ selfTest = true
    (training = false → exec (.stage1Init training selfTest) s = .next (failed 8)) ∧
    (training = true → selfTest = false → exec (.stage1Init training selfTest) s = .next (failed 9)) ∧
    (∀ w, tested → Config.boardSense = some w → w ≠ 600 → w ≠ 450 → w ≠ 300 →
      exec (.stage1Init training selfTest) s = .next (failed 10)) ∧
    (tested → (Config.boardSense = none ∨ ∃ w, Config.boardSense = some w ∧ (w = 600 ∨ w = 450 ∨ w = 300)) →
      ∃ t, exec (.stage1Init training selfTest) s = .next t ∧ { t with mgmt := s.mgmt } = s ∧ t.mgmt.fwstate = 4 ∧
        t.mgmt.fusemap = Config.siteFuses ∧ s.mgmt.fwsvn.toNat ≤ t.mgmt.fwsvn.toNat ∧
        (∀ w, Config.boardSense = some w → t.mgmt.pwrlim = BitVec.ofNat 32 (2 ^ 16 * w + (w - 50))) ∧
        ∀ b, s.mgmt.image = some b →
          let svn := leValue ((b.drop 8).take 2)
          t.mgmt.fwsvn.toNat =
            if (leValue ((b.drop 8).take 4)).testBit 31 = true ∧ s.mgmt.fwsvn.toNat < svn then svn else s.mgmt.fwsvn.toNat)

/-- A message in spdmbuf was answered: the response stands there, its length in spdmctl, and busy is clear (R404, R410). -/
def Sys2Proof.Claims.answeredWith (m n : Mgmt) (resp : List Byte) : Prop :=
  n = { m with spdmbuf := spliceBytes m.spdmbuf 0 resp, spdmctl := BitVec.ofNat 32 resp.length, keyReply := none }

/-- Keys are installed, generated and erased as a request of a secured session asks, which is answered then, and only while the
partition is unassigned; an installed and a generated key have 64 bytes and unequal halves (R412). -/
def Sys2Proof.Claims.PartitionKeys : Prop :=
  ∀ (s : State) (b : Nat) (key : List Byte) (i : Instr),
    let p := s.part b
    (i = .keyInstall b key ∨ i = .keyGenerate b ∨ i = .keyErase b) →
    (s.mgmt.keyReply = none → exec i s = .fault .notEnabled) ∧
    ∀ resp, s.mgmt.keyReply = some resp →
      (p.pastat ≠ 0 → ∃ t, exec i s = .next t ∧ { t with mgmt := s.mgmt } = s ∧ answeredWith s.mgmt t.mgmt resp) ∧
      (p.pastat = 0 →
        (i = .keyInstall b key → (key.length ≠ 64 ∨ key.take 32 = key.drop 32) →
          ∃ t, exec i s = .next t ∧ { t with mgmt := s.mgmt } = s ∧ answeredWith s.mgmt t.mgmt resp) ∧
        (i = .keyInstall b key → key.length = 64 → key.take 32 ≠ key.drop 32 →
          ∃ t, exec i s = .next t ∧ { t with parts := s.parts, mgmt := s.mgmt } = s ∧ answeredWith s.mgmt t.mgmt resp ∧
            t.part b = { p with key := some key, keyGen := false }) ∧
        (i = .keyErase b →
          ∃ t, exec i s = .next t ∧ { t with parts := s.parts, mgmt := s.mgmt } = s ∧ answeredWith s.mgmt t.mgmt resp ∧
            t.part b = { p with key := none, keyGen := false }) ∧
        (i = .keyGenerate b →
          ∃ t k, exec i s = .next t ∧ { t with parts := s.parts, tick := s.tick, mgmt := s.mgmt } = s ∧
            answeredWith s.mgmt t.mgmt resp ∧ t.part b = { p with key := some k, keyGen := true } ∧ k.length = 64 ∧
            k.take 32 ≠ k.drop 32))

/-- A message in spdmbuf outside a session is answered there, its length in spdmctl and busy cleared: a request that asks for
one measurement gets fwmr m in block m + 1, the digest of the one certificate chain is its SHA-256, an offer of SHA-256 and of HSS is
taken up, a signature takes a leaf index, and none is signed, but an ERROR answered, once they are spent (R410, R411). A key operation
is asked for in a session only; its request is held, and spdmctl busy, until the operation (R412). -/
def Sys2Proof.Claims.SpdmRequests : Prop :=
  (∀ (s : State), s.mgmt.spdmctl.getLsbD 31 = true →
    (s.mgmt.keyReply ≠ none → exec .spdmRequest s = .fault .notEnabled) ∧
    (s.mgmt.keyReply = none → ∃ t, exec .spdmRequest s = .next t ∧
      (t.mgmt.keyReply = none → t.flight = s.flight ∧ t.mgmt.spdmctl.toNat ≤ 2048) ∧
      (t.mgmt.keyReply ≠ none → s.mgmt.session = 2 ∧ t.mgmt.spdmctl = s.mgmt.spdmctl ∧ t.mgmt.spdmbuf = s.mgmt.spdmbuf ∧
        ∃ b < 4, ∃ i, t.flight = s.flight ++ [i] ∧ (i = .keyGenerate b ∨ i = .keyErase b ∨ ∃ key, i = .keyInstall b key)))) ∧
  ∀ (s : State), s.mgmt.spdmctl.getLsbD 31 = true → s.mgmt.keyReply = none → s.mgmt.session = 0 →
    s.mgmt.spdmbuf.length = 2048 →
    let m := s.mgmt
    let req := m.spdmbuf.take (m.spdmctl.toNat % 2 ^ 12)
    let code := spdmCode req
    ∃ t, exec .spdmRequest s = .next t ∧ { t with mgmt := s.mgmt, tick := s.tick } = s ∧
      t.mgmt.spdmctl.getLsbD 31 = false ∧ t.mgmt.spdmctl.toNat ≤ 2048 ∧ t.mgmt.spdmbuf.length = 2048 ∧
      t.mgmt.fwmr = m.fwmr ∧
      (code ≠ 0x85 → code ≠ 0x86 →
        (let a := (m.spdmAnswer s.tick false req).2
         (a.length ≤ 2048 → t.mgmt.spdmctl.toNat = a.length ∧ t.mgmt.spdmbuf.take a.length = a) ∧
         (2048 < a.length → t.mgmt.largeOut = a ∧ t.mgmt.chunkOut = 0) ∧
         (code = 0x81 → a = [0x13, 0x01, 1, 1] ++ sha256 certificateChain) ∧
         (code = 0xE3 → (spdmByte req 12 % 2 = 1 → (a.drop 16).take 4 = [1, 0, 0, 0]) ∧
           (offersHss req = true → (a.drop 32).take 8 = [1, 0, 0, 0] ++ hssAlgorithm)) ∧
         (spdmSigned req = true → spdmInvalid req = false → 2 ^ 40 ≤ m.leaf → a.take 2 = [0x13, 0x7F]) ∧
         ∀ i < 8, code = 0xE0 → spdmByte req 2 % 2 = 0 → spdmByte req 3 = i + 1 →
           (a.drop 8).take 39 = [BitVec.ofNat 8 (i + 1), 1] ++ leBytes 2 35 ++ [Config.measurementType i] ++ leBytes 2 32 ++
             leBytes 32 (Tbl.get 0 m.fwmr i).toNat) ∧
        let signs : Prop := spdmSigned req = true ∧ spdmInvalid req = false ∧ m.leaf < 2 ^ 40
        (signs → t.mgmt.leaf = m.leaf + 1) ∧ (¬ signs → t.mgmt.leaf = m.leaf))

/-- Firmware lowers the clocks one step of 100 MHz while a limit is exceeded, down to 1.3 GHz, and raises them again; at
110 °C and from nowhere else the device removes its power, and the host sees the link go down (R404, R417, R418). -/
def Sys2Proof.Claims.PowerEvents : Prop :=
  (∀ (s : State) (package board : Nat) (temp : Int),
    let pl := s.mgmt.pwrlim.toNat % 2 ^ 16
    let bl := s.mgmt.pwrlim.toNat / 2 ^ 16
    let hot : Prop := 8 * pl < package ∨ (bl ≠ 0 ∧ 8 * bl < board) ∨ 800 < temp
    ∃ t, exec (.powerThrottle package board temp) s = .next t ∧ { t with mgmt := s.mgmt } = s ∧
      t.mgmt.pwrnow = BitVec.ofNat 32 (package % 2 ^ 16 + 2 ^ 16 * (board % 2 ^ 16)) ∧
      (s.mgmt.fwstate = 4 →
        (hot → t.mgmt.coreClk = max 65 (s.mgmt.coreClk - 5)) ∧ (¬ hot → t.mgmt.coreClk = min 130 (s.mgmt.coreClk + 5)) ∧
        t.mgmt.meshClk = t.mgmt.coreClk * 110 / 130) ∧
      (s.mgmt.fwstate ≠ 4 → t.mgmt.coreClk = s.mgmt.coreClk ∧ t.mgmt.meshClk = s.mgmt.meshClk) ∧
      { t.mgmt with
        coreClk := s.mgmt.coreClk, meshClk := s.mgmt.meshClk, pwrnow := s.mgmt.pwrnow, tempnow := s.mgmt.tempnow } =
        s.mgmt) ∧
  (∀ s : State,
    let hot : Prop := 880 ≤ signedOf 16 s.mgmt.tempnow.toNat
    (hot → exec .thermalShutdown s = .next { s with off := true, out := s.out ++ [.linkDown] }) ∧
      (¬ hot → exec .thermalShutdown s = .fault .notEnabled)) ∧
  (∀ s : State, s.off = true → step s = .fault .poweredOff)

/-- Where the dump of a partition may be written (R415). -/
def Sys2Proof.Claims.dumpPlace (s : State) (lo : Nat) : Prop :=
  s.mgmt.dumpbase.getLsbD 0 = true ∧ s.mgmt.dumpstat.getLsbD 0 = false ∧ lo = s.mgmt.dumpbase.toNat / 2 ^ 24 % 2 ^ 24 * 2 ^ 24 ∧
    lo + 48 * 2 ^ 20 ≤ 128 * 2 ^ 30 ∧
    ∀ b < 4, (s.part b).pastat ≠ 0 → lo + 48 * 2 ^ 20 ≤ s.partBase b ∨ s.partBase b + s.partSize b ≤ lo

/-- Core j of the dump of partition b, and its section's place. -/
def Sys2Proof.Claims.dumpedCore (s : State) (b j : Nat) : Nat := coreOf (s.part b).live (4 * b + j / 15) (j % 15)
def Sys2Proof.Claims.dumpedAt (lo j : Nat) : Nat := lo + 0x10000 + 0xA8000 * j

/-- The teams of a core, in placement order. -/
def Sys2Proof.Claims.teamsAt (s : State) (cid : Nat) : List Team :=
  (s.teams.filter fun e => e.2.live && e.2.core == cid).map fun e => e.2

/-- What a partition's cores, quads and Walkers hold lies within the machine's own bounds: registers in 512 of each slot, no two
groups' registers meeting, 16 contexts and 512 scalar words to a slot, 384 KiB of scratchpad, 3072 semaphores and 16384 tile
elements to a core, 64 walks of at most 512 bytes (R1, R17, R20, R104, R304, R315). -/
def Sys2Proof.Claims.dumpFits (s : State) (b : Nat) : Prop :=
  (s.groups.map Prod.fst).Nodup ∧ (s.walks.map Prod.fst).Nodup ∧
    (∀ j < 60,
      let c := s.core (dumpedCore s b j)
      Tbl.wf 0 c.scr = true ∧ (∀ e ∈ c.scr, e.1 < 393216) ∧
      ((teamsAt s (dumpedCore s b j)).map fun u => u.nsem).sum ≤ 3072 ∧
      (∀ u ∈ teamsAt s (dumpedCore s b j), Tbl.wf 0 u.sems = true ∧ ∀ e ∈ u.sems, e.1 < u.nsem) ∧
      (∀ w ∈ s.walksOf (dumpedCore s b j),
        (s.walk w).cp.qb.length ≤ 64 ∧ (s.walk w).cp.w.length ≤ 15 ∧ (s.walk w).cp.stack.length ≤ 40) ∧
      ∀ k < 4, ∀ e ∈ s.slotContexts (dumpedCore s b j) k,
        let x := s.group e.1
        e.2.1 < 16 ∧ e.2.2 + x.ns ≤ 512 ∧ x.runOff + x.nv + x.nw ≤ 512 ∧
          Tbl.wf 0 x.v = true ∧ (∀ y ∈ x.v, y.1 < 32 * x.nv) ∧ Tbl.wf 0 x.win = true ∧ (∀ y ∈ x.win, y.1 < 32 * x.nw) ∧
          Tbl.wf 0 x.s = true ∧ (∀ y ∈ x.s, y.1 < x.ns) ∧
          ∀ f ∈ s.slotContexts (dumpedCore s b j) k, f.1 = e.1 ∨ x.runOff + x.nv + x.nw ≤ (s.group f.1).runOff ∨
            (s.group f.1).runOff + (s.group f.1).nv + (s.group f.1).nw ≤ x.runOff) ∧
    ∀ q < 16,
      let k := 64 * (s.part b).live + 16 * b + q
      (s.quadCores k).length ≤ 4 ∧ (s.quad k).buf.length ≤ 0x8000 ∧ (∀ st, (s.quad k).own = some st → st.bytes.length ≤ 0x6000) ∧
        ∀ c ∈ s.quadCores k, Tbl.wf 0 (s.core c).tiles = true ∧ ∀ e ∈ (s.core c).tiles, e.1 < 16384

/-- A core's section of the dump (R415): its scratchpad, its teams' semaphores, and of each of its groups, at its slot and context,
the registers, the control registers, the PC, the window map, the scalars and the predicates; and its walks' checkpoints. -/
def Sys2Proof.Claims.coreDumped (s t : State) (lo b j : Nat) : Prop :=
  let cid := dumpedCore s b j
  let word (a : Nat) : Nat := leValue (readBytes t.mem (dumpedAt lo j + a) 4)
  (∀ a < 393216, Memory.read t.mem (dumpedAt lo j + 0x40000 + a) = Tbl.get 0 (s.core cid).scr a) ∧
    (∀ pre u post, teamsAt s cid = pre ++ u :: post → ∀ n < u.nsem,
      readBytes t.mem (dumpedAt lo j + 0xA6800 + 2 * ((pre.map fun y => y.nsem).sum + n)) 2 = leBytes 2 (u.sem n).toNat) ∧
    (∀ w ∈ s.walksOf cid,
      let at_ := lo + 0x2BF0000 + 0x8000 * j + 512 * (w % 64)
      let cp := (s.walk w).cp
      cp.qb.length = 64 → cp.w.length = 15 → readBytes t.mem at_ 64 = cp.qb ∧
        (∀ i < 15, readBytes t.mem (at_ + 64 + 8 * i) 8 = leBytes 8 (nthD 0 cp.w i).toNat) ∧
        readBytes t.mem (at_ + 184) 8 = leBytes 8 cp.pc.toNat ∧
        ∀ i < cp.stack.length, readBytes t.mem (at_ + 192 + 8 * i) 8 = leBytes 8 (nthD 0 cp.stack i).toNat) ∧
    ∀ k < 4, ∀ e ∈ s.slotContexts cid k,
      let x := s.group e.1
      let ctx := dumpedAt lo j + 0xA0000 + 256 * (16 * k + e.2.1)
      (∀ r < x.nv, ∀ l < 32, word (0x10000 * k + 128 * (x.runOff + r) + 4 * l) = (x.vreg r l).toNat) ∧
        (∀ r < x.nw, ∀ l < 32, word (0x10000 * k + 128 * (x.runOff + x.nv + r) + 4 * l) = (x.winWord r l).toNat) ∧
        (∀ i n, dumpCtrl[i]? = some n →
          ∃ l < 32, readBytes t.mem (ctx + 8 * i) 8 = leBytes 8 ({ s with cur := e.1 }.ctrlRead n l)) ∧
        readBytes t.mem (ctx + 184) 8 = leBytes 8 x.run.pc.toNat ∧
        (∀ n < 32, readBytes t.mem (ctx + 192 + 2 * n) 2 = leBytes 2 (16 * (x.xwin n).base + (x.xwin n).ext)) ∧
        (∀ r < x.ns, word (0xA4000 + 2048 * k + 4 * (e.2.2 + r)) = (x.sreg r).toNat) ∧
        ∀ q < 8, word (0xA6000 + 32 * (16 * k + e.2.1) + 4 * q) = (x.pred q).toNat

/-- A quad's section: the tile slots of its cores, four of each, and its running buffer, what the command has read following the
place of A for a `wua` command (R304, R312, R415). -/
def Sys2Proof.Claims.quadDumped (s t : State) (lo b q : Nat) : Prop :=
  let k := 64 * (s.part b).live + 16 * b + q
  let at_ := lo + 0x2770000 + 0x48000 * q
  (∀ i c, (s.quadCores k)[i]? = some c → ∀ n < 16384,
    leValue (readBytes t.mem (at_ + 65536 * i + 4 * n) 4) = (Tbl.get 0 (s.core c).tiles n).toNat) ∧
    ((s.quad k).own = none → readBytes t.mem (at_ + 0x40000) (s.quad k).buf.length = (s.quad k).buf) ∧
    ∀ st, (s.quad k).own = some st →
      readBytes t.mem (at_ + 0x40000) st.bytes.length = st.bytes ∨ readBytes t.mem (at_ + 0x42000) st.bytes.length = st.bytes

/-- The fatal-error dump (R415, R416): a partition machine check writes the header and the register pages, and of a partition
that is not confidential the live context's cores, quads and walks in their places, every group of every team; the sections of a
confidential one are 0. Nothing outside the region changes. Where the dump may not be written dumpstat counts it and memory stays. Any
write clears dumpstat. -/
def Sys2Proof.Claims.FatalDump : Prop :=
  (∀ (s : State) (b lo : Nat), dumpPlace s lo →
    let t := s.writeDump b
    let p := s.part b
    let word (a : Nat) : Nat := leValue (readBytes t.mem (lo + a) 4)
    t.mgmt.dumpstat = s.mgmt.dumpstat |||
      BitVec.ofNat 32 (1 + (if s.confidential b then 2 else 0) + 4 * b + 16 * p.live) ∧
    word 0 = 0x504D5544 ∧ word 4 = 1 ∧ word 8 = p.mcstat.toNat ∧
    word 0xC = (b + 2 ^ 8 * p.live + if s.confidential b then 2 ^ 16 else 0) % 2 ^ 32 ∧
    readBytes t.mem (lo + 0x10) 8 = leBytes 8 p.mcaddr.toNat ∧ word 0x18 = p.mcgrid.toNat ∧
    word 0x1C = (s.mgmtWord 0x400).toNat ∧
    (∀ o < 0x200, word (0x1000 + 4 * o) = (s.mgmtWord (4 * o)).toNat) ∧
    (∀ k < 4, ∀ o < 0x400, word (0x1800 + 0x1000 * k + 4 * o) = (s.launchWord k (4 * o)).toNat ∧
      word (0x6000 + 0x1000 * k + 4 * o) = s.portWord k (4 * o) % 2 ^ 32) ∧
    (s.confidential b = true → (∀ a, 0x10000 ≤ a → a < 48 * 2 ^ 20 → Memory.read t.mem (lo + a) = 0) ∧
      ∀ a, a < lo ∨ lo + 48 * 2 ^ 20 ≤ a → Memory.read t.mem a = Memory.read s.mem a)) ∧
  (∀ (s : State) (b lo : Nat), b < 4 → dumpPlace s lo → s.confidential b = false → dumpFits s b →
    (∀ j < 60, coreDumped s (s.writeDump b) lo b j) ∧ (∀ q < 16, quadDumped s (s.writeDump b) lo b q) ∧
      ∀ a, a < lo ∨ lo + 48 * 2 ^ 20 ≤ a → Memory.read (s.writeDump b).mem a = Memory.read s.mem a) ∧
  (∀ (s : State) (b : Nat), s.mayDump = false →
    (s.writeDump b).mem = s.mem ∧
      (s.writeDump b).mgmt.dumpstat.toNat / 2 ^ 8 % 2 ^ 8 = min 255 (s.mgmt.dumpstat.toNat / 2 ^ 8 % 2 ^ 8 + 1)) ∧
  (∀ (s : State) (b : Nat), s.homeBusy b = true → (s.part b).pastat = 2 → (s.part b).mcstat = 0 →
    ∃ t u : State, exec (.linkFailure (.mesh b)) s = .next t ∧ { u with parts := s.parts, out := s.out } = s ∧
      (u.part b).pastat = 3 ∧ (u.part b).mcstat.toNat % 2 ^ 8 = 3 ∧ t.mem = (u.writeDump b).mem ∧
      t.mgmt = (u.writeDump b).mgmt) ∧
  ∀ (s : State) (v : Word),
    exec (.dumpstatWrite v) s = .next { s with mgmt := { s.mgmt with dumpstat := 0 } }

/-- A device reset (R407, R409): start-up goes through state 0 to state 1, the measurements are 0 but for fwmr 0, which
the boot ROM extends with its version, the root key hash, fwsvn and the fuses; fwsvn, flash and the leaf index stay;
every other management register reads 0 (the model's choice, log 3), the clocks stand at their rated values, no SPDM
session, image or command is left, and nothing of a partition, core, walk or grid. The model's choices it rests on:
logs 3, 14 and 54. -/
def Obligations.DeviceResets : Prop :=
  ∀ s : State, ∃ t, exec .deviceReset s = .next t ∧
    { t with mgmt := State.reset.mgmt } =
      { State.reset with agenda := s.agenda, tick := s.tick, now := s.now, nextId := s.nextId, out := s.out } ∧
    t.mgmt =
      { devnum := 0, ualEnable := [], ualUp := [], ualSec := [], fwstate := 1, fwerr := 0, fwver := 0, fwsvn := s.mgmt.fwsvn,
        fwrecaddr := 0, fwreclen := 0, fwresult := 0, fwcmd := 0, fusemap := 0, dumpbase := 0, dumpstat := 0, eccor := [],
        pwrnow := 0, pwrlim := 0, tempnow := 0, coreClk := 130, meshClk := 110, spdmctl := 0, fwmr := t.mgmt.fwmr,
        spdmbuf := List.replicate 2048 0, flash := s.mgmt.flash, image := none, flashing := none,
        flashTorn := s.mgmt.flashTorn, leaf := s.mgmt.leaf, atomicEnable := false, ide := [], session := 0, largeOut := [],
        chunkOut := 0, largeIn := [], chunkIn := 0, keyReply := none } ∧
    ∀ k, Tbl.get 0 t.mgmt.fwmr k =
      if k = 0 then BitVec.ofNat 256 (leValue (sha256 (leBytes 32 0 ++ (leBytes 4 Config.romVersion.toNat ++
        Config.rootKeyHash ++ leBytes 4 s.mgmt.fwsvn.toNat ++ leBytes 8 Config.siteFuses.toNat))))
      else 0
/-! ### Relay messages, links, the host and peers (R275, R291-R299, R332-R338, R391-R403) -/

/-- A relay message (R6, R334, R335): a 64-byte header, little-endian, that holds its type, version 1, and its fields at their
places; then the walk's body, 184 + 8·depth bytes, or its records, 16 bytes each. A field that its type does not use is 0. What arrives is read from the same places, and a message that was sent
is read as it was; a request that a message answers is open no more. -/
def Sys2Proof.Claims.MessageBytes : Prop :=
  (∀ (type : Nat) (m : RelayMsg),
    let bs := messageBytes type m
    let depth := match m.body with
      | some b => b.stack.length
      | none => 0
    let field (off n : Nat) : Nat := leValue ((bs.drop off).take n)
    type < 12 → depth ≤ 40 → m.answer < 256 → m.device < 8 → m.part < 4 → m.core < 60 → m.ctx < 64 → m.queue < 4 →
    m.team < 2 ^ 16 → m.group < 32 → m.lane < 32 → m.program < 64 → 0 < m.words → m.words ≤ 2 ^ 16 → m.recs.length ≤ 8 →
    m.word < 2 ^ 32 →
    field 0 1 = type ∧ field 1 1 = 1 ∧ field 2 1 = depth ∧ field 3 1 = m.answer ∧ field 4 1 = m.device + 16 * m.part ∧
      field 5 1 = m.core ∧ field 6 1 = m.ctx ∧ field 7 1 = m.queue ∧ field 8 2 = m.team ∧ field 10 1 = m.group ∧
      field 11 1 = m.lane ∧ field 12 4 = m.program ∧ field 16 8 = m.code.toNat ∧ field 24 4 = m.words - 1 ∧
      field 28 4 = m.serial.toNat ∧
      (∀ b, m.body = some b → field 32 8 = b.pc.toNat) ∧ field 40 4 = m.recs.length ∧ field 44 4 = m.word ∧ field 48 16 = 0) ∧
  (∀ (type : Nat) (m : RelayMsg) (b : WalkBody), m.body = some b → m.recs = [] → b.qb.length = 64 → b.w.length = 15 →
    let bs := messageBytes type m
    bs.length = 248 + 8 * b.stack.length ∧ (bs.drop 64).take 64 = b.qb ∧
      (∀ i < 15, leValue ((bs.drop (128 + 8 * i)).take 8) = (nthD 0 b.w i).toNat) ∧
      ∀ i < b.stack.length, leValue ((bs.drop (248 + 8 * i)).take 8) = (nthD 0 b.stack i).toNat) ∧
  (∀ (type : Nat) (m : RelayMsg), m.body = none →
    let bs := messageBytes type m
    bs.length = 64 + 16 * m.recs.length ∧
      ∀ i r, m.recs[i]? = some r →
        (bs.drop (64 + 16 * i)).take 16 =
          leBytes 4 r.w0.toNat ++ leBytes 4 r.w1.toNat ++ leBytes 4 r.w2.toNat ++ leBytes 4 r.w3.toNat) ∧
  (∀ (type : Nat) (m : RelayMsg),
    ((type ≠ 1 → type ≠ 10 → (usedBy type m).body = none) ∧ (type ≠ 3 → type ≠ 7 → (usedBy type m).recs = []) ∧
      (type ≠ 2 → type ≠ 4 → type ≠ 7 → type ≠ 11 → (usedBy type m).answer = 0) ∧
      (type ≠ 7 → (usedBy type m).word = 0))) ∧
  (∀ r : RelayIn,
    let byte (off : Nat) : Nat := leValue ((r.bytes.drop off).take 1)
    let m := RelayIn.msg r
    m.src = r.src ∧ m.srcPart = r.srcPart ∧ m.port = r.port ∧ m.answer = byte 3 ∧ m.device = byte 4 % 2 ^ 3 ∧
      m.part = byte 4 / 2 ^ 4 % 2 ^ 2 ∧ m.core = byte 5 % 2 ^ 6 ∧ m.ctx = byte 6 % 2 ^ 6 ∧ m.queue = byte 7 % 2 ^ 2 ∧
      m.team = leValue ((r.bytes.drop 8).take 2) ∧ m.group = byte 10 % 2 ^ 5 ∧ m.lane = byte 11 % 2 ^ 5 ∧
      m.program = byte 12 % 2 ^ 6 ∧ m.code.toNat = leValue ((r.bytes.drop 16).take 8) ∧
      m.words = leValue ((r.bytes.drop 24).take 2) + 1 ∧ m.serial.toNat = leValue ((r.bytes.drop 28).take 4) ∧
      (m.body ≠ none ↔ byte 0 = 1 ∨ byte 0 = 10)) ∧
  (∀ (type : Nat) (m : RelayMsg) (src srcPart port : Nat), 1 ≤ type → type ≤ 11 → m.answer < 256 → m.device < 8 → m.part < 4 →
    m.core < 60 → m.ctx < 64 → m.queue < 4 → m.team < 2 ^ 16 → m.group < 32 → m.lane < 32 → m.program < 64 → 0 < m.words →
    m.words ≤ 2 ^ 16 → m.recs.length ≤ 8 → m.word < 2 ^ 32 →
    ((type = 1 ∨ type = 10) → ∃ b, m.body = some b ∧ b.qb.length = 64 ∧ b.w.length = 15 ∧ b.stack.length ≤ 40) →
    let r : RelayIn := ⟨src, srcPart, port, messageBytes type (usedBy type m)⟩
    RelayIn.isA r type = true ∧
      { RelayIn.msg r with words := (usedBy type m).words } =
        { usedBy type m with src := src, srcPart := srcPart, port := port } ∧
      (type = 1 → (RelayIn.msg r).words = m.words)) ∧
  ∀ (s : State) (b : Nat) (r : RelayIn), { s.heard b r with relayOpen := s.relayOpen } = s ∧
    ∀ o, o ∈ (s.heard b r).relayOpen ↔ o ∈ s.relayOpen ∧
      ¬ (o.part = b ∧ o.device = r.src ∧ relayAnswers (RelayIn.type r) o.type = true ∧
        o.origin = leValue ((r.bytes.drop 4).take 4) % 2 ^ 22 ∧ o.serial = leValue ((r.bytes.drop 28).take 4))

/-- A message from partition a of device d passes R398: the port in the mask of the peer map, the pair right, and the port runs
link security where that is required. -/
def Sys2Proof.Claims.admitted (s : State) (b d a port : Nat) : Prop :=
  let e := Tbl.get 0 (s.part b).peermap d
  e.getLsbD 0 = true ∧ e.toNat / 2 % 4 = a ∧ port < 4 ∧ e.getLsbD (4 + port) = true ∧
    (Tbl.get false s.mgmt.ualSec port = true ∨ (e.getLsbD 9 = false ∧ s.confidential b = false))

/-- peerrej d of a partition counts, saturating (R397). -/
def Sys2Proof.Claims.rejected (s t : State) (b d : Nat) : Prop :=
  ∀ k, Tbl.get 0 (t.part b).peerrej k =
    let n := Tbl.get 0 (s.part b).peerrej k
    if k = d ∧ n ≠ BitVec.allOnes 32 then n + 1 else n

/-- Nothing that partition b sends to device d waits for a request on a port that went down (R397). -/
def Sys2Proof.Claims.pairFree (s : State) (b d : Nat) : Prop :=
  s.pairHeld b d = false ∧ ∀ h ∈ s.relayHeld, h.part = b → h.device ≠ d

/-- The answer of a type to a message, sent to the partition that it came from: by the pair's port, or by the one it came by
where the pair has none, which is the model's choice (log 73). -/
def Sys2Proof.Claims.answerTo (s : State) (b type : Nat) (m : RelayMsg) (a : Nat) : Out :=
  .relay m.src m.srcPart ((s.pathFor b m.src).getD m.port) (messageBytes type (usedBy type { m with answer := a }))

/-- A walk message (R332, R336): refused by R398 with reason 7 and counted, with 0x20 where the entry accepts none, with
0x21 for another registration, busy where no core has a team of the tag and room in its intake, or 256 hosted walks wait; else
it enters the intake of the next such core in the order of R301 and is accepted; during a save it goes home at once (R331). -/
def Sys2Proof.Claims.WalkMessages : Prop :=
  ∀ (s0 : State) (b : Nat) (r : RelayIn), RelayIn.isA r 1 = true →
    let s := s0.heard b r
    let m := RelayIn.msg r
    pairFree s b m.src →
    let p := s.part b
    let own := Tbl.get Prog.none (s.ctx (2 * b + p.live)).progs m.program
    let core (i : Nat) : Nat := coreAt b p.live ((p.hostTurn + i) % 60)
    let hosts (i : Nat) : Prop :=
      (s.hostTeam (core i) (Tbl.get 0 p.rlyhost m.program)).isSome = true ∧ (s.core (core i)).intakeLoad < 1024
    let answers (a : Nat) : Out := answerTo s b 2 m a
    let accepts : Prop := (Tbl.get 0 p.rlyctl m.program).getLsbD 0 = true
    let registered : Prop := own.words ≠ 0 ∧ own.code.setWidth 64 = m.code ∧ own.words = m.words
    (¬ admitted s b m.src m.srcPart m.port →
      ∃ t, exec (.relayWalk b r) s0 = .next t ∧ t.out = s.out ++ [answers 7] ∧ rejected s t b m.src ∧
        { t with parts := s.parts, out := s.out } = s) ∧
    (admitted s b m.src m.srcPart m.port →
      (¬ accepts → exec (.relayWalk b r) s0 = .next { s with out := s.out ++ [answers 0x20] }) ∧
      (accepts → ¬ registered → exec (.relayWalk b r) s0 = .next { s with out := s.out ++ [answers 0x21] }) ∧
      (accepts → registered → ((∀ i < 60, ¬ hosts i) ∨ 256 ≤ s.hostedLoad b) →
        exec (.relayWalk b r) s0 = .next { s with out := s.out ++ [answers 1] }) ∧
      (∀ i body, accepts → registered → i < 60 → hosts i → (∀ j < i, ¬ hosts j) → s.hostedLoad b < 256 →
        m.body = some body → b < 4 →
        ∃ t, exec (.relayWalk b r) s0 = .next t ∧ (t.part b).hostTurn = ((p.hostTurn + i) % 60 + 1) % 60 ∧
          if s.saving b = true then
            t.cores = s.cores ∧ (pathOpen s b m.device → { t with parts := s.parts, out := s.out } = s ∧
              t.out = s.out ++ [answers 0,
                .relay m.device (s.pairedPart b m.device) ((s.portFor b m.device).getD 0) (messageBytes 10 (usedBy 10 m))])
          else
            { t with parts := s.parts, cores := s.cores, out := s.out } = s ∧ t.out = s.out ++ [answers 0] ∧ (∀ k, k ≠ core i → t.core k = s.core k) ∧
              ∃ e, (t.core (core i)).intake = (s.core (core i)).intake ++ [e] ∧ e.prog = own ∧ e.pid = m.program ∧
                e.lane = m.lane ∧ e.queue = m.queue ∧ e.hosted = some (Origin.of m, body)))

/-- What the peer does with the origin's messages for a walk it hosts, when they pass R398 (R336, R337): an appended release
completes, a full one waits for room and is sent again; a walk that goes home takes the checkpoint that an appended release made,
and the one before a full one; a recall sends the walk home with its checkpoint, once the release under way is answered; a
cancel ends it or is answered as not present; a walk that has not started is one too. A message that fails R398 is counted and
ends the hosted walk (R398). -/
def Sys2Proof.Claims.MessagesAtPeer : Prop :=
  (∀ (s0 : State) (b : Nat) (r : RelayIn) (w : Nat),
    let s := s0.heard b r
    let m := RelayIn.msg r
    let is (type : Nat) : Prop := RelayIn.isA r type = true
    s.hostedAt b m = some w → (s.walk w).live = true →
    let x := s.walk w
    let c := corePart (w / 64)
    let home (t : State) (body : WalkBody) : Prop :=
      ∀ o, x.hosted = some o → pathOpen s c o.device → messageTo s t c o.device 10 { s.walkMsg w with body := some body }
    (¬ admitted s b m.src m.srcPart m.port →
      ∀ i, (is 4 ∧ i = .relayReleaseAnswer b r ∨ is 5 ∧ i = .relayRoom b r ∨ is 8 ∧ i = .relayRecall b r ∨ is 9 ∧ i = .relayCancel b r) →
        ∃ t, exec i s0 = .next t ∧ rejected s t b m.src ∧ (t.walk w).live = false) ∧
    (admitted s b m.src m.srcPart m.port →
      (∀ o, is 4 → x.hosted = some o → x.wait = .released .next false → x.inside (x.pc.toNat + 4) = true →
        ∃ t, exec (.relayReleaseAnswer b r) s0 = .next t ∧ { t with walks := s.walks } = s ∧
          if m.answer = 0 then
            (t.walk w).wait = .ready ∧ (t.walk w).pc = x.pc + 4 ∧ (t.walk w).emits = [] ∧ (t.walk w).cp = x.due.getD (s.bodyAt w (x.pc + 4)) ∧
              (t.walk w).hosted = some o
          else t.walk w = { x with wait := .released .next true }) ∧
      (is 4 → x.hosted ≠ none → x.wait = .released .home false →
        ∃ t, exec (.relayReleaseAnswer b r) s0 = .next t ∧ (t.walk w).live = false ∧
          home t (if m.answer = 0 then x.due.getD (s.bodyAt w x.pc) else x.cp)) ∧
      (is 4 → x.hosted ≠ none → x.wait = .goHome .next → x.inside (x.pc.toNat + 4) = true →
        ∃ t, exec (.relayReleaseAnswer b r) s0 = .next t ∧ (t.walk w).live = false ∧
          home t (if m.answer = 0 then x.due.getD (s.bodyAt w (x.pc + 4)) else x.cp)) ∧
      (∀ a, is 5 → x.wait = .released a true → pathOpen s b m.device →
        ∃ t, exec (.relayRoom b r) s0 = .next t ∧ t.walk w = { x with wait := .released a false } ∧
          messageTo s t b m.device 3 { s.walkMsg w with recs := x.emits }) ∧
      (is 8 → x.hosted ≠ none → x.wait = .ready →
        ∃ t, exec (.relayRecall b r) s0 = .next t ∧ (t.walk w).live = false ∧ home t x.cp) ∧
      (∀ a, is 8 → x.wait = .released a false →
        exec (.relayRecall b r) s0 = .next (s.setWalk w { x with wait := .goHome a })) ∧
      (is 9 → x.hosted ≠ none → pairFree s b m.src →
        ∃ t, exec (.relayCancel b r) s0 = .next t ∧ (t.walk w).live = false ∧
          t.out = s.out ++ [answerTo s b 11 m 0]))) ∧
  ∀ (s0 : State) (b : Nat) (r : RelayIn),
    let s := s0.heard b r
    let m := RelayIn.msg r
    let is (type : Nat) : Prop := RelayIn.isA r type = true
    s.hostedAt b m = none →
    (∀ c e o body, s.hostedEntry b m = some (c, e) → e.hosted = some (o, body) →
      let gone (t : State) : Prop :=
        { t with cores := s.cores, parts := s.parts, out := s.out } = s ∧
          t.core c = { s.core c with intake := (s.core c).intake.filter fun x => x != e }
      (¬ admitted s b m.src m.srcPart m.port →
        ∀ i, (is 4 ∧ i = .relayReleaseAnswer b r ∨ is 5 ∧ i = .relayRoom b r ∨ is 8 ∧ i = .relayRecall b r ∨ is 9 ∧ i = .relayCancel b r) →
          ∃ t, exec i s0 = .next t ∧ rejected s t b m.src ∧ gone t ∧ t.out = s.out) ∧
      (admitted s b m.src m.srcPart m.port →
        (is 8 → pathOpen s b o.device → ∃ t, exec (.relayRecall b r) s0 = .next t ∧ gone t ∧
          messageTo s t b o.device 10 { originMsg e o with body := some body }) ∧
        (is 9 → pairFree s b m.src → ∃ t, exec (.relayCancel b r) s0 = .next t ∧ gone t ∧
          t.out = s.out ++ [answerTo s b 11 m 0]))) ∧
    (s.hostedEntry b m = none →
      (admitted s b m.src m.srcPart m.port → (is 8 → exec (.relayRecall b r) s0 = .next s) ∧
        (is 9 → pairFree s b m.src → exec (.relayCancel b r) s0 = .next { s with out := s.out ++ [answerTo s b 11 m 1] })) ∧
      (¬ admitted s b m.src m.srcPart m.port → is 8 →
        ∃ t, exec (.relayRecall b r) s0 = .next t ∧ rejected s t b m.src ∧ { t with parts := s.parts } = s))

/-- The walk in a context ended with a fault record of a cause, reason and word index behind the given records, in its
queue. -/
def Sys2Proof.Claims.walkEnds (s t : State) (w : Nat) (recs : List Record) (cause reason : Nat) (word : Word) : Prop :=
  let x := s.walk w
  (t.walk w).live = false ∧
    ∃ r, appended s t x.team x.queue (recs ++ [r]) ∧ r.w0 = 0 ∧ r.w1 = BitVec.ofNat 32 (cause + 2 ^ 8 * reason) ∧
      r.w2 = word ∧ r.w3.toNat / 2 ^ 28 = 1

/-- What the origin does with the peer's messages for a walk of the context's serial, when they pass R398 (R336, R337): the
walk answer makes it away, and recalls it during a save (R331), busy for 4096 cycles or ends it; a release is appended and
answered, or answered full; ended frees the context; a fault ends it with its records; home resumes it; cancelled ends a
cancelled walk and is otherwise not acted upon. A message that fails R398 is counted and ends the walk it names as a link failure
does; one that matches no walk is discarded. -/
def Sys2Proof.Claims.MessagesAtOrigin : Prop :=
  (∀ (s0 : State) (b : Nat) (r : RelayIn),
    let s := s0.heard b r
    let m := RelayIn.msg r
    let is (type : Nat) : Prop := RelayIn.isA r type = true
    s.awayWalk b m = none →
    ∀ i, (is 2 ∧ i = .relayWalkAnswer b r ∨ is 3 ∧ i = .relayRelease b r ∨ is 6 ∧ i = .relayEnded b r ∨
      is 7 ∧ i = .relayFaultMessage b r ∨ is 10 ∧ i = .relayHome b r ∨ is 11 ∧ i = .relayCancelled b r) →
    (admitted s b m.src m.srcPart m.port → exec i s0 = .next s) ∧
    (¬ admitted s b m.src m.srcPart m.port →
      ∃ t, exec i s0 = .next t ∧ rejected s t b m.src ∧ { t with parts := s.parts } = s)) ∧
  ∀ (s0 : State) (b : Nat) (r : RelayIn) (w : Nat),
    let s := s0.heard b r
    let m := RelayIn.msg r
    let is (type : Nat) : Prop := RelayIn.isA r type = true
    s.awayWalk b m = some w → (s.walk w).cancel = false →
    let x := s.walk w
    let d := m.src
    let room (n : Nat) : Prop := s.queueRoom x.team x.queue n = true
    (¬ admitted s b m.src m.srcPart m.port → room 1 →
      ∀ i, (is 2 ∧ i = .relayWalkAnswer b r ∨ is 3 ∧ i = .relayRelease b r ∨ is 6 ∧ i = .relayEnded b r ∨
      is 7 ∧ i = .relayFaultMessage b r ∨ is 10 ∧ i = .relayHome b r ∨ is 11 ∧ i = .relayCancelled b r) →
      ∃ t, exec i s0 = .next t ∧ rejected s t b m.src ∧ walkEnds s t w [] 0x30 7 x.wordIndex) ∧
    (admitted s b m.src m.srcPart m.port →
    (is 2 → x.wait = .answer d →
      (m.answer = 0 → ∃ t, exec (.relayWalkAnswer b r) s0 = .next t ∧ { t with walks := s.walks, out := s.out, relayOpen := s.relayOpen } = s ∧
        t.walk w = { x with wait := .away d } ∧
        if (s.part b).swap = some 2 ∨ (s.part b).swap = some 3 then pathOpen s b d → messageTo s t b d 8 (s.walkMsg w)
        else t.out = s.out ∧ t.relayOpen = s.relayOpen) ∧
      (m.answer = 1 → exec (.relayWalkAnswer b r) s0 = .next (s.setWalk w { x with wait := .busy d (s.now + 4096) })) ∧
      ((m.answer = 7 ∨ m.answer = 0x20 ∨ m.answer = 0x21) → room 1 →
        ∃ t, exec (.relayWalkAnswer b r) s0 = .next t ∧
          walkEnds s t w [] (if m.answer = 7 then 0x30 else 0x31) m.answer x.wordIndex)) ∧
    (is 3 → x.wait = .away d → pathOpen s b d →
      (room m.recs.length →
        ∃ t, exec (.relayRelease b r) s0 = .next t ∧ messageTo s t b d 4 { s.walkMsg w with answer := 0 } ∧
          t.walk w = x ∧ appended s t x.team x.queue m.recs) ∧
      (¬ room m.recs.length →
        ∃ t, exec (.relayRelease b r) s0 = .next t ∧ messageTo s t b d 4 { s.walkMsg w with answer := 1 } ∧
          t.walk w = { x with emits := m.recs } ∧ t.teams = s.teams ∧ t.mem = s.mem)) ∧
    (is 6 → ∃ t, exec (.relayEnded b r) s0 = .next t ∧ (t.walk w).live = false ∧ t.teams = s.teams ∧
      ∀ k, k ≠ w → t.walk k = s.walk k) ∧
    (is 7 → room (m.recs.length + 1) →
      ∃ t, exec (.relayFaultMessage b r) s0 = .next t ∧
        walkEnds s t w m.recs 0x31 m.answer (BitVec.ofNat 32 m.word)) ∧
    (∀ body, is 10 → m.body = some body → body.w.length = 15 →
      ∃ t, exec (.relayHome b r) s0 = .next t ∧ (t.walk w).live = true ∧ (t.walk w).wait = .ready ∧
        (t.walk w).pc = body.pc ∧ (t.walk w).qb = body.qb ∧ (t.walk w).stack = body.stack ∧ (t.walk w).cp = body ∧
        (t.walk w).emits = [] ∧ ∀ i < 15, (t.walk w).reg (i + 1) = (nthD 0 body.w i).toNat) ∧
    (is 11 → exec (.relayCancelled b r) s0 = .next s))

/-- A cancelled walk ends at its peer's answer, when the peer is busy, or when it comes home, and its context is free; what
it releases meanwhile does not enter its queue (R240, R337). -/
def Sys2Proof.Claims.CancelledWalks : Prop :=
  ∀ (s0 : State) (b : Nat) (r : RelayIn) (w : Nat),
    let s := s0.heard b r
    let m := RelayIn.msg r
    let is (type : Nat) : Prop := RelayIn.isA r type = true
    s.awayWalk b m = some w → admitted s b m.src m.srcPart m.port → (s.walk w).cancel = true →
    (is 10 → ∃ t, exec (.relayHome b r) s0 = .next t ∧ (t.walk w).live = false) ∧
      (is 6 → ∃ t, exec (.relayEnded b r) s0 = .next t ∧ (t.walk w).live = false) ∧
      (is 11 → m.answer = 0 → ∃ t, exec (.relayCancelled b r) s0 = .next t ∧ (t.walk w).live = false) ∧
      (is 11 → m.answer ≠ 0 → exec (.relayCancelled b r) s0 = .next s) ∧
      (is 2 → (s.walk w).wait = .answer m.src → m.answer = 1 →
        ∃ t, exec (.relayWalkAnswer b r) s0 = .next t ∧ (t.walk w).live = false) ∧
      (is 3 → (s.walk w).wait = .away m.src → pathOpen s b m.src →
        ∃ t, exec (.relayRelease b r) s0 = .next t ∧ { t with out := s.out } = s ∧
          messageTo s t b m.src 4 { s.walkMsg w with answer := 1 })

/-- A port that is enabled comes up; a port or a link inside the package that fails with nothing lost changes nothing else,
and one with coherence messages in flight is a partition machine check of source 3 (R303, R338, R352, R397). -/
def Sys2Proof.Claims.LinkEvents : Prop :=
  (∀ (s : State) (port : Nat) (sec : Bool), Tbl.get false s.mgmt.ualEnable port = true →
    ∃ t, exec (.ualinkPortUp port sec) s = .next t ∧
      { t with mgmt := { t.mgmt with ualUp := s.mgmt.ualUp, ualSec := s.mgmt.ualSec } } = s ∧
      Tbl.get false t.mgmt.ualUp port = true ∧ Tbl.get false t.mgmt.ualSec port = sec) ∧
  (∀ (s : State) (q : Nat),
    (∀ b < 4, ∀ d < 8, s.pathFor b d ≠ none → ∃ k < 4, k ≠ q ∧
      (Tbl.get 0 (s.part b).peermap d).getLsbD (4 + k) = true ∧ Tbl.get false s.mgmt.ualUp k = true) →
    ∃ t, exec (.linkFailure (.ual q)) s = .next t ∧ { t with mgmt := { t.mgmt with ualUp := s.mgmt.ualUp } } = s ∧
      ∀ k, Tbl.get false t.mgmt.ualUp k = if k = q then false else Tbl.get false s.mgmt.ualUp k) ∧
  (∀ (s : State) (b n : Nat) (l : LinkId), (l = .mesh b ∨ l = .bridge b n) →
    (s.homeBusy b = false → exec (.linkFailure l) s = .next s) ∧
    (s.homeBusy b = true → (s.part b).pastat = 2 → (s.part b).mcstat = 0 →
      ∃ t, exec (.linkFailure l) s = .next t ∧ (t.part b).pastat = 3 ∧ (t.part b).mcstat.toNat % 2 ^ 8 = 3))

/-- An answer from the host or a peer to a request that has left (R275, R394): a line read fills the home copy, unless a write of
the partition came after it or its slice has no room; an atomic's answer does not; the running path, which waits for it, has it. The completion of a peer's write is all that a store awaits; the read behind the writes to the host shows them
performed. A refused request counts in ualrej (R399): its path is to trap DATA_ERROR, for the lowest lane of those refused
(R173); a store is a deferred fault, of the lowest address. -/
def Sys2Proof.Claims.RemoteAnswers : Prop :=
  (∀ (s : State) (req g p lane : Nat) (data : List Byte),
    let r := s.remote req
    let run := (s.group g).run
    let left := run.asked.filter (· != req)
    r.live = true → r.loc ≠ 0 → r.who = .path g p lane → (s.group g).live = true → run.id = p → req ∈ run.asked → lane < 32 →
    (∀ k, Poison.l2 k ∉ s.poison) →
    (r.sent = true → r.write = none → data.length = r.n →
      ∃ t, exec (.remoteCompletion req data) s = .next t ∧ t.mem = s.mem ∧ (t.remote req).live = false ∧
        if r.n = 128 then
          let line := r.loc * 2 ^ 41 + r.addr / 128
          (r.atomic = none → r.stale = false → (s.l2Make line).isSome = true →
            Tbl.find t.copies line = some { data := data, filled := s.now }) ∧
          (r.stale = true → t.copies = s.copies) ∧
          (t.group g).run = { run with asked := left, served := (line, data) :: run.served }
        else t.copies = s.copies ∧ (t.group g).run = { run with asked := left, served := (2 ^ 60 + lane, data) :: run.served }) ∧
    ∃ t, exec (.accessRefused req) s = .next t ∧ t.mem = s.mem ∧ (t.remote req).live = false ∧
      (t.part r.part).ualrej = bump (s.part r.part).ualrej ∧
      ∃ f, (t.group g).run = { run with asked := left, failed := some f } ∧
        ((∀ o, run.failed = some o → lane < o.lane.getD 32) →
          f.cause = 0x14 ∧ f.tval = r.tval.toNat ∧ f.taddr = r.va.toNat) ∧
        (∀ o, run.failed = some o → o.lane.getD 32 ≤ lane → f = o)) ∧
  (∀ (s : State) (req g : Nat),
    let r := s.remote req
    r.live = true → r.who = .store g → r.write.isSome = true →
    (r.loc = 1 → r.sent = true → ∀ data, ∃ t, exec (.remoteCompletion req data) s = .next t ∧
      (t.remote req).live = false ∧ { t with remotes := s.remotes } = s) ∧
    (r.loc ≠ 0 → (s.group g).live = true →
      ∃ t, exec (.accessRefused req) s = .next t ∧ t.mem = s.mem ∧ (t.remote req).live = false ∧
        (t.part r.part).ualrej = bump (s.part r.part).ualrej ∧
        ∃ d, (t.group g).deferred = some d ∧
          match (s.group g).deferred with
          | none => d.addr = r.va
          | some o => if o.addr.toNat ≤ r.va.toNat then d = o else d.addr = r.va)) ∧
  ∀ (s : State) (req b : Nat),
    let r := s.remote req
    r.live = true → r.sent = true → r.who = .flush b → r.loc = 2 → r.n = 0 → r.write = none →
    r.atomic = none →
    ∃ t, exec (.remoteCompletion req []) s = .next t ∧ { t with remotes := s.remotes } = s ∧
      ∀ e ∈ t.remotes, e.1 < req → e.2.part = b → e.2.loc = 2 → e.2.live = true → e.2.sent = true → e.2.write = none

/-- An access of the host to n bytes is served: the device is ready, the bytes lie in the fitted memory, and in a
confidential range it comes on the stream bound to the partition, which is set up (R393, R403, R407). -/
def Sys2Proof.Claims.served (s : State) (a n : Nat) (stream : Option Nat) : Prop :=
  s.mgmt.fwstate = 4 ∧ a + n ≤ 128 * 2 ^ 30 ∧
    ∀ b < 4, s.confidential b = true → (s.part b).pastat ≠ 0 → a < s.partBase b + s.partSize b → s.partBase b < a + n →
      let k := (s.part b).pacfg.toNat / 16 % 4
      stream = some k ∧ Tbl.get false s.mgmt.ide k = true

/-- The homes of the lines of n bytes need take no copy back for an access (R297): the machine has them do so first. -/
def Sys2Proof.Claims.homesReady (s : State) (g : AgentId) (a n : Nat) (write : Bool) : Prop :=
  ∀ k ∈ linesOf a n, s.homeFree g k write = true

/-- n bytes under key id 0 without an error. -/
def Sys2Proof.Claims.plain (s : State) (a n : Nat) : Prop := s.keyTag = [] ∧ s.memPoisoned a n = false

/-- The value that an operation leaves (R175). -/
def Sys2Proof.Claims.updated (op : AtomOp) (z : Size) (old b c : Nat) : Nat := (atomicResult op z old b c).getD old

/-- Reads, writes and atomics of the host and of peers (R391, R393, R398, R403) complete wherever they are served: a
read answers its bytes, free ones where they lie under another key or hold an error, a write changes exactly its
bytes, an atomic is indivisible, answers the old value and changes no byte outside its operand; what is not served,
an AtomicOp that is not aligned too, is Unsupported Request for the host, refused and counted for a peer, and
changes no memory. That a partition which is not assigned serves no peer is the model's choice (log 51). The model's
choices it rests on: logs 50, 51 and 57. -/
def Obligations.OutsideAccesses : Prop :=
  (∀ (s : State) (a n : Nat) (stream : Option Nat) (bytes : List Byte),
    (served s a n stream → homesReady s .host a n false → ∃ t bs, exec (.hostBar2Read a n stream) s = .next t ∧ t.mem = s.mem ∧
      t.out = s.out ++ [.data bs] ∧ bs.length = n ∧ (plain s a n → bs = readBytes s.mem a n)) ∧
    (¬ served s a n stream → exec (.hostBar2Read a n stream) s = .next { s with out := s.out ++ [.unsupported] }) ∧
    (served s a bytes.length stream → homesReady s .host a bytes.length true → ∃ t, exec (.hostBar2Write a bytes stream) s = .next t ∧ t.out = s.out ∧
      ∀ k, Memory.read t.mem k =
        if a ≤ k ∧ k < a + bytes.length then nthD 0 bytes (k - a) else Memory.read s.mem k) ∧
    (¬ served s a bytes.length stream →
      exec (.hostBar2Write a bytes stream) s = .next { s with out := s.out ++ [.unsupported] })) ∧
  (∀ (s : State) (op : HostAtomic) (w64 : Bool) (a : Nat) (x c : DWord) (stream : Option Nat),
    let n := if w64 then 8 else 4
    let old := leValue (readBytes s.mem a n)
    let new := match op with
      | .fetchAdd => (old + x.toNat) % 2 ^ (8 * n)
      | .swap => x.toNat % 2 ^ (8 * n)
      | .cas => if old = c.toNat % 2 ^ (8 * n) then x.toNat % 2 ^ (8 * n) else old
    (served s a n stream → a % n = 0 → homesReady s .host a n true →
      ∃ t bs, exec (.hostAtomicop op w64 a x c stream) s = .next t ∧ t.out = s.out ++ [.data bs] ∧ bs.length = n ∧
        (plain s a n → bs = leBytes n old ∧ readBytes t.mem a n = leBytes n new) ∧
        ∀ k, (k < a ∨ a + n ≤ k) → Memory.read t.mem k = Memory.read s.mem k) ∧
    ((¬ served s a n stream ∨ a % n ≠ 0) →
      exec (.hostAtomicop op w64 a x c stream) s = .next { s with out := s.out ++ [.unsupported] })) ∧
  ∀ (s : State) (d src b port req a : Nat),
    let mapped (n : Nat) : Prop := (s.part b).pastat ≠ 0 ∧ s.partBase b ≤ a ∧
      a + n ≤ s.partBase b + s.partSize b - s.poolSize b
    let ok : Prop := admitted s b d src port
    (∀ n, ok → mapped n → homesReady s (.peer d) a n false →
      ∃ t bs, exec (.peerRequest d src b port req a (.read n)) s = .next t ∧ t.mem = s.mem ∧
        t.out = s.out ++ [.answered d req bs] ∧ bs.length = n ∧ (plain s a n → bs = readBytes s.mem a n)) ∧
    (∀ bs : List Byte, ok → mapped bs.length → homesReady s (.peer d) a bs.length true →
      ∃ t, exec (.peerRequest d src b port req a (.write bs)) s = .next t ∧ t.out = s.out ++ [.answered d req []] ∧
      ∀ k, Memory.read t.mem k = if a ≤ k ∧ k < a + bs.length then nthD 0 bs (k - a) else Memory.read s.mem k) ∧
    (∀ (op : AtomOp) (z : Size) (x c : DWord), ok → (z = .n32 ∨ z = .s32 ∨ z = .n64 ∨ z = .s64) → mapped (sizeBytes z) →
      homesReady s (.peer d) a (sizeBytes z) true →
      let n := sizeBytes z
      let old := leValue (readBytes s.mem a n)
      ∃ t bs, exec (.peerRequest d src b port req a (.atomic op z x c)) s = .next t ∧
        t.out = s.out ++ [.answered d req bs] ∧ bs.length = n ∧
        (plain s a n → bs = leBytes n old ∧
          leValue (readBytes t.mem a n) =
            updated op z old (x.toNat % 2 ^ (8 * n)) (c.toNat % 2 ^ (8 * n)) % 2 ^ (8 * n)) ∧
        ∀ k, (k < a ∨ a + n ≤ k) → Memory.read t.mem k = Memory.read s.mem k) ∧
    (∀ op : PeerOp, (¬ ok ∨ ¬ mapped (PeerOp.size op)) →
      ∃ t, exec (.peerRequest d src b port req a op) s = .next t ∧ t.mem = s.mem ∧ rejected s t b d ∧
        t.out = s.out ++ [.refused d req])

/-- Writes to register pages (R243, R344, R364, R367, R392, R397, R404): an unaligned one or one past a page is
discarded; the table base, the peer map and the recovery registers keep their defined bits; counts clear on 0 only;
any write clears the machine-check registers. An access to BAR0 of another form than 4 or 8 aligned bytes reads all
ones or is discarded; the rest of it, the pages of ingress ports that the device has not among it, reads 0 and
discards writes (R392). The model's choice it rests on: log 61. -/
def Obligations.RegisterWrites : Prop :=
  (∀ (s : State) (page : RegPage) (off : Nat) (w64 : Bool) (v : DWord),
    (off % (if w64 then 8 else 4) ≠ 0 ∨ 0x1000 ≤ off) → exec (.registerWrite page off w64 v) s = .next s) ∧
  (∀ (s : State) (b : Nat) (v : DWord),
    (∃ t, exec (.registerWrite (.launch b) 0x190 true v) s = .next t ∧ { t with parts := s.parts } = s ∧
      t.part b = { s.part b with ptbase0 := v &&& 0x0000FFFFFFFFF001 }) ∧
    (∃ t, exec (.registerWrite (.launch b) 0x198 true v) s = .next t ∧ { t with parts := s.parts } = s ∧
      t.part b = { s.part b with ptbase1 := v &&& 0x0000FFFFFFFFF001 }) ∧
    (∀ d < 8, ∃ t, exec (.registerWrite (.launch b) (0x200 + 8 * d) false v) s = .next t ∧
      ∀ k, Tbl.get 0 (t.part b).peermap k =
        if k = d then v.setWidth 32 &&& 0x3F7 else Tbl.get 0 (s.part b).peermap k) ∧
    (∃ t, exec (.registerWrite (.launch b) 0x240 false v) s = .next t ∧ { t with parts := s.parts } = s ∧
      t.part b = { s.part b with ualrej := if v.setWidth 32 = (0 : Word) then 0 else (s.part b).ualrej }) ∧
    ((s.part b).tlbq.length < 16 → v.toNat = 1 → ∃ t, exec (.registerWrite (.launch b) 0x180 true v) s = .next t ∧
      { t with parts := s.parts } = s ∧
      t.part b = { s.part b with tlbreq := (s.part b).tlbreq + 1, tlbq := (s.part b).tlbq ++ [v] })) ∧
  (∀ (s : State) (p : Nat) (v : DWord),
    (p < 2 → ∃ t, exec (.registerWrite (.ingress p) 0x000 false v) s = .next t ∧ { t with ports := s.ports } = s ∧
      t.port p = { s.port p with ctl := v.setWidth 32 &&& 1 }) ∧
    (2 ≤ p → ∀ off w64, exec (.registerWrite (.ingress p) off w64 v) s = .next s) ∧
    (p < 2 → ∀ n < 64, ∃ t, exec (.registerWrite (.ingress p) (0x100 + 8 * n) true v) s = .next t ∧ { t with ports := s.ports } = s ∧
      ∀ k, t.strmOf p k = if k = n then v &&& 0x113FF else s.strmOf p k)) ∧
  (∀ (s : State) (v : DWord), s.mgmt.fwcmd = 0 →
    exec (.registerWrite .mgmt 0x410 false v) s =
      .next { s with mgmt := { s.mgmt with fwreclen := v.setWidth 32 &&& 0x1FFFFFF } }) ∧
  (∀ (s : State) (off : Nat),
    (∀ n, ((n ≠ 4 ∧ n ≠ 8) ∨ off % n ≠ 0) → s.bar0Read off n = List.replicate n 0xFF) ∧
    (∀ bs : List Byte, ((bs.length ≠ 4 ∧ bs.length ≠ 8) ∨ off % bs.length ≠ 0 ∨ (0x6000 ≤ off ∧ off < 0x8000) ∨ 0x9000 ≤ off) →
      s.bar0Write off bs = .next s) ∧
    (∀ b < 4, off = 0x1000 * b + 0x114 → s.bar0Read off 4 = leBytes 4 (s.part b).cqfree) ∧
    (off = 0x8000 → s.bar0Read off 4 = leBytes 4 s.mgmt.devnum.toNat) ∧
    (((0x6000 ≤ off ∧ off < 0x8000) ∨ 0x9000 ≤ off) → off % 4 = 0 → s.bar0Read off 4 = [0, 0, 0, 0]) ∧
    ∀ b < 4, ∀ bs : List Byte, bs.length = 4 → off = 0x1000 * b + 0x240 →
      s.bar0Write off bs = exec (.registerWrite (.launch b) 0x240 false (BitVec.ofNat 64 (leValue bs))) s) ∧
  ∀ (s : State) (b : Nat) (v : Word),
    ∃ t, exec (.mcstatWrite b v) s = .next t ∧ { t with parts := s.parts } = s ∧
      (∀ c, c ≠ b → t.part c = s.part c) ∧ t.part b = { s.part b with mcstat := 0, mcaddr := 0, mcgrid := 0 }
/-! ### The step, decoding, reset, invariants (R34-R48, R50, R69, R259-R263, R407) -/

/-- The group that the Pacer chooses at an opportunity at which g is ready is one of the ready groups of its slot: the oldest
that has been passed over 32 times, and if there is none, one whose engine has been idle longest, of equals the oldest (R259). Its
partner, if it has one, is ready at the same PC on the same slot of the same team with no lane in common, and the instruction is
one of those that pair (R261, R262). -/
def Sys2Proof.Claims.PacerChoice : Prop :=
  ∀ (s : State) (g : Nat),
    let c := s.pacerChoice g
    c ∈ s.rivals g ∧
      ((∃ h ∈ s.rivals g, s.forced h = true) →
        s.forced c = true ∧ ∀ h ∈ s.rivals g, s.forced h = true → s.older h c = false) ∧
      ((∀ h ∈ s.rivals g, s.forced h = false) → ∀ h ∈ s.rivals g,
        s.idleTime h ≤ s.idleTime c ∧ (s.idleTime h = s.idleTime c → s.older h c = false)) ∧
      ∀ h, s.partner g = some h →
        h ≠ g ∧ s.groupReady h = true ∧ s.sameSlot g h = true ∧ (s.group h).team = (s.group g).team ∧
          (s.group h).run.pc = (s.group g).run.pc ∧ (s.group g).run.mask &&& (s.group h).run.mask = 0 ∧
          ∃ i, s.nextInstr g = some i ∧ pairable i = true

/-- What follows a completed step of group g: an issue of a pair that waited behind it waits no longer (R263), and the state is the
next one, unless 64 instructions have been issued and the path gives way (R94, R257). -/
def Sys2Proof.Claims.StepSettles : Prop :=
  ∀ (s t : State) (g n : Nat) (i : Instr) (h : Option Nat),
    ((t.group g).run.waits = false → t.noteIssued s g n i h = t) ∧
    ((t.group g).run.waits = true →
      (t.noteIssued s g n i h).group g =
        { t.group g with run := { (t.group g).run with issued := some ⟨n, i, h, s.nextId⟩ } }) ∧
    ((∀ e ∈ t.groups, ∀ y, e.2.run.issued = some y → y.behind ≠ some g) →
      t.settled g = if 64 ≤ (t.group g).turn then exec (.pathTurnEnd g) t else .next t)

/-- A step runs the decoded instruction. When it is a ready group's turn and the Pacer chooses it, without a partner,
and no control state that it uses holds an uncorrectable error (R276), the step is the instruction decoded from the
code line at the group's PC, in the state that counts the groups passed over and the engine's use, names the group
and its line's n, and has marked the code page accessed and its translation cached; an instruction whose accesses
wait is noted as issued and goes on by itself (R258). A pair issues one after the other, the older first, and the
younger waits behind it (R263). A trap that a failed request or a report brings, and the instruction that goes on,
are no issues. The same for a walk whose turn it is, when its code line is at hand and its context storage holds no
error. An event is its execution, but where the engine meets an error (R276); an access from outside comes in the
order of its sender, and the homes that held lines for it let them go (R292, R297); accesses to BAR0 are performed
behind those that the host made before (R392, R393). With nothing that comes from outside, the step is one of the
machine's moves (R35, R37, R48, R94, R199, R259, R317, R319). The model's choices it rests on: logs 2, 16 and 21. -/
def Obligations.StepRunsDecoded : Prop :=
  (∀ (s : State) (g : Nat) (rest : List Turn),
    let s0 := { s.ticked with agenda := rest }
    s.off = false → s.mgmt.overheated = false → s.mgmt.fwstate ≠ 0 → s.agenda = .group g :: rest →
    (s0.proceeds g = false → s0.groupReady g = true → s0.pacerChoice g = g → s0.controlError g = false →
      (∀ (bs : List Byte) (x : Xlat) (i : Instr),
        let s1 := ((s0.engineTaken g).passOver g none).begun g
        let l := halvesOfBytes bs
        let at_ := s1.cg.run.pc.toNat % 64
        s0.partner g = none → s1.fetchBytes = .ok (bs, x) → lineWellFormed l = true → at_ % 2 = 0 → 0 < at_ →
        at_ / 2 ≤ lineN l → decodeAt l (at_ / 2) = .ok i →
        step s = settle g (mapNext (exec i (s1.fetched (lineN l) x)) fun u =>
            u.noteIssued ((s0.engineTaken g).passOver g none) g (lineN l) i none) ∧
          ((∀ t, exec i (s1.fetched (lineN l) x) ≠ .next t) → step s = exec i (s1.fetched (lineN l) x)) ∧
          ∀ t, exec i (s1.fetched (lineN l) x) = .next t → (t.group g).run.waits = false → (t.group g).turn < 64 →
            (∀ e ∈ t.groups, ∀ y, e.2.run.issued = some y → y.behind ≠ some g) → step s = .next t) ∧
      ∀ h : Nat, s0.partner g = some h →
        let s1 := (s0.engineTaken g).passOver g (some h)
        let a := if s1.older h g then h else g
        let b := if s1.older h g then g else h
        ∀ t, s1.issueOne a = .next t → (t.group b).live = true → (t.group b).run = (s1.group b).run →
          step s = settle a
            (if (t.group a).run.issued.isSome then .next (t.issueBehind a b) else settle b (t.issueOne b))) ∧
    (s0.proceeds g = true → step s = settle g (s0.proceed g) ∧
      (∀ f, (s0.group g).run.failed = some f →
        s0.proceed g = .next (((s0.begun g).setRun { (s0.begun g).cg.run with failed := none }).takeTrap f)) ∧
      ∀ y, (s0.group g).run.failed = none → (s0.group g).run.issued = some y →
        s0.proceed g = exec y.instr { s0.begun g with curN := y.n })) ∧
  StepSettles ∧
  (∀ (s : State) (w : Nat) (rest : List Turn) (bs : List Byte) (i : Instr),
    let s0 := { s.ticked with agenda := rest }
    let s1 := { s0.setCore (w / 64) { s0.core (w / 64) with lastWalk := w % 64 } with curWalk := w }
    s.off = false → s.mgmt.overheated = false → s.mgmt.fwstate ≠ 0 → s.agenda = .walk w :: rest →
    s0.nextWalk (w / 64) = some w → .walker w ∉ s0.poison →
    s1.cw.qb ≠ [] → s1.cw.inside s1.cw.pc.toNat = true → s1.codeMiss w = none →
    s1.walkRead w s1.cw.pc.toNat 4 = .bytes bs →
    (decodeWalker (s1.codeWord w bs) = some i → step s = exec i (s1.walkTouched w s1.cw.pc.toNat)) ∧
      ∀ loc pa a l z, s1.walkXlat w s1.cw.pc.toNat = .ok loc pa a l z →
        Tbl.get 0 s1.stamps ((loc * 2 ^ 48 + pa) / 64) ≤ s1.cw.prog.since → s1.codeWord w bs = BitVec.ofNat 32 (leValue bs)) ∧
  (∀ (s : State) (rest : List Turn),
    let s0 := { s.ticked with agenda := rest }
    s.off = false → s.mgmt.overheated = false → s.mgmt.fwstate ≠ 0 →
    (∀ i, s.agenda = .event i :: rest → (∀ ch, flightChannel i = some ch → ch.2.1 ≠ outsideAgent) →
      (s0.engineMeets i = none → step s = exec i s0) ∧
      ∀ c, s0.engineMeets i = some c → step s = .next (s0.controlCheck (corePart c))) ∧
    (∀ i t, s.agenda = .event i :: rest → channelBusy s0.flight i = false → exec i s0 = .next t →
      ((∃ page off w64 v, i = .registerWrite page off w64 v) ∨ (∃ b n v, i = .lqtailWrite b n v) ∨
          (∃ b n v, i = .lqctlWrite b n v) ∨ (∃ b v, i = .ctxctlSwapRequest b v) ∨ (∃ b v, i = .tlbinvWrite b v) ∨
          (∃ b v, i = .mcstatWrite b v) → step s = .next t) ∧
      (∀ g a n write,
        ((∃ stream, i = .hostBar2Read a n stream ∧ g = .host ∧ write = false ∧ served s0 a n stream) ∨
          (∃ bytes stream, i = .hostBar2Write a bytes stream ∧ g = .host ∧ n = bytes.length ∧ write = true ∧
            served s0 a n stream) ∨
          (∃ op w64 v c stream, i = .hostAtomicop op w64 a v c stream ∧ g = .host ∧ n = (if w64 then 8 else 4) ∧ write = true ∧
            served s0 a n stream ∧ a % n = 0) ∨
          (∃ d src b port req op, i = .peerRequest d src b port req a op ∧ g = .peer d ∧ n = PeerOp.size op ∧
            write = PeerOp.writes op ∧ s0.peerServed d src b port a op = true)) →
        homesReady s0 g a n write → step s = .next (t.letGo g (linesOf a n)))) ∧
    (∀ off n, s.agenda = .bar0Read off n :: rest → s0.hostBehind = false →
      step s = .next { s0 with out := s0.out ++ [.data (s0.bar0Read off n)] }) ∧
    (∀ off bs t, s.agenda = .bar0Write off bs :: rest → s0.hostBehind = false → s0.bar0Write off bs = .next t →
      step s = .next t) ∧
    ∀ u off n bs, (u = .bar0Read off n ∨ u = .bar0Write off bs) → s.agenda = u :: rest → s0.hostBehind = true →
      step s = { s0 with agenda := u :: rest }.anyMove) ∧
  (∀ (s : State), s.off = false → s.mgmt.overheated = false → s.mgmt.fwstate ≠ 0 → s.agenda = [] →
    (s.ticked.moves = [] → step s = .next s.ticked) ∧
    (s.ticked.moves ≠ [] → ∃ m ∈ s.ticked.moves, step s = s.ticked.perform m)) ∧
  ∀ (s : State), s.off = false → s.mgmt.overheated = true → ∃ t, step s = .next t ∧ t.off = true

/-- Words written out from the spec's encodings decode to their instructions: the worked encodings of the chapters "Code
Lines and Instruction Format", "Opcode Map" and "Integer, Address and Lane Floating-Point Instructions", a store, an atomic
and Walker words (R42, R45, R49, R58, R61-R66, R69). -/
def Obligations.DecodedWords : Prop :=
  decodeCore 0x3901 [0x0001, 0x0000, 0x5678, 0x1234] = .ok (.movi ⟨0, false⟩ ⟨false, .n32, 1, 0x12345678⟩) ∧
    decodeCore 0x3854 [0x0102] = .ok (.mov ⟨2, true⟩ 2 1) ∧
    decodeCore 0x0200 [] = .ok (.exit ⟨0, false⟩) ∧
    decodeCore 0x60C3 [0x0B0A, 0x2A0C, 0x000D] = .ok (.fma ⟨0, false⟩ ⟨false, .rtz, .f32, 10, 11, 12, 13⟩) ∧
    decodeCore 0xB0C0 [0x0602, 0x5404, 0x0008] = .ok (.ld ⟨0, false⟩ ⟨.acq, .x, .n32, 2, 6, 4, 8⟩) ∧
    decodeCore 0xB0C0 [0x0602, 0x9404, 0x0008] = .error ⟨0xB0C0, 4⟩ ∧
    decodeCore 0x3481 [0x0403, 0x2105] = .ok (.cmp ⟨0, false⟩ ⟨false, .lt, .s32, 3, 4, 5⟩) ∧
    decodeCore 0x32C0 [0x0201, 0x0100, 0x0808] = .ok (.bfx ⟨0, false⟩ ⟨false, .s32, 1, 2, 0, 8, 8⟩) ∧
    decodeCore 0x0603 [] = .error ⟨0x0603, 0⟩ ∧ decodeCore 0x0040 [0] = .error ⟨0x0040, 1⟩ ∧
    decodeWalker 0x60221800 = some (.wadd ⟨1, 2, 3, false, false⟩) ∧
    decodeWalker 0x40000004 = some (.j 4) ∧ decodeWalker 0x30000000 = some .done ∧ decodeWalker 0 = none

/-- Every core instruction that is well formed decodes from its own encoding: its head states the length of its tail, and
head and tail give back the instruction with every operand (R42, R45, R58). -/
def Obligations.CoreEncodingDecodes : Prop :=
  ∀ i : Instr, i.isCore = true → i.wf = true →
    ∃ h t, encode i = h :: t ∧ headT h = t.length ∧ decodeCore h t = .ok i

/-- Every well-formed Walker instruction decodes from its own word (R49, R69, R216). -/
def Obligations.WalkerEncodingDecodes : Prop :=
  ∀ i : Instr, i.isWalker = true → i.wf = true → decodeWalker (walkerWord (encode i)) = some i

/-- At device reset start-up is in state 0 and the eight measurements are 0, and the first step leaves for state 1 with fwmr
0 extended by the boot ROM (R407, R409). No partition is assigned (R401), nothing runs, and memory is canonical: that
nothing of memory or of a register without a stated reset value is listed is the model's choice (logs 3 and 4). -/
def Obligations.ResetState : Prop :=
  State.reset.mgmt.fwstate = 0 ∧ (∀ k, Tbl.get 0 State.reset.mgmt.fwmr k = 0) ∧
    (∀ b, (State.reset.part b).pastat = 0) ∧ State.reset.groups = [] ∧ State.reset.walks = [] ∧
    MemoryInv State.reset ∧
    ∃ t, step State.reset = .next t ∧ t.mgmt.fwstate = 1 ∧ (∀ k, k ≠ 0 → Tbl.get 0 t.mgmt.fwmr k = 0) ∧
      Tbl.get 0 t.mgmt.fwmr 0 =
        BitVec.ofNat 256 (leValue (sha256 (List.replicate 32 0 ++ leBytes 4 Config.romVersion.toNat ++
          Config.rootKeyHash ++ leBytes 4 Config.fusedSvn.toNat ++ leBytes 8 Config.siteFuses.toNat)))

/-- Every step keeps local memory in its canonical form: addresses strictly rising and no byte listed that reads as an
unlisted one (the model's form of memory). The model's choice it rests on: log 4. -/
def Obligations.StepKeepsMemory : Prop :=
  ∀ s t : State, MemoryInv s → step s = .next t → MemoryInv t

/-! ### Statements by family -/

/-- Integer arithmetic, logic, shifts, counts, division and multiply-add of every type, in v registers by lane and in
s registers by the uniform forms, with their frames (R116, R117, R121-R124). -/
def Obligations.IntegerArithmetic : Prop :=
  Claims.IntegerTwoSourceResults ∧ Claims.IntegerImmediateResults ∧ Claims.IntegerOneSourceResults ∧ Claims.DivisionResults ∧ Claims.MultiplyAddResult

/-- cmp, sel, shfl, mov and mov between files, with p0 that stays true and the markers that copies carry (R14, R31,
R127, R128, R131, R132). The model's choice it rests on: log 68. -/
def Obligations.CompareAndCopy : Prop :=
  Claims.CompareResults ∧ Claims.CopyResults ∧ Claims.MoveFileResults

/-- Lane floating point: exact results rounded once, sign operations, comparisons, flags and frames (R71-R74,
R137-R145). The model's choice it rests on: log 13. -/
def Obligations.FloatResults : Prop :=
  Claims.FloatTwoSourceResults ∧ Claims.FloatOtherResults ∧ Claims.FloatCompareResult

/-- Variable precision: values rounded to the lane's precision, copies, conversions and comparisons, with their frames
(R86, R87, R147-R157). -/
def Obligations.VpResults : Prop :=
  Claims.VpArithmeticResults ∧ Claims.VpOtherResults

/-- FP_TRAP on an enabled flag and PREC_EXHAUSTED on a window too small, before anything is written (R74, R150). -/
def Obligations.FlagAndWindowTraps : Prop :=
  Claims.FloatTrap ∧ Claims.WindowTooSmall

/-- ld completes where its accesses can be read, what it reads are the bytes of local memory in little-endian order, and
an uncorrectable error is DATA_ERROR (R6, R173-R178, R276). The model's choices it rests on: logs 1 and 8. -/
def Obligations.LoadResults : Prop :=
  Claims.LoadResult ∧ Claims.LoadReadsBytes ∧ Claims.LoadDataError

/-- lds, sts, pushm and popm reach the scratchpad and nothing else (R20-R22, R179-R181). The model's choice it rests on:
log 58. -/
def Obligations.ScratchpadAndStack : Prop :=
  Claims.ScratchpadResults ∧ Claims.StackResults

/-- Variable-precision loads and stores, xnext, window allocation and frames (R158-R168). The model's choices it rests
on: logs 1 and 78. -/
def Obligations.VpMemoryAndFrames : Prop :=
  Claims.VpMemoryResults ∧ Claims.FrameResults

/-- atom, near and red update memory lane by lane, a gather reads consecutive elements, and atomics of host and peer
memory are asked of their owner (R173, R175, R182-R184, R395). The model's choices it rests on: logs 1, 60 and 70. -/
def Obligations.MemoryAtomics : Prop :=
  Claims.AtomicResults ∧ Claims.NearMemoryResults ∧ Claims.RemoteAtomics

/-- exit, yield and nop, tret and halt (R94, R98, R99, R113, R114). -/
def Obligations.ExitYieldReturnHalt : Prop :=
  Claims.ExitAndYield ∧ Claims.ReturnAndHalt

/-- Taking a trap: what is saved, where the path goes, a second trap in a handler, the causes of decode and of trap and
brk, where an access traps or has a page fault, and the table walk (R12, R13, R31, R102, R173, R174, R341,
R358-R361). The model's choices it rests on: logs 12 and 66. -/
def Obligations.TrapEntries : Prop :=
  Claims.SoftwareTraps ∧ Claims.TrapEntry ∧ Claims.TrapCauses ∧ Claims.AccessTraps ∧ Claims.TableWalk

/-- Convergence barriers and votes (R100, R103). -/
def Obligations.ConvergenceAndVote : Prop :=
  Claims.ConvergenceResults ∧ Claims.VoteResults

/-- semset, semadd and semwait (R104, R105). The model's choice it rests on: log 22. -/
def Obligations.Semaphores : Prop :=
  Claims.SemaphoreUpdates ∧ Claims.SemaphoreWait

/-- The team barrier and the cluster's rectangle barrier (R106, R107). -/
def Obligations.Barriers : Prop :=
  Claims.TeamBarrier ∧ Claims.RectangleBarrier

/-- getc and setc by register (R24-R28, R111, R112). The model's choice it rests on: log 68. -/
def Obligations.ControlRegisters : Prop :=
  Claims.ControlRead ∧ Claims.ControlWrite

/-- The mma forms enter the tile queue with the ranges of their operands (R197-R205). The model's choice it rests on:
log 29. -/
def Obligations.MatrixCommands : Prop :=
  Claims.MatrixIssue ∧ Claims.MatrixRanges

/-- acc.zero, acc.ld, acc.st and copy enter their queues (R197, R207-R209). The model's choice it rests on: log 29. -/
def Obligations.TileAndCopyCommands : Prop :=
  Claims.AccumulatorIssue ∧ Claims.CopyIssue

/-- wlaunch, wtake, wpoll and wcancel (R237-R241). The model's choice it rests on: log 74. -/
def Obligations.WalkCommands : Prop :=
  Claims.WalkLaunch ∧ Claims.QueueResults ∧ Claims.WalkCancel

/-- wuacfg, wuarun, what a run makes, slotfree and slotstat (R379-R389). The model's choices it rests on: logs 29, 31,
34, 35 and 67. -/
def Obligations.WarmupAndRings : Prop :=
  Claims.WarmupIssue ∧ Claims.RingResults ∧ Claims.WarmupRun

/-- Scalar Walker instructions and branches (R212, R218-R220, R222). The model's choice it rests on: log 17. -/
def Obligations.WalkScalars : Prop :=
  Claims.WalkScalarResults ∧ Claims.WalkBranches

/-- wld, ndec and nfetch (R215, R221, R224, R225). -/
def Obligations.WalkFields : Prop :=
  Claims.WalkFieldResults ∧ Claims.NodeFetch

/-- tbox and ttri where the spec states every product (R226, R227, R322, R323). The model's choice it rests on: log 20. -/
def Obligations.WalkTests : Prop :=
  Claims.BoxTest ∧ Claims.TriangleTest

/-- spush, spop, emit, ckpt, relay and done (R223, R230-R233, R329). The model's choices it rests on: logs 18 and 73. -/
def Obligations.WalkStackAndReleases : Prop :=
  Claims.WalkStackResults ∧ Claims.WalkReleases

/-- Steps of groups that no instruction makes, and the checks of arrival at a PC, and the Pacer's choice (R36, R44, R48,
R59, R70, R94, R105, R109, R114, R199, R259-R262). The model's choice it rests on: log 21. -/
def Obligations.GroupsAndArrivals : Prop :=
  Claims.GroupEvents ∧ Claims.ArrivalTraps ∧ Claims.PacerChoice

/-- The home's transitions for requests and for answers (R275, R296-R301). The model's choices it rests on: logs 1, 8, 9
and 69. -/
def Obligations.HomeEvents : Prop :=
  Claims.HomeRequests ∧ Claims.HomeAnswers

/-- Fault messages and replies, and invalidation requests (R114, R344, R346-R350, R364). The model's choices it rests
on: logs 33 and 72. -/
def Obligations.FaultMessages : Prop :=
  Claims.MailboxEvents ∧ Claims.InvalidationEvents

/-- Launch queues, the dispatcher's turn, the check of a record and its counter (R243-R248). The model's choices it
rests on: logs 37, 38 and 39. -/
def Obligations.QueuesAndLaunches : Prop :=
  Claims.QueueRegisters ∧ Claims.LaunchEvents

/-- Placing teams, retiring them and ending a grid (R249-R256). The model's choices it rests on: logs 43 and 44. -/
def Obligations.DispatchAndEnd : Prop :=
  Claims.DispatchStart ∧ Claims.GridEnd

/-- Image ingress: frames, held lines, flow control, links and unbinding (R366-R377). The model's choices it rests on:
logs 14 and 30. -/
def Obligations.IngressEvents : Prop :=
  Claims.LineFrames ∧ Claims.PortEvents ∧ Claims.FlowControl

/-- Assignment, release and reset of partitions (R402, R409). The model's choices it rests on: logs 14, 45, 46 and 47. -/
def Obligations.PartitionCommands : Prop :=
  Claims.PartitionAssigned ∧ Claims.PartitionEnded

/-- Images are verified before anything of them runs, recovery and storing, and stage 1 (R405-R408, R413, R417). The
model's choices it rests on: logs 10, 14 and 48. -/
def Obligations.StartUp : Prop :=
  Claims.ImageCommands ∧ Claims.StageOne

/-- Partition keys, SPDM requests, clocks, power-off and the fatal-error dump (R404, R410-R412, R415-R418). The model's
choices it rests on: logs 10, 14, 40, 49 and 75. -/
def Obligations.KeysAndPower : Prop :=
  Claims.PartitionKeys ∧ Claims.SpdmRequests ∧ Claims.PowerEvents ∧ Claims.FatalDump

/-- The bytes of a relay message, and what a peer does with those it receives (R6, R332, R334, R335, R336, R337, R398).
The model's choices it rests on: logs 32, 64 and 73. -/
def Obligations.RelayAtPeer : Prop :=
  Claims.MessageBytes ∧ Claims.WalkMessages ∧ Claims.MessagesAtPeer

/-- Relay messages that the origin receives (R240, R336, R337). The model's choice it rests on: log 73. -/
def Obligations.RelayAtOrigin : Prop :=
  Claims.MessagesAtOrigin ∧ Claims.CancelledWalks

/-- Links that come and go, and answers of the host and of peers (R275, R303, R338, R394, R397, R399). The model's
choices it rests on: logs 65 and 70. -/
def Obligations.LinksAndAnswers : Prop :=
  Claims.LinkEvents ∧ Claims.RemoteAnswers
end

