-- ==== Sys2Proof/Laws/Table.lean ====
section
/-! SUPPORT. Sparse tables: reading after writing, and the canonical form kept by every write. -/
namespace Sys2Proof.Machine

open Sys2Proof

variable {α : Type}

/-! Reading after writing. -/

theorem Tbl.find_put (t : Tbl α) (k j : Nat) (v : α) :
    Tbl.find (Tbl.put t k v) j = if j = k then some v else Tbl.find t j := by
  induction t with
  | nil => simp [Tbl.put, Tbl.find, eq_comm]
  | cons e r ih =>
    rw [Tbl.put]
    split_ifs <;> grind [Tbl.find]

@[simp] theorem Tbl.get_put (d : α) (t : Tbl α) (k j : Nat) (v : α) :
    Tbl.get d (Tbl.put t k v) j = if j = k then v else Tbl.get d t j := by
  unfold Tbl.get
  rw [Tbl.find_put]
  by_cases h : j = k <;> simp [h]

theorem Tbl.find_erase (t : Tbl α) (k j : Nat) :
    Tbl.find (Tbl.erase t k) j = if j = k then none else Tbl.find t j := by
  induction t with
  | nil => simp [Tbl.erase, Tbl.find]
  | cons e r ih =>
    unfold Tbl.erase at *
    rw [List.filter_cons]
    split_ifs <;> grind [Tbl.find]

@[simp] theorem Tbl.get_erase (d : α) (t : Tbl α) (k j : Nat) :
    Tbl.get d (Tbl.erase t k) j = if j = k then d else Tbl.get d t j := by
  unfold Tbl.get
  rw [Tbl.find_erase]
  by_cases h : j = k <;> simp [h]

@[simp] theorem Tbl.get_set [DecidableEq α] (d : α) (t : Tbl α) (k j : Nat) (v : α) :
    Tbl.get d (Tbl.set d t k v) j = if j = k then v else Tbl.get d t j := by
  unfold Tbl.set
  split
  · subst_vars; simp
  · simp

/-! The canonical form. -/

theorem Tbl.risingFrom_cons {lo : Nat} {e : Nat × α} {r : Tbl α} :
    Tbl.risingFrom lo (e :: r) = true ↔ lo ≤ e.1 ∧ Tbl.risingFrom (e.1 + 1) r = true := by
  rw [Tbl.risingFrom, Bool.and_eq_true, decide_eq_true_iff]

theorem Tbl.risingFrom_mono {lo lo' : Nat} {t : Tbl α} (h : lo' ≤ lo) (ht : Tbl.risingFrom lo t = true) :
    Tbl.risingFrom lo' t = true :=
  match t with
  | [] => rfl
  | _ :: _ => Tbl.risingFrom_cons.2 ((Tbl.risingFrom_cons.1 ht).imp_left h.trans)

theorem Tbl.risingFrom_put {lo k : Nat} {t : Tbl α} {v : α} (hk : lo ≤ k) (ht : Tbl.risingFrom lo t = true) :
    Tbl.risingFrom lo (Tbl.put t k v) = true := by
  induction t generalizing lo with
  | nil => exact Tbl.risingFrom_cons.2 ⟨hk, rfl⟩
  | cons e r ih =>
    have hr := Tbl.risingFrom_cons.1 ht
    rw [Tbl.put]
    split_ifs with h1 h2
    · exact Tbl.risingFrom_cons.2 ⟨hk, Tbl.risingFrom_cons.2 ⟨h1, hr.2⟩⟩
    · exact Tbl.risingFrom_cons.2 (h2 ▸ hr)
    · exact Tbl.risingFrom_cons.2 (hr.imp_right (ih (show e.1 < k by omega)))

theorem Tbl.risingFrom_filter {lo : Nat} {t : Tbl α} (f : Nat × α → Bool) (ht : Tbl.risingFrom lo t = true) :
    Tbl.risingFrom lo (t.filter f) = true := by
  induction t generalizing lo with
  | nil => rfl
  | cons e r ih =>
    have hr := Tbl.risingFrom_cons.1 ht
    rw [List.filter_cons]
    split_ifs
    · exact Tbl.risingFrom_cons.2 (hr.imp_right ih)
    · exact ih (Tbl.risingFrom_mono (hr.1.trans e.1.le_succ) hr.2)

theorem Tbl.mem_put {t : Tbl α} {k : Nat} {v : α} {e : Nat × α} (h : e ∈ Tbl.put t k v) : e = (k, v) ∨ e ∈ t := by
  induction t with
  | nil => exact .inl (List.mem_singleton.1 h)
  | cons a r ih =>
    rw [Tbl.put] at h
    split_ifs at h <;> grind

theorem Tbl.wf_filter [DecidableEq α] {d : α} {t : Tbl α} (f : Nat × α → Bool) (h : Tbl.wf d t = true) :
    Tbl.wf d (t.filter f) = true := by
  simp only [Tbl.wf, Bool.and_eq_true, List.all_eq_true, decide_eq_true_eq] at *
  exact ⟨Tbl.risingFrom_filter f h.1, fun e he => h.2 e (List.mem_of_mem_filter he)⟩

theorem Tbl.wf_erase [DecidableEq α] {d : α} {t : Tbl α} (k : Nat) (h : Tbl.wf d t = true) :
    Tbl.wf d (Tbl.erase t k) = true := Tbl.wf_filter _ h

theorem Tbl.wf_set [DecidableEq α] {d : α} {t : Tbl α} (k : Nat) (v : α) (h : Tbl.wf d t = true) :
    Tbl.wf d (Tbl.set d t k v) = true := by
  unfold Tbl.set
  split_ifs with hv
  · exact Tbl.wf_erase k h
  · simp only [Tbl.wf, Bool.and_eq_true, List.all_eq_true, decide_eq_true_eq] at *
    exact ⟨Tbl.risingFrom_put (Nat.zero_le _) h.1, fun e he => (Tbl.mem_put he).elim (fun h' => h' ▸ hv) (h.2 e)⟩

/-! Local memory. -/

@[simp] theorem Memory.read_write (m : Memory) (a b : Nat) (x : Byte) :
    Memory.read (Memory.write m a x) b = if b = a then x else Memory.read m b := Tbl.get_set ..

theorem Memory.wf_write {m : Memory} (a : Nat) (x : Byte) (h : Memory.wf m = true) :
    Memory.wf (Memory.write m a x) = true := Tbl.wf_set a x h

theorem Memory.wf_filter {m : Memory} (f : Host.Cell → Bool) (h : Memory.wf m = true) :
    Memory.wf (m.filter f) = true := Tbl.wf_filter f h

end Sys2Proof.Machine
end

