-- ==== Sys2Proof/Laws/State.lean ====
section
/-! SUPPORT. What each update of the state and of a group leaves of every field (true by rfl), and what a holder reads
after its own update. -/
namespace Sys2Proof.Machine

open Sys2Proof

section
variable (s : State) (k j : Nat)

@[simp] theorem setGroup_agenda (x : Group) : (s.setGroup k x).agenda = s.agenda := rfl
@[simp] theorem setGroup_flight (x : Group) : (s.setGroup k x).flight = s.flight := rfl
@[simp] theorem setGroup_tick (x : Group) : (s.setGroup k x).tick = s.tick := rfl
@[simp] theorem setGroup_now (x : Group) : (s.setGroup k x).now = s.now := rfl
@[simp] theorem setGroup_nextId (x : Group) : (s.setGroup k x).nextId = s.nextId := rfl
@[simp] theorem setGroup_off (x : Group) : (s.setGroup k x).off = s.off := rfl
@[simp] theorem setGroup_cur (x : Group) : (s.setGroup k x).cur = s.cur := rfl
@[simp] theorem setGroup_curWalk (x : Group) : (s.setGroup k x).curWalk = s.curWalk := rfl
@[simp] theorem setGroup_curN (x : Group) : (s.setGroup k x).curN = s.curN := rfl
@[simp] theorem setGroup_groups (x : Group) : (s.setGroup k x).groups = Tbl.put s.groups k x := rfl
@[simp] theorem setGroup_teams (x : Group) : (s.setGroup k x).teams = s.teams := rfl
@[simp] theorem setGroup_clusters (x : Group) : (s.setGroup k x).clusters = s.clusters := rfl
@[simp] theorem setGroup_cores (x : Group) : (s.setGroup k x).cores = s.cores := rfl
@[simp] theorem setGroup_quads (x : Group) : (s.setGroup k x).quads = s.quads := rfl
@[simp] theorem setGroup_walks (x : Group) : (s.setGroup k x).walks = s.walks := rfl
@[simp] theorem setGroup_parts (x : Group) : (s.setGroup k x).parts = s.parts := rfl
@[simp] theorem setGroup_ctxs (x : Group) : (s.setGroup k x).ctxs = s.ctxs := rfl
@[simp] theorem setGroup_grids (x : Group) : (s.setGroup k x).grids = s.grids := rfl
@[simp] theorem setGroup_mem (x : Group) : (s.setGroup k x).mem = s.mem := rfl
@[simp] theorem setGroup_dir (x : Group) : (s.setGroup k x).dir = s.dir := rfl
@[simp] theorem setGroup_nodeLines (x : Group) : (s.setGroup k x).nodeLines = s.nodeLines := rfl
@[simp] theorem setGroup_nodeMiss (x : Group) : (s.setGroup k x).nodeMiss = s.nodeMiss := rfl
@[simp] theorem setGroup_copies (x : Group) : (s.setGroup k x).copies = s.copies := rfl
@[simp] theorem setGroup_l2 (x : Group) : (s.setGroup k x).l2 = s.l2 := rfl
@[simp] theorem setGroup_stamps (x : Group) : (s.setGroup k x).stamps = s.stamps := rfl
@[simp] theorem setGroup_poison (x : Group) : (s.setGroup k x).poison = s.poison := rfl
@[simp] theorem setGroup_keyTag (x : Group) : (s.setGroup k x).keyTag = s.keyTag := rfl
@[simp] theorem setGroup_tlbs (x : Group) : (s.setGroup k x).tlbs = s.tlbs := rfl
@[simp] theorem setGroup_mails (x : Group) : (s.setGroup k x).mails = s.mails := rfl
@[simp] theorem setGroup_remotes (x : Group) : (s.setGroup k x).remotes = s.remotes := rfl
@[simp] theorem setGroup_relayHeld (x : Group) : (s.setGroup k x).relayHeld = s.relayHeld := rfl
@[simp] theorem setGroup_ports (x : Group) : (s.setGroup k x).ports = s.ports := rfl
@[simp] theorem setGroup_mgmt (x : Group) : (s.setGroup k x).mgmt = s.mgmt := rfl
@[simp] theorem setGroup_out (x : Group) : (s.setGroup k x).out = s.out := rfl
@[simp] theorem setGroup_at_team (x : Group) : (s.setGroup k x).team j = s.team j := rfl
@[simp] theorem setGroup_at_cluster (x : Group) : (s.setGroup k x).cluster j = s.cluster j := rfl
@[simp] theorem setGroup_at_core (x : Group) : (s.setGroup k x).core j = s.core j := rfl
@[simp] theorem setGroup_at_quad (x : Group) : (s.setGroup k x).quad j = s.quad j := rfl
@[simp] theorem setGroup_at_walk (x : Group) : (s.setGroup k x).walk j = s.walk j := rfl
@[simp] theorem setGroup_at_part (x : Group) : (s.setGroup k x).part j = s.part j := rfl
@[simp] theorem setGroup_at_ctx (x : Group) : (s.setGroup k x).ctx j = s.ctx j := rfl
@[simp] theorem setGroup_at_grid (x : Group) : (s.setGroup k x).grid j = s.grid j := rfl
@[simp] theorem setGroup_at_mail (x : Group) : (s.setGroup k x).mail j = s.mail j := rfl
@[simp] theorem setGroup_at_remote (x : Group) : (s.setGroup k x).remote j = s.remote j := rfl
@[simp] theorem setGroup_at_port (x : Group) : (s.setGroup k x).port j = s.port j := rfl
@[simp] theorem setGroup_at_dirOf (x : Group) : (s.setGroup k x).dirOf j = s.dirOf j := rfl
theorem setGroup_at_group (x : Group) : (s.setGroup k x).group j = if j = k then x else s.group j := by
  simp [State.group, Tbl.get_put]
@[simp] theorem setGroup_at_self (x : Group) : (s.setGroup k x).group k = x := by simp [setGroup_at_group]

@[simp] theorem setTeam_agenda (x : Team) : (s.setTeam k x).agenda = s.agenda := rfl
@[simp] theorem setTeam_flight (x : Team) : (s.setTeam k x).flight = s.flight := rfl
@[simp] theorem setTeam_tick (x : Team) : (s.setTeam k x).tick = s.tick := rfl
@[simp] theorem setTeam_now (x : Team) : (s.setTeam k x).now = s.now := rfl
@[simp] theorem setTeam_nextId (x : Team) : (s.setTeam k x).nextId = s.nextId := rfl
@[simp] theorem setTeam_off (x : Team) : (s.setTeam k x).off = s.off := rfl
@[simp] theorem setTeam_cur (x : Team) : (s.setTeam k x).cur = s.cur := rfl
@[simp] theorem setTeam_curWalk (x : Team) : (s.setTeam k x).curWalk = s.curWalk := rfl
@[simp] theorem setTeam_curN (x : Team) : (s.setTeam k x).curN = s.curN := rfl
@[simp] theorem setTeam_groups (x : Team) : (s.setTeam k x).groups = s.groups := rfl
@[simp] theorem setTeam_teams (x : Team) : (s.setTeam k x).teams = Tbl.put s.teams k x := rfl
@[simp] theorem setTeam_clusters (x : Team) : (s.setTeam k x).clusters = s.clusters := rfl
@[simp] theorem setTeam_cores (x : Team) : (s.setTeam k x).cores = s.cores := rfl
@[simp] theorem setTeam_quads (x : Team) : (s.setTeam k x).quads = s.quads := rfl
@[simp] theorem setTeam_walks (x : Team) : (s.setTeam k x).walks = s.walks := rfl
@[simp] theorem setTeam_parts (x : Team) : (s.setTeam k x).parts = s.parts := rfl
@[simp] theorem setTeam_ctxs (x : Team) : (s.setTeam k x).ctxs = s.ctxs := rfl
@[simp] theorem setTeam_grids (x : Team) : (s.setTeam k x).grids = s.grids := rfl
@[simp] theorem setTeam_mem (x : Team) : (s.setTeam k x).mem = s.mem := rfl
@[simp] theorem setTeam_dir (x : Team) : (s.setTeam k x).dir = s.dir := rfl
@[simp] theorem setTeam_nodeLines (x : Team) : (s.setTeam k x).nodeLines = s.nodeLines := rfl
@[simp] theorem setTeam_nodeMiss (x : Team) : (s.setTeam k x).nodeMiss = s.nodeMiss := rfl
@[simp] theorem setTeam_copies (x : Team) : (s.setTeam k x).copies = s.copies := rfl
@[simp] theorem setTeam_l2 (x : Team) : (s.setTeam k x).l2 = s.l2 := rfl
@[simp] theorem setTeam_stamps (x : Team) : (s.setTeam k x).stamps = s.stamps := rfl
@[simp] theorem setTeam_poison (x : Team) : (s.setTeam k x).poison = s.poison := rfl
@[simp] theorem setTeam_keyTag (x : Team) : (s.setTeam k x).keyTag = s.keyTag := rfl
@[simp] theorem setTeam_tlbs (x : Team) : (s.setTeam k x).tlbs = s.tlbs := rfl
@[simp] theorem setTeam_mails (x : Team) : (s.setTeam k x).mails = s.mails := rfl
@[simp] theorem setTeam_remotes (x : Team) : (s.setTeam k x).remotes = s.remotes := rfl
@[simp] theorem setTeam_relayHeld (x : Team) : (s.setTeam k x).relayHeld = s.relayHeld := rfl
@[simp] theorem setTeam_ports (x : Team) : (s.setTeam k x).ports = s.ports := rfl
@[simp] theorem setTeam_mgmt (x : Team) : (s.setTeam k x).mgmt = s.mgmt := rfl
@[simp] theorem setTeam_out (x : Team) : (s.setTeam k x).out = s.out := rfl
@[simp] theorem setTeam_at_group (x : Team) : (s.setTeam k x).group j = s.group j := rfl
@[simp] theorem setTeam_at_cluster (x : Team) : (s.setTeam k x).cluster j = s.cluster j := rfl
@[simp] theorem setTeam_at_core (x : Team) : (s.setTeam k x).core j = s.core j := rfl
@[simp] theorem setTeam_at_quad (x : Team) : (s.setTeam k x).quad j = s.quad j := rfl
@[simp] theorem setTeam_at_walk (x : Team) : (s.setTeam k x).walk j = s.walk j := rfl
@[simp] theorem setTeam_at_part (x : Team) : (s.setTeam k x).part j = s.part j := rfl
@[simp] theorem setTeam_at_ctx (x : Team) : (s.setTeam k x).ctx j = s.ctx j := rfl
@[simp] theorem setTeam_at_grid (x : Team) : (s.setTeam k x).grid j = s.grid j := rfl
@[simp] theorem setTeam_at_mail (x : Team) : (s.setTeam k x).mail j = s.mail j := rfl
@[simp] theorem setTeam_at_remote (x : Team) : (s.setTeam k x).remote j = s.remote j := rfl
@[simp] theorem setTeam_at_port (x : Team) : (s.setTeam k x).port j = s.port j := rfl
@[simp] theorem setTeam_at_dirOf (x : Team) : (s.setTeam k x).dirOf j = s.dirOf j := rfl
theorem setTeam_at_team (x : Team) : (s.setTeam k x).team j = if j = k then x else s.team j := by
  simp [State.team, Tbl.get_put]
@[simp] theorem setTeam_at_self (x : Team) : (s.setTeam k x).team k = x := by simp [setTeam_at_team]

@[simp] theorem setCluster_agenda (x : Cluster) : (s.setCluster k x).agenda = s.agenda := rfl
@[simp] theorem setCluster_flight (x : Cluster) : (s.setCluster k x).flight = s.flight := rfl
@[simp] theorem setCluster_tick (x : Cluster) : (s.setCluster k x).tick = s.tick := rfl
@[simp] theorem setCluster_now (x : Cluster) : (s.setCluster k x).now = s.now := rfl
@[simp] theorem setCluster_nextId (x : Cluster) : (s.setCluster k x).nextId = s.nextId := rfl
@[simp] theorem setCluster_off (x : Cluster) : (s.setCluster k x).off = s.off := rfl
@[simp] theorem setCluster_cur (x : Cluster) : (s.setCluster k x).cur = s.cur := rfl
@[simp] theorem setCluster_curWalk (x : Cluster) : (s.setCluster k x).curWalk = s.curWalk := rfl
@[simp] theorem setCluster_curN (x : Cluster) : (s.setCluster k x).curN = s.curN := rfl
@[simp] theorem setCluster_groups (x : Cluster) : (s.setCluster k x).groups = s.groups := rfl
@[simp] theorem setCluster_teams (x : Cluster) : (s.setCluster k x).teams = s.teams := rfl
@[simp] theorem setCluster_clusters (x : Cluster) : (s.setCluster k x).clusters = Tbl.put s.clusters k x := rfl
@[simp] theorem setCluster_cores (x : Cluster) : (s.setCluster k x).cores = s.cores := rfl
@[simp] theorem setCluster_quads (x : Cluster) : (s.setCluster k x).quads = s.quads := rfl
@[simp] theorem setCluster_walks (x : Cluster) : (s.setCluster k x).walks = s.walks := rfl
@[simp] theorem setCluster_parts (x : Cluster) : (s.setCluster k x).parts = s.parts := rfl
@[simp] theorem setCluster_ctxs (x : Cluster) : (s.setCluster k x).ctxs = s.ctxs := rfl
@[simp] theorem setCluster_grids (x : Cluster) : (s.setCluster k x).grids = s.grids := rfl
@[simp] theorem setCluster_mem (x : Cluster) : (s.setCluster k x).mem = s.mem := rfl
@[simp] theorem setCluster_dir (x : Cluster) : (s.setCluster k x).dir = s.dir := rfl
@[simp] theorem setCluster_nodeLines (x : Cluster) : (s.setCluster k x).nodeLines = s.nodeLines := rfl
@[simp] theorem setCluster_nodeMiss (x : Cluster) : (s.setCluster k x).nodeMiss = s.nodeMiss := rfl
@[simp] theorem setCluster_copies (x : Cluster) : (s.setCluster k x).copies = s.copies := rfl
@[simp] theorem setCluster_l2 (x : Cluster) : (s.setCluster k x).l2 = s.l2 := rfl
@[simp] theorem setCluster_stamps (x : Cluster) : (s.setCluster k x).stamps = s.stamps := rfl
@[simp] theorem setCluster_poison (x : Cluster) : (s.setCluster k x).poison = s.poison := rfl
@[simp] theorem setCluster_keyTag (x : Cluster) : (s.setCluster k x).keyTag = s.keyTag := rfl
@[simp] theorem setCluster_tlbs (x : Cluster) : (s.setCluster k x).tlbs = s.tlbs := rfl
@[simp] theorem setCluster_mails (x : Cluster) : (s.setCluster k x).mails = s.mails := rfl
@[simp] theorem setCluster_remotes (x : Cluster) : (s.setCluster k x).remotes = s.remotes := rfl
@[simp] theorem setCluster_relayHeld (x : Cluster) : (s.setCluster k x).relayHeld = s.relayHeld := rfl
@[simp] theorem setCluster_ports (x : Cluster) : (s.setCluster k x).ports = s.ports := rfl
@[simp] theorem setCluster_mgmt (x : Cluster) : (s.setCluster k x).mgmt = s.mgmt := rfl
@[simp] theorem setCluster_out (x : Cluster) : (s.setCluster k x).out = s.out := rfl
@[simp] theorem setCluster_at_group (x : Cluster) : (s.setCluster k x).group j = s.group j := rfl
@[simp] theorem setCluster_at_team (x : Cluster) : (s.setCluster k x).team j = s.team j := rfl
@[simp] theorem setCluster_at_core (x : Cluster) : (s.setCluster k x).core j = s.core j := rfl
@[simp] theorem setCluster_at_quad (x : Cluster) : (s.setCluster k x).quad j = s.quad j := rfl
@[simp] theorem setCluster_at_walk (x : Cluster) : (s.setCluster k x).walk j = s.walk j := rfl
@[simp] theorem setCluster_at_part (x : Cluster) : (s.setCluster k x).part j = s.part j := rfl
@[simp] theorem setCluster_at_ctx (x : Cluster) : (s.setCluster k x).ctx j = s.ctx j := rfl
@[simp] theorem setCluster_at_grid (x : Cluster) : (s.setCluster k x).grid j = s.grid j := rfl
@[simp] theorem setCluster_at_mail (x : Cluster) : (s.setCluster k x).mail j = s.mail j := rfl
@[simp] theorem setCluster_at_remote (x : Cluster) : (s.setCluster k x).remote j = s.remote j := rfl
@[simp] theorem setCluster_at_port (x : Cluster) : (s.setCluster k x).port j = s.port j := rfl
@[simp] theorem setCluster_at_dirOf (x : Cluster) : (s.setCluster k x).dirOf j = s.dirOf j := rfl
theorem setCluster_at_cluster (x : Cluster) : (s.setCluster k x).cluster j = if j = k then x else s.cluster j := by
  simp [State.cluster, Tbl.get_put]
@[simp] theorem setCluster_at_self (x : Cluster) : (s.setCluster k x).cluster k = x := by simp [setCluster_at_cluster]

@[simp] theorem setCore_agenda (x : Core) : (s.setCore k x).agenda = s.agenda := rfl
@[simp] theorem setCore_flight (x : Core) : (s.setCore k x).flight = s.flight := rfl
@[simp] theorem setCore_tick (x : Core) : (s.setCore k x).tick = s.tick := rfl
@[simp] theorem setCore_now (x : Core) : (s.setCore k x).now = s.now := rfl
@[simp] theorem setCore_nextId (x : Core) : (s.setCore k x).nextId = s.nextId := rfl
@[simp] theorem setCore_off (x : Core) : (s.setCore k x).off = s.off := rfl
@[simp] theorem setCore_cur (x : Core) : (s.setCore k x).cur = s.cur := rfl
@[simp] theorem setCore_curWalk (x : Core) : (s.setCore k x).curWalk = s.curWalk := rfl
@[simp] theorem setCore_curN (x : Core) : (s.setCore k x).curN = s.curN := rfl
@[simp] theorem setCore_groups (x : Core) : (s.setCore k x).groups = s.groups := rfl
@[simp] theorem setCore_teams (x : Core) : (s.setCore k x).teams = s.teams := rfl
@[simp] theorem setCore_clusters (x : Core) : (s.setCore k x).clusters = s.clusters := rfl
@[simp] theorem setCore_cores (x : Core) : (s.setCore k x).cores = Tbl.put s.cores k x := rfl
@[simp] theorem setCore_quads (x : Core) : (s.setCore k x).quads = s.quads := rfl
@[simp] theorem setCore_walks (x : Core) : (s.setCore k x).walks = s.walks := rfl
@[simp] theorem setCore_parts (x : Core) : (s.setCore k x).parts = s.parts := rfl
@[simp] theorem setCore_ctxs (x : Core) : (s.setCore k x).ctxs = s.ctxs := rfl
@[simp] theorem setCore_grids (x : Core) : (s.setCore k x).grids = s.grids := rfl
@[simp] theorem setCore_mem (x : Core) : (s.setCore k x).mem = s.mem := rfl
@[simp] theorem setCore_dir (x : Core) : (s.setCore k x).dir = s.dir := rfl
@[simp] theorem setCore_nodeLines (x : Core) : (s.setCore k x).nodeLines = s.nodeLines := rfl
@[simp] theorem setCore_nodeMiss (x : Core) : (s.setCore k x).nodeMiss = s.nodeMiss := rfl
@[simp] theorem setCore_copies (x : Core) : (s.setCore k x).copies = s.copies := rfl
@[simp] theorem setCore_l2 (x : Core) : (s.setCore k x).l2 = s.l2 := rfl
@[simp] theorem setCore_stamps (x : Core) : (s.setCore k x).stamps = s.stamps := rfl
@[simp] theorem setCore_poison (x : Core) : (s.setCore k x).poison = s.poison := rfl
@[simp] theorem setCore_keyTag (x : Core) : (s.setCore k x).keyTag = s.keyTag := rfl
@[simp] theorem setCore_tlbs (x : Core) : (s.setCore k x).tlbs = s.tlbs := rfl
@[simp] theorem setCore_mails (x : Core) : (s.setCore k x).mails = s.mails := rfl
@[simp] theorem setCore_remotes (x : Core) : (s.setCore k x).remotes = s.remotes := rfl
@[simp] theorem setCore_relayHeld (x : Core) : (s.setCore k x).relayHeld = s.relayHeld := rfl
@[simp] theorem setCore_ports (x : Core) : (s.setCore k x).ports = s.ports := rfl
@[simp] theorem setCore_mgmt (x : Core) : (s.setCore k x).mgmt = s.mgmt := rfl
@[simp] theorem setCore_out (x : Core) : (s.setCore k x).out = s.out := rfl
@[simp] theorem setCore_at_group (x : Core) : (s.setCore k x).group j = s.group j := rfl
@[simp] theorem setCore_at_team (x : Core) : (s.setCore k x).team j = s.team j := rfl
@[simp] theorem setCore_at_cluster (x : Core) : (s.setCore k x).cluster j = s.cluster j := rfl
@[simp] theorem setCore_at_quad (x : Core) : (s.setCore k x).quad j = s.quad j := rfl
@[simp] theorem setCore_at_walk (x : Core) : (s.setCore k x).walk j = s.walk j := rfl
@[simp] theorem setCore_at_part (x : Core) : (s.setCore k x).part j = s.part j := rfl
@[simp] theorem setCore_at_ctx (x : Core) : (s.setCore k x).ctx j = s.ctx j := rfl
@[simp] theorem setCore_at_grid (x : Core) : (s.setCore k x).grid j = s.grid j := rfl
@[simp] theorem setCore_at_mail (x : Core) : (s.setCore k x).mail j = s.mail j := rfl
@[simp] theorem setCore_at_remote (x : Core) : (s.setCore k x).remote j = s.remote j := rfl
@[simp] theorem setCore_at_port (x : Core) : (s.setCore k x).port j = s.port j := rfl
@[simp] theorem setCore_at_dirOf (x : Core) : (s.setCore k x).dirOf j = s.dirOf j := rfl
theorem setCore_at_core (x : Core) : (s.setCore k x).core j = if j = k then x else s.core j := by
  simp [State.core, Tbl.get_put]
@[simp] theorem setCore_at_self (x : Core) : (s.setCore k x).core k = x := by simp [setCore_at_core]

@[simp] theorem setQuad_agenda (x : Quad) : (s.setQuad k x).agenda = s.agenda := rfl
@[simp] theorem setQuad_flight (x : Quad) : (s.setQuad k x).flight = s.flight := rfl
@[simp] theorem setQuad_tick (x : Quad) : (s.setQuad k x).tick = s.tick := rfl
@[simp] theorem setQuad_now (x : Quad) : (s.setQuad k x).now = s.now := rfl
@[simp] theorem setQuad_nextId (x : Quad) : (s.setQuad k x).nextId = s.nextId := rfl
@[simp] theorem setQuad_off (x : Quad) : (s.setQuad k x).off = s.off := rfl
@[simp] theorem setQuad_cur (x : Quad) : (s.setQuad k x).cur = s.cur := rfl
@[simp] theorem setQuad_curWalk (x : Quad) : (s.setQuad k x).curWalk = s.curWalk := rfl
@[simp] theorem setQuad_curN (x : Quad) : (s.setQuad k x).curN = s.curN := rfl
@[simp] theorem setQuad_groups (x : Quad) : (s.setQuad k x).groups = s.groups := rfl
@[simp] theorem setQuad_teams (x : Quad) : (s.setQuad k x).teams = s.teams := rfl
@[simp] theorem setQuad_clusters (x : Quad) : (s.setQuad k x).clusters = s.clusters := rfl
@[simp] theorem setQuad_cores (x : Quad) : (s.setQuad k x).cores = s.cores := rfl
@[simp] theorem setQuad_quads (x : Quad) : (s.setQuad k x).quads = Tbl.put s.quads k x := rfl
@[simp] theorem setQuad_walks (x : Quad) : (s.setQuad k x).walks = s.walks := rfl
@[simp] theorem setQuad_parts (x : Quad) : (s.setQuad k x).parts = s.parts := rfl
@[simp] theorem setQuad_ctxs (x : Quad) : (s.setQuad k x).ctxs = s.ctxs := rfl
@[simp] theorem setQuad_grids (x : Quad) : (s.setQuad k x).grids = s.grids := rfl
@[simp] theorem setQuad_mem (x : Quad) : (s.setQuad k x).mem = s.mem := rfl
@[simp] theorem setQuad_dir (x : Quad) : (s.setQuad k x).dir = s.dir := rfl
@[simp] theorem setQuad_nodeLines (x : Quad) : (s.setQuad k x).nodeLines = s.nodeLines := rfl
@[simp] theorem setQuad_nodeMiss (x : Quad) : (s.setQuad k x).nodeMiss = s.nodeMiss := rfl
@[simp] theorem setQuad_copies (x : Quad) : (s.setQuad k x).copies = s.copies := rfl
@[simp] theorem setQuad_l2 (x : Quad) : (s.setQuad k x).l2 = s.l2 := rfl
@[simp] theorem setQuad_stamps (x : Quad) : (s.setQuad k x).stamps = s.stamps := rfl
@[simp] theorem setQuad_poison (x : Quad) : (s.setQuad k x).poison = s.poison := rfl
@[simp] theorem setQuad_keyTag (x : Quad) : (s.setQuad k x).keyTag = s.keyTag := rfl
@[simp] theorem setQuad_tlbs (x : Quad) : (s.setQuad k x).tlbs = s.tlbs := rfl
@[simp] theorem setQuad_mails (x : Quad) : (s.setQuad k x).mails = s.mails := rfl
@[simp] theorem setQuad_remotes (x : Quad) : (s.setQuad k x).remotes = s.remotes := rfl
@[simp] theorem setQuad_relayHeld (x : Quad) : (s.setQuad k x).relayHeld = s.relayHeld := rfl
@[simp] theorem setQuad_ports (x : Quad) : (s.setQuad k x).ports = s.ports := rfl
@[simp] theorem setQuad_mgmt (x : Quad) : (s.setQuad k x).mgmt = s.mgmt := rfl
@[simp] theorem setQuad_out (x : Quad) : (s.setQuad k x).out = s.out := rfl
@[simp] theorem setQuad_at_group (x : Quad) : (s.setQuad k x).group j = s.group j := rfl
@[simp] theorem setQuad_at_team (x : Quad) : (s.setQuad k x).team j = s.team j := rfl
@[simp] theorem setQuad_at_cluster (x : Quad) : (s.setQuad k x).cluster j = s.cluster j := rfl
@[simp] theorem setQuad_at_core (x : Quad) : (s.setQuad k x).core j = s.core j := rfl
@[simp] theorem setQuad_at_walk (x : Quad) : (s.setQuad k x).walk j = s.walk j := rfl
@[simp] theorem setQuad_at_part (x : Quad) : (s.setQuad k x).part j = s.part j := rfl
@[simp] theorem setQuad_at_ctx (x : Quad) : (s.setQuad k x).ctx j = s.ctx j := rfl
@[simp] theorem setQuad_at_grid (x : Quad) : (s.setQuad k x).grid j = s.grid j := rfl
@[simp] theorem setQuad_at_mail (x : Quad) : (s.setQuad k x).mail j = s.mail j := rfl
@[simp] theorem setQuad_at_remote (x : Quad) : (s.setQuad k x).remote j = s.remote j := rfl
@[simp] theorem setQuad_at_port (x : Quad) : (s.setQuad k x).port j = s.port j := rfl
@[simp] theorem setQuad_at_dirOf (x : Quad) : (s.setQuad k x).dirOf j = s.dirOf j := rfl
theorem setQuad_at_quad (x : Quad) : (s.setQuad k x).quad j = if j = k then x else s.quad j := by
  simp [State.quad, Tbl.get_put]
@[simp] theorem setQuad_at_self (x : Quad) : (s.setQuad k x).quad k = x := by simp [setQuad_at_quad]

@[simp] theorem setWalk_agenda (x : Walk) : (s.setWalk k x).agenda = s.agenda := rfl
@[simp] theorem setWalk_flight (x : Walk) : (s.setWalk k x).flight = s.flight := rfl
@[simp] theorem setWalk_tick (x : Walk) : (s.setWalk k x).tick = s.tick := rfl
@[simp] theorem setWalk_now (x : Walk) : (s.setWalk k x).now = s.now := rfl
@[simp] theorem setWalk_nextId (x : Walk) : (s.setWalk k x).nextId = s.nextId := rfl
@[simp] theorem setWalk_off (x : Walk) : (s.setWalk k x).off = s.off := rfl
@[simp] theorem setWalk_cur (x : Walk) : (s.setWalk k x).cur = s.cur := rfl
@[simp] theorem setWalk_curWalk (x : Walk) : (s.setWalk k x).curWalk = s.curWalk := rfl
@[simp] theorem setWalk_curN (x : Walk) : (s.setWalk k x).curN = s.curN := rfl
@[simp] theorem setWalk_groups (x : Walk) : (s.setWalk k x).groups = s.groups := rfl
@[simp] theorem setWalk_teams (x : Walk) : (s.setWalk k x).teams = s.teams := rfl
@[simp] theorem setWalk_clusters (x : Walk) : (s.setWalk k x).clusters = s.clusters := rfl
@[simp] theorem setWalk_cores (x : Walk) : (s.setWalk k x).cores = s.cores := rfl
@[simp] theorem setWalk_quads (x : Walk) : (s.setWalk k x).quads = s.quads := rfl
@[simp] theorem setWalk_walks (x : Walk) : (s.setWalk k x).walks = Tbl.put s.walks k x := rfl
@[simp] theorem setWalk_parts (x : Walk) : (s.setWalk k x).parts = s.parts := rfl
@[simp] theorem setWalk_ctxs (x : Walk) : (s.setWalk k x).ctxs = s.ctxs := rfl
@[simp] theorem setWalk_grids (x : Walk) : (s.setWalk k x).grids = s.grids := rfl
@[simp] theorem setWalk_mem (x : Walk) : (s.setWalk k x).mem = s.mem := rfl
@[simp] theorem setWalk_dir (x : Walk) : (s.setWalk k x).dir = s.dir := rfl
@[simp] theorem setWalk_nodeLines (x : Walk) : (s.setWalk k x).nodeLines = s.nodeLines := rfl
@[simp] theorem setWalk_nodeMiss (x : Walk) : (s.setWalk k x).nodeMiss = s.nodeMiss := rfl
@[simp] theorem setWalk_copies (x : Walk) : (s.setWalk k x).copies = s.copies := rfl
@[simp] theorem setWalk_l2 (x : Walk) : (s.setWalk k x).l2 = s.l2 := rfl
@[simp] theorem setWalk_stamps (x : Walk) : (s.setWalk k x).stamps = s.stamps := rfl
@[simp] theorem setWalk_poison (x : Walk) : (s.setWalk k x).poison = s.poison := rfl
@[simp] theorem setWalk_keyTag (x : Walk) : (s.setWalk k x).keyTag = s.keyTag := rfl
@[simp] theorem setWalk_tlbs (x : Walk) : (s.setWalk k x).tlbs = s.tlbs := rfl
@[simp] theorem setWalk_mails (x : Walk) : (s.setWalk k x).mails = s.mails := rfl
@[simp] theorem setWalk_remotes (x : Walk) : (s.setWalk k x).remotes = s.remotes := rfl
@[simp] theorem setWalk_relayHeld (x : Walk) : (s.setWalk k x).relayHeld = s.relayHeld := rfl
@[simp] theorem setWalk_ports (x : Walk) : (s.setWalk k x).ports = s.ports := rfl
@[simp] theorem setWalk_mgmt (x : Walk) : (s.setWalk k x).mgmt = s.mgmt := rfl
@[simp] theorem setWalk_out (x : Walk) : (s.setWalk k x).out = s.out := rfl
@[simp] theorem setWalk_at_group (x : Walk) : (s.setWalk k x).group j = s.group j := rfl
@[simp] theorem setWalk_at_team (x : Walk) : (s.setWalk k x).team j = s.team j := rfl
@[simp] theorem setWalk_at_cluster (x : Walk) : (s.setWalk k x).cluster j = s.cluster j := rfl
@[simp] theorem setWalk_at_core (x : Walk) : (s.setWalk k x).core j = s.core j := rfl
@[simp] theorem setWalk_at_quad (x : Walk) : (s.setWalk k x).quad j = s.quad j := rfl
@[simp] theorem setWalk_at_part (x : Walk) : (s.setWalk k x).part j = s.part j := rfl
@[simp] theorem setWalk_at_ctx (x : Walk) : (s.setWalk k x).ctx j = s.ctx j := rfl
@[simp] theorem setWalk_at_grid (x : Walk) : (s.setWalk k x).grid j = s.grid j := rfl
@[simp] theorem setWalk_at_mail (x : Walk) : (s.setWalk k x).mail j = s.mail j := rfl
@[simp] theorem setWalk_at_remote (x : Walk) : (s.setWalk k x).remote j = s.remote j := rfl
@[simp] theorem setWalk_at_port (x : Walk) : (s.setWalk k x).port j = s.port j := rfl
@[simp] theorem setWalk_at_dirOf (x : Walk) : (s.setWalk k x).dirOf j = s.dirOf j := rfl
theorem setWalk_at_walk (x : Walk) : (s.setWalk k x).walk j = if j = k then x else s.walk j := by
  simp [State.walk, Tbl.get_put]
@[simp] theorem setWalk_at_self (x : Walk) : (s.setWalk k x).walk k = x := by simp [setWalk_at_walk]

@[simp] theorem setPart_agenda (x : Part) : (s.setPart k x).agenda = s.agenda := rfl
@[simp] theorem setPart_flight (x : Part) : (s.setPart k x).flight = s.flight := rfl
@[simp] theorem setPart_tick (x : Part) : (s.setPart k x).tick = s.tick := rfl
@[simp] theorem setPart_now (x : Part) : (s.setPart k x).now = s.now := rfl
@[simp] theorem setPart_nextId (x : Part) : (s.setPart k x).nextId = s.nextId := rfl
@[simp] theorem setPart_off (x : Part) : (s.setPart k x).off = s.off := rfl
@[simp] theorem setPart_cur (x : Part) : (s.setPart k x).cur = s.cur := rfl
@[simp] theorem setPart_curWalk (x : Part) : (s.setPart k x).curWalk = s.curWalk := rfl
@[simp] theorem setPart_curN (x : Part) : (s.setPart k x).curN = s.curN := rfl
@[simp] theorem setPart_groups (x : Part) : (s.setPart k x).groups = s.groups := rfl
@[simp] theorem setPart_teams (x : Part) : (s.setPart k x).teams = s.teams := rfl
@[simp] theorem setPart_clusters (x : Part) : (s.setPart k x).clusters = s.clusters := rfl
@[simp] theorem setPart_cores (x : Part) : (s.setPart k x).cores = s.cores := rfl
@[simp] theorem setPart_quads (x : Part) : (s.setPart k x).quads = s.quads := rfl
@[simp] theorem setPart_walks (x : Part) : (s.setPart k x).walks = s.walks := rfl
@[simp] theorem setPart_parts (x : Part) : (s.setPart k x).parts = Tbl.put s.parts k x := rfl
@[simp] theorem setPart_ctxs (x : Part) : (s.setPart k x).ctxs = s.ctxs := rfl
@[simp] theorem setPart_grids (x : Part) : (s.setPart k x).grids = s.grids := rfl
@[simp] theorem setPart_mem (x : Part) : (s.setPart k x).mem = s.mem := rfl
@[simp] theorem setPart_dir (x : Part) : (s.setPart k x).dir = s.dir := rfl
@[simp] theorem setPart_nodeLines (x : Part) : (s.setPart k x).nodeLines = s.nodeLines := rfl
@[simp] theorem setPart_nodeMiss (x : Part) : (s.setPart k x).nodeMiss = s.nodeMiss := rfl
@[simp] theorem setPart_copies (x : Part) : (s.setPart k x).copies = s.copies := rfl
@[simp] theorem setPart_l2 (x : Part) : (s.setPart k x).l2 = s.l2 := rfl
@[simp] theorem setPart_stamps (x : Part) : (s.setPart k x).stamps = s.stamps := rfl
@[simp] theorem setPart_poison (x : Part) : (s.setPart k x).poison = s.poison := rfl
@[simp] theorem setPart_keyTag (x : Part) : (s.setPart k x).keyTag = s.keyTag := rfl
@[simp] theorem setPart_tlbs (x : Part) : (s.setPart k x).tlbs = s.tlbs := rfl
@[simp] theorem setPart_mails (x : Part) : (s.setPart k x).mails = s.mails := rfl
@[simp] theorem setPart_remotes (x : Part) : (s.setPart k x).remotes = s.remotes := rfl
@[simp] theorem setPart_relayHeld (x : Part) : (s.setPart k x).relayHeld = s.relayHeld := rfl
@[simp] theorem setPart_ports (x : Part) : (s.setPart k x).ports = s.ports := rfl
@[simp] theorem setPart_mgmt (x : Part) : (s.setPart k x).mgmt = s.mgmt := rfl
@[simp] theorem setPart_out (x : Part) : (s.setPart k x).out = s.out := rfl
@[simp] theorem setPart_at_group (x : Part) : (s.setPart k x).group j = s.group j := rfl
@[simp] theorem setPart_at_team (x : Part) : (s.setPart k x).team j = s.team j := rfl
@[simp] theorem setPart_at_cluster (x : Part) : (s.setPart k x).cluster j = s.cluster j := rfl
@[simp] theorem setPart_at_core (x : Part) : (s.setPart k x).core j = s.core j := rfl
@[simp] theorem setPart_at_quad (x : Part) : (s.setPart k x).quad j = s.quad j := rfl
@[simp] theorem setPart_at_walk (x : Part) : (s.setPart k x).walk j = s.walk j := rfl
@[simp] theorem setPart_at_ctx (x : Part) : (s.setPart k x).ctx j = s.ctx j := rfl
@[simp] theorem setPart_at_grid (x : Part) : (s.setPart k x).grid j = s.grid j := rfl
@[simp] theorem setPart_at_mail (x : Part) : (s.setPart k x).mail j = s.mail j := rfl
@[simp] theorem setPart_at_remote (x : Part) : (s.setPart k x).remote j = s.remote j := rfl
@[simp] theorem setPart_at_port (x : Part) : (s.setPart k x).port j = s.port j := rfl
@[simp] theorem setPart_at_dirOf (x : Part) : (s.setPart k x).dirOf j = s.dirOf j := rfl
theorem setPart_at_part (x : Part) : (s.setPart k x).part j = if j = k then x else s.part j := by
  simp [State.part, Tbl.get_put]
@[simp] theorem setPart_at_self (x : Part) : (s.setPart k x).part k = x := by simp [setPart_at_part]

@[simp] theorem setCtx_agenda (x : Ctx) : (s.setCtx k x).agenda = s.agenda := rfl
@[simp] theorem setCtx_flight (x : Ctx) : (s.setCtx k x).flight = s.flight := rfl
@[simp] theorem setCtx_tick (x : Ctx) : (s.setCtx k x).tick = s.tick := rfl
@[simp] theorem setCtx_now (x : Ctx) : (s.setCtx k x).now = s.now := rfl
@[simp] theorem setCtx_nextId (x : Ctx) : (s.setCtx k x).nextId = s.nextId := rfl
@[simp] theorem setCtx_off (x : Ctx) : (s.setCtx k x).off = s.off := rfl
@[simp] theorem setCtx_cur (x : Ctx) : (s.setCtx k x).cur = s.cur := rfl
@[simp] theorem setCtx_curWalk (x : Ctx) : (s.setCtx k x).curWalk = s.curWalk := rfl
@[simp] theorem setCtx_curN (x : Ctx) : (s.setCtx k x).curN = s.curN := rfl
@[simp] theorem setCtx_groups (x : Ctx) : (s.setCtx k x).groups = s.groups := rfl
@[simp] theorem setCtx_teams (x : Ctx) : (s.setCtx k x).teams = s.teams := rfl
@[simp] theorem setCtx_clusters (x : Ctx) : (s.setCtx k x).clusters = s.clusters := rfl
@[simp] theorem setCtx_cores (x : Ctx) : (s.setCtx k x).cores = s.cores := rfl
@[simp] theorem setCtx_quads (x : Ctx) : (s.setCtx k x).quads = s.quads := rfl
@[simp] theorem setCtx_walks (x : Ctx) : (s.setCtx k x).walks = s.walks := rfl
@[simp] theorem setCtx_parts (x : Ctx) : (s.setCtx k x).parts = s.parts := rfl
@[simp] theorem setCtx_ctxs (x : Ctx) : (s.setCtx k x).ctxs = Tbl.put s.ctxs k x := rfl
@[simp] theorem setCtx_grids (x : Ctx) : (s.setCtx k x).grids = s.grids := rfl
@[simp] theorem setCtx_mem (x : Ctx) : (s.setCtx k x).mem = s.mem := rfl
@[simp] theorem setCtx_dir (x : Ctx) : (s.setCtx k x).dir = s.dir := rfl
@[simp] theorem setCtx_nodeLines (x : Ctx) : (s.setCtx k x).nodeLines = s.nodeLines := rfl
@[simp] theorem setCtx_nodeMiss (x : Ctx) : (s.setCtx k x).nodeMiss = s.nodeMiss := rfl
@[simp] theorem setCtx_copies (x : Ctx) : (s.setCtx k x).copies = s.copies := rfl
@[simp] theorem setCtx_l2 (x : Ctx) : (s.setCtx k x).l2 = s.l2 := rfl
@[simp] theorem setCtx_stamps (x : Ctx) : (s.setCtx k x).stamps = s.stamps := rfl
@[simp] theorem setCtx_poison (x : Ctx) : (s.setCtx k x).poison = s.poison := rfl
@[simp] theorem setCtx_keyTag (x : Ctx) : (s.setCtx k x).keyTag = s.keyTag := rfl
@[simp] theorem setCtx_tlbs (x : Ctx) : (s.setCtx k x).tlbs = s.tlbs := rfl
@[simp] theorem setCtx_mails (x : Ctx) : (s.setCtx k x).mails = s.mails := rfl
@[simp] theorem setCtx_remotes (x : Ctx) : (s.setCtx k x).remotes = s.remotes := rfl
@[simp] theorem setCtx_relayHeld (x : Ctx) : (s.setCtx k x).relayHeld = s.relayHeld := rfl
@[simp] theorem setCtx_ports (x : Ctx) : (s.setCtx k x).ports = s.ports := rfl
@[simp] theorem setCtx_mgmt (x : Ctx) : (s.setCtx k x).mgmt = s.mgmt := rfl
@[simp] theorem setCtx_out (x : Ctx) : (s.setCtx k x).out = s.out := rfl
@[simp] theorem setCtx_at_group (x : Ctx) : (s.setCtx k x).group j = s.group j := rfl
@[simp] theorem setCtx_at_team (x : Ctx) : (s.setCtx k x).team j = s.team j := rfl
@[simp] theorem setCtx_at_cluster (x : Ctx) : (s.setCtx k x).cluster j = s.cluster j := rfl
@[simp] theorem setCtx_at_core (x : Ctx) : (s.setCtx k x).core j = s.core j := rfl
@[simp] theorem setCtx_at_quad (x : Ctx) : (s.setCtx k x).quad j = s.quad j := rfl
@[simp] theorem setCtx_at_walk (x : Ctx) : (s.setCtx k x).walk j = s.walk j := rfl
@[simp] theorem setCtx_at_part (x : Ctx) : (s.setCtx k x).part j = s.part j := rfl
@[simp] theorem setCtx_at_grid (x : Ctx) : (s.setCtx k x).grid j = s.grid j := rfl
@[simp] theorem setCtx_at_mail (x : Ctx) : (s.setCtx k x).mail j = s.mail j := rfl
@[simp] theorem setCtx_at_remote (x : Ctx) : (s.setCtx k x).remote j = s.remote j := rfl
@[simp] theorem setCtx_at_port (x : Ctx) : (s.setCtx k x).port j = s.port j := rfl
@[simp] theorem setCtx_at_dirOf (x : Ctx) : (s.setCtx k x).dirOf j = s.dirOf j := rfl
theorem setCtx_at_ctx (x : Ctx) : (s.setCtx k x).ctx j = if j = k then x else s.ctx j := by
  simp [State.ctx, Tbl.get_put]
@[simp] theorem setCtx_at_self (x : Ctx) : (s.setCtx k x).ctx k = x := by simp [setCtx_at_ctx]

@[simp] theorem setGrid_agenda (x : Grid) : (s.setGrid k x).agenda = s.agenda := rfl
@[simp] theorem setGrid_flight (x : Grid) : (s.setGrid k x).flight = s.flight := rfl
@[simp] theorem setGrid_tick (x : Grid) : (s.setGrid k x).tick = s.tick := rfl
@[simp] theorem setGrid_now (x : Grid) : (s.setGrid k x).now = s.now := rfl
@[simp] theorem setGrid_nextId (x : Grid) : (s.setGrid k x).nextId = s.nextId := rfl
@[simp] theorem setGrid_off (x : Grid) : (s.setGrid k x).off = s.off := rfl
@[simp] theorem setGrid_cur (x : Grid) : (s.setGrid k x).cur = s.cur := rfl
@[simp] theorem setGrid_curWalk (x : Grid) : (s.setGrid k x).curWalk = s.curWalk := rfl
@[simp] theorem setGrid_curN (x : Grid) : (s.setGrid k x).curN = s.curN := rfl
@[simp] theorem setGrid_groups (x : Grid) : (s.setGrid k x).groups = s.groups := rfl
@[simp] theorem setGrid_teams (x : Grid) : (s.setGrid k x).teams = s.teams := rfl
@[simp] theorem setGrid_clusters (x : Grid) : (s.setGrid k x).clusters = s.clusters := rfl
@[simp] theorem setGrid_cores (x : Grid) : (s.setGrid k x).cores = s.cores := rfl
@[simp] theorem setGrid_quads (x : Grid) : (s.setGrid k x).quads = s.quads := rfl
@[simp] theorem setGrid_walks (x : Grid) : (s.setGrid k x).walks = s.walks := rfl
@[simp] theorem setGrid_parts (x : Grid) : (s.setGrid k x).parts = s.parts := rfl
@[simp] theorem setGrid_ctxs (x : Grid) : (s.setGrid k x).ctxs = s.ctxs := rfl
@[simp] theorem setGrid_grids (x : Grid) : (s.setGrid k x).grids = Tbl.put s.grids k x := rfl
@[simp] theorem setGrid_mem (x : Grid) : (s.setGrid k x).mem = s.mem := rfl
@[simp] theorem setGrid_dir (x : Grid) : (s.setGrid k x).dir = s.dir := rfl
@[simp] theorem setGrid_nodeLines (x : Grid) : (s.setGrid k x).nodeLines = s.nodeLines := rfl
@[simp] theorem setGrid_nodeMiss (x : Grid) : (s.setGrid k x).nodeMiss = s.nodeMiss := rfl
@[simp] theorem setGrid_copies (x : Grid) : (s.setGrid k x).copies = s.copies := rfl
@[simp] theorem setGrid_l2 (x : Grid) : (s.setGrid k x).l2 = s.l2 := rfl
@[simp] theorem setGrid_stamps (x : Grid) : (s.setGrid k x).stamps = s.stamps := rfl
@[simp] theorem setGrid_poison (x : Grid) : (s.setGrid k x).poison = s.poison := rfl
@[simp] theorem setGrid_keyTag (x : Grid) : (s.setGrid k x).keyTag = s.keyTag := rfl
@[simp] theorem setGrid_tlbs (x : Grid) : (s.setGrid k x).tlbs = s.tlbs := rfl
@[simp] theorem setGrid_mails (x : Grid) : (s.setGrid k x).mails = s.mails := rfl
@[simp] theorem setGrid_remotes (x : Grid) : (s.setGrid k x).remotes = s.remotes := rfl
@[simp] theorem setGrid_relayHeld (x : Grid) : (s.setGrid k x).relayHeld = s.relayHeld := rfl
@[simp] theorem setGrid_ports (x : Grid) : (s.setGrid k x).ports = s.ports := rfl
@[simp] theorem setGrid_mgmt (x : Grid) : (s.setGrid k x).mgmt = s.mgmt := rfl
@[simp] theorem setGrid_out (x : Grid) : (s.setGrid k x).out = s.out := rfl
@[simp] theorem setGrid_at_group (x : Grid) : (s.setGrid k x).group j = s.group j := rfl
@[simp] theorem setGrid_at_team (x : Grid) : (s.setGrid k x).team j = s.team j := rfl
@[simp] theorem setGrid_at_cluster (x : Grid) : (s.setGrid k x).cluster j = s.cluster j := rfl
@[simp] theorem setGrid_at_core (x : Grid) : (s.setGrid k x).core j = s.core j := rfl
@[simp] theorem setGrid_at_quad (x : Grid) : (s.setGrid k x).quad j = s.quad j := rfl
@[simp] theorem setGrid_at_walk (x : Grid) : (s.setGrid k x).walk j = s.walk j := rfl
@[simp] theorem setGrid_at_part (x : Grid) : (s.setGrid k x).part j = s.part j := rfl
@[simp] theorem setGrid_at_ctx (x : Grid) : (s.setGrid k x).ctx j = s.ctx j := rfl
@[simp] theorem setGrid_at_mail (x : Grid) : (s.setGrid k x).mail j = s.mail j := rfl
@[simp] theorem setGrid_at_remote (x : Grid) : (s.setGrid k x).remote j = s.remote j := rfl
@[simp] theorem setGrid_at_port (x : Grid) : (s.setGrid k x).port j = s.port j := rfl
@[simp] theorem setGrid_at_dirOf (x : Grid) : (s.setGrid k x).dirOf j = s.dirOf j := rfl
theorem setGrid_at_grid (x : Grid) : (s.setGrid k x).grid j = if j = k then x else s.grid j := by
  simp [State.grid, Tbl.get_put]
@[simp] theorem setGrid_at_self (x : Grid) : (s.setGrid k x).grid k = x := by simp [setGrid_at_grid]

@[simp] theorem setMail_agenda (x : Mail) : (s.setMail k x).agenda = s.agenda := rfl
@[simp] theorem setMail_flight (x : Mail) : (s.setMail k x).flight = s.flight := rfl
@[simp] theorem setMail_tick (x : Mail) : (s.setMail k x).tick = s.tick := rfl
@[simp] theorem setMail_now (x : Mail) : (s.setMail k x).now = s.now := rfl
@[simp] theorem setMail_nextId (x : Mail) : (s.setMail k x).nextId = s.nextId := rfl
@[simp] theorem setMail_off (x : Mail) : (s.setMail k x).off = s.off := rfl
@[simp] theorem setMail_cur (x : Mail) : (s.setMail k x).cur = s.cur := rfl
@[simp] theorem setMail_curWalk (x : Mail) : (s.setMail k x).curWalk = s.curWalk := rfl
@[simp] theorem setMail_curN (x : Mail) : (s.setMail k x).curN = s.curN := rfl
@[simp] theorem setMail_groups (x : Mail) : (s.setMail k x).groups = s.groups := rfl
@[simp] theorem setMail_teams (x : Mail) : (s.setMail k x).teams = s.teams := rfl
@[simp] theorem setMail_clusters (x : Mail) : (s.setMail k x).clusters = s.clusters := rfl
@[simp] theorem setMail_cores (x : Mail) : (s.setMail k x).cores = s.cores := rfl
@[simp] theorem setMail_quads (x : Mail) : (s.setMail k x).quads = s.quads := rfl
@[simp] theorem setMail_walks (x : Mail) : (s.setMail k x).walks = s.walks := rfl
@[simp] theorem setMail_parts (x : Mail) : (s.setMail k x).parts = s.parts := rfl
@[simp] theorem setMail_ctxs (x : Mail) : (s.setMail k x).ctxs = s.ctxs := rfl
@[simp] theorem setMail_grids (x : Mail) : (s.setMail k x).grids = s.grids := rfl
@[simp] theorem setMail_mem (x : Mail) : (s.setMail k x).mem = s.mem := rfl
@[simp] theorem setMail_dir (x : Mail) : (s.setMail k x).dir = s.dir := rfl
@[simp] theorem setMail_nodeLines (x : Mail) : (s.setMail k x).nodeLines = s.nodeLines := rfl
@[simp] theorem setMail_nodeMiss (x : Mail) : (s.setMail k x).nodeMiss = s.nodeMiss := rfl
@[simp] theorem setMail_copies (x : Mail) : (s.setMail k x).copies = s.copies := rfl
@[simp] theorem setMail_l2 (x : Mail) : (s.setMail k x).l2 = s.l2 := rfl
@[simp] theorem setMail_stamps (x : Mail) : (s.setMail k x).stamps = s.stamps := rfl
@[simp] theorem setMail_poison (x : Mail) : (s.setMail k x).poison = s.poison := rfl
@[simp] theorem setMail_keyTag (x : Mail) : (s.setMail k x).keyTag = s.keyTag := rfl
@[simp] theorem setMail_tlbs (x : Mail) : (s.setMail k x).tlbs = s.tlbs := rfl
@[simp] theorem setMail_mails (x : Mail) : (s.setMail k x).mails = Tbl.put s.mails k x := rfl
@[simp] theorem setMail_remotes (x : Mail) : (s.setMail k x).remotes = s.remotes := rfl
@[simp] theorem setMail_relayHeld (x : Mail) : (s.setMail k x).relayHeld = s.relayHeld := rfl
@[simp] theorem setMail_ports (x : Mail) : (s.setMail k x).ports = s.ports := rfl
@[simp] theorem setMail_mgmt (x : Mail) : (s.setMail k x).mgmt = s.mgmt := rfl
@[simp] theorem setMail_out (x : Mail) : (s.setMail k x).out = s.out := rfl
@[simp] theorem setMail_at_group (x : Mail) : (s.setMail k x).group j = s.group j := rfl
@[simp] theorem setMail_at_team (x : Mail) : (s.setMail k x).team j = s.team j := rfl
@[simp] theorem setMail_at_cluster (x : Mail) : (s.setMail k x).cluster j = s.cluster j := rfl
@[simp] theorem setMail_at_core (x : Mail) : (s.setMail k x).core j = s.core j := rfl
@[simp] theorem setMail_at_quad (x : Mail) : (s.setMail k x).quad j = s.quad j := rfl
@[simp] theorem setMail_at_walk (x : Mail) : (s.setMail k x).walk j = s.walk j := rfl
@[simp] theorem setMail_at_part (x : Mail) : (s.setMail k x).part j = s.part j := rfl
@[simp] theorem setMail_at_ctx (x : Mail) : (s.setMail k x).ctx j = s.ctx j := rfl
@[simp] theorem setMail_at_grid (x : Mail) : (s.setMail k x).grid j = s.grid j := rfl
@[simp] theorem setMail_at_remote (x : Mail) : (s.setMail k x).remote j = s.remote j := rfl
@[simp] theorem setMail_at_port (x : Mail) : (s.setMail k x).port j = s.port j := rfl
@[simp] theorem setMail_at_dirOf (x : Mail) : (s.setMail k x).dirOf j = s.dirOf j := rfl
theorem setMail_at_mail (x : Mail) : (s.setMail k x).mail j = if j = k then x else s.mail j := by
  simp [State.mail, Tbl.get_put]
@[simp] theorem setMail_at_self (x : Mail) : (s.setMail k x).mail k = x := by simp [setMail_at_mail]

@[simp] theorem setRemote_agenda (x : Remote) : (s.setRemote k x).agenda = s.agenda := rfl
@[simp] theorem setRemote_flight (x : Remote) : (s.setRemote k x).flight = s.flight := rfl
@[simp] theorem setRemote_tick (x : Remote) : (s.setRemote k x).tick = s.tick := rfl
@[simp] theorem setRemote_now (x : Remote) : (s.setRemote k x).now = s.now := rfl
@[simp] theorem setRemote_nextId (x : Remote) : (s.setRemote k x).nextId = s.nextId := rfl
@[simp] theorem setRemote_off (x : Remote) : (s.setRemote k x).off = s.off := rfl
@[simp] theorem setRemote_cur (x : Remote) : (s.setRemote k x).cur = s.cur := rfl
@[simp] theorem setRemote_curWalk (x : Remote) : (s.setRemote k x).curWalk = s.curWalk := rfl
@[simp] theorem setRemote_curN (x : Remote) : (s.setRemote k x).curN = s.curN := rfl
@[simp] theorem setRemote_groups (x : Remote) : (s.setRemote k x).groups = s.groups := rfl
@[simp] theorem setRemote_teams (x : Remote) : (s.setRemote k x).teams = s.teams := rfl
@[simp] theorem setRemote_clusters (x : Remote) : (s.setRemote k x).clusters = s.clusters := rfl
@[simp] theorem setRemote_cores (x : Remote) : (s.setRemote k x).cores = s.cores := rfl
@[simp] theorem setRemote_quads (x : Remote) : (s.setRemote k x).quads = s.quads := rfl
@[simp] theorem setRemote_walks (x : Remote) : (s.setRemote k x).walks = s.walks := rfl
@[simp] theorem setRemote_parts (x : Remote) : (s.setRemote k x).parts = s.parts := rfl
@[simp] theorem setRemote_ctxs (x : Remote) : (s.setRemote k x).ctxs = s.ctxs := rfl
@[simp] theorem setRemote_grids (x : Remote) : (s.setRemote k x).grids = s.grids := rfl
@[simp] theorem setRemote_mem (x : Remote) : (s.setRemote k x).mem = s.mem := rfl
@[simp] theorem setRemote_dir (x : Remote) : (s.setRemote k x).dir = s.dir := rfl
@[simp] theorem setRemote_nodeLines (x : Remote) : (s.setRemote k x).nodeLines = s.nodeLines := rfl
@[simp] theorem setRemote_nodeMiss (x : Remote) : (s.setRemote k x).nodeMiss = s.nodeMiss := rfl
@[simp] theorem setRemote_copies (x : Remote) : (s.setRemote k x).copies = s.copies := rfl
@[simp] theorem setRemote_l2 (x : Remote) : (s.setRemote k x).l2 = s.l2 := rfl
@[simp] theorem setRemote_stamps (x : Remote) : (s.setRemote k x).stamps = s.stamps := rfl
@[simp] theorem setRemote_poison (x : Remote) : (s.setRemote k x).poison = s.poison := rfl
@[simp] theorem setRemote_keyTag (x : Remote) : (s.setRemote k x).keyTag = s.keyTag := rfl
@[simp] theorem setRemote_tlbs (x : Remote) : (s.setRemote k x).tlbs = s.tlbs := rfl
@[simp] theorem setRemote_mails (x : Remote) : (s.setRemote k x).mails = s.mails := rfl
@[simp] theorem setRemote_remotes (x : Remote) : (s.setRemote k x).remotes = Tbl.put s.remotes k x := rfl
@[simp] theorem setRemote_relayHeld (x : Remote) : (s.setRemote k x).relayHeld = s.relayHeld := rfl
@[simp] theorem setRemote_ports (x : Remote) : (s.setRemote k x).ports = s.ports := rfl
@[simp] theorem setRemote_mgmt (x : Remote) : (s.setRemote k x).mgmt = s.mgmt := rfl
@[simp] theorem setRemote_out (x : Remote) : (s.setRemote k x).out = s.out := rfl
@[simp] theorem setRemote_at_group (x : Remote) : (s.setRemote k x).group j = s.group j := rfl
@[simp] theorem setRemote_at_team (x : Remote) : (s.setRemote k x).team j = s.team j := rfl
@[simp] theorem setRemote_at_cluster (x : Remote) : (s.setRemote k x).cluster j = s.cluster j := rfl
@[simp] theorem setRemote_at_core (x : Remote) : (s.setRemote k x).core j = s.core j := rfl
@[simp] theorem setRemote_at_quad (x : Remote) : (s.setRemote k x).quad j = s.quad j := rfl
@[simp] theorem setRemote_at_walk (x : Remote) : (s.setRemote k x).walk j = s.walk j := rfl
@[simp] theorem setRemote_at_part (x : Remote) : (s.setRemote k x).part j = s.part j := rfl
@[simp] theorem setRemote_at_ctx (x : Remote) : (s.setRemote k x).ctx j = s.ctx j := rfl
@[simp] theorem setRemote_at_grid (x : Remote) : (s.setRemote k x).grid j = s.grid j := rfl
@[simp] theorem setRemote_at_mail (x : Remote) : (s.setRemote k x).mail j = s.mail j := rfl
@[simp] theorem setRemote_at_port (x : Remote) : (s.setRemote k x).port j = s.port j := rfl
@[simp] theorem setRemote_at_dirOf (x : Remote) : (s.setRemote k x).dirOf j = s.dirOf j := rfl
theorem setRemote_at_remote (x : Remote) : (s.setRemote k x).remote j = if j = k then x else s.remote j := by
  simp [State.remote, Tbl.get_put]
@[simp] theorem setRemote_at_self (x : Remote) : (s.setRemote k x).remote k = x := by simp [setRemote_at_remote]

@[simp] theorem setPort_agenda (x : Port) : (s.setPort k x).agenda = s.agenda := rfl
@[simp] theorem setPort_flight (x : Port) : (s.setPort k x).flight = s.flight := rfl
@[simp] theorem setPort_tick (x : Port) : (s.setPort k x).tick = s.tick := rfl
@[simp] theorem setPort_now (x : Port) : (s.setPort k x).now = s.now := rfl
@[simp] theorem setPort_nextId (x : Port) : (s.setPort k x).nextId = s.nextId := rfl
@[simp] theorem setPort_off (x : Port) : (s.setPort k x).off = s.off := rfl
@[simp] theorem setPort_cur (x : Port) : (s.setPort k x).cur = s.cur := rfl
@[simp] theorem setPort_curWalk (x : Port) : (s.setPort k x).curWalk = s.curWalk := rfl
@[simp] theorem setPort_curN (x : Port) : (s.setPort k x).curN = s.curN := rfl
@[simp] theorem setPort_groups (x : Port) : (s.setPort k x).groups = s.groups := rfl
@[simp] theorem setPort_teams (x : Port) : (s.setPort k x).teams = s.teams := rfl
@[simp] theorem setPort_clusters (x : Port) : (s.setPort k x).clusters = s.clusters := rfl
@[simp] theorem setPort_cores (x : Port) : (s.setPort k x).cores = s.cores := rfl
@[simp] theorem setPort_quads (x : Port) : (s.setPort k x).quads = s.quads := rfl
@[simp] theorem setPort_walks (x : Port) : (s.setPort k x).walks = s.walks := rfl
@[simp] theorem setPort_parts (x : Port) : (s.setPort k x).parts = s.parts := rfl
@[simp] theorem setPort_ctxs (x : Port) : (s.setPort k x).ctxs = s.ctxs := rfl
@[simp] theorem setPort_grids (x : Port) : (s.setPort k x).grids = s.grids := rfl
@[simp] theorem setPort_mem (x : Port) : (s.setPort k x).mem = s.mem := rfl
@[simp] theorem setPort_dir (x : Port) : (s.setPort k x).dir = s.dir := rfl
@[simp] theorem setPort_nodeLines (x : Port) : (s.setPort k x).nodeLines = s.nodeLines := rfl
@[simp] theorem setPort_nodeMiss (x : Port) : (s.setPort k x).nodeMiss = s.nodeMiss := rfl
@[simp] theorem setPort_copies (x : Port) : (s.setPort k x).copies = s.copies := rfl
@[simp] theorem setPort_l2 (x : Port) : (s.setPort k x).l2 = s.l2 := rfl
@[simp] theorem setPort_stamps (x : Port) : (s.setPort k x).stamps = s.stamps := rfl
@[simp] theorem setPort_poison (x : Port) : (s.setPort k x).poison = s.poison := rfl
@[simp] theorem setPort_keyTag (x : Port) : (s.setPort k x).keyTag = s.keyTag := rfl
@[simp] theorem setPort_tlbs (x : Port) : (s.setPort k x).tlbs = s.tlbs := rfl
@[simp] theorem setPort_mails (x : Port) : (s.setPort k x).mails = s.mails := rfl
@[simp] theorem setPort_remotes (x : Port) : (s.setPort k x).remotes = s.remotes := rfl
@[simp] theorem setPort_relayHeld (x : Port) : (s.setPort k x).relayHeld = s.relayHeld := rfl
@[simp] theorem setPort_ports (x : Port) : (s.setPort k x).ports = Tbl.put s.ports k x := rfl
@[simp] theorem setPort_mgmt (x : Port) : (s.setPort k x).mgmt = s.mgmt := rfl
@[simp] theorem setPort_out (x : Port) : (s.setPort k x).out = s.out := rfl
@[simp] theorem setPort_at_group (x : Port) : (s.setPort k x).group j = s.group j := rfl
@[simp] theorem setPort_at_team (x : Port) : (s.setPort k x).team j = s.team j := rfl
@[simp] theorem setPort_at_cluster (x : Port) : (s.setPort k x).cluster j = s.cluster j := rfl
@[simp] theorem setPort_at_core (x : Port) : (s.setPort k x).core j = s.core j := rfl
@[simp] theorem setPort_at_quad (x : Port) : (s.setPort k x).quad j = s.quad j := rfl
@[simp] theorem setPort_at_walk (x : Port) : (s.setPort k x).walk j = s.walk j := rfl
@[simp] theorem setPort_at_part (x : Port) : (s.setPort k x).part j = s.part j := rfl
@[simp] theorem setPort_at_ctx (x : Port) : (s.setPort k x).ctx j = s.ctx j := rfl
@[simp] theorem setPort_at_grid (x : Port) : (s.setPort k x).grid j = s.grid j := rfl
@[simp] theorem setPort_at_mail (x : Port) : (s.setPort k x).mail j = s.mail j := rfl
@[simp] theorem setPort_at_remote (x : Port) : (s.setPort k x).remote j = s.remote j := rfl
@[simp] theorem setPort_at_dirOf (x : Port) : (s.setPort k x).dirOf j = s.dirOf j := rfl
theorem setPort_at_port (x : Port) : (s.setPort k x).port j = if j = k then x else s.port j := by
  simp [State.port, Tbl.get_put]
@[simp] theorem setPort_at_self (x : Port) : (s.setPort k x).port k = x := by simp [setPort_at_port]

@[simp] theorem setDir_agenda (x : Dir) : (s.setDir k x).agenda = s.agenda := rfl
@[simp] theorem setDir_flight (x : Dir) : (s.setDir k x).flight = s.flight := rfl
@[simp] theorem setDir_tick (x : Dir) : (s.setDir k x).tick = s.tick := rfl
@[simp] theorem setDir_now (x : Dir) : (s.setDir k x).now = s.now := rfl
@[simp] theorem setDir_nextId (x : Dir) : (s.setDir k x).nextId = s.nextId := rfl
@[simp] theorem setDir_off (x : Dir) : (s.setDir k x).off = s.off := rfl
@[simp] theorem setDir_cur (x : Dir) : (s.setDir k x).cur = s.cur := rfl
@[simp] theorem setDir_curWalk (x : Dir) : (s.setDir k x).curWalk = s.curWalk := rfl
@[simp] theorem setDir_curN (x : Dir) : (s.setDir k x).curN = s.curN := rfl
@[simp] theorem setDir_groups (x : Dir) : (s.setDir k x).groups = s.groups := rfl
@[simp] theorem setDir_teams (x : Dir) : (s.setDir k x).teams = s.teams := rfl
@[simp] theorem setDir_clusters (x : Dir) : (s.setDir k x).clusters = s.clusters := rfl
@[simp] theorem setDir_cores (x : Dir) : (s.setDir k x).cores = s.cores := rfl
@[simp] theorem setDir_quads (x : Dir) : (s.setDir k x).quads = s.quads := rfl
@[simp] theorem setDir_walks (x : Dir) : (s.setDir k x).walks = s.walks := rfl
@[simp] theorem setDir_parts (x : Dir) : (s.setDir k x).parts = s.parts := rfl
@[simp] theorem setDir_ctxs (x : Dir) : (s.setDir k x).ctxs = s.ctxs := rfl
@[simp] theorem setDir_grids (x : Dir) : (s.setDir k x).grids = s.grids := rfl
@[simp] theorem setDir_mem (x : Dir) : (s.setDir k x).mem = s.mem := rfl
@[simp] theorem setDir_dir (x : Dir) : (s.setDir k x).dir = Tbl.put s.dir k x := rfl
@[simp] theorem setDir_nodeLines (x : Dir) : (s.setDir k x).nodeLines = s.nodeLines := rfl
@[simp] theorem setDir_nodeMiss (x : Dir) : (s.setDir k x).nodeMiss = s.nodeMiss := rfl
@[simp] theorem setDir_copies (x : Dir) : (s.setDir k x).copies = s.copies := rfl
@[simp] theorem setDir_l2 (x : Dir) : (s.setDir k x).l2 = s.l2 := rfl
@[simp] theorem setDir_stamps (x : Dir) : (s.setDir k x).stamps = s.stamps := rfl
@[simp] theorem setDir_poison (x : Dir) : (s.setDir k x).poison = s.poison := rfl
@[simp] theorem setDir_keyTag (x : Dir) : (s.setDir k x).keyTag = s.keyTag := rfl
@[simp] theorem setDir_tlbs (x : Dir) : (s.setDir k x).tlbs = s.tlbs := rfl
@[simp] theorem setDir_mails (x : Dir) : (s.setDir k x).mails = s.mails := rfl
@[simp] theorem setDir_remotes (x : Dir) : (s.setDir k x).remotes = s.remotes := rfl
@[simp] theorem setDir_relayHeld (x : Dir) : (s.setDir k x).relayHeld = s.relayHeld := rfl
@[simp] theorem setDir_ports (x : Dir) : (s.setDir k x).ports = s.ports := rfl
@[simp] theorem setDir_mgmt (x : Dir) : (s.setDir k x).mgmt = s.mgmt := rfl
@[simp] theorem setDir_out (x : Dir) : (s.setDir k x).out = s.out := rfl
@[simp] theorem setDir_at_group (x : Dir) : (s.setDir k x).group j = s.group j := rfl
@[simp] theorem setDir_at_team (x : Dir) : (s.setDir k x).team j = s.team j := rfl
@[simp] theorem setDir_at_cluster (x : Dir) : (s.setDir k x).cluster j = s.cluster j := rfl
@[simp] theorem setDir_at_core (x : Dir) : (s.setDir k x).core j = s.core j := rfl
@[simp] theorem setDir_at_quad (x : Dir) : (s.setDir k x).quad j = s.quad j := rfl
@[simp] theorem setDir_at_walk (x : Dir) : (s.setDir k x).walk j = s.walk j := rfl
@[simp] theorem setDir_at_part (x : Dir) : (s.setDir k x).part j = s.part j := rfl
@[simp] theorem setDir_at_ctx (x : Dir) : (s.setDir k x).ctx j = s.ctx j := rfl
@[simp] theorem setDir_at_grid (x : Dir) : (s.setDir k x).grid j = s.grid j := rfl
@[simp] theorem setDir_at_mail (x : Dir) : (s.setDir k x).mail j = s.mail j := rfl
@[simp] theorem setDir_at_remote (x : Dir) : (s.setDir k x).remote j = s.remote j := rfl
@[simp] theorem setDir_at_port (x : Dir) : (s.setDir k x).port j = s.port j := rfl
theorem setDir_at_dirOf (x : Dir) : (s.setDir k x).dirOf j = if j = k then x else s.dirOf j := by
  simp [State.dirOf, Tbl.get_put]
@[simp] theorem setDir_at_self (x : Dir) : (s.setDir k x).dirOf k = x := by simp [setDir_at_dirOf]

@[simp] theorem emit_agenda (x : Out) : (s.emit x).agenda = s.agenda := rfl
@[simp] theorem emit_flight (x : Out) : (s.emit x).flight = s.flight := rfl
@[simp] theorem emit_tick (x : Out) : (s.emit x).tick = s.tick := rfl
@[simp] theorem emit_now (x : Out) : (s.emit x).now = s.now := rfl
@[simp] theorem emit_nextId (x : Out) : (s.emit x).nextId = s.nextId := rfl
@[simp] theorem emit_off (x : Out) : (s.emit x).off = s.off := rfl
@[simp] theorem emit_cur (x : Out) : (s.emit x).cur = s.cur := rfl
@[simp] theorem emit_curWalk (x : Out) : (s.emit x).curWalk = s.curWalk := rfl
@[simp] theorem emit_curN (x : Out) : (s.emit x).curN = s.curN := rfl
@[simp] theorem emit_groups (x : Out) : (s.emit x).groups = s.groups := rfl
@[simp] theorem emit_teams (x : Out) : (s.emit x).teams = s.teams := rfl
@[simp] theorem emit_clusters (x : Out) : (s.emit x).clusters = s.clusters := rfl
@[simp] theorem emit_cores (x : Out) : (s.emit x).cores = s.cores := rfl
@[simp] theorem emit_quads (x : Out) : (s.emit x).quads = s.quads := rfl
@[simp] theorem emit_walks (x : Out) : (s.emit x).walks = s.walks := rfl
@[simp] theorem emit_parts (x : Out) : (s.emit x).parts = s.parts := rfl
@[simp] theorem emit_ctxs (x : Out) : (s.emit x).ctxs = s.ctxs := rfl
@[simp] theorem emit_grids (x : Out) : (s.emit x).grids = s.grids := rfl
@[simp] theorem emit_mem (x : Out) : (s.emit x).mem = s.mem := rfl
@[simp] theorem emit_dir (x : Out) : (s.emit x).dir = s.dir := rfl
@[simp] theorem emit_nodeLines (x : Out) : (s.emit x).nodeLines = s.nodeLines := rfl
@[simp] theorem emit_nodeMiss (x : Out) : (s.emit x).nodeMiss = s.nodeMiss := rfl
@[simp] theorem emit_copies (x : Out) : (s.emit x).copies = s.copies := rfl
@[simp] theorem emit_l2 (x : Out) : (s.emit x).l2 = s.l2 := rfl
@[simp] theorem emit_stamps (x : Out) : (s.emit x).stamps = s.stamps := rfl
@[simp] theorem emit_poison (x : Out) : (s.emit x).poison = s.poison := rfl
@[simp] theorem emit_keyTag (x : Out) : (s.emit x).keyTag = s.keyTag := rfl
@[simp] theorem emit_tlbs (x : Out) : (s.emit x).tlbs = s.tlbs := rfl
@[simp] theorem emit_mails (x : Out) : (s.emit x).mails = s.mails := rfl
@[simp] theorem emit_remotes (x : Out) : (s.emit x).remotes = s.remotes := rfl
@[simp] theorem emit_relayHeld (x : Out) : (s.emit x).relayHeld = s.relayHeld := rfl
@[simp] theorem emit_ports (x : Out) : (s.emit x).ports = s.ports := rfl
@[simp] theorem emit_mgmt (x : Out) : (s.emit x).mgmt = s.mgmt := rfl
@[simp] theorem emit_out (x : Out) : (s.emit x).out = s.out ++ [x] := rfl
@[simp] theorem post_agenda (x : Instr) : (s.post x).agenda = s.agenda := rfl
@[simp] theorem post_flight (x : Instr) : (s.post x).flight = s.flight ++ [x] := rfl
@[simp] theorem post_tick (x : Instr) : (s.post x).tick = s.tick := rfl
@[simp] theorem post_now (x : Instr) : (s.post x).now = s.now := rfl
@[simp] theorem post_nextId (x : Instr) : (s.post x).nextId = s.nextId := rfl
@[simp] theorem post_off (x : Instr) : (s.post x).off = s.off := rfl
@[simp] theorem post_cur (x : Instr) : (s.post x).cur = s.cur := rfl
@[simp] theorem post_curWalk (x : Instr) : (s.post x).curWalk = s.curWalk := rfl
@[simp] theorem post_curN (x : Instr) : (s.post x).curN = s.curN := rfl
@[simp] theorem post_groups (x : Instr) : (s.post x).groups = s.groups := rfl
@[simp] theorem post_teams (x : Instr) : (s.post x).teams = s.teams := rfl
@[simp] theorem post_clusters (x : Instr) : (s.post x).clusters = s.clusters := rfl
@[simp] theorem post_cores (x : Instr) : (s.post x).cores = s.cores := rfl
@[simp] theorem post_quads (x : Instr) : (s.post x).quads = s.quads := rfl
@[simp] theorem post_walks (x : Instr) : (s.post x).walks = s.walks := rfl
@[simp] theorem post_parts (x : Instr) : (s.post x).parts = s.parts := rfl
@[simp] theorem post_ctxs (x : Instr) : (s.post x).ctxs = s.ctxs := rfl
@[simp] theorem post_grids (x : Instr) : (s.post x).grids = s.grids := rfl
@[simp] theorem post_mem (x : Instr) : (s.post x).mem = s.mem := rfl
@[simp] theorem post_dir (x : Instr) : (s.post x).dir = s.dir := rfl
@[simp] theorem post_nodeLines (x : Instr) : (s.post x).nodeLines = s.nodeLines := rfl
@[simp] theorem post_nodeMiss (x : Instr) : (s.post x).nodeMiss = s.nodeMiss := rfl
@[simp] theorem post_copies (x : Instr) : (s.post x).copies = s.copies := rfl
@[simp] theorem post_l2 (x : Instr) : (s.post x).l2 = s.l2 := rfl
@[simp] theorem post_stamps (x : Instr) : (s.post x).stamps = s.stamps := rfl
@[simp] theorem post_poison (x : Instr) : (s.post x).poison = s.poison := rfl
@[simp] theorem post_keyTag (x : Instr) : (s.post x).keyTag = s.keyTag := rfl
@[simp] theorem post_tlbs (x : Instr) : (s.post x).tlbs = s.tlbs := rfl
@[simp] theorem post_mails (x : Instr) : (s.post x).mails = s.mails := rfl
@[simp] theorem post_remotes (x : Instr) : (s.post x).remotes = s.remotes := rfl
@[simp] theorem post_relayHeld (x : Instr) : (s.post x).relayHeld = s.relayHeld := rfl
@[simp] theorem post_ports (x : Instr) : (s.post x).ports = s.ports := rfl
@[simp] theorem post_mgmt (x : Instr) : (s.post x).mgmt = s.mgmt := rfl
@[simp] theorem post_out (x : Instr) : (s.post x).out = s.out := rfl
@[simp] theorem drawn_agenda : s.drawn.agenda = s.agenda := rfl
@[simp] theorem drawn_flight : s.drawn.flight = s.flight := rfl
@[simp] theorem drawn_tick : s.drawn.tick = s.tick + 1 := rfl
@[simp] theorem drawn_now : s.drawn.now = s.now := rfl
@[simp] theorem drawn_nextId : s.drawn.nextId = s.nextId := rfl
@[simp] theorem drawn_off : s.drawn.off = s.off := rfl
@[simp] theorem drawn_cur : s.drawn.cur = s.cur := rfl
@[simp] theorem drawn_curWalk : s.drawn.curWalk = s.curWalk := rfl
@[simp] theorem drawn_curN : s.drawn.curN = s.curN := rfl
@[simp] theorem drawn_groups : s.drawn.groups = s.groups := rfl
@[simp] theorem drawn_teams : s.drawn.teams = s.teams := rfl
@[simp] theorem drawn_clusters : s.drawn.clusters = s.clusters := rfl
@[simp] theorem drawn_cores : s.drawn.cores = s.cores := rfl
@[simp] theorem drawn_quads : s.drawn.quads = s.quads := rfl
@[simp] theorem drawn_walks : s.drawn.walks = s.walks := rfl
@[simp] theorem drawn_parts : s.drawn.parts = s.parts := rfl
@[simp] theorem drawn_ctxs : s.drawn.ctxs = s.ctxs := rfl
@[simp] theorem drawn_grids : s.drawn.grids = s.grids := rfl
@[simp] theorem drawn_mem : s.drawn.mem = s.mem := rfl
@[simp] theorem drawn_dir : s.drawn.dir = s.dir := rfl
@[simp] theorem drawn_nodeLines : s.drawn.nodeLines = s.nodeLines := rfl
@[simp] theorem drawn_nodeMiss : s.drawn.nodeMiss = s.nodeMiss := rfl
@[simp] theorem drawn_copies : s.drawn.copies = s.copies := rfl
@[simp] theorem drawn_l2 : s.drawn.l2 = s.l2 := rfl
@[simp] theorem drawn_stamps : s.drawn.stamps = s.stamps := rfl
@[simp] theorem drawn_poison : s.drawn.poison = s.poison := rfl
@[simp] theorem drawn_keyTag : s.drawn.keyTag = s.keyTag := rfl
@[simp] theorem drawn_tlbs : s.drawn.tlbs = s.tlbs := rfl
@[simp] theorem drawn_mails : s.drawn.mails = s.mails := rfl
@[simp] theorem drawn_remotes : s.drawn.remotes = s.remotes := rfl
@[simp] theorem drawn_relayHeld : s.drawn.relayHeld = s.relayHeld := rfl
@[simp] theorem drawn_ports : s.drawn.ports = s.ports := rfl
@[simp] theorem drawn_mgmt : s.drawn.mgmt = s.mgmt := rfl
@[simp] theorem drawn_out : s.drawn.out = s.out := rfl

end

section
variable (g : Group)

@[simp] theorem setVT_live (r l : Nat) (w : Word) (tag : Bool) : (g.setVT r l w tag).live = g.live := rfl
@[simp] theorem setVT_team (r l : Nat) (w : Word) (tag : Bool) : (g.setVT r l w tag).team = g.team := rfl
@[simp] theorem setVT_num (r l : Nat) (w : Word) (tag : Bool) : (g.setVT r l w tag).num = g.num := rfl
@[simp] theorem setVT_slot (r l : Nat) (w : Word) (tag : Bool) : (g.setVT r l w tag).slot = g.slot := rfl
@[simp] theorem setVT_nv (r l : Nat) (w : Word) (tag : Bool) : (g.setVT r l w tag).nv = g.nv := rfl
@[simp] theorem setVT_ns (r l : Nat) (w : Word) (tag : Bool) : (g.setVT r l w tag).ns = g.ns := rfl
@[simp] theorem setVT_nw (r l : Nat) (w : Word) (tag : Bool) : (g.setVT r l w tag).nw = g.nw := rfl
@[simp] theorem setVT_runOff (r l : Nat) (w : Word) (tag : Bool) : (g.setVT r l w tag).runOff = g.runOff := rfl
@[simp] theorem setVT_v (r l : Nat) (w : Word) (tag : Bool) : (g.setVT r l w tag).v = Tbl.set 0 g.v (32 * r + l) w := rfl
@[simp] theorem setVT_vtag (r l : Nat) (w : Word) (tag : Bool) : (g.setVT r l w tag).vtag = Tbl.set false g.vtag (32 * r + l) tag := rfl
@[simp] theorem setVT_s (r l : Nat) (w : Word) (tag : Bool) : (g.setVT r l w tag).s = g.s := rfl
@[simp] theorem setVT_p (r l : Nat) (w : Word) (tag : Bool) : (g.setVT r l w tag).p = g.p := rfl
@[simp] theorem setVT_win (r l : Nat) (w : Word) (tag : Bool) : (g.setVT r l w tag).win = g.win := rfl
@[simp] theorem setVT_xtag (r l : Nat) (w : Word) (tag : Bool) : (g.setVT r l w tag).xtag = g.xtag := rfl
@[simp] theorem setVT_uninit (r l : Nat) (w : Word) (tag : Bool) : (g.setVT r l w tag).uninit = g.uninit := rfl
@[simp] theorem setVT_prec (r l : Nat) (w : Word) (tag : Bool) : (g.setVT r l w tag).prec = g.prec := rfl
@[simp] theorem setVT_round (r l : Nat) (w : Word) (tag : Bool) : (g.setVT r l w tag).round = g.round := rfl
@[simp] theorem setVT_fflags (r l : Nat) (w : Word) (tag : Bool) : (g.setVT r l w tag).fflags = g.fflags := rfl
@[simp] theorem setVT_xb (r l : Nat) (w : Word) (tag : Bool) : (g.setVT r l w tag).xb = g.xb := rfl
@[simp] theorem setVT_ssp (r l : Nat) (w : Word) (tag : Bool) : (g.setVT r l w tag).ssp = g.ssp := rfl
@[simp] theorem setVT_xmap (r l : Nat) (w : Word) (tag : Bool) : (g.setVT r l w tag).xmap = g.xmap := rfl
@[simp] theorem setVT_carry (r l : Nat) (w : Word) (tag : Bool) : (g.setVT r l w tag).carry = g.carry := rfl
@[simp] theorem setVT_frames (r l : Nat) (w : Word) (tag : Bool) : (g.setVT r l w tag).frames = g.frames := rfl
@[simp] theorem setVT_depth (r l : Nat) (w : Word) (tag : Bool) : (g.setVT r l w tag).depth = g.depth := rfl
@[simp] theorem setVT_spills (r l : Nat) (w : Word) (tag : Bool) : (g.setVT r l w tag).spills = g.spills := rfl
@[simp] theorem setVT_c (r l : Nat) (w : Word) (tag : Bool) : (g.setVT r l w tag).c = g.c := rfl
@[simp] theorem setVT_run (r l : Nat) (w : Word) (tag : Bool) : (g.setVT r l w tag).run = g.run := rfl
@[simp] theorem setVT_ready (r l : Nat) (w : Word) (tag : Bool) : (g.setVT r l w tag).ready = g.ready := rfl
@[simp] theorem setVT_parked (r l : Nat) (w : Word) (tag : Bool) : (g.setVT r l w tag).parked = g.parked := rfl
@[simp] theorem setVT_turn (r l : Nat) (w : Word) (tag : Bool) : (g.setVT r l w tag).turn = g.turn := rfl
@[simp] theorem setVT_nextPath (r l : Nat) (w : Word) (tag : Bool) : (g.setVT r l w tag).nextPath = g.nextPath := rfl
@[simp] theorem setVT_handler (r l : Nat) (w : Word) (tag : Bool) : (g.setVT r l w tag).handler = g.handler := rfl
@[simp] theorem setVT_tcause (r l : Nat) (w : Word) (tag : Bool) : (g.setVT r l w tag).tcause = g.tcause := rfl
@[simp] theorem setVT_tval (r l : Nat) (w : Word) (tag : Bool) : (g.setVT r l w tag).tval = g.tval := rfl
@[simp] theorem setVT_tpc (r l : Nat) (w : Word) (tag : Bool) : (g.setVT r l w tag).tpc = g.tpc := rfl
@[simp] theorem setVT_taddr (r l : Nat) (w : Word) (tag : Bool) : (g.setVT r l w tag).taddr = g.taddr := rfl
@[simp] theorem setVT_wtimeout (r l : Nat) (w : Word) (tag : Bool) : (g.setVT r l w tag).wtimeout = g.wtimeout := rfl
@[simp] theorem setVT_sup (r l : Nat) (w : Word) (tag : Bool) : (g.setVT r l w tag).sup = g.sup := rfl
@[simp] theorem setVT_reports (r l : Nat) (w : Word) (tag : Bool) : (g.setVT r l w tag).reports = g.reports := rfl
@[simp] theorem setVT_deferred (r l : Nat) (w : Word) (tag : Bool) : (g.setVT r l w tag).deferred = g.deferred := rfl
@[simp] theorem setVT_monitor (r l : Nat) (w : Word) (tag : Bool) : (g.setVT r l w tag).monitor = g.monitor := rfl
@[simp] theorem setVT_lastAcq (r l : Nat) (w : Word) (tag : Bool) : (g.setVT r l w tag).lastAcq = g.lastAcq := rfl
@[simp] theorem setVT_barT (r l : Nat) (w : Word) (tag : Bool) : (g.setVT r l w tag).barT = g.barT := rfl
@[simp] theorem setVT_barX (r l : Nat) (w : Word) (tag : Bool) : (g.setVT r l w tag).barX = g.barX := rfl
@[simp] theorem setVT_passed (r l : Nat) (w : Word) (tag : Bool) : (g.setVT r l w tag).passed = g.passed := rfl
@[simp] theorem setVT_halted (r l : Nat) (w : Word) (tag : Bool) : (g.setVT r l w tag).halted = g.halted := rfl
@[simp] theorem setS_live (r : Nat) (w : Word) : (g.setS r w).live = g.live := rfl
@[simp] theorem setS_team (r : Nat) (w : Word) : (g.setS r w).team = g.team := rfl
@[simp] theorem setS_num (r : Nat) (w : Word) : (g.setS r w).num = g.num := rfl
@[simp] theorem setS_slot (r : Nat) (w : Word) : (g.setS r w).slot = g.slot := rfl
@[simp] theorem setS_nv (r : Nat) (w : Word) : (g.setS r w).nv = g.nv := rfl
@[simp] theorem setS_ns (r : Nat) (w : Word) : (g.setS r w).ns = g.ns := rfl
@[simp] theorem setS_nw (r : Nat) (w : Word) : (g.setS r w).nw = g.nw := rfl
@[simp] theorem setS_runOff (r : Nat) (w : Word) : (g.setS r w).runOff = g.runOff := rfl
@[simp] theorem setS_v (r : Nat) (w : Word) : (g.setS r w).v = g.v := rfl
@[simp] theorem setS_vtag (r : Nat) (w : Word) : (g.setS r w).vtag = g.vtag := rfl
@[simp] theorem setS_s (r : Nat) (w : Word) : (g.setS r w).s = Tbl.set 0 g.s r w := rfl
@[simp] theorem setS_p (r : Nat) (w : Word) : (g.setS r w).p = g.p := rfl
@[simp] theorem setS_win (r : Nat) (w : Word) : (g.setS r w).win = g.win := rfl
@[simp] theorem setS_xtag (r : Nat) (w : Word) : (g.setS r w).xtag = g.xtag := rfl
@[simp] theorem setS_uninit (r : Nat) (w : Word) : (g.setS r w).uninit = g.uninit := rfl
@[simp] theorem setS_prec (r : Nat) (w : Word) : (g.setS r w).prec = g.prec := rfl
@[simp] theorem setS_round (r : Nat) (w : Word) : (g.setS r w).round = g.round := rfl
@[simp] theorem setS_fflags (r : Nat) (w : Word) : (g.setS r w).fflags = g.fflags := rfl
@[simp] theorem setS_xb (r : Nat) (w : Word) : (g.setS r w).xb = g.xb := rfl
@[simp] theorem setS_ssp (r : Nat) (w : Word) : (g.setS r w).ssp = g.ssp := rfl
@[simp] theorem setS_xmap (r : Nat) (w : Word) : (g.setS r w).xmap = g.xmap := rfl
@[simp] theorem setS_carry (r : Nat) (w : Word) : (g.setS r w).carry = g.carry := rfl
@[simp] theorem setS_frames (r : Nat) (w : Word) : (g.setS r w).frames = g.frames := rfl
@[simp] theorem setS_depth (r : Nat) (w : Word) : (g.setS r w).depth = g.depth := rfl
@[simp] theorem setS_spills (r : Nat) (w : Word) : (g.setS r w).spills = g.spills := rfl
@[simp] theorem setS_c (r : Nat) (w : Word) : (g.setS r w).c = g.c := rfl
@[simp] theorem setS_run (r : Nat) (w : Word) : (g.setS r w).run = g.run := rfl
@[simp] theorem setS_ready (r : Nat) (w : Word) : (g.setS r w).ready = g.ready := rfl
@[simp] theorem setS_parked (r : Nat) (w : Word) : (g.setS r w).parked = g.parked := rfl
@[simp] theorem setS_turn (r : Nat) (w : Word) : (g.setS r w).turn = g.turn := rfl
@[simp] theorem setS_nextPath (r : Nat) (w : Word) : (g.setS r w).nextPath = g.nextPath := rfl
@[simp] theorem setS_handler (r : Nat) (w : Word) : (g.setS r w).handler = g.handler := rfl
@[simp] theorem setS_tcause (r : Nat) (w : Word) : (g.setS r w).tcause = g.tcause := rfl
@[simp] theorem setS_tval (r : Nat) (w : Word) : (g.setS r w).tval = g.tval := rfl
@[simp] theorem setS_tpc (r : Nat) (w : Word) : (g.setS r w).tpc = g.tpc := rfl
@[simp] theorem setS_taddr (r : Nat) (w : Word) : (g.setS r w).taddr = g.taddr := rfl
@[simp] theorem setS_wtimeout (r : Nat) (w : Word) : (g.setS r w).wtimeout = g.wtimeout := rfl
@[simp] theorem setS_sup (r : Nat) (w : Word) : (g.setS r w).sup = g.sup := rfl
@[simp] theorem setS_reports (r : Nat) (w : Word) : (g.setS r w).reports = g.reports := rfl
@[simp] theorem setS_deferred (r : Nat) (w : Word) : (g.setS r w).deferred = g.deferred := rfl
@[simp] theorem setS_monitor (r : Nat) (w : Word) : (g.setS r w).monitor = g.monitor := rfl
@[simp] theorem setS_lastAcq (r : Nat) (w : Word) : (g.setS r w).lastAcq = g.lastAcq := rfl
@[simp] theorem setS_barT (r : Nat) (w : Word) : (g.setS r w).barT = g.barT := rfl
@[simp] theorem setS_barX (r : Nat) (w : Word) : (g.setS r w).barX = g.barX := rfl
@[simp] theorem setS_passed (r : Nat) (w : Word) : (g.setS r w).passed = g.passed := rfl
@[simp] theorem setS_halted (r : Nat) (w : Word) : (g.setS r w).halted = g.halted := rfl
@[simp] theorem setWin_live (w l : Nat) (x : Word) : (g.setWin w l x).live = g.live := rfl
@[simp] theorem setWin_team (w l : Nat) (x : Word) : (g.setWin w l x).team = g.team := rfl
@[simp] theorem setWin_num (w l : Nat) (x : Word) : (g.setWin w l x).num = g.num := rfl
@[simp] theorem setWin_slot (w l : Nat) (x : Word) : (g.setWin w l x).slot = g.slot := rfl
@[simp] theorem setWin_nv (w l : Nat) (x : Word) : (g.setWin w l x).nv = g.nv := rfl
@[simp] theorem setWin_ns (w l : Nat) (x : Word) : (g.setWin w l x).ns = g.ns := rfl
@[simp] theorem setWin_nw (w l : Nat) (x : Word) : (g.setWin w l x).nw = g.nw := rfl
@[simp] theorem setWin_runOff (w l : Nat) (x : Word) : (g.setWin w l x).runOff = g.runOff := rfl
@[simp] theorem setWin_v (w l : Nat) (x : Word) : (g.setWin w l x).v = g.v := rfl
@[simp] theorem setWin_vtag (w l : Nat) (x : Word) : (g.setWin w l x).vtag = g.vtag := rfl
@[simp] theorem setWin_s (w l : Nat) (x : Word) : (g.setWin w l x).s = g.s := rfl
@[simp] theorem setWin_p (w l : Nat) (x : Word) : (g.setWin w l x).p = g.p := rfl
@[simp] theorem setWin_win (w l : Nat) (x : Word) : (g.setWin w l x).win = Tbl.set 0 g.win (32 * w + l) x := rfl
@[simp] theorem setWin_xtag (w l : Nat) (x : Word) : (g.setWin w l x).xtag = g.xtag := rfl
@[simp] theorem setWin_uninit (w l : Nat) (x : Word) : (g.setWin w l x).uninit = g.uninit := rfl
@[simp] theorem setWin_prec (w l : Nat) (x : Word) : (g.setWin w l x).prec = g.prec := rfl
@[simp] theorem setWin_round (w l : Nat) (x : Word) : (g.setWin w l x).round = g.round := rfl
@[simp] theorem setWin_fflags (w l : Nat) (x : Word) : (g.setWin w l x).fflags = g.fflags := rfl
@[simp] theorem setWin_xb (w l : Nat) (x : Word) : (g.setWin w l x).xb = g.xb := rfl
@[simp] theorem setWin_ssp (w l : Nat) (x : Word) : (g.setWin w l x).ssp = g.ssp := rfl
@[simp] theorem setWin_xmap (w l : Nat) (x : Word) : (g.setWin w l x).xmap = g.xmap := rfl
@[simp] theorem setWin_carry (w l : Nat) (x : Word) : (g.setWin w l x).carry = g.carry := rfl
@[simp] theorem setWin_frames (w l : Nat) (x : Word) : (g.setWin w l x).frames = g.frames := rfl
@[simp] theorem setWin_depth (w l : Nat) (x : Word) : (g.setWin w l x).depth = g.depth := rfl
@[simp] theorem setWin_spills (w l : Nat) (x : Word) : (g.setWin w l x).spills = g.spills := rfl
@[simp] theorem setWin_c (w l : Nat) (x : Word) : (g.setWin w l x).c = g.c := rfl
@[simp] theorem setWin_run (w l : Nat) (x : Word) : (g.setWin w l x).run = g.run := rfl
@[simp] theorem setWin_ready (w l : Nat) (x : Word) : (g.setWin w l x).ready = g.ready := rfl
@[simp] theorem setWin_parked (w l : Nat) (x : Word) : (g.setWin w l x).parked = g.parked := rfl
@[simp] theorem setWin_turn (w l : Nat) (x : Word) : (g.setWin w l x).turn = g.turn := rfl
@[simp] theorem setWin_nextPath (w l : Nat) (x : Word) : (g.setWin w l x).nextPath = g.nextPath := rfl
@[simp] theorem setWin_handler (w l : Nat) (x : Word) : (g.setWin w l x).handler = g.handler := rfl
@[simp] theorem setWin_tcause (w l : Nat) (x : Word) : (g.setWin w l x).tcause = g.tcause := rfl
@[simp] theorem setWin_tval (w l : Nat) (x : Word) : (g.setWin w l x).tval = g.tval := rfl
@[simp] theorem setWin_tpc (w l : Nat) (x : Word) : (g.setWin w l x).tpc = g.tpc := rfl
@[simp] theorem setWin_taddr (w l : Nat) (x : Word) : (g.setWin w l x).taddr = g.taddr := rfl
@[simp] theorem setWin_wtimeout (w l : Nat) (x : Word) : (g.setWin w l x).wtimeout = g.wtimeout := rfl
@[simp] theorem setWin_sup (w l : Nat) (x : Word) : (g.setWin w l x).sup = g.sup := rfl
@[simp] theorem setWin_reports (w l : Nat) (x : Word) : (g.setWin w l x).reports = g.reports := rfl
@[simp] theorem setWin_deferred (w l : Nat) (x : Word) : (g.setWin w l x).deferred = g.deferred := rfl
@[simp] theorem setWin_monitor (w l : Nat) (x : Word) : (g.setWin w l x).monitor = g.monitor := rfl
@[simp] theorem setWin_lastAcq (w l : Nat) (x : Word) : (g.setWin w l x).lastAcq = g.lastAcq := rfl
@[simp] theorem setWin_barT (w l : Nat) (x : Word) : (g.setWin w l x).barT = g.barT := rfl
@[simp] theorem setWin_barX (w l : Nat) (x : Word) : (g.setWin w l x).barX = g.barX := rfl
@[simp] theorem setWin_passed (w l : Nat) (x : Word) : (g.setWin w l x).passed = g.passed := rfl
@[simp] theorem setWin_halted (w l : Nat) (x : Word) : (g.setWin w l x).halted = g.halted := rfl
@[simp] theorem setConv_live (i : Nat) (x : Conv) : (g.setConv i x).live = g.live := rfl
@[simp] theorem setConv_team (i : Nat) (x : Conv) : (g.setConv i x).team = g.team := rfl
@[simp] theorem setConv_num (i : Nat) (x : Conv) : (g.setConv i x).num = g.num := rfl
@[simp] theorem setConv_slot (i : Nat) (x : Conv) : (g.setConv i x).slot = g.slot := rfl
@[simp] theorem setConv_nv (i : Nat) (x : Conv) : (g.setConv i x).nv = g.nv := rfl
@[simp] theorem setConv_ns (i : Nat) (x : Conv) : (g.setConv i x).ns = g.ns := rfl
@[simp] theorem setConv_nw (i : Nat) (x : Conv) : (g.setConv i x).nw = g.nw := rfl
@[simp] theorem setConv_runOff (i : Nat) (x : Conv) : (g.setConv i x).runOff = g.runOff := rfl
@[simp] theorem setConv_v (i : Nat) (x : Conv) : (g.setConv i x).v = g.v := rfl
@[simp] theorem setConv_vtag (i : Nat) (x : Conv) : (g.setConv i x).vtag = g.vtag := rfl
@[simp] theorem setConv_s (i : Nat) (x : Conv) : (g.setConv i x).s = g.s := rfl
@[simp] theorem setConv_p (i : Nat) (x : Conv) : (g.setConv i x).p = g.p := rfl
@[simp] theorem setConv_win (i : Nat) (x : Conv) : (g.setConv i x).win = g.win := rfl
@[simp] theorem setConv_xtag (i : Nat) (x : Conv) : (g.setConv i x).xtag = g.xtag := rfl
@[simp] theorem setConv_uninit (i : Nat) (x : Conv) : (g.setConv i x).uninit = g.uninit := rfl
@[simp] theorem setConv_prec (i : Nat) (x : Conv) : (g.setConv i x).prec = g.prec := rfl
@[simp] theorem setConv_round (i : Nat) (x : Conv) : (g.setConv i x).round = g.round := rfl
@[simp] theorem setConv_fflags (i : Nat) (x : Conv) : (g.setConv i x).fflags = g.fflags := rfl
@[simp] theorem setConv_xb (i : Nat) (x : Conv) : (g.setConv i x).xb = g.xb := rfl
@[simp] theorem setConv_ssp (i : Nat) (x : Conv) : (g.setConv i x).ssp = g.ssp := rfl
@[simp] theorem setConv_xmap (i : Nat) (x : Conv) : (g.setConv i x).xmap = g.xmap := rfl
@[simp] theorem setConv_carry (i : Nat) (x : Conv) : (g.setConv i x).carry = g.carry := rfl
@[simp] theorem setConv_frames (i : Nat) (x : Conv) : (g.setConv i x).frames = g.frames := rfl
@[simp] theorem setConv_depth (i : Nat) (x : Conv) : (g.setConv i x).depth = g.depth := rfl
@[simp] theorem setConv_spills (i : Nat) (x : Conv) : (g.setConv i x).spills = g.spills := rfl
@[simp] theorem setConv_c (i : Nat) (x : Conv) : (g.setConv i x).c = Tbl.set Conv.none g.c i x := rfl
@[simp] theorem setConv_run (i : Nat) (x : Conv) : (g.setConv i x).run = g.run := rfl
@[simp] theorem setConv_ready (i : Nat) (x : Conv) : (g.setConv i x).ready = g.ready := rfl
@[simp] theorem setConv_parked (i : Nat) (x : Conv) : (g.setConv i x).parked = g.parked := rfl
@[simp] theorem setConv_turn (i : Nat) (x : Conv) : (g.setConv i x).turn = g.turn := rfl
@[simp] theorem setConv_nextPath (i : Nat) (x : Conv) : (g.setConv i x).nextPath = g.nextPath := rfl
@[simp] theorem setConv_handler (i : Nat) (x : Conv) : (g.setConv i x).handler = g.handler := rfl
@[simp] theorem setConv_tcause (i : Nat) (x : Conv) : (g.setConv i x).tcause = g.tcause := rfl
@[simp] theorem setConv_tval (i : Nat) (x : Conv) : (g.setConv i x).tval = g.tval := rfl
@[simp] theorem setConv_tpc (i : Nat) (x : Conv) : (g.setConv i x).tpc = g.tpc := rfl
@[simp] theorem setConv_taddr (i : Nat) (x : Conv) : (g.setConv i x).taddr = g.taddr := rfl
@[simp] theorem setConv_wtimeout (i : Nat) (x : Conv) : (g.setConv i x).wtimeout = g.wtimeout := rfl
@[simp] theorem setConv_sup (i : Nat) (x : Conv) : (g.setConv i x).sup = g.sup := rfl
@[simp] theorem setConv_reports (i : Nat) (x : Conv) : (g.setConv i x).reports = g.reports := rfl
@[simp] theorem setConv_deferred (i : Nat) (x : Conv) : (g.setConv i x).deferred = g.deferred := rfl
@[simp] theorem setConv_monitor (i : Nat) (x : Conv) : (g.setConv i x).monitor = g.monitor := rfl
@[simp] theorem setConv_lastAcq (i : Nat) (x : Conv) : (g.setConv i x).lastAcq = g.lastAcq := rfl
@[simp] theorem setConv_barT (i : Nat) (x : Conv) : (g.setConv i x).barT = g.barT := rfl
@[simp] theorem setConv_barX (i : Nat) (x : Conv) : (g.setConv i x).barX = g.barX := rfl
@[simp] theorem setConv_passed (i : Nat) (x : Conv) : (g.setConv i x).passed = g.passed := rfl
@[simp] theorem setConv_halted (i : Nat) (x : Conv) : (g.setConv i x).halted = g.halted := rfl
@[simp] theorem setP_live (r : Nat) (m x : Mask) : (g.setP r m x).live = g.live := by
  unfold Group.setP; split <;> rfl
@[simp] theorem setP_team (r : Nat) (m x : Mask) : (g.setP r m x).team = g.team := by
  unfold Group.setP; split <;> rfl
@[simp] theorem setP_num (r : Nat) (m x : Mask) : (g.setP r m x).num = g.num := by
  unfold Group.setP; split <;> rfl
@[simp] theorem setP_slot (r : Nat) (m x : Mask) : (g.setP r m x).slot = g.slot := by
  unfold Group.setP; split <;> rfl
@[simp] theorem setP_nv (r : Nat) (m x : Mask) : (g.setP r m x).nv = g.nv := by
  unfold Group.setP; split <;> rfl
@[simp] theorem setP_ns (r : Nat) (m x : Mask) : (g.setP r m x).ns = g.ns := by
  unfold Group.setP; split <;> rfl
@[simp] theorem setP_nw (r : Nat) (m x : Mask) : (g.setP r m x).nw = g.nw := by
  unfold Group.setP; split <;> rfl
@[simp] theorem setP_runOff (r : Nat) (m x : Mask) : (g.setP r m x).runOff = g.runOff := by
  unfold Group.setP; split <;> rfl
@[simp] theorem setP_v (r : Nat) (m x : Mask) : (g.setP r m x).v = g.v := by
  unfold Group.setP; split <;> rfl
@[simp] theorem setP_vtag (r : Nat) (m x : Mask) : (g.setP r m x).vtag = g.vtag := by
  unfold Group.setP; split <;> rfl
@[simp] theorem setP_s (r : Nat) (m x : Mask) : (g.setP r m x).s = g.s := by
  unfold Group.setP; split <;> rfl
@[simp] theorem setP_win (r : Nat) (m x : Mask) : (g.setP r m x).win = g.win := by
  unfold Group.setP; split <;> rfl
@[simp] theorem setP_xtag (r : Nat) (m x : Mask) : (g.setP r m x).xtag = g.xtag := by
  unfold Group.setP; split <;> rfl
@[simp] theorem setP_uninit (r : Nat) (m x : Mask) : (g.setP r m x).uninit = g.uninit := by
  unfold Group.setP; split <;> rfl
@[simp] theorem setP_prec (r : Nat) (m x : Mask) : (g.setP r m x).prec = g.prec := by
  unfold Group.setP; split <;> rfl
@[simp] theorem setP_round (r : Nat) (m x : Mask) : (g.setP r m x).round = g.round := by
  unfold Group.setP; split <;> rfl
@[simp] theorem setP_fflags (r : Nat) (m x : Mask) : (g.setP r m x).fflags = g.fflags := by
  unfold Group.setP; split <;> rfl
@[simp] theorem setP_xb (r : Nat) (m x : Mask) : (g.setP r m x).xb = g.xb := by
  unfold Group.setP; split <;> rfl
@[simp] theorem setP_ssp (r : Nat) (m x : Mask) : (g.setP r m x).ssp = g.ssp := by
  unfold Group.setP; split <;> rfl
@[simp] theorem setP_xmap (r : Nat) (m x : Mask) : (g.setP r m x).xmap = g.xmap := by
  unfold Group.setP; split <;> rfl
@[simp] theorem setP_carry (r : Nat) (m x : Mask) : (g.setP r m x).carry = g.carry := by
  unfold Group.setP; split <;> rfl
@[simp] theorem setP_frames (r : Nat) (m x : Mask) : (g.setP r m x).frames = g.frames := by
  unfold Group.setP; split <;> rfl
@[simp] theorem setP_depth (r : Nat) (m x : Mask) : (g.setP r m x).depth = g.depth := by
  unfold Group.setP; split <;> rfl
@[simp] theorem setP_spills (r : Nat) (m x : Mask) : (g.setP r m x).spills = g.spills := by
  unfold Group.setP; split <;> rfl
@[simp] theorem setP_c (r : Nat) (m x : Mask) : (g.setP r m x).c = g.c := by
  unfold Group.setP; split <;> rfl
@[simp] theorem setP_run (r : Nat) (m x : Mask) : (g.setP r m x).run = g.run := by
  unfold Group.setP; split <;> rfl
@[simp] theorem setP_ready (r : Nat) (m x : Mask) : (g.setP r m x).ready = g.ready := by
  unfold Group.setP; split <;> rfl
@[simp] theorem setP_parked (r : Nat) (m x : Mask) : (g.setP r m x).parked = g.parked := by
  unfold Group.setP; split <;> rfl
@[simp] theorem setP_turn (r : Nat) (m x : Mask) : (g.setP r m x).turn = g.turn := by
  unfold Group.setP; split <;> rfl
@[simp] theorem setP_nextPath (r : Nat) (m x : Mask) : (g.setP r m x).nextPath = g.nextPath := by
  unfold Group.setP; split <;> rfl
@[simp] theorem setP_handler (r : Nat) (m x : Mask) : (g.setP r m x).handler = g.handler := by
  unfold Group.setP; split <;> rfl
@[simp] theorem setP_tcause (r : Nat) (m x : Mask) : (g.setP r m x).tcause = g.tcause := by
  unfold Group.setP; split <;> rfl
@[simp] theorem setP_tval (r : Nat) (m x : Mask) : (g.setP r m x).tval = g.tval := by
  unfold Group.setP; split <;> rfl
@[simp] theorem setP_tpc (r : Nat) (m x : Mask) : (g.setP r m x).tpc = g.tpc := by
  unfold Group.setP; split <;> rfl
@[simp] theorem setP_taddr (r : Nat) (m x : Mask) : (g.setP r m x).taddr = g.taddr := by
  unfold Group.setP; split <;> rfl
@[simp] theorem setP_wtimeout (r : Nat) (m x : Mask) : (g.setP r m x).wtimeout = g.wtimeout := by
  unfold Group.setP; split <;> rfl
@[simp] theorem setP_sup (r : Nat) (m x : Mask) : (g.setP r m x).sup = g.sup := by
  unfold Group.setP; split <;> rfl
@[simp] theorem setP_reports (r : Nat) (m x : Mask) : (g.setP r m x).reports = g.reports := by
  unfold Group.setP; split <;> rfl
@[simp] theorem setP_deferred (r : Nat) (m x : Mask) : (g.setP r m x).deferred = g.deferred := by
  unfold Group.setP; split <;> rfl
@[simp] theorem setP_monitor (r : Nat) (m x : Mask) : (g.setP r m x).monitor = g.monitor := by
  unfold Group.setP; split <;> rfl
@[simp] theorem setP_lastAcq (r : Nat) (m x : Mask) : (g.setP r m x).lastAcq = g.lastAcq := by
  unfold Group.setP; split <;> rfl
@[simp] theorem setP_barT (r : Nat) (m x : Mask) : (g.setP r m x).barT = g.barT := by
  unfold Group.setP; split <;> rfl
@[simp] theorem setP_barX (r : Nat) (m x : Mask) : (g.setP r m x).barX = g.barX := by
  unfold Group.setP; split <;> rfl
@[simp] theorem setP_passed (r : Nat) (m x : Mask) : (g.setP r m x).passed = g.passed := by
  unfold Group.setP; split <;> rfl
@[simp] theorem setP_halted (r : Nat) (m x : Mask) : (g.setP r m x).halted = g.halted := by
  unfold Group.setP; split <;> rfl

end

end Sys2Proof.Machine
end

