-- ==== Sys2Proof/Laws/Operands.lean ====
section
/-! SUPPORT. What the shared operations on registers do: the operand checks, the reads after a write, the wrapper of a core
instruction. -/
namespace Sys2Proof.Machine

open Sys2Proof

/-! Checks. -/

theorem firstStop_eq_none {l : List (Option Stop)} : firstStop l = none ↔ ∀ o ∈ l, o = none := by
  induction l with
  | nil => simp [firstStop]
  | cons a r ih => cases a <;> simp [firstStop, ih]

theorem groupOp_of_none {s eff : State} {c : Option Stop} (h : c = none) : groupOp s c eff = .next eff := by
  simp [groupOp, h]

theorem groupOp_of_some {s eff : State} {c : Option Stop} {e : Stop} (h : c = some e) :
    groupOp s c eff = .next (s.onStop e) := by
  simp [groupOp, h]

theorem groupOp_next (s eff : State) (c : Option Stop) : ∃ t, groupOp s c eff = .next t := by
  cases c <;> exact ⟨_, rfl⟩

theorem predStop_of_fine {s : State} {p : Nat} (lanes : List Nat) (h : s.predFine p) : s.predStop lanes [p] = none := by
  have h' : [p].filter (fun p => s.poison.contains (.preg s.cur p)) = [] := by simpa [State.predFine] using h
  simp only [State.predStop, h']

theorem guardStop_of_fine {s : State} {g : Guard} (h : s.predFine g.pred.toNat) : s.guardStop g = none :=
  predStop_of_fine _ h

section
variable {s : State} {lanes : List Nat} {o : Opnd}

theorem misaligned_of_fine (h : s.operandFine lanes o) : o.misaligned = none := by
  have := h.1
  unfold Opnd.misaligned stopIf
  split
  · simp_all
  · rfl

theorem rangeStop_of_fine (h : s.operandFine lanes o) : s.rangeStop o = none := by
  have h2 := h.2.1
  have : ((List.range o.n).map fun i => o.reg + i).filter (s.beyond o.file) = [] := by
    simpa [List.filter_eq_nil_iff] using h2
  simp [State.rangeStop, this]

theorem uninitStop_of_fine (h : s.operandFine lanes o) : s.uninitStop lanes o = none := by
  have h3 := h.2.2.1
  unfold State.uninitStop
  split
  · rename_i ht
    have : lanes.filter (fun l => ((List.range o.n).map fun i => o.reg + i).any fun r => s.cg.tagged o.file r l) = [] := by
      simp only [List.filter_eq_nil_iff, List.any_eq_true, List.mem_map, List.mem_range, not_exists, not_and]
      rintro l hl r ⟨i, hi, hr⟩ hx
      rw [← hr, h3 ht i hi l hl] at hx
      cases hx
    simp only [this]
  · rfl

theorem poisonStop_of_fine (h : s.operandFine lanes o) : s.poisonStop lanes o = none := by
  have h4 := h.2.2.2
  unfold State.poisonStop
  split
  · rename_i hr
    have : ((List.range o.n).map fun i => o.reg + i).filter (s.regPoisoned lanes o.file) = [] := by
      simp only [Bool.and_eq_true] at hr
      simpa [List.filter_eq_nil_iff] using h4 hr.1
    simp only [this]
  · rfl

end

theorem operandStop_of_fine {s : State} {lanes : List Nat} {ops : List Opnd} (h : ∀ o ∈ ops, s.operandFine lanes o) :
    s.operandStop lanes ops = none := by
  unfold State.operandStop
  simp only [firstStop_eq_none, List.mem_cons, List.not_mem_nil, or_false, forall_eq_or_imp, forall_eq, List.mem_map,
    forall_exists_index, and_imp, forall_apply_eq_imp_iff₂]
  exact ⟨fun o ho => misaligned_of_fine (h o ho), fun o ho => rangeStop_of_fine (h o ho),
    fun o ho => uninitStop_of_fine (h o ho), fun o ho => poisonStop_of_fine (h o ho)⟩

/-- The checks of a core instruction's guard and operands pass when they are fine. -/
theorem stops_of_fine {s : State} {g : Guard} {ops : List Opnd} (h : s.fine g ops) :
    firstStop [s.operandStop (s.lanes g) ops, s.guardStop g] = none := by
  simp [firstStop_eq_none, guardStop_of_fine h.1, operandStop_of_fine h.2]

/-! Lanes. -/

theorem mem_lanesOf {m : Mask} {l : Nat} : l ∈ lanesOf m ↔ l < 32 ∧ m.getLsbD l = true := by
  simp [lanesOf]

theorem lane_lt {s : State} {g : Guard} {l : Nat} (h : l ∈ s.lanes g) : l < 32 := (mem_lanesOf.1 h).1

/-- A bit of a mask made from a function. -/
theorem maskOf_getLsbD (f : Nat → Bool) (l : Nat) (hl : l < 32) : (maskOf f).getLsbD l = f l := by
  have key : ∀ (ks : List Nat) (m : Mask), (∀ k ∈ ks, k < 32) →
      (ks.foldl (fun m l => if f l then m ||| laneBit l else m) m).getLsbD l = (m.getLsbD l || (decide (l ∈ ks) && f l)) := by
    intro ks
    induction ks with
    | nil => simp
    | cons k r ih =>
      intro m hk
      rw [List.foldl_cons, ih _ fun j hj => hk j (by simp [hj])]
      have hb : (laneBit k).getLsbD l = decide (l = k) := by
        have hk' : k < 32 := hk k (by simp)
        simp only [laneBit, BitVec.getLsbD_ofNat, hl, decide_true, Bool.true_and, Nat.testBit_two_pow]
        simp [eq_comm]
      rcases eq_or_ne l k with rfl | _ <;> split_ifs <;> simp_all
  unfold maskOf
  rw [key _ _ (by simp)]
  simp [hl]

/-! Registers. -/

@[simp] theorem setVT_vreg (g : Group) (r l r' l' : Nat) (w : Word) (tag : Bool) (h : l < 32) (h' : l' < 32) :
    (g.setVT r l w tag).vreg r' l' = if r' = r ∧ l' = l then w else g.vreg r' l' := by
  simp only [Group.vreg, setVT_v, Tbl.get_set]
  by_cases h1 : r' = r ∧ l' = l
  · simp [h1]
  · rw [if_neg (by omega), if_neg h1]

@[simp] theorem setVT_vTagged (g : Group) (r l r' l' : Nat) (w : Word) (tag : Bool) (h : l < 32) (h' : l' < 32) :
    (g.setVT r l w tag).vTagged r' l' = if r' = r ∧ l' = l then tag else g.vTagged r' l' := by
  simp only [Group.vTagged, setVT_vtag, Tbl.get_set]
  by_cases h1 : r' = r ∧ l' = l
  · simp [h1]
  · rw [if_neg (by omega), if_neg h1]

@[simp] theorem setS_sreg (g : Group) (r r' : Nat) (w : Word) :
    (g.setS r w).sreg r' = if r' = r then w else g.sreg r' := by
  simp [Group.sreg]

theorem writeLane_shape (g : Group) (r : Nat) (wide : Bool) (l v : Nat) :
    ∃ x y, g.writeLane r wide l v = { g with v := x, vtag := y } := by
  cases wide <;> exact ⟨_, _, rfl⟩

theorem writeLane_reads (g : Group) (d : Nat) (wide : Bool) (l v r l' : Nat) (h : l < 32) (h' : l' < 32) :
    ((g.writeLane d wide l v).vreg r l', (g.writeLane d wide l v).vTagged r l') =
      if l' = l ∧ r = d then (BitVec.ofNat 32 v, false)
      else if l' = l ∧ wide = true ∧ r = d + 1 then (BitVec.ofNat 32 (v / 2 ^ 32), false)
      else (g.vreg r l', g.vTagged r l') := by
  cases wide <;>
    simp only [Group.writeLane, Bool.false_eq_true, if_true, if_false, setVT_vreg _ _ _ _ _ _ _ h h',
      setVT_vTagged _ _ _ _ _ _ _ h h', true_and, false_and, and_false] <;>
    split_ifs <;> simp_all

/-- What a group reads after `writeLanes`: each lane of the list holds its value. -/
theorem writeLanes_reads (lanes : List Nat) (f : Nat → Nat) (d : Nat) (wide : Bool) (g : Group) (r l : Nat)
    (hl : l < 32) (h : ∀ k ∈ lanes, k < 32) :
    let t := g.writeLanes d wide (lanes.map fun k => (k, f k))
    (t.vreg r l, t.vTagged r l) =
      if l ∈ lanes ∧ r = d then (BitVec.ofNat 32 (f l), false)
      else if l ∈ lanes ∧ wide = true ∧ r = d + 1 then (BitVec.ofNat 32 (f l / 2 ^ 32), false)
      else (g.vreg r l, g.vTagged r l) := by
  induction lanes generalizing g with
  | nil => simp [Group.writeLanes]
  | cons k ks ih =>
    have hk : k < 32 := h k (by simp)
    have ih' := ih (g.writeLane d wide k (f k)) fun j hj => h j (by simp [hj])
    simp only [Group.writeLanes, List.map_cons, List.foldl_cons] at ih' ⊢
    rw [ih', writeLane_reads g d wide k (f k) r l hk hl]
    simp only [List.mem_cons]
    split_ifs <;> simp_all

/-- `writeLanes` changes the v registers and their tags only. -/
theorem writeLanes_shape (vals : List (Nat × Nat)) (d : Nat) (wide : Bool) (g : Group) :
    ∃ x y, g.writeLanes d wide vals = { g with v := x, vtag := y } := by
  induction vals generalizing g with
  | nil => exact ⟨_, _, rfl⟩
  | cons e r ih =>
    obtain ⟨x, y, h⟩ := writeLane_shape g d wide e.1 e.2
    obtain ⟨x', y', h'⟩ := ih (g.writeLane d wide e.1 e.2)
    exact ⟨x', y', by rw [show g.writeLanes d wide (e :: r) = (g.writeLane d wide e.1 e.2).writeLanes d wide r from rfl, h', h]⟩

/-! Frames. -/

@[simp] theorem setCg_cg (s : State) (x : Group) : (s.setCg x).cg = x := by
  simp [State.setCg, State.cg, State.setGroup, State.group]

theorem onlyGroup_refl (s : State) : onlyGroup s s := ⟨rfl, fun _ _ => rfl, fun _ h => h, fun _ => rfl⟩

theorem onlyGroup_cur {s t : State} (h : onlyGroup s t) : t.cur = s.cur := by
  have := congrArg State.cur h.1
  exact this

theorem onlyGroup_curN {s t : State} (h : onlyGroup s t) : t.curN = s.curN := by
  have := congrArg State.curN h.1
  exact this

theorem onlyGroup_setCg {s t : State} (h : onlyGroup s t) (x : Group) : onlyGroup s (t.setCg x) := by
  refine ⟨h.1, fun k hk => ?_, h.2.2.1, h.2.2.2⟩
  rw [← h.2.1 k hk, State.setCg, setGroup_at_group, if_neg (by rw [onlyGroup_cur h]; exact hk)]

theorem onlyGroup_poison {s t : State} (h : onlyGroup s t) (f : Poison → Bool) :
    onlyGroup s { t with poison := t.poison.filter f } :=
  ⟨h.1, h.2.1, fun q hq => h.2.2.1 q (List.mem_of_mem_filter hq), h.2.2.2⟩

@[simp] theorem advance_cg (t : State) : t.advance.cg = t.cg.goOn t.succ := setCg_cg ..

/-- The successor depends on the running path's PC and on the line fetched only. -/
theorem succ_of_onlyGroup {s t : State} (h : onlyGroup s t) (hr : t.cg.run = s.cg.run) : t.succ = s.succ := by
  simp only [State.succ, hr, onlyGroup_curN h]

theorem advance_onlyGroup {s t : State} (h : onlyGroup s t) : onlyGroup s t.advance := onlyGroup_setCg h _

theorem advance_goesOn {s t : State} (h : onlyGroup s t) (hr : t.cg.run = s.cg.run) (ht : t.cg.turn = s.cg.turn) :
    goesOn s t.advance := by
  simp [goesOn, Group.goOn, hr, ht, succ_of_onlyGroup h hr]

/-- An advance after a change of v registers only. -/
theorem advance_onlyV {s t : State} (h : onlyGroup s t) (hx : ∃ x y, t.cg = { s.cg with v := x, vtag := y }) :
    onlyV s t.advance := by
  obtain ⟨x, y, hx⟩ := hx
  refine ⟨advance_onlyGroup h, advance_goesOn h (by rw [hx]) (by rw [hx]), ?_⟩
  rw [advance_cg, hx]
  rfl

/-- An advance after a change of s registers only. -/
theorem advance_onlyS {s t : State} (h : onlyGroup s t) (hx : ∃ x, t.cg = { s.cg with s := x }) : onlyS s t.advance := by
  obtain ⟨x, hx⟩ := hx
  refine ⟨advance_onlyGroup h, advance_goesOn h (by rw [hx]) (by rw [hx]), ?_⟩
  rw [advance_cg, hx]
  rfl

/-- An advance after a change of predicates only. -/
theorem advance_onlyP {s t : State} (h : onlyGroup s t) (hx : ∃ x, t.cg = { s.cg with p := x }) : onlyP s t.advance := by
  obtain ⟨x, hx⟩ := hx
  refine ⟨advance_onlyGroup h, advance_goesOn h (by rw [hx]) (by rw [hx]), ?_⟩
  rw [advance_cg, hx]
  rfl

theorem advance_onlyPc (s : State) : onlyPc s s.advance :=
  ⟨advance_onlyGroup (onlyGroup_refl s), advance_goesOn (onlyGroup_refl s) rfl rfl, by rw [advance_cg]; rfl⟩

/-! Writing registers in the state. -/

theorem writeV_onlyGroup (s : State) (d : Nat) (wide : Bool) (vals : List (Nat × Nat)) :
    onlyGroup s (s.writeV d wide vals) := onlyGroup_poison (onlyGroup_setCg (onlyGroup_refl s) _) _

@[simp] theorem writeV_cg (s : State) (d : Nat) (wide : Bool) (vals : List (Nat × Nat)) :
    (s.writeV d wide vals).cg = s.cg.writeLanes d wide vals := setCg_cg ..

/-- What follows a write of v registers: the lanes hold their values and nothing else changed. -/
theorem writeV_advance (s : State) (lanes : List Nat) (d : Nat) (wide : Bool) (f : Nat → Nat) (h : ∀ l ∈ lanes, l < 32) :
    onlyV s (s.writeV d wide (lanes.map fun l => (l, f l))).advance ∧
      vHolds s (s.writeV d wide (lanes.map fun l => (l, f l))).advance lanes d wide f := by
  refine ⟨advance_onlyV (writeV_onlyGroup ..) ?_, fun r l hl => ?_⟩
  · rw [writeV_cg]; exact writeLanes_shape ..
  · rw [advance_cg, writeV_cg]
    exact writeLanes_reads lanes f d wide s.cg r l hl h

theorem writeS_onlyGroup (s : State) (d : Nat) (wide : Bool) (v : Nat) : onlyGroup s (s.writeS d wide v) :=
  onlyGroup_poison (onlyGroup_setCg (onlyGroup_refl s) _) _

@[simp] theorem writeS_cg (s : State) (d : Nat) (wide : Bool) (v : Nat) :
    (s.writeS d wide v).cg = s.cg.writeSreg d wide v := setCg_cg ..

/-- What follows a write of s registers. -/
theorem writeS_advance (s : State) (d : Nat) (wide : Bool) (v : Nat) :
    onlyS s (s.writeS d wide v).advance ∧ sHolds s (s.writeS d wide v).advance d wide v := by
  refine ⟨advance_onlyS (writeS_onlyGroup ..) ?_, fun r => ?_⟩
  · rw [writeS_cg]; cases wide <;> exact ⟨_, rfl⟩
  · rw [advance_cg, writeS_cg]
    cases wide
    · simp [Group.goOn, Group.writeSreg, Group.sreg]
    · by_cases h1 : r = d
      · subst h1; simp [Group.goOn, Group.writeSreg, Group.sreg]
      · by_cases h2 : r = d + 1 <;> simp [Group.goOn, Group.writeSreg, Group.sreg, h1, h2]

theorem writeP_onlyGroup (s : State) (p : Nat) (m x : Mask) : onlyGroup s (s.writeP p m x) :=
  onlyGroup_poison (onlyGroup_setCg (onlyGroup_refl s) _) _

@[simp] theorem writeP_cg (s : State) (p : Nat) (m x : Mask) : (s.writeP p m x).cg = s.cg.setP p m x := setCg_cg ..

/-- What follows a write of a predicate: p0 stays true (R14). -/
theorem writeP_advance (s : State) (p : Nat) (m x : Mask) :
    onlyP s (s.writeP p m x).advance ∧ pHolds s (s.writeP p m x).advance (lanesOf m) p (x.getLsbD ·) := by
  refine ⟨advance_onlyP (writeP_onlyGroup ..) ?_, fun r l hl => ?_⟩
  · rw [writeP_cg]; unfold Group.setP; split <;> exact ⟨_, rfl⟩
  · rw [advance_cg, writeP_cg]
    by_cases hp : p = 0
    · subst hp
      have : ¬(l ∈ lanesOf m ∧ r = 0 ∧ r ≠ 0) := by tauto
      rw [if_neg this]
      rfl
    · by_cases hr : r = p
      · subst hr
        have e : ((s.cg.setP r m x).goOn (s.writeP r m x).succ).pred r = (s.cg.pred r &&& ~~~m) ||| (x &&& m) := by
          simp [Group.pred, Group.goOn, Group.setP, hp]
        rw [e]
        by_cases hm : m.getLsbD l = true
        · rw [if_pos ⟨mem_lanesOf.2 ⟨hl, hm⟩, rfl, hp⟩]
          simp only [BitVec.getLsbD_or, BitVec.getLsbD_and, BitVec.getLsbD_not, hm]
          simp
        · rw [if_neg fun h => hm (mem_lanesOf.1 h.1).2]
          simp only [BitVec.getLsbD_or, BitVec.getLsbD_and, BitVec.getLsbD_not, eq_false_of_ne_true hm]
          simp [hl]
      · have e : ((s.cg.setP p m x).goOn (s.writeP p m x).succ).pred r = s.cg.pred r := by
          simp [Group.pred, Group.goOn, Group.setP, hp, hr]
        rw [e, if_neg (by tauto)]

/-! Copies of v registers. -/

theorem copyLane_shape (old : Group) (d : Nat) (wide : Bool) (g : Group) (c : Source) :
    ∃ x y, old.copyLane d wide g c = { g with v := x, vtag := y } := by
  cases wide <;> exact ⟨_, _, rfl⟩

theorem copyLanes_shape (old : Group) (cs : List Source) (d : Nat) (wide : Bool) (g : Group) :
    ∃ x y, cs.foldl (old.copyLane d wide) g = { g with v := x, vtag := y } := by
  induction cs generalizing g with
  | nil => exact ⟨_, _, rfl⟩
  | cons c r ih =>
    obtain ⟨x, y, h⟩ := copyLane_shape old d wide g c
    obtain ⟨x', y', h'⟩ := ih (old.copyLane d wide g c)
    exact ⟨x', y', by rw [List.foldl_cons, h', h]⟩

theorem copyLane_reads (old g : Group) (d : Nat) (wide : Bool) (c : Source) (r l : Nat) (h : c.lane < 32) (h' : l < 32) :
    ((old.copyLane d wide g c).vreg r l, (old.copyLane d wide g c).vTagged r l) =
      if l = c.lane ∧ r = d then (old.vreg c.reg c.from_, old.vTagged c.reg c.from_)
      else if l = c.lane ∧ wide = true ∧ r = d + 1 then (old.vreg (c.reg + 1) c.from_, old.vTagged (c.reg + 1) c.from_)
      else (g.vreg r l, g.vTagged r l) := by
  cases wide <;>
    simp only [Group.copyLane, Bool.false_eq_true, if_true, if_false, setVT_vreg _ _ _ _ _ _ _ h h',
      setVT_vTagged _ _ _ _ _ _ _ h h', true_and, false_and, and_false] <;>
    split_ifs <;> simp_all

/-- What a group reads after copies of registers, all sources read before any write. -/
theorem copyLanes_reads (old : Group) (lanes : List Nat) (src from_ : Nat → Nat) (d : Nat) (wide : Bool) (g : Group)
    (r l : Nat) (hl : l < 32) (h : ∀ k ∈ lanes, k < 32) :
    let t := (lanes.map fun k => (⟨k, src k, from_ k⟩ : Source)).foldl (old.copyLane d wide) g
    (t.vreg r l, t.vTagged r l) =
      if l ∈ lanes ∧ r = d then (old.vreg (src l) (from_ l), old.vTagged (src l) (from_ l))
      else if l ∈ lanes ∧ wide = true ∧ r = d + 1 then
        (old.vreg (src l + 1) (from_ l), old.vTagged (src l + 1) (from_ l))
      else (g.vreg r l, g.vTagged r l) := by
  induction lanes generalizing g with
  | nil => simp
  | cons k ks ih =>
    have hk : k < 32 := h k (by simp)
    have ih' := ih (old.copyLane d wide g ⟨k, src k, from_ k⟩) fun j hj => h j (by simp [hj])
    simp only [List.map_cons, List.foldl_cons] at ih' ⊢
    rw [ih', copyLane_reads old g d wide ⟨k, src k, from_ k⟩ r l hk hl]
    simp only [List.mem_cons]
    split_ifs <;> simp_all

/-- What follows a copy of v registers. -/
theorem copyV_advance (s : State) (lanes : List Nat) (d : Nat) (wide : Bool) (src from_ : Nat → Nat)
    (h : ∀ l ∈ lanes, l < 32) :
    onlyV s (s.copyV d wide (lanes.map fun l => ⟨l, src l, from_ l⟩)).advance ∧
      vCopies s (s.copyV d wide (lanes.map fun l => ⟨l, src l, from_ l⟩)).advance lanes d wide src from_ := by
  refine ⟨advance_onlyV (onlyGroup_poison (onlyGroup_setCg (onlyGroup_refl s) _) _) ?_, fun r l hl => ?_⟩
  · rw [State.copyV, State.cleanV, show ∀ (u : State) p, State.cg { u with poison := p } = u.cg from fun _ _ => rfl, setCg_cg]
    exact copyLanes_shape ..
  · rw [advance_cg, State.copyV, State.cleanV, show ∀ (u : State) p, State.cg { u with poison := p } = u.cg from fun _ _ => rfl,
      setCg_cg]
    exact copyLanes_reads s.cg lanes src from_ d wide s.cg r l hl h

end Sys2Proof.Machine
end

