-- ==== Sys2Proof/Laws/Float.lean ====
section
/-! SUPPORT. What the shape of a floating-point instruction does: flags, traps and results. -/
namespace Sys2Proof.Machine

open Sys2Proof

/-- No trap is taken when no lane raises an enabled flag. -/
theorem fpStop_none {s : State} {lanes : List Nat} {nf : Bool} {f : Nat → Flags} (h : s.noFpTrap lanes nf f) :
    s.fpStop nf (lanes.map fun l => ⟨l, f l⟩) = none := by
  unfold State.fpStop
  cases h with
  | inl h => simp [h]
  | inr h =>
    have : (lanes.map fun l => (⟨l, f l⟩ : LaneFlags)).filter (fun e => e.flags &&& s.ct.enables != 0) = [] := by
      simpa [List.filter_eq_nil_iff] using h
    cases nf <;> simp only [this] <;> rfl

theorem raise_shape (g : Group) (fs : List LaneFlags) : ∃ x, g.raise fs = { g with fflags := x } := by
  induction fs generalizing g with
  | nil => exact ⟨_, rfl⟩
  | cons f r ih =>
    obtain ⟨x, h⟩ := ih { g with fflags := Tbl.set 0 g.fflags f.lane (Tbl.get 0 g.fflags f.lane ||| f.flags.setWidth 8) }
    exact ⟨x, by simpa [Group.raise] using h⟩

/-- The sticky bits after flags are raised in distinct lanes. -/
theorem raise_sticky (g : Group) (lanes : List Nat) (f : Nat → Flags) (l : Nat) (h : lanes.Nodup) :
    Tbl.get 0 (g.raise (lanes.map fun k => ⟨k, f k⟩)).fflags l =
      if l ∈ lanes then Tbl.get 0 g.fflags l ||| (f l).setWidth 8 else Tbl.get 0 g.fflags l := by
  induction lanes generalizing g with
  | nil => simp [Group.raise]
  | cons k ks ih =>
    have hk := List.nodup_cons.1 h
    have ih' := ih { g with fflags := Tbl.set 0 g.fflags k (Tbl.get 0 g.fflags k ||| (f k).setWidth 8) } hk.2
    simp only [Group.raise, List.map_cons, List.foldl_cons] at ih' ⊢
    rw [ih', Tbl.get_set]
    by_cases h1 : l = k
    · subst h1; simp [hk.1]
    · simp [h1]

theorem lanesOf_nodup (m : Mask) : (lanesOf m).Nodup := List.Nodup.filter _ List.nodup_range

theorem raiseFlags_cg (s : State) (nf : Bool) (fs : List LaneFlags) :
    (s.raiseFlags nf fs).cg = if nf then s.cg else s.cg.raise fs := by
  cases nf <;> simp [State.raiseFlags]

theorem raiseFlags_onlyGroup (s : State) (nf : Bool) (fs : List LaneFlags) : onlyGroup s (s.raiseFlags nf fs) := by
  cases nf
  · exact onlyGroup_setCg (onlyGroup_refl s) _
  · exact onlyGroup_refl s

/-- Frames compose. -/
theorem onlyGroup_trans {s t u : State} (h : onlyGroup s t) (h' : onlyGroup t u) : onlyGroup s u := by
  obtain ⟨hs, hg, hp, hm⟩ := h
  obtain ⟨hs', hg', hp', hm'⟩ := h'
  have hc : t.cur = s.cur := (congrArg State.cur hs :)
  rw [← hs'] at hs
  exact ⟨hs, fun k hk => (hg' k (hc ▸ hk)).trans (hg k hk), fun q => hp q ∘ hp' q, fun a => (hm' a).trans (hm a)⟩

theorem raiseFlags_flagsHold (s : State) (g : Guard) (nf : Bool) (f : Nat → Flags) :
    flagsHold s (s.raiseFlags nf ((s.lanes g).map fun l => ⟨l, f l⟩)) (s.lanes g) nf f := by
  intro l
  rw [raiseFlags_cg]
  cases nf
  · simpa using raise_sticky s.cg (s.lanes g) f l (lanesOf_nodup _)
  · simp

/-- A floating instruction whose operands are fine and that raises no enabled flag. -/
theorem fpLanes_holds (s : State) (g : Guard) (nf : Bool) (ops : List Opnd) (d : Reg) (wide : Bool) (f : Nat → FpOut)
    (h : s.fine g ops) (hf : s.noFpTrap (s.lanes g) nf fun l => (f l).flags) :
    ∃ t, s.fpLanes g nf ops d wide f = .next t ∧ fpHolds s t (s.lanes g) nf d.toNat wide f := by
  have hs := fpStop_none hf
  refine ⟨_, groupOp_of_none ?_, ?_⟩
  · simp only [List.map_map]
    simp only [firstStop_eq_none, List.mem_cons, List.not_mem_nil, or_false, forall_eq_or_imp, forall_eq]
    exact ⟨operandStop_of_fine h.2, guardStop_of_fine h.1, hs⟩
  · simp only [List.map_map]
    generalize hr : s.raiseFlags nf _ = r
    have hfl : flagsHold s r (s.lanes g) nf fun l => (f l).flags := by
      rw [← hr]; exact raiseFlags_flagsHold s g nf fun l => (f l).flags
    have hog : onlyGroup s r := by rw [← hr]; exact raiseFlags_onlyGroup ..
    have hcg : ∃ x, r.cg = { s.cg with fflags := x } := by
      rw [← hr, raiseFlags_cg]
      cases nf
      · exact raise_shape ..
      · exact ⟨_, rfl⟩
    have hw := writeV_advance r (s.lanes g) d.toNat wide (fun l => (f l).bits) fun l hl => lane_lt hl
    obtain ⟨x, hx⟩ := hcg
    obtain ⟨y, z, hy⟩ := writeLanes_shape ((s.lanes g).map fun l => (l, (f l).bits)) d.toNat wide r.cg
    have hc : ∀ vals, (r.writeV d.toNat wide vals).advance.cg = (r.cg.writeLanes d.toNat wide vals).goOn
        (r.writeV d.toNat wide vals).succ := fun vals => by rw [advance_cg, writeV_cg]
    have hsucc : r.succ = s.succ := succ_of_onlyGroup hog (by rw [hx])
    refine ⟨onlyGroup_trans hog hw.1.1, ?_, ?_, fun k l hl => ?_, fun l => ?_⟩
    · have := hw.1.2.1
      simp only [goesOn, hx, hsucc] at this
      exact this
    · show ({ (r.writeV d.toNat wide ((s.lanes g).map fun l => (l, (f l).bits))).advance.cg with
              v := s.cg.v, vtag := s.cg.vtag, fflags := s.cg.fflags, run := s.cg.run, turn := s.cg.turn } : Group) = s.cg
      rw [hc, hy, hx]
      rfl
    · have := hw.2 k l hl
      rw [hx] at this
      exact this
    · have h1 := hfl l
      rw [← h1]
      show Tbl.get 0 (r.writeV d.toNat wide ((s.lanes g).map fun l => (l, (f l).bits))).advance.cg.fflags l = _
      rw [hc, hy]
      rfl

end Sys2Proof.Machine
end

