-- ==== Sys2Proof/Laws/Hash.lean ====
section
/-! SUPPORT. Lengths: of digests, and of the identity key's signatures (R405, R411). -/
namespace Sys2Proof.Machine

open Sys2Proof

theorem shaRound_length (l : List Word) (k : Word) : (shaRound l k).length = l.length := by
  unfold shaRound
  split <;> rfl

theorem shaRounds_length (ks : List Word) (l : List Word) : (ks.foldl shaRound l).length = l.length := by
  induction ks generalizing l with
  | nil => rfl
  | cons k ks ih => rw [List.foldl_cons, ih, shaRound_length]

theorem shaBlocks_length (st : List Word) (bs : List Byte) (n : Nat) : (shaBlocks st bs n).length = st.length := by
  induction n generalizing st bs with
  | zero => rfl
  | succ n ih => simp [shaBlocks, ih, shaBlock, shaRounds_length]

theorem flatMap_length {α : Type} (f : α → List Byte) (k : Nat) (l : List α) (h : ∀ x ∈ l, (f x).length = k) :
    (l.flatMap f).length = k * l.length := by
  rw [List.length_flatMap, List.map_congr_left h, List.map_const', List.sum_replicate, smul_eq_mul, Nat.mul_comm]

/-- A digest has 32 bytes. -/
@[simp] theorem sha256_length (bs : List Byte) : (sha256 bs).length = 32 := by
  unfold sha256
  rw [flatMap_length beBytes32 4 _ fun _ _ => rfl, shaBlocks_length]
  rfl

@[simp] theorem leBytes_length (n v : Nat) : (leBytes n v).length = n := by
  induction n generalizing v with
  | zero => rfl
  | succ n ih => simp [leBytes, ih]

@[simp] theorem beBytes_length (n v : Nat) : (beBytes n v).length = n := by simp [beBytes]

theorem otsChain_length (key : List Byte) (i n j : Nat) (x : List Byte) (h : x.length = 32) :
    (otsChain key i n j x).length = 32 := by
  induction n generalizing j x with
  | zero => exact h
  | succ n ih => exact ih _ _ (sha256_length _)

theorem identityNode_length (t k r : Nat) : (identityNode t k r).length = 32 := by
  cases k <;> exact sha256_length _

theorem identityPublic_length (t : Nat) : (identityPublic t).length = 56 := by
  simp [identityPublic, identityId, identityNode_length]

/-- One level of a signature: leaf, one-time signature, type and path. -/
theorem identityLeafSign_length (t q : Nat) (msg : List Byte) : (identityLeafSign t q msg).length = 2828 := by
  have chains : ∀ e ∈ otsChains identityOts (otsDigest (identityKey t q) (leBytes 32 (Config.identityRandom t q)) msg)
      ((List.range 67).map (identitySecret t q)), (otsChain (identityKey t q) e.1 e.2.1 0 e.2.2).length = 32 := by
    intro e he
    refine otsChain_length _ _ _ _ _ ?_
    obtain ⟨x, -, hx⟩ := List.mem_map.1 (List.of_mem_zip (List.of_mem_zip he).2).2
    simp [← hx, identitySecret]
  simp only [identityLeafSign, List.length_append, flatMap_length _ 32 _ chains,
    flatMap_length _ 32 _ fun i _ => identityNode_length t i _, beBytes_length, leBytes_length]
  simp [otsChains, OtsType.digits, identityOts]

/-- A signature has two levels and the public key between them. -/
theorem identitySign_length (n : Nat) (msg : List Byte) : (identitySign n msg).length = 5716 := by
  simp [identitySign, identityLeafSign_length, identityPublic_length]

end Sys2Proof.Machine
end

