-- ==== Sys2Proof/Laws/Integer.lean ====
section
/-! SUPPORT. What the shape of an integer instruction does. -/
namespace Sys2Proof.Machine

open Sys2Proof

/-- An integer instruction whose operands are fine writes f to its destination and changes nothing else. -/
theorem intOp_holds (s : State) (g : Guard) (uni : Bool) (ops : List Opnd) (d : Reg) (wide : Bool) (f f' : Nat → Nat)
    (h : s.fine g ops) (hf : ∀ l, f l = f' l) (hu : uni = true → ∀ l l', f l = f l') :
    ∃ t, s.intOp g uni ops d wide f = .next t ∧ intHolds s t g uni d wide f' := by
  have : f' = f := by funext l; exact (hf l).symm
  subst this
  refine ⟨_, groupOp_of_none (stops_of_fine h), ?_⟩
  cases uni
  · simp only [intHolds, actLanes, Bool.false_eq_true, if_false, State.writeInt]
    exact writeV_advance s (s.lanes g) d.toNat wide f' fun l hl => lane_lt hl
  · simp only [intHolds, actLanes, if_true, State.writeInt]
    cases hL : s.lanes g with
    | nil =>
      simp only [List.take_nil, List.map_nil, if_true]
      exact ⟨advance_onlyS (onlyGroup_refl s) ⟨_, rfl⟩, by simp [Group.goOn]⟩
    | cons l r =>
      have hl : lowLane (s.cg.guarded g) = l := by
        have : lanesOf (s.cg.guarded g) = l :: r := hL
        simp [lowLane, this]
      simp only [List.take_succ_cons, List.take_zero, List.map_cons, List.map_nil, hl]
      exact writeS_advance s d.toNat wide (f' l)

end Sys2Proof.Machine
end

