-- ==== Sys2Proof/Laws/Memory.lean ====
section
/-! SUPPORT. Local memory: what the named writes leave and that each keeps the canonical form. -/
namespace Sys2Proof.Machine

open Sys2Proof

theorem Memory.wf_writeBytes {m : Memory} (a : Nat) (bs : List Byte) (h : Memory.wf m = true) :
    Memory.wf (writeBytes m a bs) = true := by
  induction bs generalizing m a with
  | nil => exact h
  | cons b r ih => exact ih (a + 1) (Memory.wf_write a b h)

theorem Memory.wf_putAll {m : Memory} (ps : List Put) (h : Memory.wf m = true) : Memory.wf (putAll m ps) = true := by
  induction ps generalizing m with
  | nil => exact h
  | cons p r ih => exact ih (Memory.wf_writeBytes p.addr p.data h)

theorem Memory.wf_clear {m : Memory} (lo hi : Nat) (h : Memory.wf m = true) : Memory.wf (Tbl.clear m lo hi) = true :=
  Memory.wf_filter _ h

/-- A byte after bytes were written from a on: the byte written there, or the byte before. -/
theorem Memory.read_writeBytes (m : Memory) (a b : Nat) (bs : List Byte) :
    Memory.read (writeBytes m a bs) b = if a ≤ b ∧ b < a + bs.length then nthD 0 bs (b - a) else Memory.read m b := by
  induction bs generalizing m a with
  | nil => simp [writeBytes]
  | cons x r ih =>
    rw [writeBytes, ih, Memory.read_write, List.length_cons]
    rcases lt_trichotomy b a with h | rfl | h
    · simp [show ¬ a ≤ b by omega, show ¬ a + 1 ≤ b by omega, h.ne]
    · simp [nthD]
    · rw [show b - a = b - (a + 1) + 1 by omega, nthD, if_neg h.ne']
      congr 1
      simp only [eq_iff_iff]
      omega

/-- An address that no write covers reads as before. -/
theorem Memory.read_putAll_outside (m : Memory) (ps : List Put) (b : Nat)
    (h : ∀ p ∈ ps, b < p.addr ∨ p.addr + p.data.length ≤ b) : Memory.read (putAll m ps) b = Memory.read m b := by
  induction ps generalizing m with
  | nil => rfl
  | cons p r ih =>
    have hp := h p (by simp)
    rw [putAll, ih _ fun q hq => h q (by simp [hq]), Memory.read_writeBytes]
    split
    · omega
    · rfl

@[simp] theorem putKeyed_mem (s : State) (k : Nat) (ps : List Put) : (s.putKeyed k ps).mem = putAll s.mem ps := rfl

theorem putKeyed_memoryInv {s : State} (k : Nat) (ps : List Put) (h : MemoryInv s) : MemoryInv (s.putKeyed k ps) :=
  Memory.wf_putAll ps h

theorem clearRegion_memoryInv {s : State} (lo n : Nat) (h : MemoryInv s) : MemoryInv (s.clearRegion lo n) :=
  Memory.wf_clear lo (lo + n) h

theorem reset_memoryInv : MemoryInv State.reset := rfl

end Sys2Proof.Machine
end

