-- ==== Sys2Proof/Laws/Trap.lean ====
section
/-! SUPPORT. Taking an exception, said once: what the group is in its handler, and that nothing else changed. -/
namespace Sys2Proof.Machine

open Sys2Proof

/-- Outside handler mode and with a handler, a trap enters it (R341). -/
theorem takeTrap_enters {s : State} (t : Trap) (h : s.cg.handler = none) (hv : s.ct.tvec ≠ 0) :
    s.takeTrap t = s.setCg (s.cg.enterHandler t s.ct.tvec) := by
  unfold State.takeTrap
  rw [if_neg]
  simpa [h] using hv

/-- In handler mode, or without a handler, it is a grid machine check of source 4 (R341). -/
theorem takeTrap_checks {s : State} (t : Trap) (h : s.cg.handler ≠ none ∨ s.ct.tvec = 0) :
    s.takeTrap t = s.gridCheck s.ct.grid 4 t.cause ((t.tpc.getD s.cg.run.pc).toNat) := by
  unfold State.takeTrap
  rw [if_pos]
  rcases h with h | h
  · simp [Option.isSome_iff_ne_none.2 h]
  · simp [h]

/-- What a trap changes when the group enters its handler (R341). -/
theorem takeTrap_group {s : State} (t : Trap) (h : s.cg.handler = none) (hv : s.ct.tvec ≠ 0) :
    onlyGroup s (s.takeTrap t) ∧ (s.takeTrap t).cg = s.cg.enterHandler t s.ct.tvec := by
  rw [takeTrap_enters t h hv]
  exact ⟨onlyGroup_setCg (onlyGroup_refl s) _, setCg_cg ..⟩

/-- A core instruction whose first stop is a trap takes it. -/
theorem groupOp_trap {s eff : State} {c : Option Stop} {t : Trap} (h : c = some (.trap t)) :
    groupOp s c eff = .next (s.takeTrap t) := by
  rw [groupOp_of_some h]; rfl

/-- A return from the handler resumes the stopped paths and the trapped one (R113, R342). -/
theorem trapReturn_group (s : State) (h : Handler) :
    onlyGroup s (s.trapReturn h) ∧
      (s.trapReturn h).cg = s.cg.leaveHandler h [(s.cg.tpc.setWidth 48, h.ret)] :=
  ⟨onlyGroup_setCg (onlyGroup_refl s) _, setCg_cg ..⟩

end Sys2Proof.Machine
end

