-- ==== Sys2Proof/Tests/Slice0.lean ====
section
/-! SUPPORT. Tests: words written out from the encodings, ill-formed terms, the worked examples of the spec, and a witness for the
hypotheses of each statement. -/
namespace Sys2Proof.Tests

open Sys2Proof Sys2Proof.Machine

set_option Elab.async false

/-- Words of the encoding tables (R96): head, tail halfwords in ascending order, instruction. -/
theorem test_words_control :
    decodeCore 0x002C [] = .ok (.nop ⟨5, true⟩) ∧
    decodeCore 0x0119 [0x0000, 0x0000, 0xFFC0, 0xFFFF] = .ok (.bra ⟨3, false⟩ 0xFFFFFFC0) ∧
    decodeCore 0x0042 [0x0600] = .ok (.brx ⟨0, false⟩ 6) ∧
    decodeCore 0x0103 [0x0008, 0x0000, 0x0140, 0x0000] = .ok (.call ⟨0, false⟩ 8 0x140) ∧
    decodeCore 0x020C [] = .ok (.exit ⟨1, true⟩) ∧
    decodeCore 0x0241 [0x0800] = .ok (.ret ⟨0, false⟩ 8) ∧
    decodeCore 0x0202 [] = .ok (.yield ⟨0, false⟩) ∧
    decodeCore 0x02C3 [0x0000, 0x0000, 0xBEEF] = .ok (.brk ⟨0, false⟩ 0xBEEF) ∧
    decodeCore 0x0500 [0x0007, 0x0000, 0xFFFF, 0x0000] = .ok (.cvset ⟨0, false⟩ 7 0x0000FFFF) ∧
    decodeCore 0x0441 [0x0007] = .ok (.cvwait 7) ∧
    decodeCore 0x04C2 [0x0000, 0x0000, 0x002A] = .ok (.trap ⟨0, false⟩ 42) ∧
    decodeCore 0x0483 [0x033F, 0x0200] = .ok (.vote ⟨0, false⟩ .lead 63 3) ∧
    decodeCore 0x0483 [0x0307, 0x0B00] = .ok (.vote ⟨0, false⟩ .some 7 3) ∧
    decodeCore 0x06C0 [0x0902, 0x0100, 0x01F4] = .ok (.semwait ⟨0, false⟩ 2 9 true 500) ∧
    decodeCore 0x06C1 [0x0900, 0x0000, 0xFFFF] = .ok (.semadd ⟨0, false⟩ 9 0xFFFF) ∧
    decodeCore 0x06C2 [0xFF00, 0x0000, 0x0003] = .ok (.semset ⟨0, false⟩ 255 3) ∧
    decodeCore 0x0880 [0x0000, 0x0800] = .ok (.barArrive ⟨0, false⟩ .t 0) ∧
    decodeCore 0x0881 [0x0000, 0x1011] = .ok (.barWait ⟨0, false⟩ .x 17) ∧
    decodeCore 0x0882 [0x0A05, 0x5C0C] = .ok (.waitm ⟨0, false⟩ .acq .d 5 10 12) ∧
    decodeCore 0x0A80 [0x0A05, 0x0000] = .ok (.launch ⟨0, false⟩ 5 10) ∧
    decodeCore 0xFE80 [0x1006, 0x8000] = .ok (.getc ⟨0, false⟩ true 6 0x10) ∧
    decodeCore 0xFE81 [0x0712, 0x0000] = .ok (.setc ⟨0, false⟩ false 0x12 7) ∧
    decodeCore 0xFE02 [] = .ok (.tret) ∧
    decodeCore 0xFE03 [] = .ok (.halt) := by
  and_intros <;> rfl

/-- Words of the encoding tables (R62, R120): head, tail halfwords in ascending order, instruction. -/
theorem test_words_integer :
    decodeCore 0x2080 [0x0201, 0x8103] = .ok (.add ⟨0, false⟩ ⟨true, .s32, 1, 2, 3⟩) ∧
    decodeCore 0x2082 [0x0201, 0x8103] = .ok (.sub ⟨0, false⟩ ⟨true, .s32, 1, 2, 3⟩) ∧
    decodeCore 0x2280 [0x0201, 0x8103] = .ok (.mul ⟨0, false⟩ ⟨true, .s32, 1, 2, 3⟩) ∧
    decodeCore 0x2282 [0x0201, 0x8103] = .ok (.mulh ⟨0, false⟩ ⟨true, .s32, 1, 2, 3⟩) ∧
    decodeCore 0x2480 [0x0201, 0x8103] = .ok (.div ⟨0, false⟩ ⟨true, .s32, 1, 2, 3⟩) ∧
    decodeCore 0x2481 [0x0201, 0x8103] = .ok (.rem ⟨0, false⟩ ⟨true, .s32, 1, 2, 3⟩) ∧
    decodeCore 0x2482 [0x0201, 0x8103] = .ok (.min ⟨0, false⟩ ⟨true, .s32, 1, 2, 3⟩) ∧
    decodeCore 0x2483 [0x0201, 0x8103] = .ok (.max ⟨0, false⟩ ⟨true, .s32, 1, 2, 3⟩) ∧
    decodeCore 0x2880 [0x0201, 0x8103] = .ok (.and ⟨0, false⟩ ⟨true, .s32, 1, 2, 3⟩) ∧
    decodeCore 0x2882 [0x0201, 0x8103] = .ok (.or ⟨0, false⟩ ⟨true, .s32, 1, 2, 3⟩) ∧
    decodeCore 0x2A80 [0x0201, 0x8103] = .ok (.xor ⟨0, false⟩ ⟨true, .s32, 1, 2, 3⟩) ∧
    decodeCore 0x2C80 [0x0201, 0x8103] = .ok (.shl ⟨0, false⟩ ⟨true, .s32, 1, 2, 3⟩) ∧
    decodeCore 0x2C82 [0x0201, 0x8103] = .ok (.shr ⟨0, false⟩ ⟨true, .s32, 1, 2, 3⟩) ∧
    decodeCore 0x2E80 [0x0201, 0x8103] = .ok (.sra ⟨0, false⟩ ⟨true, .s32, 1, 2, 3⟩) ∧
    decodeCore 0x20C1 [0xC8FE, 0x0200, 0x8001] = .ok (.addImm ⟨0, false⟩ ⟨false, .n64, 254, 200, 0x8001⟩) ∧
    decodeCore 0x22C1 [0xC8FE, 0x0200, 0x8001] = .ok (.mulImm ⟨0, false⟩ ⟨false, .n64, 254, 200, 0x8001⟩) ∧
    decodeCore 0x26C1 [0xC8FE, 0x0200, 0x8001] = .ok (.minImm ⟨0, false⟩ ⟨false, .n64, 254, 200, 0x8001⟩) ∧
    decodeCore 0x26C2 [0xC8FE, 0x0200, 0x8001] = .ok (.maxImm ⟨0, false⟩ ⟨false, .n64, 254, 200, 0x8001⟩) ∧
    decodeCore 0x28C1 [0xC8FE, 0x0200, 0x8001] = .ok (.andImm ⟨0, false⟩ ⟨false, .n64, 254, 200, 0x8001⟩) ∧
    decodeCore 0x28C3 [0xC8FE, 0x0200, 0x8001] = .ok (.orImm ⟨0, false⟩ ⟨false, .n64, 254, 200, 0x8001⟩) ∧
    decodeCore 0x2AC1 [0xC8FE, 0x0200, 0x8001] = .ok (.xorImm ⟨0, false⟩ ⟨false, .n64, 254, 200, 0x8001⟩) ∧
    decodeCore 0x2CC1 [0xC8FE, 0x0200, 0x8001] = .ok (.shlImm ⟨0, false⟩ ⟨false, .n64, 254, 200, 0x8001⟩) ∧
    decodeCore 0x2CC3 [0xC8FE, 0x0200, 0x8001] = .ok (.shrImm ⟨0, false⟩ ⟨false, .n64, 254, 200, 0x8001⟩) ∧
    decodeCore 0x2EC1 [0xC8FE, 0x0200, 0x8001] = .ok (.sraImm ⟨0, false⟩ ⟨false, .n64, 254, 200, 0x8001⟩) ∧
    decodeCore 0x2083 [0x0806, 0x0300] = .ok (.neg ⟨0, false⟩ ⟨false, .s64, 6, 8⟩) ∧
    decodeCore 0x2680 [0x0806, 0x0300] = .ok (.abs ⟨0, false⟩ ⟨false, .s64, 6, 8⟩) ∧
    decodeCore 0x2A82 [0x0806, 0x0300] = .ok (.not ⟨0, false⟩ ⟨false, .s64, 6, 8⟩) ∧
    decodeCore 0x3080 [0x0806, 0x0300] = .ok (.clz ⟨0, false⟩ ⟨false, .s64, 6, 8⟩) ∧
    decodeCore 0x3081 [0x0806, 0x0300] = .ok (.ctz ⟨0, false⟩ ⟨false, .s64, 6, 8⟩) ∧
    decodeCore 0x3082 [0x0806, 0x0300] = .ok (.popc ⟨0, false⟩ ⟨false, .s64, 6, 8⟩) ∧
    decodeCore 0x3083 [0x0806, 0x0300] = .ok (.brev ⟨0, false⟩ ⟨false, .s64, 6, 8⟩) ∧
    decodeCore 0x22C3 [0x0605, 0x0007, 0x0009] = .ok (.mad ⟨0, false⟩ ⟨false, .n32, 5, 6, 7, 9⟩) ∧
    decodeCore 0x32C0 [0x0201, 0x0100, 0x0808] = .ok (.bfx ⟨0, false⟩ ⟨false, .s32, 1, 2, 0, 8, 8⟩) ∧
    decodeCore 0x32C1 [0x0201, 0x0003, 0x0810] = .ok (.bfi ⟨0, false⟩ ⟨false, .n32, 1, 2, 3, 16, 8⟩) ∧
    decodeCore 0x32C2 [0x0201, 0x0003, 0x7688] = .ok (.prmt ⟨0, false⟩ ⟨false, 1, 2, 3, 0x7688⟩) ∧
    decodeCore 0x34C0 [0x0201, 0x0003, 0x0005] = .ok (.sel ⟨0, false⟩ ⟨.n32, 1, 2, 3, 5⟩) ∧
    decodeCore 0x3481 [0x0403, 0x2105] = .ok (.cmp ⟨0, false⟩ ⟨false, .lt, .s32, 3, 4, 5⟩) ∧
    decodeCore 0x34C2 [0x0407, 0xD300, 0xFFFE] = .ok (.cmpImm ⟨0, false⟩ ⟨true, .ge, .s64, 7, 4, 0xFFFE⟩) ∧
    decodeCore 0x3680 [0x0403, 0x7301] = .ok (.cvt ⟨0, false⟩ ⟨.s8, .s64, true, 3, 4⟩) ∧
    decodeCore 0x36C1 [0x0402, 0x0106, 0x0003] = .ok (.lea ⟨0, false⟩ ⟨false, .s32, 2, 4, 6, 3⟩) ∧
    decodeCore 0x3682 [0x0402, 0x0209] = .ok (.shfl ⟨0, false⟩ ⟨.n64, 2, 4, 9⟩) ∧
    decodeCore 0x3854 [0x0102] = .ok (.mov ⟨2, true⟩ 2 1) ∧
    decodeCore 0x3901 [0x0001, 0x0000, 0x5678, 0x1234] = .ok (.movi ⟨0, false⟩ ⟨false, .n32, 1, 0x12345678⟩) ∧
    decodeCore 0x3842 [0x0402] = .ok (.mov64 ⟨0, false⟩ 2 4) ∧
    decodeCore 0x3883 [0x073F, 0x0900] = .ok (.movFile ⟨0, false⟩ ⟨.s, .p, 63, 7⟩) := by
  and_intros <;> rfl

/-- Words of the encoding tables (R63, R136): head, tail halfwords in ascending order, instruction. -/
theorem test_words_float :
    decodeCore 0x6080 [0x0201, 0xDA03] = .ok (.fadd ⟨0, false⟩ ⟨true, .rna, .f32, 1, 2, 3⟩) ∧
    decodeCore 0x6081 [0x0201, 0xDA03] = .ok (.fsub ⟨0, false⟩ ⟨true, .rna, .f32, 1, 2, 3⟩) ∧
    decodeCore 0x6082 [0x0201, 0xDA03] = .ok (.fmul ⟨0, false⟩ ⟨true, .rna, .f32, 1, 2, 3⟩) ∧
    decodeCore 0x6280 [0x0201, 0xDA03] = .ok (.fdiv ⟨0, false⟩ ⟨true, .rna, .f32, 1, 2, 3⟩) ∧
    decodeCore 0x6480 [0x0201, 0x0903] = .ok (.fmin ⟨0, false⟩ ⟨false, .dyn, .bf16, 1, 2, 3⟩) ∧
    decodeCore 0x6481 [0x0201, 0x0903] = .ok (.fmax ⟨0, false⟩ ⟨false, .dyn, .bf16, 1, 2, 3⟩) ∧
    decodeCore 0x6281 [0x0402, 0x3B00] = .ok (.fsqrt ⟨0, false⟩ ⟨false, .rup, .f64, 2, 4⟩) ∧
    decodeCore 0x6282 [0x0402, 0x3B00] = .ok (.frcp ⟨0, false⟩ ⟨false, .rup, .f64, 2, 4⟩) ∧
    decodeCore 0x6283 [0x0402, 0x3B00] = .ok (.frsq ⟨0, false⟩ ⟨false, .rup, .f64, 2, 4⟩) ∧
    decodeCore 0x6683 [0x0402, 0x3B00] = .ok (.fround ⟨0, false⟩ ⟨false, .rup, .f64, 2, 4⟩) ∧
    decodeCore 0x6482 [0x0402, 0x0B00] = .ok (.fabs ⟨0, false⟩ ⟨false, .dyn, .f64, 2, 4⟩) ∧
    decodeCore 0x6483 [0x0402, 0x0B00] = .ok (.fneg ⟨0, false⟩ ⟨false, .dyn, .f64, 2, 4⟩) ∧
    decodeCore 0x6681 [0x0402, 0x0B00] = .ok (.fclass ⟨0, false⟩ ⟨false, .dyn, .f64, 2, 4⟩) ∧
    decodeCore 0x60C3 [0x0B0A, 0x2A0C, 0x000D] = .ok (.fma ⟨0, false⟩ ⟨false, .rtz, .f32, 10, 11, 12, 13⟩) ∧
    decodeCore 0x66C0 [0x0502, 0x0A06, 0x0001] = .ok (.fcmp ⟨0, false⟩ ⟨false, .f32, .ne, 2, 5, 6⟩) ∧
    decodeCore 0x66C2 [0x0402, 0x1800, 0x000B] = .ok (.fcvt ⟨0, false⟩ ⟨false, .rne, .f16, .f64, 2, 4⟩) ∧
    decodeCore 0x68C0 [0x0402, 0x0A00, 0x0005] = .ok (.fsfn ⟨0, false⟩ ⟨false, .dyn, .f32, .sigm, 2, 4⟩) := by
  and_intros <;> rfl

/-- Words of the encoding tables (R64, R147): head, tail halfwords in ascending order, instruction. -/
theorem test_words_variable_precision :
    decodeCore 0x9080 [0x0201, 0x481F] = .ok (.xadd ⟨0, false⟩ ⟨false, .rdn, true, 1, 2, 31⟩) ∧
    decodeCore 0x9081 [0x0201, 0x481F] = .ok (.xsub ⟨0, false⟩ ⟨false, .rdn, true, 1, 2, 31⟩) ∧
    decodeCore 0x9082 [0x0201, 0x481F] = .ok (.xmul ⟨0, false⟩ ⟨false, .rdn, true, 1, 2, 31⟩) ∧
    decodeCore 0x9280 [0x0201, 0x481F] = .ok (.xdiv ⟨0, false⟩ ⟨false, .rdn, true, 1, 2, 31⟩) ∧
    decodeCore 0x90C3 [0x0201, 0x8003, 0x0004] = .ok (.xfma ⟨0, false⟩ ⟨true, .dyn, false, 1, 2, 3, 4⟩) ∧
    decodeCore 0x9281 [0x0201, 0x0000] = .ok (.xsqrt ⟨0, false⟩ ⟨false, .dyn, false, 1, 2⟩) ∧
    decodeCore 0x92C2 [0x0207, 0x8003, 0x0003] = .ok (.xcmp ⟨0, false⟩ ⟨true, .le, 7, 2, 3⟩) ∧
    decodeCore 0x9283 [0x0201, 0x1800] = .ok (.xround ⟨0, false⟩ ⟨false, .rne, true, 1, 2⟩) ∧
    decodeCore 0x9480 [0x0201, 0x0000] = .ok (.xneg ⟨0, false⟩ ⟨false, 1, 2⟩) ∧
    decodeCore 0x9481 [0x0201, 0x8000] = .ok (.xabs ⟨0, false⟩ ⟨true, 1, 2⟩) ∧
    decodeCore 0x9442 [0x021F] = .ok (.xmov ⟨0, false⟩ 31 2) ∧
    decodeCore 0x94C3 [0x02FE, 0x2000, 0x001B] = .ok (.xcvt ⟨0, false⟩ ⟨false, .rtz, false, .f64, true, 254, 2⟩) ∧
    decodeCore 0x94C3 [0xFE1F, 0x0800, 0x0003] = .ok (.xcvt ⟨0, false⟩ ⟨false, .dyn, true, .s64, false, 31, 254⟩) ∧
    decodeCore 0x96C0 [0x0403, 0x0800, 0xFFF8] = .ok (.xld ⟨0, false⟩ ⟨false, .dyn, true, 3, 4, 0xFFF8⟩) ∧
    decodeCore 0x96C1 [0x0403, 0x0007, 0x0009] = .ok (.xldStride ⟨0, false⟩ ⟨false, .dyn, false, 3, 4, 7, 9⟩) ∧
    decodeCore 0x96C2 [0x0403, 0x8000, 0x7FFF] = .ok (.xst ⟨0, false⟩ ⟨true, 3, 4, 0x7FFF⟩) ∧
    decodeCore 0x96C3 [0x0403, 0x0007, 0x0009] = .ok (.xstStride ⟨0, false⟩ ⟨false, 3, 4, 7, 9⟩) ∧
    decodeCore 0x9880 [0x0402, 0x0000] = .ok (.xnext ⟨0, false⟩ 2 4) ∧
    decodeCore 0x98C1 [0x0003, 0x0000, 0x0008] = .ok (.xalloc ⟨0, false⟩ 3 (.words 8)) ∧
    decodeCore 0x98C1 [0x0003, 0x0000, 0x0010] = .ok (.xalloc ⟨0, false⟩ 3 .prec) ∧
    decodeCore 0x98C2 [0x0900, 0x0000, 0x0001] = .ok (.xframe ⟨0, false⟩ (some 9)) ∧
    decodeCore 0x98C2 [0x0000, 0x0000, 0x0000] = .ok (.xframe ⟨0, false⟩ none) ∧
    decodeCore 0x9803 [] = .ok (.xunframe ⟨0, false⟩) := by
  and_intros <;> rfl

/-- Words of the encoding tables (R65, R66, R170): head, tail halfwords in ascending order, instruction. -/
theorem test_words_memory :
    decodeCore 0xB0C0 [0x0602, 0x5404, 0x0008] = .ok (.ld ⟨0, false⟩ ⟨.acq, .x, .n32, 2, 6, 4, 8⟩) ∧
    decodeCore 0xB0C1 [0x0602, 0xA600, 0xFFFC] = .ok (.st ⟨0, false⟩ ⟨.rel, .s, .n64, 2, 6, 0, 0xFFFC⟩) ∧
    decodeCore 0xB0C2 [0x0602, 0x0100, 0x0010] = .ok (.lds ⟨0, false⟩ ⟨.s8, 2, 6, 16⟩) ∧
    decodeCore 0xB0C3 [0x0602, 0x0300, 0x0010] = .ok (.sts ⟨0, false⟩ ⟨.s16, 2, 6, 16⟩) ∧
    decodeCore 0xB300 [0x0602, 0x9409, 0x0080, 0x0400] = .ok (.bst ⟨0, false⟩ ⟨.rel, .x, .n32, 2, 6, 9, 4, 0x80⟩) ∧
    decodeCore 0xB2C1 [0x0601, 0x0000, 0x0040] = .ok (.prf ⟨0, false⟩ true 6 0x40) ∧
    decodeCore 0xB2C2 [0x0014, 0x0000, 0x001F] = .ok (.pushm ⟨0, false⟩ 20 31) ∧
    decodeCore 0xB2C3 [0x0014, 0x0000, 0x0000] = .ok (.popm ⟨0, false⟩ 20 0) ∧
    decodeCore 0xB500 [0x0602, 0xDE08, 0xC004, 0x0070] = .ok (.atom ⟨0, false⟩ ⟨.ar, .d, .n64, .cas, 2, 6, 8, 0, 12, 0, 4⟩) ∧
    decodeCore 0xB501 [0x0600, 0x0508, 0x00FC, 0x0030] = .ok (.red ⟨0, false⟩ ⟨.rlx, .g, .s32, .and, 0, 6, 8, 0, 0, 0, 0xFC⟩) ∧
    decodeCore 0xB502 [0x0602, 0x4C00, 0x0700, 0x0080] = .ok (.near ⟨0, false⟩ ⟨.acq, .t, .n32, .gather, 2, 6, 0, 0, 0, 7, 0⟩) ∧
    decodeCore 0xB483 [0x0000, 0xD005] = .ok (.fence ⟨0, false⟩ .ar .x 5) := by
  and_intros <;> rfl

/-- Words of the encoding tables (R46, R195, R202, R208, R209): head, tail halfwords in ascending order, instruction. -/
theorem test_words_matrix :
    decodeCore 0xE180 [0x0403, 0x1005, 0xC807, 0x003F, 0x0010, 0x0020] = .ok (.mmaF16 ⟨0, false⟩ ⟨3, 4, 5, 0, false, false, false, true, 16, 32, ⟨3, 15, 200, 7⟩⟩) ∧
    decodeCore 0xE5C0 [0x0403, 0x4005, 0xC807, 0x003F, 0x0006, 0x0000, 0x0000] = .ok (.mmaF16Sp ⟨0, false⟩ ⟨3, 4, 5, 6, false, true, false, false, 0, 0, ⟨3, 15, 200, 7⟩⟩) ∧
    decodeCore 0xE181 [0x0403, 0x1005, 0xC807, 0x003F, 0x0010, 0x0020] = .ok (.mmaBf16 ⟨0, false⟩ ⟨3, 4, 5, 0, false, false, false, true, 16, 32, ⟨3, 15, 200, 7⟩⟩) ∧
    decodeCore 0xE5C1 [0x0403, 0x4005, 0xC807, 0x003F, 0x0006, 0x0000, 0x0000] = .ok (.mmaBf16Sp ⟨0, false⟩ ⟨3, 4, 5, 6, false, true, false, false, 0, 0, ⟨3, 15, 200, 7⟩⟩) ∧
    decodeCore 0xE182 [0x0403, 0x1005, 0xC807, 0x003F, 0x0010, 0x0020] = .ok (.mmaE4m3 ⟨0, false⟩ ⟨3, 4, 5, 0, false, false, false, true, 16, 32, ⟨3, 15, 200, 7⟩⟩) ∧
    decodeCore 0xE5C2 [0x0403, 0x4005, 0xC807, 0x003F, 0x0006, 0x0000, 0x0000] = .ok (.mmaE4m3Sp ⟨0, false⟩ ⟨3, 4, 5, 6, false, true, false, false, 0, 0, ⟨3, 15, 200, 7⟩⟩) ∧
    decodeCore 0xE183 [0x0403, 0x1005, 0xC807, 0x003F, 0x0010, 0x0020] = .ok (.mmaE5m2 ⟨0, false⟩ ⟨3, 4, 5, 0, false, false, false, true, 16, 32, ⟨3, 15, 200, 7⟩⟩) ∧
    decodeCore 0xE5C3 [0x0403, 0x4005, 0xC807, 0x003F, 0x0006, 0x0000, 0x0000] = .ok (.mmaE5m2Sp ⟨0, false⟩ ⟨3, 4, 5, 6, false, true, false, false, 0, 0, ⟨3, 15, 200, 7⟩⟩) ∧
    decodeCore 0xE380 [0x0001, 0x2005, 0x0000, 0x0000, 0x0000, 0x0000] = .ok (.mmaS8 ⟨0, false⟩ ⟨1, 0, 5, 0, false, false, true, false, 0, 0, ⟨0, 0, 0, 0⟩⟩) ∧
    decodeCore 0xE3C1 [0x0403, 0xC005, 0xC807, 0x003F, 0x0406, 0x0400, 0x0000] = .ok (.mmaMxf4 ⟨0, false⟩ ⟨3, 4, 5, 6, true, true, false, false, 4, 4, ⟨3, 15, 200, 7⟩⟩) ∧
    decodeCore 0xE3C2 [0x0403, 0x8005, 0xC807, 0x003F, 0x0006, 0x0000, 0x0000] = .ok (.mmaDpt ⟨0, false⟩ ⟨3, 4, 5, 6, true, false, false, false, 0, 0, ⟨3, 15, 200, 7⟩⟩) ∧
    decodeCore 0xE7C0 [0x0403, 0x0005, 0x0000, 0x0000, 0x003F, 0x0000, 0x0000] = .ok (.mmaS8Sp ⟨0, false⟩ ⟨3, 4, 5, 63, false, false, false, false, 0, 0, ⟨0, 0, 0, 0⟩⟩) ∧
    decodeCore 0xE7C1 [0x0403, 0x0005, 0x0000, 0x0000, 0x003F, 0x0000, 0x0000] = .ok (.mmaMxf4Sp ⟨0, false⟩ ⟨3, 4, 5, 63, false, false, false, false, 0, 0, ⟨0, 0, 0, 0⟩⟩) ∧
    decodeCore 0xE7C2 [0x0403, 0x0005, 0x0000, 0x0000, 0x003F, 0x0000, 0x0000] = .ok (.mmaDptSp ⟨0, false⟩ ⟨3, 4, 5, 63, false, false, false, false, 0, 0, ⟨0, 0, 0, 0⟩⟩) ∧
    decodeCore 0xE940 [0x0002, 0x0000, 0xC807, 0x003F, 0x0000] = .ok (.accZero ⟨0, false⟩ 2 ⟨3, 15, 200, 7⟩) ∧
    decodeCore 0xE981 [0x0902, 0x0500, 0x0000, 0x0000, 0x0010, 0x0000] = .ok (.accLd ⟨0, false⟩ ⟨2, 9, .f16, true, 16, ⟨0, 0, 0, 0⟩⟩) ∧
    decodeCore 0xE982 [0x0902, 0x0200, 0x0000, 0x0000, 0x0000, 0x0000] = .ok (.accSt ⟨0, false⟩ ⟨2, 9, .bf16, false, 0, ⟨0, 0, 0, 0⟩⟩) ∧
    decodeCore 0xE9C3 [0x0402, 0x0106, 0xC807, 0x003F, 0x0007, 0xF001, 0x0003] = .ok (.copy ⟨0, false⟩ ⟨.sg, 2, 4, 6, 7, 256, 63, ⟨3, 15, 200, 7⟩⟩) := by
  and_intros <;> rfl

/-- Words of the encoding tables (R235, R378): head, tail halfwords in ascending order, instruction. -/
theorem test_words_walker_launch_and_ingress :
    decodeCore 0xF0C0 [0x0402, 0x0006, 0x0063] = .ok (.wprog ⟨0, false⟩ 2 4 6 99) ∧
    decodeCore 0xF141 [0x0400, 0x0309, 0xC807, 0x003F, 0x0000] = .ok (.wlaunch ⟨0, false⟩ 4 9 3 ⟨3, 15, 200, 7⟩) ∧
    decodeCore 0xF082 [0x0910, 0x0207] = .ok (.wtake ⟨0, false⟩ 16 9 7 2) ∧
    decodeCore 0xF083 [0x0908, 0x0500] = .ok (.wpoll ⟨0, false⟩ 8 9 1 true) ∧
    decodeCore 0xF280 [0x0008, 0x0700] = .ok (.wcancel ⟨0, false⟩ 8 3 true) ∧
    decodeCore 0xF8C0 [0x0908, 0x0000, 0xFFF8] = .ok (.wuacfg ⟨0, false⟩ false false 8 9 0xFFF8) ∧
    decodeCore 0xF8C0 [0x0008, 0x0300, 0x0000] = .ok (.wuacfg ⟨0, false⟩ true true 8 0 0) ∧
    decodeCore 0xF981 [0x0900, 0x0000, 0xC807, 0x003F, 0x0000, 0x0000] = .ok (.wuarun ⟨0, false⟩ 9 ⟨3, 15, 200, 7⟩) ∧
    decodeCore 0xF882 [0x0908, 0x0300] = .ok (.slotfree ⟨0, false⟩ 8 9 3) ∧
    decodeCore 0xF883 [0x0008, 0x1900] = .ok (.slotstat ⟨0, false⟩ .drops 2 true 8 0 0) ∧
    decodeCore 0xF883 [0x0400, 0x0605] = .ok (.slotstat ⟨0, false⟩ .bind 1 false 0 4 5) := by
  and_intros <;> rfl

/-- Walker words (R49, R69, R216). -/
theorem test_words_walker :
    decodeWalker 0x04070007 = some (.nfetch 3 true 7) ∧
    decodeWalker 0x0880003E = some (.ndec 4 2 15) ∧
    decodeWalker 0x0C800005 = some (.tbox ⟨4, 0, 1, true, 0⟩) ∧
    decodeWalker 0x0C890001 = some (.tbox ⟨4, 9, 1, false, 0⟩) ∧
    decodeWalker 0x10890009 = some (.ttri ⟨4, 9, 1, false, 2⟩) ∧
    decodeWalker 0x1489035D = some (.tdist ⟨4, 9, 1, true, 3, true, .f16, true⟩) ∧
    decodeWalker 0x1889F80E = some (.tkey ⟨4, 9, 31, 2, true, true⟩) ∧
    decodeWalker 0x1C090000 = some (.spush 9) ∧
    decodeWalker 0x20890000 = some (.spop 4 9) ∧
    decodeWalker 0x2489F800 = some (.emit 4 9 31) ∧
    decodeWalker 0x28090000 = some (.relay 9) ∧
    decodeWalker 0x2C000000 = some (.ckpt) ∧
    decodeWalker 0x30000000 = some (.done) ∧
    decodeWalker 0x43FFFFFF = some (.j 0x3FFFFFF) ∧
    decodeWalker 0x453FFFFE = some (.jz 9 0x1FFFFE) ∧
    decodeWalker 0x49200001 = some (.jnz 9 1) ∧
    decodeWalker 0x4FE00002 = some (.jmask 31 2) ∧
    decodeWalker 0x60221802 = some (.wadd ⟨1, 2, 3, false, true⟩) ∧
    decodeWalker 0x64221802 = some (.wsub ⟨1, 2, 3, false, true⟩) ∧
    decodeWalker 0x68221802 = some (.wand ⟨1, 2, 3, false, true⟩) ∧
    decodeWalker 0x6C221802 = some (.wor ⟨1, 2, 3, false, true⟩) ∧
    decodeWalker 0x70221802 = some (.wshl ⟨1, 2, 3, false, true⟩) ∧
    decodeWalker 0x74221802 = some (.wshr ⟨1, 2, 3, false, true⟩) ∧
    decodeWalker 0x7C221802 = some (.wmin ⟨1, 2, 3, false, true⟩) ∧
    decodeWalker 0x80221802 = some (.wmax ⟨1, 2, 3, false, true⟩) ∧
    decodeWalker 0x78221813 = some (.wcmp ⟨1, 2, 3, .gt, true, true⟩) ∧
    decodeWalker 0x84220000 = some (.wmov 1 2) ∧
    decodeWalker 0x88228000 = some (.wli 1 2 0x8000) ∧
    decodeWalker 0x8C22181E = some (.wsel 1 2 3 30) ∧
    decodeWalker 0x9022987F = some (.wld ⟨1, 2, 4, .n16, 0x7F⟩) ∧
    decodeWalker 0xA0221801 = some (.wfadd ⟨1, 2, 3, true, false⟩) ∧
    decodeWalker 0xA4221801 = some (.wfmul ⟨1, 2, 3, true, false⟩) ∧
    decodeWalker 0xA8221801 = some (.wfmin ⟨1, 2, 3, true, false⟩) ∧
    decodeWalker 0xAC221801 = some (.wfmax ⟨1, 2, 3, true, false⟩) ∧
    decodeWalker 0xB0221808 = some (.wfcmp ⟨1, 2, 3, .lt, false, false⟩) := by
  and_intros <;> rfl

/-- What WellFormed refuses among control forms: register numbers beyond their files, scopes and orderings that the entries
do not list, and a rectangle register without scope .x (R47, R65, R96). -/
theorem test_wf_refuses_control :
    [Instr.cvset ⟨0, false⟩ 8 0, .cvwait 8, .vote ⟨0, false⟩ .mask 0 8, .vote ⟨0, false⟩ .mask 64 0,
      .vote ⟨0, false⟩ .count 64 0, .vote ⟨0, false⟩ .lead 64 0, .vote ⟨0, false⟩ .every 8 0, .semwait ⟨0, false⟩ 8 0 false 0,
      .barArrive ⟨0, false⟩ .g 0, .barArrive ⟨0, false⟩ .t 1, .barWait ⟨0, false⟩ .d 0, .barWait ⟨0, false⟩ .x 64,
      .waitm ⟨0, false⟩ .rel .t 0 0 0, .waitm ⟨0, false⟩ .rlx .x 0 0 0, .waitm ⟨0, false⟩ .rlx .t 64 0 0,
      .waitm ⟨0, false⟩ .rlx .t 0 64 0, .waitm ⟨0, false⟩ .rlx .t 0 0 64, .launch ⟨0, false⟩ 64 0, .launch ⟨0, false⟩ 0 64,
      .getc ⟨0, false⟩ true 64 0, .getc ⟨0, false⟩ false 0 0x08, .setc ⟨0, false⟩ true 0x12 64,
      .setc ⟨0, false⟩ false 0x60 0, .setc ⟨0, false⟩ false 0x13 0].all (fun i => !i.wf) = true := by
  decide +kernel

/-- Among integer and move forms (R47, R60, R62, R120). -/
theorem test_wf_refuses_integer :
    [Instr.add ⟨0, false⟩ ⟨false, .n16, 0, 0, 0⟩, .sub ⟨0, false⟩ ⟨true, .n32, 64, 0, 0⟩, .mul ⟨0, false⟩ ⟨true, .n32, 0, 64, 0⟩,
      .mulh ⟨0, false⟩ ⟨true, .n32, 0, 0, 64⟩, .addImm ⟨0, false⟩ ⟨false, .f32, 0, 0, 0⟩,
      .shlImm ⟨0, false⟩ ⟨true, .n32, 64, 0, 0⟩, .minImm ⟨0, false⟩ ⟨true, .n32, 0, 64, 0⟩,
      .neg ⟨0, false⟩ ⟨false, .s8, 0, 0⟩, .not ⟨0, false⟩ ⟨true, .n32, 64, 0⟩, .clz ⟨0, false⟩ ⟨true, .n32, 0, 64⟩,
      .abs ⟨0, false⟩ ⟨false, .n32, 0, 0⟩, .abs ⟨0, false⟩ ⟨true, .s32, 64, 0⟩, .abs ⟨0, false⟩ ⟨true, .s32, 0, 64⟩,
      .mad ⟨0, false⟩ ⟨false, .f64, 0, 0, 0, 0⟩, .mad ⟨0, false⟩ ⟨true, .n32, 64, 0, 0, 0⟩,
      .mad ⟨0, false⟩ ⟨true, .n32, 0, 64, 0, 0⟩, .mad ⟨0, false⟩ ⟨true, .n32, 0, 0, 64, 0⟩,
      .mad ⟨0, false⟩ ⟨true, .n32, 0, 0, 0, 64⟩, .bfx ⟨0, false⟩ ⟨false, .n32, 0, 0, 1, 0, 0⟩,
      .bfx ⟨0, false⟩ ⟨false, .s16, 0, 0, 0, 0, 0⟩, .bfx ⟨0, false⟩ ⟨true, .n32, 64, 0, 0, 0, 0⟩,
      .bfx ⟨0, false⟩ ⟨true, .n32, 0, 64, 0, 0, 0⟩, .bfi ⟨0, false⟩ ⟨false, .n8, 0, 0, 0, 0, 0⟩,
      .bfi ⟨0, false⟩ ⟨true, .n32, 64, 0, 0, 0, 0⟩, .bfi ⟨0, false⟩ ⟨true, .n32, 0, 64, 0, 0, 0⟩,
      .bfi ⟨0, false⟩ ⟨true, .n32, 0, 0, 64, 0, 0⟩, .prmt ⟨0, false⟩ ⟨true, 64, 0, 0, 0⟩, .prmt ⟨0, false⟩ ⟨true, 0, 64, 0, 0⟩,
      .prmt ⟨0, false⟩ ⟨true, 0, 0, 64, 0⟩, .sel ⟨0, false⟩ ⟨.n8, 0, 0, 0, 0⟩, .cmp ⟨0, false⟩ ⟨false, .eq, .bf16, 0, 0, 0⟩,
      .cmp ⟨0, false⟩ ⟨false, .eq, .n32, 8, 0, 0⟩, .cmp ⟨0, false⟩ ⟨true, .eq, .n32, 0, 64, 0⟩,
      .cmp ⟨0, false⟩ ⟨true, .eq, .n32, 0, 0, 64⟩, .cmpImm ⟨0, false⟩ ⟨false, .eq, .n16, 0, 0, 0⟩,
      .cmpImm ⟨0, false⟩ ⟨false, .eq, .n32, 8, 0, 0⟩, .cmpImm ⟨0, false⟩ ⟨true, .eq, .n32, 0, 64, 0⟩,
      .cvt ⟨0, false⟩ ⟨.f32, .n32, false, 0, 0⟩, .cvt ⟨0, false⟩ ⟨.n32, .f16, false, 0, 0⟩,
      .lea ⟨0, false⟩ ⟨false, .n16, 0, 0, 0, 0⟩, .lea ⟨0, false⟩ ⟨true, .n32, 64, 0, 0, 0⟩,
      .lea ⟨0, false⟩ ⟨true, .n32, 0, 64, 0, 0⟩, .lea ⟨0, false⟩ ⟨true, .n32, 0, 0, 64, 0⟩,
      .shfl ⟨0, false⟩ ⟨.s32, 0, 0, 0⟩, .movi ⟨0, false⟩ ⟨false, .n8, 0, 0⟩, .movi ⟨0, false⟩ ⟨true, .n32, 64, 0⟩,
      .movFile ⟨0, false⟩ ⟨.s, .v, 64, 0⟩, .movFile ⟨0, false⟩ ⟨.v, .p, 0, 8⟩].all (fun i => !i.wf) = true := by
  decide +kernel

/-- Among floating-point and variable-precision forms (R47, R63, R64, R134, R136, R147). -/
theorem test_wf_refuses_float :
    [Instr.fadd ⟨0, false⟩ ⟨false, .dyn, .n32, 0, 0, 0⟩, .fma ⟨0, false⟩ ⟨false, .dyn, .s64, 0, 0, 0, 0⟩,
      .fdiv ⟨0, false⟩ ⟨false, .dyn, .bf16, 0, 0, 0⟩, .fsqrt ⟨0, false⟩ ⟨false, .dyn, .bf16, 0, 0⟩,
      .fmin ⟨0, false⟩ ⟨false, .rne, .f32, 0, 0, 0⟩, .fmax ⟨0, false⟩ ⟨false, .dyn, .n64, 0, 0, 0⟩,
      .fabs ⟨0, false⟩ ⟨false, .rtz, .f32, 0, 0⟩, .fneg ⟨0, false⟩ ⟨false, .dyn, .s8, 0, 0⟩,
      .fcmp ⟨0, false⟩ ⟨false, .f16, .eq, 0, 0, 0⟩, .fcmp ⟨0, false⟩ ⟨false, .f32, .eq, 8, 0, 0⟩,
      .fclass ⟨0, false⟩ ⟨false, .dyn, .f16, 0, 0⟩, .fclass ⟨0, false⟩ ⟨false, .rdn, .f32, 0, 0⟩,
      .fcvt ⟨0, false⟩ ⟨false, .dyn, .n32, .s64, 0, 0⟩, .fcvt ⟨0, false⟩ ⟨false, .dyn, .f32, .f32, 0, 0⟩,
      .fcvt ⟨0, false⟩ ⟨false, .dyn, .n16, .f32, 0, 0⟩, .fcvt ⟨0, false⟩ ⟨false, .dyn, .f32, .n8, 0, 0⟩,
      .fround ⟨0, false⟩ ⟨false, .dyn, .n32, 0, 0⟩, .fsfn ⟨0, false⟩ ⟨false, .dyn, .f64, .exp2, 0, 0⟩,
      .xadd ⟨0, false⟩ ⟨false, .dyn, false, 32, 0, 0⟩, .xsub ⟨0, false⟩ ⟨false, .dyn, false, 0, 32, 0⟩,
      .xmul ⟨0, false⟩ ⟨false, .dyn, false, 0, 0, 32⟩, .xfma ⟨0, false⟩ ⟨false, .dyn, false, 32, 0, 0, 0⟩,
      .xfma ⟨0, false⟩ ⟨false, .dyn, false, 0, 32, 0, 0⟩, .xfma ⟨0, false⟩ ⟨false, .dyn, false, 0, 0, 32, 0⟩,
      .xfma ⟨0, false⟩ ⟨false, .dyn, false, 0, 0, 0, 32⟩, .xsqrt ⟨0, false⟩ ⟨false, .dyn, false, 32, 0⟩,
      .xround ⟨0, false⟩ ⟨false, .dyn, false, 0, 32⟩, .xcmp ⟨0, false⟩ ⟨false, .eq, 8, 0, 0⟩,
      .xcmp ⟨0, false⟩ ⟨false, .eq, 0, 32, 0⟩, .xcmp ⟨0, false⟩ ⟨false, .eq, 0, 0, 32⟩, .xneg ⟨0, false⟩ ⟨false, 32, 0⟩,
      .xabs ⟨0, false⟩ ⟨false, 0, 32⟩, .xmov ⟨0, false⟩ 32 0, .xmov ⟨0, false⟩ 0 32,
      .xcvt ⟨0, false⟩ ⟨false, .dyn, true, .f32, true, 0, 0⟩, .xcvt ⟨0, false⟩ ⟨false, .dyn, false, .f32, true, 0, 32⟩,
      .xcvt ⟨0, false⟩ ⟨false, .dyn, false, .f32, false, 32, 0⟩, .xld ⟨0, false⟩ ⟨false, .dyn, false, 32, 0, 0⟩,
      .xldStride ⟨0, false⟩ ⟨false, .dyn, false, 32, 0, 0, 0⟩, .xst ⟨0, false⟩ ⟨false, 32, 0, 0⟩,
      .xstStride ⟨0, false⟩ ⟨false, 32, 0, 0, 0⟩, .xalloc ⟨0, false⟩ 32 .prec, .xalloc ⟨0, false⟩ 0 (.words 9),
      .xframe ⟨0, false⟩ (some 64)].all (fun i => !i.wf) = true := by
  decide +kernel

/-- Among memory, matrix, Walker-launch and ingress forms (R65, R66, R170, R195, R202, R203, R208, R209, R235, R378). -/
theorem test_wf_refuses_memory :
    let y : Sync := ⟨0, 0, 0, 0⟩
    [Instr.ld ⟨0, false⟩ ⟨.rel, .t, .n32, 0, 0, 0, 0⟩, .ld ⟨0, false⟩ ⟨.acq, .t, .n32, 0, 0, 1, 0⟩,
      .ld ⟨0, false⟩ ⟨.acq, .x, .n32, 0, 0, 64, 0⟩, .st ⟨0, false⟩ ⟨.acq, .t, .n32, 0, 0, 0, 0⟩,
      .bst ⟨0, false⟩ ⟨.ar, .t, .n32, 0, 0, 0, 0, 0⟩, .bst ⟨0, false⟩ ⟨.rlx, .t, .n32, 0, 0, 64, 0, 0⟩,
      .bst ⟨0, false⟩ ⟨.rlx, .t, .n32, 0, 0, 0, 1, 0⟩, .atom ⟨0, false⟩ ⟨.rlx, .t, .n16, .add, 0, 0, 0, 0, 0, 0, 0⟩,
      .atom ⟨0, false⟩ ⟨.rlx, .t, .n32, .gather, 0, 0, 0, 0, 0, 0, 0⟩,
      .atom ⟨0, false⟩ ⟨.rlx, .t, .n32, .add, 0, 0, 0, 0, 1, 0, 0⟩, .atom ⟨0, false⟩ ⟨.rlx, .t, .n32, .add, 0, 0, 0, 1, 0, 0, 0⟩,
      .atom ⟨0, false⟩ ⟨.rlx, .t, .n32, .add, 0, 0, 0, 0, 0, 1, 0⟩, .red ⟨0, false⟩ ⟨.rlx, .t, .n32, .cas, 0, 0, 0, 0, 0, 0, 0⟩,
      .red ⟨0, false⟩ ⟨.acq, .t, .n32, .add, 0, 0, 0, 0, 0, 0, 0⟩, .red ⟨0, false⟩ ⟨.rlx, .t, .n32, .add, 1, 0, 0, 0, 0, 0, 0⟩,
      .near ⟨0, false⟩ ⟨.rlx, .t, .n32, .xchg, 0, 0, 0, 0, 0, 0, 0⟩, .near ⟨0, false⟩ ⟨.rlx, .t, .n32, .gather, 0, 0, 1, 0, 0, 0, 0⟩,
      .near ⟨0, false⟩ ⟨.rlx, .t, .n32, .gather, 0, 0, 0, 0, 0, 8, 0⟩, .near ⟨0, false⟩ ⟨.rlx, .t, .n32, .add, 0, 0, 0, 0, 0, 1, 0⟩,
      .fence ⟨0, false⟩ .rlx .t 0, .fence ⟨0, false⟩ .acq .t 1, .mmaF16 ⟨0, false⟩ ⟨4, 0, 0, 0, false, false, false, false, 0, 0, y⟩,
      .mmaF16 ⟨0, false⟩ ⟨0, 64, 0, 0, false, false, false, false, 0, 0, y⟩,
      .mmaF16 ⟨0, false⟩ ⟨0, 0, 64, 0, false, false, false, false, 0, 0, y⟩,
      .mmaF16 ⟨0, false⟩ ⟨0, 0, 0, 1, false, false, false, false, 0, 0, y⟩,
      .mmaF16 ⟨0, false⟩ ⟨0, 1, 0, 0, false, false, true, false, 0, 0, y⟩,
      .mmaF16 ⟨0, false⟩ ⟨0, 0, 0, 0, false, false, false, false, 15, 0, y⟩,
      .mmaF16 ⟨0, false⟩ ⟨0, 0, 0, 0, false, false, false, false, 0, 15, y⟩,
      .mmaBf16 ⟨0, false⟩ ⟨0, 0, 0, 0, false, false, true, false, 0, 0, y⟩,
      .mmaS8Sp ⟨0, false⟩ ⟨0, 0, 0, 0, true, false, false, false, 0, 0, y⟩,
      .mmaDpt ⟨0, false⟩ ⟨0, 0, 0, 64, false, false, false, false, 0, 0, y⟩, .accZero ⟨0, false⟩ 4 y,
      .accLd ⟨0, false⟩ ⟨4, 0, .f32, false, 0, y⟩, .accLd ⟨0, false⟩ ⟨0, 64, .f32, false, 0, y⟩,
      .accSt ⟨0, false⟩ ⟨0, 0, .f32, false, 31, y⟩, .copy ⟨0, false⟩ ⟨.gs, 64, 0, 0, 0, 4, 0, y⟩,
      .copy ⟨0, false⟩ ⟨.gs, 0, 64, 0, 0, 4, 0, y⟩, .copy ⟨0, false⟩ ⟨.gs, 0, 0, 64, 0, 4, 0, y⟩,
      .copy ⟨0, false⟩ ⟨.gs, 0, 0, 0, 64, 4, 0, y⟩, .copy ⟨0, false⟩ ⟨.gs, 0, 0, 0, 0, 0, 0, y⟩,
      .copy ⟨0, false⟩ ⟨.gs, 0, 0, 0, 0, 393217, 0, y⟩, .wprog ⟨0, false⟩ 64 0 0 0, .wprog ⟨0, false⟩ 0 64 0 0,
      .wprog ⟨0, false⟩ 0 0 64 0, .wlaunch ⟨0, false⟩ 0 64 0 y, .wtake ⟨0, false⟩ 0 64 0 0, .wtake ⟨0, false⟩ 0 0 8 0,
      .wpoll ⟨0, false⟩ 64 0 0 false, .wpoll ⟨0, false⟩ 0 64 0 false, .wcancel ⟨0, false⟩ 64 0 false,
      .wuacfg ⟨0, false⟩ false true 0 0 0, .wuacfg ⟨0, false⟩ true false 0 1 0, .wuacfg ⟨0, false⟩ true false 0 0 8,
      .wuacfg ⟨0, false⟩ false false 64 0 0, .wuacfg ⟨0, false⟩ false false 0 64 0, .wuarun ⟨0, false⟩ 64 y,
      .slotfree ⟨0, false⟩ 64 0 0, .slotfree ⟨0, false⟩ 0 64 0, .slotstat ⟨0, false⟩ .get 0 false 64 0 0,
      .slotstat ⟨0, false⟩ .drops 0 false 0 1 0, .slotstat ⟨0, false⟩ .get 0 false 0 0 1, .slotstat ⟨0, false⟩ .bind 0 false 1 0 0,
      .slotstat ⟨0, false⟩ .bind 0 true 0 0 0, .slotstat ⟨0, false⟩ .bind 0 false 0 64 0, .slotstat ⟨0, false⟩ .bind 0 false 0 0 64,
      .slotstat ⟨0, false⟩ .unbind 0 false 0 1 0, .slotstat ⟨0, false⟩ .unbind 0 true 0 0 0].all (fun i => !i.wf) = true := by
  decide +kernel

/-- Among Walker instructions (R216). -/
theorem test_wf_refuses_walker :
    [Instr.tbox ⟨0, 1, 0, true, 0⟩, .tbox ⟨0, 0, 0, false, 1⟩, .ttri ⟨0, 0, 0, true, 0⟩, .tdist ⟨0, 0, 0, false, 5, false, .f16, false⟩,
      .tdist ⟨0, 0, 0, false, 4, true, .f16, false⟩, .wld ⟨0, 0, 5, .n64, 0⟩, .wfadd ⟨0, 0, 0, true, true⟩,
      .wfmul ⟨0, 0, 0, false, true⟩, .wfmin ⟨0, 0, 0, false, true⟩, .wfmax ⟨0, 0, 0, false, true⟩,
      .wfcmp ⟨0, 0, 0, .eq, false, true⟩].all (fun i => !i.wf) = true := by
  decide +kernel

/-! States in which the hypotheses of the statements are met: a few registers of one group on core 0, built from reset. -/

/-- Group 1 of core 0 at its first code line, all lanes active, partition 0 mapping its lowest 2 GiB. -/
def st : State := { State.reset.withCore 0 [] with cur := 1, curN := 1 }

/-- s with the current group replaced, and with lanes of its running path. -/
def grp (s : State) (f : Group → Group) : State := s.setCg (f s.cg)
def lanesAre (s : State) (m : Mask) : State := grp s fun g => { g with run := { g.run with mask := m } }
/-- s with v[r] = w in every lane, and with s[r] = w. -/
def putV (s : State) (r w : Nat) : State := s.writeV r false ((List.range 32).map fun l => (l, w))
def putS (s : State) (r w : Nat) : State := s.writeS r false w
/-- s with instructions executed, a stop leaving it as it is. -/
def go (s : State) (l : List Instr) : State :=
  l.foldl (fun u i => match exec i u with | .next t => t | _ => u) s

/-- An address of the mapped range in v6:v7 and s10:s11. -/
def stAt : State := putS (putV st 6 0x20040) 10 0x20040
/-- s with the line of that address and the next in core 0's L1, which owns them. -/
def cached (s : State) : State :=
  let owned : Dir := { Dir.none with st := .e, owner := 0 }
  { (s.l1Set 0 1024 .m).l1Set 0 1025 .m with dir := Tbl.put (Tbl.put s.dir 1024 owned) 1025 owned, l2 := [1024, 1025] }
def stMem : State := cached stAt
/-- The same with a single lane, so that no two lanes store to one address; and without the copy of the line. -/
def stLane : State := lanesAre stMem 0x80000000
def stHome : State := lanesAre stAt 0x80000000

/-- Windows x0, x1 of three words and x2 of eight; v2 holds 1.5 in binary32. -/
def stVp : State :=
  go (putV (grp (lanesAre st 0x80000001) fun g => { g with nw := 16 }) 2 0x3FC00000)
    [.xalloc ⟨0, false⟩ 0 (.words 3), .xalloc ⟨0, false⟩ 1 (.words 3), .xalloc ⟨0, false⟩ 2 (.words 8),
      .xcvt ⟨0, false⟩ ⟨false, .dyn, false, .f32, false, 0, 2⟩, .xcvt ⟨0, false⟩ ⟨false, .dyn, false, .f32, false, 1, 2⟩]

/-! The terms of Safety on one access, by evaluation of its translation. -/

/-- Whether a translation is at hand of which f holds. -/
def placed (x : Xlat) (f : Nat → Nat → Nat → Bool) : Bool :=
  match x with
  | .ok loc pa _ leaf _ => f loc pa leaf
  | _ => false

theorem of_placed {x : Xlat} {f : Nat → Nat → Nat → Bool} (h : placed x f = true) :
    ∃ loc pa at_ leaf size, x = .ok loc pa at_ leaf size ∧ f loc pa leaf = true := by
  cases x <;> first | exact ⟨_, _, _, _, _, rfl, h⟩ | exact absurd h Bool.false_ne_true

def dataNow (s : State) (l : LaneAt) : Bool :=
  placed l.x fun loc pa _ =>
    decide ((loc = 0 → s.readPoisoned pa l.n = false) ∧
      (loc ≠ 0 → loc ≠ 3 → s.reachable s.partId loc pa = true ∧
        s.linesMissing s.cg.run.served s.cg.lastAcq loc pa l.n = []) ∧
      (loc = 3 → s.releaseStop .s 0 = none))
def readableNow (s : State) (l : LaneAt) : Bool := dataNow s l && decide (s.ownStop [l] = none ∧ s.l1Stop [l] = none)
def servesNow (s : State) (l : LaneAt) : Bool :=
  match l.x with
  | .ok 0 pa _ _ _ => s.l1Hit s.coreId (pa / 128) true
  | _ => true
def writableNow (s : State) (l : LaneAt) : Bool :=
  (placed l.x (fun _ _ _ => true) && decide (l.isLocal = true → s.ownStop [l] = none)) && servesNow s l
def plainNow (s : State) (l : LaneAt) : Bool :=
  placed l.x fun loc pa leaf => decide (loc = 0 ∧ s.readPoisoned pa l.n = false ∧ keyOf s.partId leaf = 0)

/-- Where f decides p, all of a list on which f holds have p. -/
theorem forall_of {p : LaneAt → Prop} {f : LaneAt → Bool} (hp : ∀ l, f l = true → p l) {ls : List LaneAt}
    (h : ls.all f = true) : ∀ l ∈ ls, p l := fun l hl => hp l (List.all_eq_true.1 h l hl)

theorem data_of_now {s : State} (l : LaneAt) (h : dataNow s l = true) : s.dataFine l :=
  let ⟨loc, pa, a, leaf, size, hx, hf⟩ := of_placed h
  ⟨loc, pa, a, leaf, size, hx, of_decide_eq_true hf⟩
theorem mapped_of_now (l : LaneAt) (h : placed l.x (fun _ _ _ => true) = true) : l.mapped :=
  let ⟨loc, pa, a, leaf, size, hx, _⟩ := of_placed h
  ⟨loc, pa, a, leaf, size, hx⟩

theorem data_all {s : State} {ls : List LaneAt} (h : ls.all (dataNow s) = true) : ∀ l ∈ ls, s.dataFine l :=
  forall_of data_of_now h
theorem mapped_all {ls : List LaneAt} (h : (ls.all fun l => placed l.x fun _ _ _ => true) = true) : ∀ l ∈ ls, l.mapped :=
  forall_of mapped_of_now h
theorem readable_all {s : State} {ls : List LaneAt} (h : ls.all (readableNow s) = true) : ∀ l ∈ ls, s.readable l :=
  forall_of (fun l hl => ⟨data_of_now l (Bool.and_elim_left hl), of_decide_eq_true (Bool.and_elim_right hl)⟩) h
theorem serves_of_now {s : State} (l : LaneAt) (h : servesNow s l = true) : s.l1Serves l := by
  intro pa a leaf size hx
  simpa [servesNow, hx] using h
theorem serves_all {s : State} {ls : List LaneAt} (h : ls.all (servesNow s) = true) : ∀ l ∈ ls, s.l1Serves l :=
  forall_of serves_of_now h
theorem writable_all {s : State} {ls : List LaneAt} (h : ls.all (writableNow s) = true) : ∀ l ∈ ls, s.writable l :=
  forall_of (fun l hl =>
    let first := Bool.and_elim_left hl
    ⟨mapped_of_now l (Bool.and_elim_left first), of_decide_eq_true (Bool.and_elim_right first),
      serves_of_now l (Bool.and_elim_right hl)⟩) h
theorem plain_all {s : State} {ls : List LaneAt} (h : ls.all (plainNow s) = true) : ∀ l ∈ ls, s.plainLocal l :=
  forall_of (fun _ hl =>
    let ⟨_, pa, a, leaf, size, hx, hf⟩ := of_placed hl
    let hf := of_decide_eq_true hf
    ⟨pa, a, leaf, size, hf.1 ▸ hx, hf.2⟩) h
/-! The terms of Safety, by evaluation. -/

/-- What a decision procedure answers. -/
theorem decided {p : Prop} {i : Decidable p} (h : @decide p i = true) : p := @of_decide_eq_true p i h

def operandDec (s : State) (lanes : List Nat) (o : Opnd) : Decidable (s.operandFine lanes o) :=
  inferInstanceAs (Decidable ((_ → _) ∧ (∀ i < o.n, _) ∧ (_ → ∀ i < o.n, ∀ l ∈ lanes, _) ∧ (_ → ∀ i < o.n, _)))
def fineDec (s : State) (g : Guard) (ops : List Opnd) : Decidable (s.fine g ops) :=
  let _ : ∀ o, Decidable (s.operandFine (s.lanes g) o) := operandDec s (s.lanes g)
  inferInstanceAs (Decidable (_ ∉ s.poison ∧ ∀ o ∈ ops, s.operandFine (s.lanes g) o))
def noTrapDec (s : State) (lanes : List Nat) (nf : Bool) (f : Nat → Flags) : Decidable (s.noFpTrap lanes nf f) :=
  inferInstanceAs (Decidable (nf = true ∨ ∀ l ∈ lanes, _ = _))
def windowsDec (s : State) (lanes : List Nat) (xs : List Reg) : Decidable (s.windowsFine lanes xs) :=
  inferInstanceAs (Decidable (∀ l ∈ lanes, ∀ x ∈ xs, _ ≠ _ ∧ _ ≤ _))
def fitsDec (s : State) (lanes : List Nat) (d : Reg) (e : Bool) (out : Nat → VpOut) : Decidable (s.fitsWindow lanes d e out) :=
  inferInstanceAs (Decidable (∀ l ∈ lanes, _ ≤ _ ∧ (_ → _ = _)))
def rectDec (s : State) (lanes : List Nat) (scope : Scope) (r : Reg) : Decidable (s.rectFine lanes scope r) :=
  inferInstanceAs (Decidable (lanes = [] ∨ scope ≠ _ ∨ _ = _))
def releasedDec (s : State) (lanes : List Nat) (o : Order) (scope : Scope) (r : Reg) : Decidable (s.released lanes o scope r) :=
  inferInstanceAs (Decidable (lanes = [] ∨ _ = _ ∨ _ = _))
def queueDec (s : State) (op : CmdOp) (u : Nat) (areas : List Area) : Decidable (Claims.mayQueue s op u areas) :=
  inferInstanceAs (Decidable ((∀ a ∈ areas, _ = _ ∧ _ ≤ _) ∧ _ ≤ _ ∧ (∀ c ∈ s.cc.tileQ, _ → _ → _ = _) ∧ _ = _))

theorem operand_now {s : State} {lanes : List Nat} {o : Opnd} (h : @decide _ (operandDec s lanes o) = true) :
    s.operandFine lanes o := decided h
theorem fine_now {s : State} {g : Guard} {ops : List Opnd} (h : @decide _ (fineDec s g ops) = true) : s.fine g ops :=
  decided h
theorem pred_now {s : State} {p : Nat} (h : decide (Poison.preg s.cur p ∉ s.poison) = true) : s.predFine p := decided h
theorem noTrap_now {s : State} {lanes : List Nat} {nf : Bool} {f : Nat → Flags}
    (h : @decide _ (noTrapDec s lanes nf f) = true) : s.noFpTrap lanes nf f := decided h
theorem windows_now {s : State} {lanes : List Nat} {xs : List Reg} (h : @decide _ (windowsDec s lanes xs) = true) :
    s.windowsFine lanes xs := decided h
theorem fits_now {s : State} {lanes : List Nat} {d : Reg} {e : Bool} {out : Nat → VpOut}
    (h : @decide _ (fitsDec s lanes d e out) = true) : s.fitsWindow lanes d e out := decided h
theorem rect_now {s : State} {lanes : List Nat} {scope : Scope} {r : Reg} (h : @decide _ (rectDec s lanes scope r) = true) :
    s.rectFine lanes scope r := decided h
theorem released_now {s : State} {lanes : List Nat} {o : Order} {scope : Scope} {r : Reg}
    (h : @decide _ (releasedDec s lanes o scope r) = true) : s.released lanes o scope r := decided h
theorem queue_now {s : State} {op : CmdOp} {u : Nat} {areas : List Area} (h : @decide _ (queueDec s op u areas) = true) :
    Claims.mayQueue s op u areas := decided h

theorem fetch_now {s : State} (h : (match s.fetchBytes with | .ok _ => true | .error _ => false) = true) :
    ∃ bs x, s.fetchBytes = .ok (bs, x) := by
  split at h
  · rename_i r hr; exact ⟨r.1, r.2, hr⟩
  · simp at h

/-! Witnesses: hypotheses of each clause met together, the registers at the ends of their ranges. -/

/-- Integer forms: v pairs and single registers at the top of the file, s pairs likewise, a predicate as guard. -/
theorem witness_integer :
    let s := putS (putV st 255 0xFFFFFFFF) 63 0x80000000
    s.lanes ⟨0, false⟩ = List.range 32 ∧
    s.fine ⟨0, false⟩ [opInt false 254 true true, opInt false 254 true true, opInt false 254 true true,
      opInt false 254 true false] ∧
    s.fine ⟨0, false⟩ [opInt false 255 false true, opInt false 254 true true, opInt false 254 true false] ∧
    s.fine ⟨0, false⟩ [opInt false 254 true true, opInt false 255 false false] ∧
    s.fine ⟨0, false⟩ [opInt true 62 true true, opInt true 62 true true, opInt true 62 true true, opInt true 62 true false] ∧
    s.fine ⟨0, false⟩ [opInt true 63 false true, opInt true 62 true true, opInt true 62 true false] ∧
    s.fine ⟨7, true⟩ [opInt true 62 true true, opInt true 63 false false] := by
  refine ⟨?_, fine_now ?_, fine_now ?_, fine_now ?_, fine_now ?_, fine_now ?_, fine_now ?_⟩ <;> and_intros <;> decide +kernel

/-- Moves: copied sources with and without a marker, predicates p0 and p7, and each pair of files. -/
theorem witness_moves :
    let s := grp st fun g => { g with uninit := true, vtag := [(32 * 4 + 31, true)] }
    s.fine ⟨0, false⟩ [(opV 4 false true).copied, (opV 4 true true).copied, opV 254 true false] ∧ s.predFine 7 ∧
    s.fine ⟨0, false⟩ [opV 255 false true, (opV 254 true true).copied, opV 254 true false] ∧
    s.fine ⟨0, false⟩ [opS 63 false false] ∧ s.operandFine ([31, 0].take 1) (opV 255 false true) ∧
    s.operandFine [0, 31] (opV 4 false true).copied := by
  refine ⟨fine_now ?_, pred_now ?_, fine_now ?_, fine_now ?_, operand_now ?_, operand_now ?_⟩ <;> and_intros <;> decide +kernel

/-- Floating forms: all flags enabled and the sum 1 + 1 exact; an inexact sum raises nothing in an `.nf` form. -/
theorem witness_float :
    let s := (putV (putV st 1 0x3F800000) 2 0x33000000).setCt { st.ct with enables := 0x1F }
    let f (b : Nat) (l : Nat) : FpOut :=
      onElements .f32 (fun x y _ => fpRound .f32 (s.cg.mode .dyn l)
        (Val.add .rne ((Ty.enc .f32).decode x) ((Ty.enc .f32).decode y))) (s.cg.readV false 1 l) (s.cg.readV false b l) 0
    s.fine ⟨0, false⟩ [opV 1 false true, opV 1 false true, opV 1 false true, opV 255 false false] ∧
    s.fine ⟨0, false⟩ [opV 254 true true, opV 254 true true, opV 254 true true, opV 254 true false] ∧
    s.noFpTrap (s.lanes ⟨0, false⟩) false (fun l => (f 1 l).flags) ∧
    s.noFpTrap (s.lanes ⟨0, false⟩) true (fun l => (f 2 l).flags) := by
  refine ⟨fine_now ?_, fine_now ?_, noTrap_now ?_, noTrap_now ?_⟩ <;> and_intros <;> decide +kernel

/-- Floating compare, conversion, rounding and functions raise no flag on 1. -/
theorem witness_float_others :
    let s := (putV st 1 0x3F800000).setCt { st.ct with enables := 0x1F }
    let x (l : Nat) : Val := (Ty.enc .f32).decode (s.cg.readV false 1 l)
    s.noFpTrap (s.lanes ⟨0, false⟩) false (fun l => (Cond.onVals .lt (x l) (x l)).2) ∧
    s.noFpTrap (s.lanes ⟨0, false⟩) false (fun l => (cvtResult .n32 .rne (x l)).flags) ∧
    s.noFpTrap (s.lanes ⟨0, false⟩) false (fun l => (Val.roundIntegral .rne (x l)).flags) ∧
    s.noFpTrap (s.lanes ⟨0, false⟩) false (fun l => (fpRound .f32 .rne (Val.sqrt (Ty.fmt .f32).p (x l))).flags) ∧
    s.noFpTrap (s.lanes ⟨0, false⟩) false (fun l => (fpRound .f32 .rne (Val.fma .rne (x l) (x l) (x l))).flags) ∧
    s.noFpTrap (s.lanes ⟨0, false⟩) false (fun l => (fpRound .f32 .rne (sfnExact .log2 (x l))).flags) := by
  refine ⟨noTrap_now ?_, noTrap_now ?_, noTrap_now ?_, noTrap_now ?_, noTrap_now ?_, noTrap_now ?_⟩ <;> and_intros <;> decide +kernel

/-- FP_TRAP: 1 + 2^-25 is inexact in every lane, of which lane 0 is the lowest. -/
theorem witness_float_trap :
    let s := (putV (putV st 1 0x3F800000) 2 0x33000000).setCt { st.ct with enables := 0x01 }
    let f (k : Nat) : Flags :=
      (onElements .f32 (fun x y _ => fpRound .f32 (s.cg.mode .rne k)
        (Val.add (s.cg.mode .rne k) ((Ty.enc .f32).decode x) ((Ty.enc .f32).decode y))) (s.cg.readV false 1 k)
        (s.cg.readV false 2 k) 0).flags
    s.fine ⟨0, false⟩ [opV 2 false true, opV 1 false true, opV 3 false false] ∧
    (s.lanes ⟨0, false⟩).filter (fun k => f k &&& s.ct.enables != 0) = 0 :: (List.range 32).drop 1 := by
  refine ⟨fine_now ?_, ?_⟩ <;> and_intros <;> decide +kernel

/-- Variable precision: operands that hold values, a result that fits, exactly, and one that does not fit. -/
theorem witness_vp :
    let s := stVp
    let out (l : Nat) : VpOut := vpRound (s.cg.precOf l) (s.cg.mode .dyn l) (Val.add .rne (s.cg.xval 0 l) (s.cg.xval 1 l)) l
    let u := grp s fun g => { g with prec := [(0, 231), (31, 231)] }
    let big (l : Nat) : VpOut := vpRound (u.cg.precOf l) (u.cg.mode .dyn l) (Val.add .rne (u.cg.xval 0 l) (u.cg.xval 1 l)) l
    s.lanes ⟨0, false⟩ = [0, 31] ∧
    s.fine ⟨0, false⟩ [opX 1 true, opX 0 true, opX 0 true, opX 2 false] ∧ s.windowsFine (s.lanes ⟨0, false⟩) [0, 1] ∧
    s.fitsWindow (s.lanes ⟨0, false⟩) 2 true out ∧ s.noFpTrap (s.lanes ⟨0, false⟩) false (fun l => (out l).flags) ∧
    s.fine ⟨0, false⟩ [(opX 1 true).copied, opX 2 false] ∧ s.fine ⟨0, false⟩ [opV 2 false true, opX 2 false] ∧
    s.fine ⟨0, false⟩ [opX 1 true, opV 254 true false] ∧
    s.noFpTrap (s.lanes ⟨0, false⟩) false (fun l => (xcvtResult .f64 .rne (s.cg.xval 0 l)).flags) ∧
    s.noFpTrap (s.lanes ⟨0, false⟩) false (fun l => (Cond.onVals .eq (s.cg.xval 0 l) (s.cg.xval 1 l)).2) ∧
    s.fitsWindow (s.lanes ⟨0, false⟩) 2 false (fun l =>
      { lane := l, words := s.cg.xwords 0 l, flags := 0, changed := false, pneed := 0, tag := false, addr := 0 }) ∧
    u.fine ⟨0, false⟩ [opX 1 true, opX 0 true, opX 0 false] ∧ u.windowsFine (u.lanes ⟨0, false⟩) [1, 0] ∧
    (u.lanes ⟨0, false⟩).filter (fun k => (u.cg.xwin 0).ext < (big k).words.length) = [0, 31] := by
  refine ⟨?_, fine_now ?_, windows_now ?_, fits_now ?_, noTrap_now ?_, fine_now ?_, fine_now ?_,
    fine_now ?_, noTrap_now ?_, noTrap_now ?_, fits_now ?_, fine_now ?_, windows_now ?_, ?_⟩ <;> and_intros <;> decide +kernel

/-- The other forms that raise an enabled flag: 1/3, 2^-24 + 1 fused, 1.5 to an integral value and to n32, log2 3, and a signalling
NaN compared; in variable precision, 1/3 to 8 bits as an exact result, of which bits are lost, and the flag of one that fits. -/
theorem witness_flag_traps :
    let s := (putV (putV (putV (putV st 1 0x40400000) 2 0x33800001) 3 0x3FC00000) 4 0x7F800001).setCt { st.ct with enables := 0x1F }
    let x (r l : Nat) : Val := (Ty.enc .f32).decode (s.cg.readV false r l)
    let three := (List.range 32).map fun l => ((fpRound .f32 .rne (Val.sqrt (Ty.fmt .f32).p (x 1 l))).flags &&& s.ct.enables != 0,
      (fpRound .f32 .rne (Val.fma .rne (x 1 l) (x 2 l) (x 3 l))).flags &&& s.ct.enables != 0,
      (fpRound .f32 .rne (sfnExact .log2 (x 1 l))).flags &&& s.ct.enables != 0)
    let u := grp stVp fun g => { g with prec := [(0, 8), (31, 8)] }
    let u := (putV u 3 0x40400001).setCt { u.ct with enables := 0x1F }
    let out (l : Nat) : VpOut := vpRound 8 .rne (xcvtSource .f32 (u.cg.readV false 3 l)) l
    three.all (fun e => e.1 && e.2.1 && e.2.2) = true ∧
    ((List.range 32).all fun l => (Val.roundIntegral .rne (x 3 l)).flags &&& s.ct.enables != 0) = true ∧
    ((List.range 32).all fun l => (cvtResult .n32 .rne (x 3 l)).flags &&& s.ct.enables != 0) = true ∧
    ((List.range 32).all fun l => (Cond.onVals .lt (x 4 l) (x 1 l)).2 &&& s.ct.enables != 0) = true ∧
    u.fine ⟨0, false⟩ [opV 3 false true, opX 2 false] ∧
    ((u.lanes ⟨0, false⟩).filter fun k => (u.cg.xwin 2).ext < (out k).words.length) = [] ∧
    ((u.lanes ⟨0, false⟩).filter fun k => (out k).changed) = [0, 31] ∧
    u.fitsWindow (u.lanes ⟨0, false⟩) 2 false out ∧
    ((u.lanes ⟨0, false⟩).filter fun k => (out k).flags &&& u.ct.enables != 0) = [0, 31] := by
  refine ⟨?_, ?_, ?_, ?_, fine_now ?_, ?_, ?_, fits_now ?_, ?_⟩ <;> and_intros <;> decide +kernel
/-! Witnesses of the memory statements: one lane, lane 31, on a mapped page of plaintext local memory. -/

/-- ld of 8 bytes with scope .t, and of one byte at the last byte of the line with a legal rectangle in s4. -/
theorem witness_load :
    let s := putS stLane 4 0
    let o : MemOp := ⟨.acq, .t, .n64, 254, 6, 0, 8⟩
    let x : MemOp := ⟨.rlx, .x, .s8, 255, 6, 4, 0x3F⟩
    let ls := s.memLanes o (s.lanes ⟨0, false⟩) Need.read
    let lx := s.memLanes x (s.lanes ⟨0, false⟩) Need.read
    s.lanes ⟨0, false⟩ = [31] ∧ s.fine ⟨0, false⟩ (rectOps .t 0 ++ [opV 6 true true, opV 254 true false]) ∧
    s.rectFine (s.lanes ⟨0, false⟩) .t 0 ∧ (∀ l ∈ ls, l.va % sizeBytes .n64 = 0) ∧ (∀ l ∈ ls, s.readable l) ∧
    s.fine ⟨0, false⟩ (rectOps .x 4 ++ [opV 6 true true, opV 255 false false]) ∧
    s.rectFine (s.lanes ⟨0, false⟩) .x 4 ∧ (∀ l ∈ lx, s.readable l) ∧ s.cg.monitor = none ∧ s.cg.run.mask ≠ 0 := by
  refine ⟨?_, fine_now ?_, rect_now ?_, ?_, readable_all ?_, fine_now ?_, rect_now ?_,
    readable_all ?_, ?_⟩ <;> and_intros <;> decide +kernel

/-- A load of local memory: the translation of the byte at 0x2007F. -/
theorem witness_load_bytes :
    stLane.keyTag = [] ∧
    (∀ l ∈ [stLane.laneAt 31 0x2007F 1 Need.read], stLane.plainLocal l) := by
  refine ⟨?_, plain_all ?_⟩ <;> and_intros <;> decide +kernel

/-- st of 8 bytes with ordering .rel and scope .s, the group having no write outstanding. -/
theorem witness_store :
    let s := stLane
    let o : MemOp := ⟨.rel, .s, .n64, 254, 6, 0, 0⟩
    let ls := s.memLanes o (s.lanes ⟨0, false⟩) Need.write
    s.fine ⟨0, false⟩ (rectOps .s 0 ++ [opV 6 true true, (opV 254 true true).copied]) ∧
    s.rectFine (s.lanes ⟨0, false⟩) .s 0 ∧ (∀ l ∈ ls, l.va % sizeBytes .n64 = 0) ∧ (∀ l ∈ ls, s.writable l) ∧
    s.released (s.lanes ⟨0, false⟩) .rel .s 0 ∧
    s.regPageStop ls ((s.storeWrites 254 .n64 ls).map fun w => leValue w.2) = none ∧ (∀ l ∈ ls, l.isLocal = true) ∧
    s.cg.run.under = [] := by
  refine ⟨fine_now ?_, rect_now ?_, ?_, writable_all ?_, released_now ?_, ?_⟩ <;> and_intros <;> decide +kernel

/-- lds and sts of 8 bytes at the last 8 bytes of the data area. -/
theorem witness_scratchpad :
    let s := putV stLane 2 (384 * 768 - 16)
    let at_ (l : Nat) : Nat := wrapTo 32 ((s.cg.vreg 2 l).toNat + (8 : Int))
    s.fine ⟨0, false⟩ [opV 2 false true, opV 254 true false] ∧
    s.fine ⟨0, false⟩ [opV 2 false true, (opV 254 true true).copied] ∧
    (∀ l ∈ s.lanes ⟨0, false⟩, at_ l % 8 = 0 ∧ at_ l + 8 = s.ct.d) ∧
    (∀ l ∈ s.lanes ⟨0, false⟩, s.cc.lockAt (s.ct.base + at_ l) 8 true = none ∧
      s.scrPoisoned s.coreId (s.ct.base + at_ l) 8 = false) ∧
    (∀ l ∈ s.lanes ⟨0, false⟩, s.cc.lockAt (s.ct.base + at_ l) 8 false = none) := by
  refine ⟨fine_now ?_, fine_now ?_, ?_⟩ <;> and_intros <;> decide +kernel

/-- pushm of registers down to the lower end of the stack, popm up to its upper end, and both without a guarded lane. -/
theorem witness_stack :
    let s := grp stLane fun g => { g with ssp := stLane.stackLo + 4096 }
    let u := grp stLane fun g => { g with ssp := stLane.stackHi - 4096 }
    s.fine ⟨0, false⟩ [(opRun 224 32 true).copied] ∧ s.lanes ⟨0, false⟩ ≠ [] ∧ s.stackLo + 128 * 32 = s.cg.ssp ∧
    s.cg.ssp ≤ s.stackHi ∧ u.fine ⟨0, false⟩ [opRun 224 32 false] ∧ u.stackLo ≤ u.cg.ssp ∧
    u.cg.ssp + 128 * 32 = u.stackHi ∧
    (∀ j < 32, ∀ l ∈ u.lanes ⟨0, false⟩, u.scrPoisoned u.coreId (u.ct.base + u.cg.ssp + 128 * j + 4 * l) 4 = false) ∧
    u.lanes ⟨0, true⟩ = [] ∧ u.predFine 0 ∧ u.fine ⟨0, true⟩ [(opRun 224 32 true).copied] := by
  refine ⟨fine_now ?_, ?_, ?_, ?_, fine_now ?_, ?_, ?_, ?_, ?_, pred_now ?_, fine_now ?_⟩ <;> and_intros <;> decide +kernel

/-- A value of three words stands in memory at 0x20040: xld into a window of three words, xst of it, xnext. -/
theorem witness_vp_memory :
    let s := { go (cached (putV stVp 6 0x20040)) [.xst ⟨0, false⟩ ⟨false, 0, 6, 0⟩] with tlbs := [] }
    let va (l : Nat) : Nat := wrapTo 48 ((s.cg.vpair 6 l : Nat) + (0 : Int))
    let at_ (l : Nat) : VpAt := s.vpAt vpLoadAcc l (va l)
    let words (l : Nat) : List Nat := s.readAt (at_ l).head :: (at_ l).rest.map s.readAt
    let lanes := s.lanes ⟨0, false⟩
    lanes = [0, 31] ∧ s.fine ⟨0, false⟩ [opV 6 true true, opX 1 false] ∧
    s.fine ⟨0, false⟩ [opV 9 false true, opV 6 true true, opX 1 false] ∧
    (∀ l ∈ lanes, va l % 4 = 0 ∧ (at_ l).head.isReg = false ∧ statedExtent (s.readAt (at_ l).head) = 2 ∧
      (words l).length ≤ (s.cg.xwin 1).ext) ∧
    (∀ l ∈ lanes.map fun l => (at_ l).head, s.readable l) ∧ (∀ l ∈ lanes.flatMap fun l => (at_ l).rest, s.readable l) ∧
    s.fine ⟨0, false⟩ [opV 6 true true, (opX 0 true).copied] ∧ s.windowsFine lanes [0] ∧
    (∀ l ∈ lanes.flatMap fun l => s.vpWordsAt l (va l) 0 (s.cg.xwords 0 l).length Need.write, s.writable l) ∧
    (∀ l ∈ lanes.flatMap fun l => s.vpWordsAt l (va l) 0 (s.cg.xwords 0 l).length Need.write, l.isLocal = true) ∧
    s.fine ⟨0, false⟩ [opV 6 true true, opV 254 true false] ∧
    (∀ l ∈ lanes.map fun l => s.laneAt l (s.vpair48 6 l) 4 Need.read, s.readable l) := by
  refine ⟨?_, fine_now ?_, fine_now ?_, ?_, readable_all ?_, readable_all ?_, fine_now ?_,
    windows_now ?_, writable_all ?_, ?_, fine_now ?_, readable_all ?_⟩ <;> and_intros <;> decide +kernel

/-- Frames: xalloc to the group's last word, xframe carrying x0, xunframe of the frame pushed, and of a spilled one. -/
theorem witness_frames :
    let s := stVp
    let u := go s [.xframe ⟨0, false⟩ none]
    let w := go u [.xalloc ⟨0, false⟩ 0 (.words 8)]
    mapLength (Tbl.set Win.none s.cg.xmap 3 (s.cg.allocated 3 2)) = s.cg.nw ∧ s.predFine 0 ∧ s.lanes ⟨0, false⟩ ≠ [] ∧
    s.spillStop ((s.cg.spillCount (s.cg.xb + 16) false).getD 0) = none ∧ s.cg.xb + 16 ≤ s.cg.nw ∧
    Tbl.wf 0 s.cg.win = true ∧ Tbl.wf 0 u.cg.win = true ∧
    (putS s 5 1).fine ⟨0, false⟩ [opS 5 false true] ∧ (∀ x ∈ carried ((putS s 5 1).cg.sreg 5), (s.cg.xwin x).ext ≠ 0) ∧
    s.cg.spillCount (s.cg.xb + mapLength s.cg.xmap + 0) true = some 0 ∧ s.spillStop 0 = none ∧
    u.cg.depth = 1 ∧ u.cg.frames ≠ [] ∧ Group.noRoom u.cg u.callerGroup u.cg.held = none ∧
    ([0, 1, 2].all fun x => [0, 1, 2].all fun y =>
      x == y || !(Tbl.get Win.none u.callerFrame.map x).meets (Tbl.get Win.none u.callerFrame.map y)) = true ∧
    w.cg.depth = 1 ∧ w.cg.frames = [] ∧ w.recordStop.isNone = true ∧ Tbl.wf 0 w.cg.win = true ∧
    Group.noRoom w.cg w.callerGroup w.cg.held = none := by
  refine ⟨?_, pred_now ?_, ?_, ?_, ?_, ?_, ?_, fine_now ?_, ?_⟩ <;> and_intros <;> decide +kernel

/-- bst of 4 bytes with the core itself as destination set. -/
theorem witness_baton :
    let s := stHome
    let ls := (s.lanes ⟨0, false⟩).map fun l => s.laneAt l (s.globalAt 6 0 l) 4 Need.write
    s.fine ⟨0, false⟩ (rectOps .d 0 ++ [opS 12 false true, opV 6 true true, (opV 2 false true).copied]) ∧
    s.rectFine (s.lanes ⟨0, false⟩) .d 0 ∧ s.setOk (s.cg.sreg 12) = true ∧ (∀ l ∈ ls, l.va % 4 = 0) ∧
    (∀ l ∈ ls, l.isLocal = true) ∧ s.released (s.lanes ⟨0, false⟩) .rel .d 0 ∧
    s.cc.batons.length + (localLines ls).length ≤ 64 := by
  refine ⟨fine_now ?_, rect_now ?_, ?_, ?_, ?_, released_now ?_, ?_⟩ <;> and_intros <;> decide +kernel

/-- atom with its L1's line, near and red of 4 bytes at the home, and a gather of two registers. -/
theorem witness_atomics :
    let s := stLane
    let h := stHome
    let o : AtomOps := ⟨.ar, .d, .n32, .cas, 2, 6, 8, 0, 12, 0, 4⟩
    let r : AtomOps := ⟨.rel, .d, .n32, .add, 2, 6, 8, 0, 12, 0, 4⟩
    let g : AtomOps := ⟨.acq, .t, .n64, .gather, 248, 6, 0, 0, 0, 3, 0x20⟩
    let ls := s.atomLanes o (s.lanes ⟨0, false⟩) { Need.both with atomic := true, sys := false }
    let lh := h.atomLanes r (h.lanes ⟨0, false⟩) { Need.both with atomic := true, sys := false }
    let lg := (h.lanes ⟨0, false⟩).map fun l => h.laneAt l (h.globalAt 6 0x20 l) 32 Need.read
    s.fine ⟨0, false⟩ (atomRegs o true) ∧ s.rectFine (s.lanes ⟨0, false⟩) .d 0 ∧ (∀ l ∈ ls, l.va % 4 = 0) ∧
    (∀ l ∈ ls, s.plainLocal l) ∧ (∀ l ∈ ls, s.l1Serves l) ∧ (ls.all fun l => (s.ownStop [l]).isNone) = true ∧
    s.keyTag = [] ∧ s.released (s.lanes ⟨0, false⟩) .ar .d 0 ∧ s.cg.run.under = [] ∧
    h.fine ⟨0, false⟩ (atomRegs r true) ∧ h.fine ⟨0, false⟩ (atomRegs r false) ∧ (∀ l ∈ lh, l.va % 4 = 0) ∧
    (∀ l ∈ lh, h.plainLocal l) ∧ (lh.all fun l => (h.ownStop [l]).isNone) = true ∧
    h.homeHeld (.group h.cur) (localLines lh) true = none ∧ h.cg.run.under = [] ∧
    h.released (h.lanes ⟨0, false⟩) .rel .d 0 ∧
    h.fine ⟨0, false⟩ (rectOps .t 0 ++ [opV 6 true true, ⟨0, 248, gatherRegs g, true, false, false⟩]) ∧
    (∀ l ∈ lg, l.va % 8 = 0 ∧ l.va % 128 + 32 = 128 ∧ l.isLocal = true) ∧ (∀ l ∈ lg, h.dataFine l) ∧
    (lg.all fun l => (h.ownStop [l]).isNone) = true ∧ h.homeHeld (.group h.cur) (localLines lg) false = none := by
  refine ⟨fine_now ?_, rect_now ?_, ?_, plain_all ?_, serves_all ?_, ?_, ?_, released_now ?_, ?_,
    fine_now ?_, fine_now ?_, ?_, plain_all ?_, ?_, ?_, ?_, released_now ?_, fine_now ?_, ?_,
    data_all ?_, ?_⟩ <;> and_intros <;> decide +kernel

/-- The page at 2^31 of the virtual addresses is one of the host's (location 2), with r, w, x and both classes; AtomicOps are
enabled. -/
def stHost : State :=
  let s := putV stHome 7 0
  let s := putV s 6 0x80000040
  { s with mem := putAll s.mem [⟨0x2008, leBytes 8 0x71F⟩], mgmt := { s.mgmt with atomicEnable := true } }

/-- An atomic on host memory, not yet under way, and one whose lane has its answer. -/
theorem witness_remote_atomics :
    let s := stHost
    let o : AtomOps := ⟨.ar, .s, .n32, .cas, 2, 6, 8, 0, 12, 0, 4⟩
    let lanes := s.lanes ⟨0, false⟩
    let ls := s.atomLanes o lanes { Need.both with atomic := true, sys := true }
    let u := grp s fun g => { g with run := { g.run with under := ls, served := [(2 ^ 60 + 31, [1, 0, 0, 0])] } }
    s.fine ⟨0, false⟩ (atomRegs o true) ∧ s.rectFine lanes .s 0 ∧ lanes ≠ [] ∧
    (ls.all fun l => match l.x with
      | .ok loc pa _ _ _ => l.va % 4 == 0 && loc == 2 && s.reachable s.partId loc pa && s.carries s.partId loc pa .cas false .s
      | _ => false) = true ∧ s.released lanes .ar .s 0 ∧
    (s.ownStop ls).isNone = true ∧ s.cg.run.under = [] ∧
    (ls.filter fun l => !l.isLocal) ≠ [] ∧ u.cg.run.under ≠ [] ∧
    (u.cg.run.under.map fun l => l.lane.getD 0) = [31] ∧ u.openAt u.cg.run.under = [] := by
  refine ⟨fine_now ?_, rect_now ?_, ?_, ?_, released_now ?_, ?_⟩ <;> and_intros <;> decide +kernel

/-- fence.ar.s with no write outstanding; prf. -/
theorem witness_fence :
    stLane.fine ⟨0, false⟩ (rectOps .s 0) ∧ stLane.rectFine (stLane.lanes ⟨0, false⟩) .s 0 ∧
    stLane.released (stLane.lanes ⟨0, false⟩) .ar .s 0 ∧
    stLane.fine ⟨0, false⟩ [opV 6 true true] := by
  refine ⟨fine_now ?_, rect_now ?_, released_now ?_, fine_now ?_⟩ <;> and_intros <;> decide +kernel

/-- Accesses that trap, lane 0 fine and lane 31 misaligned, without a translation, or on a page that is not writable. -/
theorem witness_access_traps :
    let at_ (lo hi : Nat) : State :=
      (putV (putV (lanesAre st 0x80000001) 7 0) 6 0x20040).writeV 6 true [(31, lo + 2 ^ 32 * hi)]
    let o : MemOp := ⟨.rlx, .t, .n32, 2, 6, 0, 0⟩
    let bad := at_ 0x20042 0
    let gone := at_ 0x20040 0x100
    let ro := { at_ 0x80000000 0 with mem := putAll st.mem [⟨0x2008, leBytes 8 0x607⟩] }
    let l0 (s : State) (n : Need) : LaneAt := nthD ⟨none, 0, 0, .bad⟩ (s.memLanes o [0, 31] n) 0
    let l31 (s : State) (n : Need) : LaneAt := nthD ⟨none, 0, 0, .bad⟩ (s.memLanes o [0, 31] n) 1
    bad.lanes ⟨0, false⟩ = [0, 31] ∧ bad.cg.run.under = [] ∧
    (bad.memLanes o [0, 31] Need.read) = [] ++ [l0 bad Need.read] ++ l31 bad Need.read :: [] ∧
    (l0 bad Need.read).va % 4 = 0 ∧ (l31 bad Need.read).va % 4 = 2 ∧
    (gone.memLanes o [0, 31] Need.read) = [l0 gone Need.read] ++ l31 gone Need.read :: [] ∧
    (∀ l ∈ [l0 gone Need.read], l.mapped) ∧ (l31 gone Need.read).x = .fault 0 0 0 ∧
    (ro.memLanes o [0, 31] Need.write) = [l0 ro Need.write] ++ l31 ro Need.write :: [] ∧
    (∀ l ∈ [l0 ro Need.write], l.mapped) ∧ (l31 ro Need.write).x = .perm 0 false ∧
    bad.fine ⟨0, false⟩ (rectOps .t 0 ++ [opV 6 true true, opV 2 false false]) ∧ bad.rectFine [0, 31] .t 0 := by
  refine ⟨?_, ?_, ?_, ?_, ?_, ?_, mapped_all ?_, ?_, ?_, mapped_all ?_, ?_, fine_now ?_,
    rect_now ?_⟩ <;> and_intros <;> decide +kernel

/-- ld of a sector that holds an uncorrectable error. -/
theorem witness_load_error :
    let s := { stLane with poison := [.mem (0x20040 / 32)] }
    let o : MemOp := ⟨.rlx, .t, .n32, 2, 6, 0, 0⟩
    let ls := s.memLanes o (s.lanes ⟨0, false⟩) Need.read
    s.fine ⟨0, false⟩ (rectOps .t 0 ++ [opV 6 true true, opV 2 false false]) ∧
    s.rectFine (s.lanes ⟨0, false⟩) .t 0 ∧ (∀ l ∈ ls, l.va % 4 = 0) ∧ (∀ l ∈ ls, l.mapped) ∧ ls.length = 1 ∧
    s.readPoisoned 0x20040 4 = true := by
  refine ⟨fine_now ?_, rect_now ?_, ?_, mapped_all ?_, ?_⟩ <;> and_intros <;> decide +kernel

/-- Entries of a table at 0x40000: not valid, malformed, a table in and outside the mappable memory, and a leaf; and a whole
translation. -/
theorem witness_table_walk :
    let e (v : Nat) : State := { st with mem := putAll st.mem [⟨0x40000, leBytes 8 v⟩] }
    let at_ (v : Nat) : Nat := (e v).entryAt (0x40000 + 8 * levelIndex 0 1)
    (e 1).memPoisoned 0x40000 8 = false ∧ at_ 0 % 2 = 0 ∧ entryMalformed (at_ 0x8000000000000001) 1 false = true ∧
    (entryMalformed (at_ 0x2001) 1 false = false ∧ at_ 0x2001 / 2 % 2 = 0 ∧ st.mappable 0 (frameOf (at_ 0x2001)) 4096 = true) ∧
    (entryMalformed (at_ 0x800000002001) 1 false = false ∧ st.mappable 0 (frameOf (at_ 0x800000002001)) 4096 = false) ∧
    (entryMalformed (at_ 0x61F) 1 false = false ∧ at_ 0x61F / 2 % 2 = 1 ∧ frameOf (at_ 0x61F) % pageSize 1 = 0 ∧
      bits (at_ 0x61F) 8 7 = 0 ∧ st.mappable 0 (frameOf (at_ 0x61F)) (pageSize 1) = true ∧
      (leafCheck (at_ 0x61F) Need.read).isNone = true) ∧
    (match st.translate 0 0 0x20040 Need.read with | .ok loc .. => loc == 0 | _ => false) = true := by
  and_intros <;> decide +kernel
/-! Witnesses of the control statements. -/

/-- The group has a trap handler at 0x30000. -/
def stTrap : State := st.setCt { st.ct with tvec := 0x30000 }
/-- It is in handler mode. -/
def stHandler : State := stTrap.takeTrap (Trap.plain 0x38 0 0)
/-- Its lanes 0 to 15 hold p1. -/
def stHalf : State := st.writeP 1 0xFFFFFFFF 0x0000FFFF

/-- Branches with a pair at the top of the file, with and without a guarded lane. -/
theorem witness_branches :
    st.fine ⟨0, false⟩ [] ∧ st.fine ⟨0, false⟩ [opV 254 true true] ∧ st.fine ⟨0, true⟩ [opV 254 true false] ∧
    st.lanes ⟨0, false⟩ ≠ [] ∧ st.lanes ⟨0, true⟩ = [] := by
  refine ⟨fine_now ?_, fine_now ?_, fine_now ?_, ?_⟩ <;> and_intros <;> decide +kernel

/-- exit: no lane, half of the path's lanes, all of them with another path ready, and all of the group's. -/
theorem witness_exit :
    let s := grp st fun g => { g with ready := [{ Path.none with id := 7, pc := 0x20002, mask := 1 }] }
    st.predFine 0 ∧ stHalf.predFine 1 ∧ st.cg.guarded ⟨0, true⟩ = 0 ∧
    (stHalf.cg.guarded ⟨1, false⟩ = 0xFFFF ∧ stHalf.cg.run.mask &&& ~~~(stHalf.cg.guarded ⟨1, false⟩) = 0xFFFF0000) ∧
    (s.cg.guarded ⟨0, false⟩ = s.cg.run.mask ∧ s.cg.ready = [{ Path.none with id := 7, pc := 0x20002, mask := 1 }] ∧
      s.cg.handler = none) ∧
    (st.cg.guarded ⟨0, false⟩ = st.cg.run.mask ∧ st.cg.run.mask ≠ 0 ∧ st.cg.ready = [] ∧ st.cg.parked = [] ∧
      st.cg.handler = none) := by
  refine ⟨pred_now ?_, pred_now ?_, ?_⟩ <;> and_intros <;> decide +kernel

/-- exit of the whole path while another is parked, on a barrier whose remaining lanes then all wait, or in its handler with a path
stopped, and with none. -/
theorem witness_exit_parked :
    let q : Parked := ⟨{ Path.none with id := 7, pc := 0x20002, mask := 1 }, .cv 7⟩
    let s := lanesAre (grp st fun g => { g with parked := [q], c := [(7, ⟨0x80000001, true⟩)] }) 0x80000000
    let h (l : List Parked) := grp stTrap fun g => { g with handler := some ⟨0xFFFFFFFF, [], l⟩ }
    s.predFine 0 ∧ (s.cg.guarded ⟨0, false⟩ ≠ 0 ∧ s.cg.run.mask = s.cg.guarded ⟨0, false⟩ ∧ s.cg.ready = []) ∧
    (q ∈ s.cg.parked ∧ q.path.mask ≠ 0 ∧ s.cg.cvWaiting 7 = 1 ∧
      s.cg.cvWaiting 7 &&& ((s.cg.conv 7).mask &&& ~~~0x80000000) = (s.cg.conv 7).mask &&& ~~~0x80000000) ∧
    ((h [q]).cg.handler = some ⟨0xFFFFFFFF, [], [q]⟩ ∧ (h [q]).cg.run.mask = (h [q]).cg.guarded ⟨0, false⟩ ∧
      (h [q]).cg.ready = [] ∧ (h [q]).cg.parked = []) ∧
    ((h []).cg.handler = some ⟨0xFFFFFFFF, [], []⟩ ∧ (h []).cg.parked = []) := by
  refine ⟨pred_now ?_, ?_⟩ <;> and_intros <;> decide +kernel

/-- Traps: a handler outside handler mode, handler mode, no handler, no machine check recorded; the causes of the wide
add; the modes of tret and halt. -/
theorem witness_traps :
    let b := grp stTrap fun g => { g with nv := 200, uninit := true, vtag := [(32 * 8 + 31, true)] }
    stTrap.cg.handler = none ∧ stTrap.ct.tvec ≠ 0 ∧ stTrap.lanes ⟨0, false⟩ = 0 :: (List.range 32).drop 1 ∧
    stTrap.lanes ⟨0, true⟩ = [] ∧ stTrap.predFine 0 ∧ stHandler.cg.handler ≠ none ∧ st.ct.tvec = 0 ∧
    (stHandler.part (stHandler.grid stHandler.ct.grid).part).mcstat = 0 ∧
    b.predFine 0 ∧ (b.cg.handler = none ∧ b.ct.tvec ≠ 0 ∧ b.cg.nv ≤ 254) ∧
    (b.lanes ⟨0, false⟩ = 0 :: (List.range 32).drop 1 ∧ (lanesAre b 0x80000000).lanes ⟨0, false⟩ = [31] ∧
      b.cg.vTagged 8 31 = true) ∧
    stTrap.cg.sup = false ∧ stHandler.cg.handler = some ⟨0xFFFFFFFF, [], []⟩ ∧
    (grp st fun g => { g with sup := true }).cg.sup = true := by
  refine ⟨?_, ?_, ?_, ?_, pred_now ?_, ?_, ?_, ?_, pred_now ?_, ?_⟩ <;> and_intros <;> decide +kernel

/-- cvset, vote and yield name p7 and s63. -/
theorem witness_convergence :
    st.predFine 7 ∧ st.fine ⟨7, true⟩ [opS 63 false false] ∧ st.fine ⟨7, false⟩ [] := by
  refine ⟨pred_now ?_, fine_now ?_, fine_now ?_⟩ <;> and_intros <;> decide +kernel

/-- Semaphores: the last one of 64; sums of 0xFFFF, 0x10000, 0 and -1; a value at the threshold and one below it, with a limit
reached and none. -/
theorem witness_semaphores :
    let s (v : Half) := stTrap.setCt (stTrap.ct.setSem 63 v)
    let b := st.setCore 0 { st.core 0 with batons := [⟨1, 1024, 1, [0]⟩] }
    st.fine ⟨0, false⟩ [opK 63] ∧ st.cg.run.mask ≠ 0 ∧ st.releaseStop .t 0 = none ∧
    (((s 0xFFFE).ct.sem 63).toNat + (1 : BitVec 16).toInt = 0xFFFF ∧ ((s 0xFFFF).ct.sem 63).toNat + (1 : BitVec 16).toInt = 0x10000) ∧
    (((s 1).ct.sem 63).toNat + (0xFFFF : BitVec 16).toInt = 0 ∧ ((s 0).ct.sem 63).toNat + (0xFFFF : BitVec 16).toInt = -1) ∧
    ((s 1).cg.handler = none ∧ (s 1).ct.tvec ≠ 0) ∧ ((1 : BitVec 16).toNat ≤ ((s 1).ct.sem 63).toNat) ∧
    (b.cg.deferred.isNone = true ∧ b.batonPending .t 0 = true ∧ b.lanes ⟨0, false⟩ ≠ []) ∧
    ({ grp st fun g => { g with wtimeout := 1, run := { g.run with since := some 0 } } with now := 1 } : State).cg.wtimeout ≠ 0 := by
  refine ⟨fine_now ?_, ?_⟩ <;> and_intros <;> decide +kernel

/-- Barriers: the team's one group, idle, pending and completed; the cluster's rectangle of one core, and one beyond it. -/
theorem witness_barriers :
    let a := grp st fun g => { g with barT := .completed, barX := .completed }
    let p := grp st fun g => { g with barT := .pending, barX := .pending }
    let w := putS stTrap 63 1
    st.predFine 0 ∧ st.cg.run.mask ≠ 0 ∧ st.cur ∈ st.liveGroups st.cg.team ∧ st.releaseStop .t 0 = none ∧
    (a.cur ∈ a.liveGroups a.cg.team ∧ a.cg.barT = .completed ∧ a.cg.barX = .completed) ∧
    (p.cur ∈ p.liveGroups p.cg.team ∧ p.cg.barT = .pending ∧ p.cg.barX = .pending) ∧
    (∀ h ∈ st.liveGroups st.cg.team, ∀ q ∈ (st.group h).allParked, q.why ≠ .team false) ∧
    st.fine ⟨0, false⟩ [opS 63 false true] ∧
    ((st.cg.sreg 63).toNat = 0 ∧ Rect.ofWord (st.cluster st.ct.cluster).rect = ⟨0, 0, 0, 0⟩ ∧ coreX st.coreId = 0 ∧
      coreY st.coreId = 0) ∧
    st.releaseStop .x 0 = none ∧
    (Rect.ofWord (w.cg.sreg 63) = ⟨1, 0, 0, 0⟩ ∧ w.cg.handler = none ∧ w.ct.tvec ≠ 0 ∧ w.lanes ⟨0, false⟩ ≠ []) := by
  refine ⟨pred_now ?_, ?_, ?_, ?_, ?_, ?_, ?_, fine_now ?_, ?_⟩ <;> and_intros <;> decide +kernel

/-- waitm on the word at 0x20040, and launch of the record there. -/
theorem witness_waitm_launch :
    let s := stMem
    let va := s.cg.spair 10 % 2 ^ 48
    let l : LaneAt := ⟨none, va, 4, s.xlate va { Need.read with plain := true }⟩
    let ls := s.uniAt va 64 8
    s.fine ⟨0, false⟩ [opS 63 false true, opS 10 true true, opS 62 false false] ∧ s.cg.run.mask ≠ 0 ∧ va % 64 = 0 ∧
    (∀ x ∈ [l], s.readable x) ∧ (∀ q ∈ s.cg.allParked, q.isWaitm = false) ∧ s.cg.monitor = none ∧
    s.fine ⟨0, false⟩ [opS 10 true true, opS 63 false false] ∧ (∀ x ∈ ls, s.readable x) := by
  refine ⟨fine_now ?_, ?_, ?_, readable_all ?_, ?_, ?_, fine_now ?_, readable_all ?_⟩ <;> and_intros <;> decide +kernel

/-- Control registers: %prec at 8 and 231, %round at 4, %fflags, %ssp, %tcause and %specmiss at their largest legal values, a
64-bit one in a pair, in supervisor mode. -/
theorem witness_control_registers :
    let s (v : Nat) := putS (grp st fun g => { g with sup := true }) 62 v
    let read (v : Nat) : Bool := ((s v).lanes ⟨0, false⟩).all fun l => (s v).cg.readInt true false 62 l == v
    (s 8).fine ⟨0, false⟩ [opInt true 62 true true] ∧ (s 231).fine ⟨0, false⟩ [opInt true 62 false true] ∧
    (s 231).fine ⟨0, false⟩ [opInt false 255 false false] ∧ (s 231).cg.sup = true ∧
    (read 8 ∧ read 231 ∧ read 4 ∧ read 0x1F1F ∧ read (2 ^ 20 - 1) ∧ read (2 ^ 14 - 1) ∧ read 1) := by
  refine ⟨fine_now ?_, fine_now ?_, fine_now ?_, ?_⟩ <;> and_intros <;> decide +kernel

/-! Witnesses of the commands: queues one below their capacity, operand ranges that end with the data area. -/

/-- A queued command of the group on tile 0. -/
def stCmd : Cmd :=
  { seq := 0, group := 1, team := 1, pc := 0, sync := ⟨0, 0, 0, 0⟩, op := .zero 0, started := false, mute := false,
    served := [], moved := 0 }
/-- The core with seven tile commands, fifteen copies and three runs queued, and a Warm-up Array configuration. -/
def stBusy : State :=
  st.setCc { st.cc with
    tileQ := List.replicate 7 stCmd, copyQ := List.replicate 15 stCmd, runQ := List.replicate 3 stCmd,
    wuaCfg := some (1 :: List.replicate 1023 0) }

/-- mma with its B operand at the end of the data area, dense, sparse and from the Warm-up Array. -/
theorem witness_matrix :
    let s := putS stBusy 63 (384 * 768 - 8192)
    let o : MmaOps := ⟨0, 0, 63, 0, false, false, false, false, 0, 0, ⟨63, 1, 63, 1⟩⟩
    let w : MmaOps := { o with wua := true }
    s.fine ⟨0, false⟩ ((([] : List Opnd) ++ syncOps o.sync ++ [opS 63 false true] ++ [opS 0 false true])) ∧
    s.fine ⟨0, false⟩ ([opS 0 false true] ++ syncOps o.sync ++ [opS 63 false true] ++ []) ∧
    s.lanes ⟨0, false⟩ ≠ [] ∧ s.lanes ⟨0, true⟩ = [] ∧
    Claims.mayQueue s (.mma .f16 false o 0 286720 0) 8 (mmaAreas .f16 false o 0 286720 0) ∧
    Claims.mayQueue s (.mma .f16 false w 0 286720 0) 8 (mmaAreas .f16 false w 0 286720 0) ∧
    Claims.mayQueue s (.mma .e4m3 true o 0 0 286720) 8 (mmaAreas .e4m3 true o 0 0 286720) ∧ s.cc.tileQ.length = 7 := by
  refine ⟨fine_now ?_, fine_now ?_, ?_, ?_, queue_now ?_, queue_now ?_, queue_now ?_, ?_⟩ <;> and_intros <;> decide +kernel

/-- acc.zero, acc.ld and acc.st of packed binary32 rows at the end of the data area; copy of 4 bytes to its last word. -/
theorem witness_moves_of_tiles :
    let s := putS stBusy 63 (384 * 768 - 16384)
    let u := putS (putS stBusy 63 (384 * 768 - 4)) 10 0x20040
    s.fine ⟨0, false⟩ (syncOps ⟨63, 1, 63, 1⟩ ++ [opS 63 false true]) ∧ Claims.mayQueue s (.zero 0) 8 [] ∧
    Claims.mayQueue s (.accLd 0 278528 .f32 false 256) 8 [⟨278528, 16384, false⟩] ∧
    Claims.mayQueue s (.accSt 0 278528 .f32 false 256) 8 [⟨278528, 16384, true⟩] ∧ s.cc.tileQ.length = 7 ∧
    u.fine ⟨0, false⟩ (opS 0 false true :: (syncOps ⟨0, 0, 0, 0⟩ ++ [opS 0 false true, opS 10 true true, opS 63 false true])) ∧
    Claims.mayQueue u (.copy .gs 0x20040 294908 0 0 4 1) 4 [⟨294908, 4, true⟩] ∧
    (∀ n ∈ [0x20040, (u.cg.sreg 63).toNat, 0, 0, 4], n % 4 = 0) ∧ u.cc.copyQ.length = 15 := by
  refine ⟨fine_now ?_, queue_now ?_, queue_now ?_, queue_now ?_, ?_, fine_now ?_, queue_now ?_, ?_⟩ <;> and_intros <;> decide +kernel

/-- Eight bytes at an address, read through the map of the lowest 2 GiB. -/
def at8 (a : Nat) : LaneAt := ⟨none, a, 8, .ok 0 a 0x2000 0x61F 0x80000000⟩

def tableLanes : List LaneAt :=
  [at8 0x20040, at8 0x20048, at8 0x20050, at8 0x20058, at8 0x20060, at8 0x20068, at8 0x20070, at8 0x20078, at8 0x20080,
    at8 0x20088, at8 0x20090, at8 0x20098, at8 0x200A0, at8 0x200A8, at8 0x200B0, at8 0x200B8]

/-- The state of the wprog witness. -/
def stProg : State := putS stMem 63 63

/-- The sixteen descriptors at 0x20040 are legal. -/
theorem table_reads : ∀ l ∈ tableLanes, (BitVec.ofNat 64 (stProg.readAt l)).toNat / 2 ^ 38 = 0 := by decide +kernel

theorem witness_program_table :
    stProg.uniAt 0x20040 128 8 = tableLanes ∧
    ∀ x ∈ tableLanes.map fun l => BitVec.ofNat 64 (stProg.readAt l), x.toNat / 2 ^ 38 = 0 := by
  refine ⟨by decide +kernel, fun x hx => ?_⟩
  obtain ⟨l, hl, rfl⟩ := List.mem_map.1 hx
  exact table_reads l hl

/-- wprog of program 63 with a table of descriptors at 0x20040 and without one; wlaunch of a registered program, its queries
at 0x20040, the intake full but for the lanes. -/
theorem witness_programs :
    let s := stProg
    let ls := s.uniAt (s.cg.spair 10 % 2 ^ 48) 128 8
    let u := s.setCtx s.ctxKey { s.ctx s.ctxKey with progs := [(63, ⟨0x20000, 1, List.replicate 16 0, 0⟩)] }
    s.fine ⟨0, false⟩ [opS 10 true true, opS 10 true true, opS 63 false true] ∧ s.lanes ⟨0, false⟩ ≠ [] ∧
    s.lanes ⟨0, true⟩ = [] ∧ ((s.cg.sreg 63).toNat = 63 ∧ s.cg.spair 10 % 2 ^ 48 % 64 = 0 ∧ s.cg.spair 12 = 0) ∧
    s.cg.spair 10 % 2 ^ 48 = 0x20040 ∧ (∀ l ∈ ls, s.readable l) ∧ s.cg.monitor = none ∧
    u.fine ⟨0, false⟩ (syncOps ⟨63, 1, 63, 1⟩ ++ [opS 63 false true, opV 6 true true]) ∧
    (Tbl.get Prog.none (u.ctx u.ctxKey).progs 63).words ≠ 0 ∧ (∀ l ∈ u.lanes ⟨0, false⟩, u.vpair48 6 l % 64 = 0) ∧
    u.releaseStop .t 0 = none ∧ u.cc.intakeLoad + (u.lanes ⟨0, false⟩).length ≤ 1024 := by
  refine ⟨fine_now ?_, ?_, ?_, ?_, ?_, readable_all ?_, ?_, fine_now ?_, ?_⟩ <;> and_intros <;> decide +kernel

/-- wtake to the last four v registers of two records in chunk 5, wpoll, and wcancel with a walk away and without. -/
theorem witness_queues :
    let x := st.doomed st.coreId st.cg.team none (some 3)
    let q := st.setTeam 1 (st.ct.setCq 3 { Cq.none with held := 2, chunks := [5] })
    let a := st.setWalk 5 { Walk.none with live := true, wait := .away 2, team := 1, group := 1, queue := 3 }
    st.fine ⟨0, false⟩ [opS 63 false false, opRun 252 4 false] ∧ st.fine ⟨0, false⟩ [opS 63 false false, opS 63 false false] ∧
    (q.ct.cq 3).held = 2 ∧ ((List.range 2).all fun i => !q.memPoisoned (q.recordAddr 0 (q.ct.cq 3) i) 16) = true ∧
    st.fine ⟨0, false⟩ [opS 63 false false] ∧ (∀ w ∈ x.contexts, (st.walk w).relayed = none) ∧
    (a.doomed a.coreId a.cg.team none (some 3)).contexts = [5] ∧ (a.walk 5).relayed = some 2 := by
  refine ⟨fine_now ?_, fine_now ?_, ?_, ?_, fine_now ?_, ?_⟩ <;> and_intros <;> decide +kernel

/-- wuacfg of the last 1,024 bytes of the data area; wuarun of a descriptor of one beat with three runs queued. -/
theorem witness_warmup :
    let s := putS st 63 (384 * 768 - 1024)
    let u := stBusy.setCc { stBusy.cc with scr := [(68, 1)] }
    let v := putS u 63 64
    let l := v.cc.scrBytes (v.ct.base + 64) 64
    s.fine ⟨0, false⟩ [opS 63 false true, opS 63 false false] ∧ s.lanes ⟨0, false⟩ ≠ [] ∧ s.lanes ⟨0, true⟩ = [] ∧
    (wrapTo 32 ((s.cg.sreg 63).toNat + (0 : Int)) % 8 = 0 ∧ wrapTo 32 ((s.cg.sreg 63).toNat + (0 : Int)) + 1024 = s.ct.d) ∧
    s.cc.lockAt (s.ct.base + 293888) 1024 true = none ∧ s.scrError s.coreId s.ct.base [(293888, 1024)] = none ∧
    s.cc.runQ = [] ∧ v.fine ⟨0, false⟩ (syncOps ⟨0, 0, 0, 0⟩ ++ [opS 63 false true]) ∧
    (∀ e ∈ runUnits (v.cc.wuaCfg.getD []) (RunDesc.of l), e.1 % 32 = 0) ∧
    v.scrError v.coreId v.ct.base [(64, 64)] = none ∧
    Claims.mayQueue v (.run l) 1 (runAreas (v.cc.wuaCfg.getD []) (RunDesc.of l)) ∧
    runIllegal v.cc.wuaCfg l (RunDesc.of l) = false ∧ v.cc.runQ.length = 3 := by
  refine ⟨fine_now ?_, ?_, ?_, ?_, ?_, ?_, ?_, fine_now ?_, ?_, ?_, queue_now ?_, ?_⟩ <;> and_intros <;> decide +kernel

/-- A run of one beat that the Warm-up Array takes, of a configuration that passed its checks. -/
theorem witness_warmup_run :
    let l := (List.replicate 4 0 ++ [1] ++ List.replicate 59 0 : List Byte)
    let c := { stCmd with op := .run l }
    let s := stBusy.setCc { stBusy.cc with tileQ := [], copyQ := [], runQ := [c] }
    s.active 0 = true ∧ (s.arrayPick (s.quadKey 0)).map (fun p => (p.1, p.2.1)) = some (0, c) ∧
    (s.core 0).wuaCfg.map blockChecks = some [] ∧ (s.badBeat 0 0 (1 :: List.replicate 1023 0) (RunDesc.of l)).isNone = true ∧
    (s.copyStarts 0).isNone = true := by
  and_intros <;> decide +kernel

/-- A ring of the team, and one unbound with the largest legal bind: one slot that ends with the data area. -/
theorem witness_rings :
    let s := st.setRing 3 { Ring.none with bound := true, team := 1, slots := 64, size := 1, filled := 64 }
    let b := putS (putS st 62 (384 * 768 - 1024)) 63 (63 * 2 ^ 16)
    let cfg := (b.cg.sreg 63).toNat
    s.lanes ⟨0, false⟩ ≠ [] ∧ s.fine ⟨0, false⟩ [opS 63 false false] ∧ ((s.ring 3).bound = true ∧ (s.ring 3).team = s.cg.team) ∧
    b.fine ⟨0, false⟩ [opS 63 false true, opS 62 false true] ∧ (b.ring 3).bound = false ∧
    (cfg / 2 ^ 6 % 4 = 0 ∧ cfg / 2 ^ 12 % 16 = 0 ∧ cfg / 2 ^ 24 = 0 ∧ cfg / 2 ^ 16 % 256 = b.ct.nsem - 1) ∧
    ((b.cg.sreg 62).toNat % 64 = 0 ∧ (b.cg.sreg 62).toNat + 1 * (1024 * 1) = b.ct.d) ∧ s.fine ⟨0, false⟩ [] ∧
    s.fine ⟨0, false⟩ [opS 62 false true, opS 63 false false] ∧ s.slotLock (s.ring 3) (min 0 64) = none ∧
    s.releaseStop .t 0 = none := by
  refine ⟨?_, fine_now ?_, ?_, fine_now ?_, ?_, ?_, ?_, fine_now ?_, fine_now ?_, ?_⟩ <;> and_intros <;> decide +kernel

/-! Witnesses of the Walker statements: walk 0 of core 0, at the first of the two words of its program. -/

/-- Walk 0 runs; its partition has free completion chunks. -/
def stWalk : State :=
  let s := { State.reset.withWalker 0 with curWalk := 0 }
  s.setPart 0 { s.part 0 with cqfree := 1 }
/-- The same with w[r] = v. -/
def walkReg (s : State) (r v : Nat) : State := s.setWalk 0 ((s.walk 0).setReg r v)
/-- With bytes in node buffer n, and with a query block, both as 32-bit words. -/
def nodeWords (s : State) (n : Nat) (ws : List Nat) : State :=
  s.setWalk 0 { s.walk 0 with nb := Tbl.setBytes (s.walk 0).nb (128 * n) (ws.flatMap (leBytes 4)) }
def queryWords (s : State) (ws : List Nat) : State := s.setWalk 0 { s.walk 0 with qb := ws.flatMap (leBytes 4) }
/-- With records held back, and with a stack of n entries of which k are resident. -/
def heldRecords (s : State) (n : Nat) : State := s.setWalk 0 { s.walk 0 with emits := List.replicate n ⟨1, 2, 3, 0⟩ }
def stackOf (s : State) (n k : Nat) : State := s.setWalk 0 { s.walk 0 with stack := List.replicate n 5, resident := k }

/-- A node whose child 0 is the box from 0 to 1 on each axis (R320, R322). -/
def boxNode : List Nat := [0, 0, 0, 0x0000017F, 0x01000000, 0x00000101]
/-- The ray from (0, 0, -1) along z with tmin 0; 1/z as given. -/
def rayZ (z r : Nat) : List Nat := [0, 0, z, 0, 0, 0x3F800000, 0, 0, r, 0, 0, 0, 0, 0, 0, 0]
/-- A leaf of one triangle, (-1, -1, 0), (1, -1, 0), (0, 1, 0) (R321, R323). -/
def triNode : List Nat :=
  [0xBF800000, 0xBF800000, 0, 0x3F800000, 0xBF800000, 0, 0, 0x3F800000, 0] ++ List.replicate 19 0 ++ [0x00020100, 0, 0, 1]

/-- Scalar operations, wld at the end of the query block and beyond, branches to the last word and beyond. -/
theorem witness_walk_scalars :
    let s := stWalk
    Claims.walkOn s ∧ Claims.walkRoom s (s.cw.emits.length + 1) ∧ s.cw.inside (s.cw.pc.toNat + 4 * 1) = true ∧
    s.cw.inside (s.cw.pc.toNat + 4 * 2) = false ∧ s.cw.inside (s.cw.pc.toNat + 4 * (-1)) = false ∧
    ((walkReg s 3 (2 ^ 63)).cw.reg 3 % 2 ^ 63 = 0 ∧ (walkReg s 3 (2 ^ 63)).cw.reg 3 / 2 ^ 63 % 2 = 1) ∧
    s.cw.qb.length = 64 ∧ ((s.cw.reg 0 + 56) % 2 ^ 64 + 8 = 64 ∧ (s.cw.reg 0 + 60) % 2 ^ 64 + 8 > 64) := by
  unfold Claims.walkOn Claims.walkRoom
  decide +kernel

/-- ndec: 31 fields to w1 to w31 that end with the node, none, and one beyond the node. -/
theorem witness_walk_decode :
    let desc (first stride width count : Nat) : Nat := first + 2 ^ 10 * stride + 2 ^ 20 * (width - 1) + 2 ^ 27 * count
    (bits (desc 0 32 32 31) 31 27 = 31 ∧ 1 + 31 ≤ 32 ∧ bits (desc 64 32 32 30) 9 0 + (30 - 1) * 32 + 32 = 1024) ∧
    bits (desc 0 0 1 0) 31 27 = 0 ∧ bits (desc 96 32 32 30) 9 0 + (30 - 1) * 32 + 32 = 1056 ∧ 32 < 2 + 31 := by
  decide +kernel

/-- The walk's queue without room for the eight records held; device 1 by port 0, named by w2. -/
def stAway : State :=
  let b := heldRecords stWalk 8
  { walkReg (b.setPart 0 { b.part 0 with peermap := [(1, 0x11)] }) 2 1 with
    mgmt := { b.mgmt with ualUp := [(0, true)], ualEnable := [(0, true)] } }

/-- nfetch of the line at 0x20000 of this device, of pointers with a reserved bit, and of a line of device 1. -/
theorem witness_node_fetch :
    (∃ bs, stWalk.walkRead stWalk.curWalk 0x20000 128 = .bytes bs) ∧
    (0x20000 / 2 ^ 52 = 0 ∧ 0x20000 % 2 ^ 7 = 0 ∧ (0x20000 / 2 ^ 51 % 2 = 0)) ∧
    (2 ^ 51 / 2 ^ 51 % 2 = 1 ∧ 2 ^ 51 / 2 ^ 48 % 8 = stWalk.mgmt.devnum.toNat % 8) ∧ (2 ^ 52 / 2 ^ 52 ≠ 0) ∧ (2 ^ 6 % 2 ^ 7 ≠ 0) ∧
    (∀ r ∈ [15, 16], (walkReg stAway r (2 ^ 51 + 2 ^ 48)).cw.reg r = 2 ^ 51 + 2 ^ 48) ∧
    (stAway.mgmt.devnum.toNat % 8 = 0 ∧ stAway.spillFault stAway.curWalk = none ∧
      Claims.walkRoom stAway stAway.cw.emits.length ∧ Claims.walkRoom stAway (stAway.cw.emits.length + 1) ∧
      Claims.wayTo stAway 1 0) := by
  refine ⟨⟨_, rfl⟩, ?_⟩
  unfold Claims.walkRoom Claims.wayTo
  decide +kernel

/-- tbox: a ray that hits child 0 of the node, and one whose reciprocal is infinite at an edge of difference 0. -/
theorem witness_box_test :
    let node := (nodeWords stWalk 0 boxNode).cw.node 0
    let far := Enc.f32.decode 0x41200000
    let ray := (rayZ 0xBF800000 0x3F800000).flatMap (leBytes 4)
    let edge := (rayZ 0 0x7F800000).flatMap (leBytes 4)
    let kind (x : Slab) : Option Bool := match x with
      | .span _ _ partial_ => some partial_
      | .miss => none
    (∀ c < 8, kind (boxRay ray node far c) ≠ some true) ∧ kind (boxRay ray node far 0) = some false ∧
    kind (boxRay edge node far 0) = some true ∧ Claims.walkOn stWalk := by
  unfold Claims.walkOn
  decide +kernel

/-- A test whose det and t are stated does not depend on the free value. -/
theorem triDecide_stated (f : Nat) {u v w : Edge} {a b c : Ext} {tmin tfar : Val}
    (hd : (u.v.add v.v).add w.v ≠ .unstated)
    (ht : (quotient32 (((u.v.mul a).add (v.v.mul b)).add (w.v.mul c)) ((u.v.add v.v).add w.v)).isSome = true) :
    triDecide f u v w a b c tmin tfar = triDecide 0 u v w a b c tmin tfar := by
  obtain ⟨q, hq⟩ := Option.isSome_iff_exists.1 ht
  cases h : (u.v.add v.v).add w.v with
  | unstated => exact absurd h hd
  | fin d => simp only [triDecide, h, h ▸ hq, Option.getD_some]
  | inf n => simp only [triDecide, h, h ▸ hq, Option.getD_some]

/-- ttri: a hit and a miss whatever the free value, beyond the count, an index of 8, a count of 5. -/
theorem witness_triangle_test :
    let node := (nodeWords stWalk 1 triNode).cw.node 1
    let vert (i axis : Nat) : Val := f32At node (12 * byteAt node (0x70 + i) + 4 * axis)
    let far := Enc.f32.decode 0x41200000
    let ray := (rayZ 0xBF800000 0x3F800000).flatMap (leBytes 4)
    (byteAt node 0x7C % 8 = 1 ∧ ∀ i < 3, byteAt node (0x70 + i) < 8) ∧
    (match triTest 0 ray (vert 0) (vert 1) (vert 2) far with | .hit _ _ _ => true | _ => false) = true ∧
    (∀ f, triTest f ray (vert 0) (vert 1) (vert 2) far = triTest 0 ray (vert 0) (vert 1) (vert 2) far) ∧
    (∀ f, triTest f ray (vert 0) (vert 1) (vert 2) (Enc.f32.decode 0x7FC00000) = .miss) ∧
    (byteAt ((nodeWords stWalk 1 (triNode.take 31 ++ [5])).cw.node 1) 0x7C % 8 = 5 ∧
      byteAt ((nodeWords stWalk 1 (triNode.take 28 ++ [8, 0, 0, 1])).cw.node 1) 0x70 = 8) := by
  refine ⟨by decide +kernel, by decide +kernel, fun f => ?_, fun f => ?_, by decide +kernel⟩ <;> dsimp only [triTest] <;> split
  · rfl
  · exact triDecide_stated f (by decide +kernel) (by decide +kernel)
  · rfl
  · rename_i h
    exact absurd (by decide +kernel) h

/-- tkey: 16 separators, and 17. -/
theorem witness_tkey :
    (walkReg stWalk 2 16).cw.reg 2 = 16 ∧ Claims.walkOn (walkReg stWalk 2 16) ∧ (walkReg stWalk 2 17).cw.reg 2 = 17 ∧
    Claims.walkRoom (walkReg stWalk 2 17) 1 := by
  unfold Claims.walkOn Claims.walkRoom
  decide +kernel

/-- The stack: 15 and 16 resident entries, 39 and 40 entries, an empty stack, one and two resident entries. -/
theorem witness_walk_stack :
    let a := stackOf stWalk 15 15
    let b := stackOf stWalk 39 16
    let c := stackOf stWalk 40 16
    let d := stackOf stWalk 17 1
    Claims.walkOn a ∧ (a.cw.stack.length < 40 ∧ a.cw.resident = 15) ∧ Claims.walkOn b ∧
    (b.cw.stack.length = 39 ∧ b.cw.resident = 16 ∧ b.spillSlot b.curWalk = some 0) ∧
    (c.cw.stack.length = 40 ∧ c.cw.hosted = none ∧ c.queueRoom c.cw.team c.cw.queue (c.cw.emits.length + 1) = true) ∧
    stWalk.cw.stack = [] ∧ (stackOf stWalk 2 2).cw.stack = [5] ++ [5] ∧ (stackOf stWalk 1 1).cw.stack = [] ++ [5] ∧
    (d.cw.stack = List.replicate 16 5 ++ [5] ∧ d.cw.resident ≤ 1 ∧ d.spillSlot d.curWalk = some 0 ∧
      d.scrPoisoned (d.curWalk / 64) (0 + 8 * ((List.replicate 16 (5 : DWord)).length - 1)) 8 = false) := by
  unfold Claims.walkOn
  decide +kernel

/-- Releases: 7 and 8 records held, a queue with room and one without, a device with a port and this one. -/
theorem witness_walk_releases :
    let a := heldRecords stWalk 7
    let b := heldRecords stWalk 8
    let full := b.setPart 0 { b.part 0 with cqfree := 0 }
    let away := stAway
    Claims.walkOn a ∧ a.cw.emits.length = 7 ∧ Claims.walkOn b ∧ (b.cw.emits.length = 8 ∧ b.cw.live = true) ∧
    (b.cw.hosted = none ∧ b.queueRoom b.cw.team b.cw.queue b.cw.emits.length = true ∧ b.spillFault b.curWalk = none) ∧
    b.cw.reg 0 % 8 = b.mgmt.devnum.toNat % 8 ∧
    (full.cw.hosted = none ∧ full.queueRoom full.cw.team full.cw.queue full.cw.emits.length = false) ∧
    (away.cw.reg 2 % 8 ≠ away.mgmt.devnum.toNat % 8 ∧ away.spillFault away.curWalk = none ∧ away.cw.hosted = none ∧
      away.cw.due = none ∧ away.queueRoom away.cw.team away.cw.queue away.cw.emits.length = true ∧
      Claims.wayTo away (away.cw.reg 2 % 8) 0) := by
  unfold Claims.walkOn Claims.wayTo
  decide +kernel
/-! Witnesses of the steps that no instruction makes. -/

def parkedAt (why : Why) : Parked := ⟨{ Path.none with id := 5, pc := 0x10004, mask := 0xF, since := some 0 }, why⟩
/-- The group with one parked path and a limit of one cycle, at time 1. -/
def stParked (why : Why) : State :=
  { grp st fun g => { g with parked := [parkedAt why], wtimeout := 1 } with now := 1 }

/-- A report with a handler; 64 instructions issued; 32 passes; limits that have just passed; a halted path. -/
theorem witness_group_events :
    let r : Report := ⟨0x24, 0, 0, 0, 0⟩
    let s := grp stTrap fun g => { g with reports := [r], turn := 64, passed := 32 }
    let w := stParked (.waitm 9 0)
    let m := stParked (.sem 63)
    ((s.group 1).reports = r :: [] ∧ (s.group 1).live = true ∧ (s.group 1).handler = none ∧ (s.group 1).run.mask ≠ 0 ∧
      { s with cur := 1 }.ct.tvec ≠ 0) ∧
    64 ≤ (s.group 1).turn ∧ 32 ≤ (s.group 1).passed ∧
    (parkedAt (.sem 63) ∈ (m.group 1).parked ∧ (m.group 1).live = true ∧ (m.group 1).halted = false ∧
      m.active (m.team (m.group 1).team).core = true ∧ (m.group 1).wtimeout ≠ 0 ∧
      ((parkedAt (.sem 63)).path.since.getD m.now) + (m.group 1).wtimeout.toNat ≤ m.now) ∧
    (parkedAt (.waitm 9 0) ∈ (w.group 1).parked ∧ (w.group 1).halted = false ∧
      w.active (w.team (w.group 1).team).core = true ∧ 0 + (w.group 1).wtimeout.toNat ≤ w.now) ∧
    (∀ p ∈ (w.group 1).allParked, p.isWaitm = true → p = parkedAt (.waitm 9 0)) ∧
    parkedAt .halt ∈ ((stParked .halt).group 1).parked := by
  and_intros <;> decide +kernel

/-- The Hurdle: one team whose group is pending, before its arrival and after it. -/
theorem witness_hurdle :
    let s := { grp st fun g => { g with barX := .pending } with
      clusters := [(0, { Cluster.none with live := true, teams := [1], hurdle := true, openRect := some 0 })] }
    let u := s.setTeam 1 { s.team 1 with arrivedX := true }
    ((s.team 1).live = true ∧ (s.team 1).arrivedX = false ∧ (s.cluster (s.team 1).cluster).openRect = some 0 ∧
      s.liveGroups 1 ≠ []) ∧
    s.active (s.team 1).core = true ∧ (∀ v ∈ (u.cluster 0).teams, u.active (u.team v).core = true) ∧
    ({ s with parts := [] } : State).active (({ s with parts := [] } : State).team 1).core = false ∧
    (∀ g ∈ s.liveGroups 1, (s.group g).barX = .pending) ∧ (u.cluster 0).openRect = some 0 ∧
    (∀ t ∈ (u.cluster 0).teams, (u.team t).live = true → (Rect.ofWord 0).has (u.team t).core = true →
      (u.team t).arrivedX = true ∨ u.liveGroups t = []) ∧
    (∀ t ∈ (u.cluster 0).teams, ∀ g ∈ u.liveGroups t, ∀ q ∈ (u.group g).allParked, q.why ≠ .rect (some false)) := by
  and_intros <;> decide +kernel

/-- A line that is not well formed (31 instructions with tails), PCs off its heads, and a head with a set reserved bit. -/
theorem witness_arrival :
    let bad := (State.reset.withCore 0 []).placed (.group 1) (halfBytes ([0xF800] ++ List.replicate 31 0x3901))
    let s (head : Half) (pc : Addr) : State :=
      grp ({ State.reset.withCore head [0] with cur := 1, curN := 1 }) fun g => { g with run := { g.run with pc := pc } }
    lineWellFormed ([0xF800] ++ List.replicate 31 0x3901) = false ∧
    (∃ bs x, { bad with cur := 1 }.fetchBytes = .ok (bs, x)) ∧ (∃ bs x, (s 0x0040 0x10002).fetchBytes = .ok (bs, x)) ∧
    lineWellFormed (lineOfOne 0x0441 [0x0100]) = true ∧ lineN (lineOfOne 0x0441 [0x0100]) = 1 ∧
    (0x10003 % 64 % 2 = 1 ∧ 0x10000 % 64 = 0 ∧ 1 < 0x10004 % 64 / 2 ∧ 0x10002 % 64 / 2 = 1) ∧
    decodeAt (lineOfOne 0x0441 [0x0100]) 1 = .error ⟨0x0441, 2⟩ := by
  refine ⟨?_, fetch_now ?_, fetch_now ?_, ?_, ?_, ?_, rfl⟩ <;> decide +kernel

/-- The handler of ArrivalTraps and UNASSIGNED_POSITION; a live walk that may issue, and the ends of the unassigned opcodes. -/
theorem witness_unassigned :
    (stTrap.cg.handler = none ∧ stTrap.ct.tvec ≠ 0) ∧ (stWalk.cw.live = true ∧ stWalk.cw.wait = .ready) ∧
    (stWalk.cw.hosted = none ∧ stWalk.cw.due = none ∧ stWalk.queueRoom stWalk.cw.team stWalk.cw.queue (stWalk.cw.emits.length + 1) = true) ∧
    ((0x37FFFFFF : BitVec 32).toNat / 2 ^ 26 = 0x0D ∧ (0xB4000000 : BitVec 32).toNat / 2 ^ 26 = 0x2D) := by
  and_intros <;> decide +kernel

/-- Commands: an operation at the head of a queue of core 0. -/
def cmdOf (op : CmdOp) : Cmd := { stCmd with op := op, started := true, sync := ⟨63, 15, 63, 255⟩ }
def stTile (op : CmdOp) : State :=
  let s := st.setCc { st.cc with tileQ := [cmdOf op] }
  (s.setQuad 0 { s.quad 0 with running := some (0, 0) }).setTeam 1 { s.team 1 with sems := [(63, 0xFFF0)] }

/-- A tile command, a copy behind four started ones less one, and a run, their wait at its threshold. -/
theorem witness_command_start :
    let c : Cmd := { cmdOf (.zero 0) with started := false, sync := ⟨63, 15, 63, 255⟩ }
    let s := (st.setCc { st.cc with tileQ := [c] }).setTeam 1 { st.team 1 with sems := [(63, 255)] }
    let k : Cmd := { c with op := .copy .ss 0 64 0 0 4 1, seq := 9 }
    let u := (st.setCc { st.cc with copyQ := List.replicate 3 { k with seq := 8, started := true } ++ [k] }).setTeam 1
      { st.team 1 with sems := [(63, 255)] }
    let r : Cmd := { c with op := .run (leBytes 64 0) }
    let v := (st.setCc { st.cc with runQ := [r] }).setTeam 1 { st.team 1 with sems := [(63, 255)] }
    (s.active 0 = true ∧ c.started = false ∧ c.sync.thr.toNat = ((s.team c.team).sem c.sync.waitk.toNat).toNat) ∧
    (s.core 0).tileQ = c :: [] ∧ (u.active 0 = true ∧ (∀ x ∈ (u.core 0).tileQ.head?, x.seq ≠ k.seq)) ∧
    (∀ x ∈ (u.core 0).copyQ, x.seq = k.seq → x = k) ∧ (u.core 0).copyQ.find? (fun x => !x.started) = some k ∧
    ((u.core 0).copyQ.filter fun x => x.started).length = 3 ∧
    ((∀ x ∈ (v.core 0).tileQ.head?, x.seq ≠ r.seq) ∧ ∀ x ∈ (v.core 0).copyQ, x.seq ≠ r.seq) ∧
    (v.arrayPick (v.quadKey 0)).isSome = true ∧
    (v.arrayPick (v.quadKey 0)).map (fun e => (e.1, e.2.1)) = some (0, r) := by
  and_intros <;> decide +kernel

/-- A started copy of four bytes of scratchpad to the word beside it, and a run that the Warm-up Array chose. -/
theorem witness_command_end :
    let c := cmdOf (.copy .ss 0 4 0 0 4 1)
    let s := st.setCc { st.cc with copyQ := [c] }
    let w := s.copyWords 0 c c.op.words (c.op.words - c.moved)
    let r := cmdOf (.run (leBytes 64 0))
    let v := (st.setCc { st.cc with runQ := [r] }).setQuad 0 { st.quad 0 with wuaRun := some (0, 0) }
    (s.core 0).copyQ.find? (fun x => x.seq == c.seq && x.started) = some c ∧
    s.hostWrites (· == .copy 0 c.seq) = false ∧ w.1.hostWrites (· == .copy 0 c.seq) = false ∧
    (s.active 0 = true ∧ s.copyWaits 0 c.seq = false ∧ c.moved ≤ c.op.words ∧ c.moved = 0) ∧
    (w.2 = (none, 0) ∧ w.1.copyWaits 0 c.seq = false) ∧
    (0 + 4 ≤ 4 ∧ s.scrPoisoned 0 ((s.team c.team).base + 0) 4 = false) ∧
    ((v.quad 0).wuaRun = some (0, r.seq) ∧ (v.core 0).runQ.find? (fun x => x.seq == r.seq) = some r ∧ v.active 0 = true ∧
      (v.fed 0 0).isNone = true ∧ (v.quad 0).streamErr.isNone = true ∧ (v.quad 0).stream = []) ∧
    (let e := v.setQuad 0 { v.quad 0 with streamErr := some 64 }
     (e.quad 0).streamErr = some 64 ∧ (e.group r.group).live = true) := by
  and_intros <;> decide +kernel

/-- Copies of a word in each direction, which no word stops, and one to the host, which waits for its write. -/
theorem witness_copies :
    let c (dir : CopyDir) (src dst : Nat) : Cmd := cmdOf (.copy dir src dst 0 0 4 1)
    let s (x : State) (c : Cmd) : State := x.setCc { x.cc with copyQ := [c] }
    let fine (x : State) (c : Cmd) (host : Bool) : Bool :=
      let s := s x c
      let w := s.copyWord 0 c 0
      (s.core 0).copyQ.find? (fun x => x.seq == c.seq && x.started) == some c && s.active 0 && !s.copyWaits 0 c.seq &&
        w.2.isNone && !w.1.copyWaits 0 c.seq && w.1.hostWrites (· == .copy 0 c.seq) == host
    fine st (c .ss 0 4) false = true ∧ fine st (c .sg 0 0x20040) false = true ∧ fine st (c .gs 0x20040 0) false = true ∧
    fine { st with mem := putAll st.mem [⟨0x2008, leBytes 8 0x61F⟩] } (c .gg 0x20040 0x80020080) false = true ∧ fine stHost (c .sg 0 0x80000040) true = true := by
  and_intros <;> decide +kernel

/-- The Matrix Engine: an mma before staging, with its operands staged ahead, at block 63 and complete; one that the Warm-up Array
feeds, with nothing to take while the next command stages ahead, and with its 63rd and its 64th row; zero, acc.ld and
acc.st. -/
theorem witness_matrix_events :
    let o : MmaOps := ⟨3, 0, 1, 0, false, false, false, false, 0, 0, ⟨63, 15, 63, 255⟩⟩
    let c := cmdOf (.mma .f16 false o 0 8192 0)
    let s := stTile c.op
    let rows := stageRows c.op
    let own := s.setQuad 0 { s.quad 0 with own := some ⟨List.replicate 16384 0, none⟩ }
    let at_ (n : Nat) := s.setQuad 0 { s.quad 0 with staged := true, cursor := n }
    let w := cmdOf (.mma .f16 false { o with wua := true } 0 8192 0)
    let f (n : Nat) : State :=
      let u := stTile w.op
      u.setQuad 0 { u.quad 0 with own := some ⟨List.replicate 8192 0, none⟩, rows := n, stream := List.replicate 128 0 }
    let z := stTile w.op
    let z := z.setQuad 0 { z.quad 0 with own := some ⟨List.replicate 8192 0, none⟩ }
    let z := z.setCc { z.cc with tileQ := z.cc.tileQ ++ [{ c with seq := 1, sync := ⟨0, 0, 0, 0⟩ }] }
    let l := stTile (.accLd 3 0 .bf16 true 128)
    let m := l.setQuad 0 { l.quad 0 with staged := true, buf := List.replicate 8192 0 }
    let d := stTile (.accSt 3 0 .f32 false 256)
    s.running 0 = some (0, c) ∧ ((s.quad 0).staged = false ∧ s.active 0 = true) ∧
    (s.aheadPick 0 0 c).isNone = true ∧ ((s.quad 0).buf = [] ∧ (s.quad 0).own.isNone = true) ∧
    rows ≠ [] ∧ s.scrError 0 (s.team 1).base rows = none ∧ s.tileError 0 0 c.op = false ∧
    ((own.quad 0).own.isSome = true ∧ (own.aheadPick 0 0 c).isNone = true) ∧
    (z.running 0 = some (0, w) ∧ (z.readsAhead 0 0 w).isSome = true) ∧
    ((f 62).running 0 = some (0, w) ∧ ((f 62).aheadPick 0 0 w).isNone = true ∧ ((f 62).quad 0).rows = 62 ∧
      128 ≤ ((f 62).quad 0).stream.length ∧ ((f 63).quad 0).rows = 63) ∧
    (((at_ 63).quad 0).cursor < 64 ∧ ((at_ 63).quad 0).staged = true ∧ ((at_ 64).quad 0).cursor = 64) ∧
    (stTile (.zero 3)).running 0 = some (0, cmdOf (.zero 3)) ∧ m.running 0 = some (0, cmdOf (.accLd 3 0 .bf16 true 128)) ∧
    (m.quad 0).buf.length = 4096 * AccFmt.bytes .bf16 ∧ d.running 0 = some (0, cmdOf (.accSt 3 0 .f32 false 256)) ∧
    (d.tileError 0 0 (.accSt 3 0 .f32 false 256) = false ∧ 64 * AccFmt.bytes .f32 = 256) := by
  and_intros <;> decide +kernel

/-- An f16 operand has no side area whose nibbles could be bad. -/
theorem witness_matrix_side (o : MmaOps) (buf : List Byte) :
    badNibble (sideOf (mmaGeo .f16 false o) buf) (mmaGeo .f16 false o) = none := rfl

/-! Witnesses of the steps of walks, L1s and homes. -/

/-- Core 0 with a wlaunch of one query, waiting on k63. -/
def stLaunch (entered : Bool) (left : Nat) : State :=
  let s := stWalk.setCore 0 { stWalk.core 0 with
    wcmds := [⟨9, 1, 1, 0x10002, ⟨63, 15, 63, 255⟩, 0, 0, ⟨0x10000, 1, [], 0⟩, 0, [(31, 0x20040)], entered, left⟩] }
  s.setTeam 1 { s.team 1 with sems := [(63, 0xFFF0)] }
/-- Walk 0 waiting, with k records held. -/
def waiting (w : WalkWait) (k : Nat) : State :=
  let s := heldRecords stWalk k
  s.setWalk 0 { s.walk 0 with wait := w }
def wcmdOf (s : State) : WCmd :=
  (s.core 0).wcmds.headD ⟨0, 0, 0, 0, ⟨0, 0, 0, 0⟩, 0, 0, ⟨0, 0, [], 0⟩, 0, [], false, 0⟩
/-- With the port to device 1 of partition 0 up. -/
def ported (s : State) : State :=
  let s := s.setPart 0 { s.part 0 with peermap := [(1, 0x11)] }
  { s with mgmt := { s.mgmt with ualUp := [(0, true)], ualEnable := [(0, true)] } }

/-- Intake: a threshold met exactly; an entry whose context 0 is taken, so that context 1 is the lowest free one. -/
theorem witness_walk_intake :
    let s := stLaunch false 1
    let u := stLaunch true 0
    let v := stWalk.setCore 0 { stWalk.core 0 with intake := [⟨0x20040, 1, 1, 31, 0, 1, 0, ⟨0x10000, 1, [], 0⟩, 0, none⟩] }
    (s.core 0).wcmds.find? (fun x => x.seq == (wcmdOf s).seq && !x.entered) = some (wcmdOf s) ∧ s.active 0 = true ∧
    (wcmdOf s).sync.thr.toNat ≤ ((s.team (wcmdOf s).team).sem (wcmdOf s).sync.waitk.toNat).toNat ∧
    (u.core 0).wcmds.find? (fun x => x.seq == (wcmdOf u).seq && x.entered && x.left == 0) = some (wcmdOf u) ∧
    ((u.team 1).sem 63).toNat + (wcmdOf u).sync.inc.toNat = 0xFFFF ∧
    ((v.walk (64 * 0 + 1)).live = false ∧ ∀ i < 1, (v.walk (64 * 0 + i)).live = true) ∧
    (v.translateVia (v.engineUnits 0) (corePart 0) (coreCtx 0) 0x20040 Need.read matches .ok 0 _ _ _ _) = true ∧
    ((v.core 0).intake ≠ [] ∧ v.active 0 = true ∧ v.homeFree (.walk (64 * 0 + 1)) (0x20040 / 128) false = true ∧ v.memPoisoned 0x20040 64 = false) ∧
    { v with nodeLines := [1024] }.nodeHas (0x20040 / 128) = true := by
  and_intros <;> decide +kernel

/-- A node line that arrives; waits for a code line, held or asked for, and for an owner's copy; room for records, of a walk
here and of one going away; and a busy time that ends now. -/
theorem witness_walk_waits :
    let s := { waiting (.node 3 0x20000) 0 with nodeLines := [512, 1024] }
    let c := waiting (.code 1024) 0
    let h := waiting (.home 1024) 0
    let r := waiting (.room .next) 8
    let a := ported (waiting (.away 1) 8)
    let b := ported (waiting (.busy 1 0) 0)
    ((s.walk 0).live = true ∧ (s.walk 0).wait = .node 3 0x20000) ∧
    (match s.walkRead 0 0x20000 128 with | .bytes bs => decide (bs.length = 128) | _ => false) = true ∧
    (match s.walkXlat 0 0x20000 with | .ok _ pa _ _ _ => s.nodeHas (pa / 128) | _ => true) = true ∧
    (s.walk 0).inside ((s.walk 0).pc.toNat + 4) = true ∧
    ((c.walk 0).wait = .code 1024 ∧ c.nodeCanAsk 1024 = true ∧ { c with nodeLines := [1024] }.nodeHas 1024 = true) ∧
    ((h.walk 0).wait = .home 1024 ∧ h.homeFree (.walk 0) 1024 false = true) ∧
    ((r.walk 0).live = true ∧ r.active 0 = true ∧ r.queueRoom 1 0 8 = true ∧ (r.walk 0).wait = .room .next ∧
      (r.walk 0).hosted = none ∧ (r.walk 0).team = 1 ∧ (r.walk 0).queue = 0 ∧
      (r.walk 0).inside ((r.walk 0).pc.toNat + 4) = true) ∧
    ((a.walk 0).live = true ∧ (a.walk 0).wait = .away 1 ∧ (a.walk 0).emits ≠ [] ∧ a.active (0 / 64) = true ∧
      a.queueRoom (a.walk 0).team (a.walk 0).queue (a.walk 0).emits.length = true ∧
      (a.portFor (corePart (0 / 64)) 1).isSome = true ∧ a.pairHeld (corePart (0 / 64)) 1 = false ∧ a.relayHeld = []) ∧
    ((b.walk 0).live = true ∧ (b.walk 0).wait = .busy 1 0 ∧ 0 ≤ b.now ∧ b.active (0 / 64) = true ∧
      (b.portFor (corePart (0 / 64)) 1).isSome = true ∧ b.pairHeld (corePart (0 / 64)) 1 = false ∧ b.relayHeld = []) := by
  and_intros <;> decide +kernel

/-- Core 0 holds line 1024 in a state; the core halted, or with as many pushed lines in its set as its quota lets it. -/
def l1Of (l : List L1Line) (h : Bool) : State := stWalk.setCore 0 { stWalk.core 0 with l1 := l, halted := h }

/-- Every state of an L1 line, and the four refusals of a push: the last with each way of the set held by a request. -/
theorem witness_l1 :
    let s (x : L1State) := l1Of [⟨1024, x⟩] false
    let held := l1Of ((List.range 8).map fun k => ⟨1024 + 128 * (k + 1), .is_⟩) false
    let full := l1Of ([0, 1].map fun k => ⟨1024 + 256 * (k + 1), .p⟩) false
    (∀ x ∈ [L1State.s, .p, .e, .m, .is_, .im, .sm, .ei, .mi], (s x).l1State 0 1024 = some x ∧
      (s x).memPoisoned (128 * 1024) 128 = false ∧ (s x).l1Error 0 (128 * 1024) 128 = false) ∧
    (0 ≠ nodeAgent ∧ (held.l1State 0 1024).isNone = true ∧ (held.core 0).halted = false ∧ (held.core 0).pushedIn 1024 < 2 ∧
      (held.core 0).pushed < 256 ∧ 8 ≤ ((held.core 0).ways 1024).length ∧
      ∀ e ∈ (held.core 0).ways 1024, e.st ≠ .s ∧ e.st ≠ .e ∧ e.st ≠ .m) ∧
    ((l1Of [] true).l1State 0 1024 = none ∧ ((l1Of [] true).core 0).halted = true) ∧
    (full.l1State 0 1024 = none ∧ (full.core 0).halted = false ∧ 2 ≤ (full.core 0).pushedIn 1024) ∧
    (((l1Of [] false).core 0).pushedIn 1024 < 2 ∧ ((l1Of [] false).core 0).pushed < 256 ∧
      (((l1Of [] false).core 0).ways 1024).length < 8) := by
  and_intros <;> decide +kernel

/-- The home of line 1024, which its slice holds; request 0 is outstanding. -/
def homeOf (d : Dir) : State :=
  { stWalk with dir := [(1024, d)], l2 := [1024], remotes := [(0, { Remote.none with live := true, who := .store 1 })] }

/-- A line in each of the directory's states: the requester among the sharers or not, no sharers but the node cache, and a shared
line without holders; with a write under no key, and a byte at the end of the line. -/
theorem witness_home_requests :
    let i := homeOf Dir.none
    let s := homeOf { Dir.none with st := .s, sharers := [0, 5] }
    let n := homeOf { Dir.none with st := .s, node := true }
    let e := homeOf { Dir.none with st := .e, owner := 1023 }
    let job : HomeJob := ⟨0, 0, [⟨0x20000, 0x20000, 0, [1]⟩]⟩
    ((i.l2Take 1024).isSome = true ∧ (i.dirOf 1024).busy = none ∧ (i.dirOf 1024).waiting = [] ∧ (i.dirOf 1024).st = .i ∧
      i.poison = []) ∧
    ((s.l2Take 1024).isSome = true ∧ (s.dirOf 1024).busy = none ∧ (s.dirOf 1024).st = .s ∧ 0 ∈ (s.dirOf 1024).sharers ∧
      (Claims.holders (s.dirOf 1024)).filter (· != 0) ≠ []) ∧
    ((n.l2Take 1024).isSome = true ∧ (n.dirOf 1024).busy = none ∧ (n.dirOf 1024).st = .s ∧ (n.dirOf 1024).sharers = [] ∧
      (Claims.holders (n.dirOf 1024)).filter (· != nodeAgent) = []) ∧
    ((e.l2Take 1024).isSome = true ∧ (e.dirOf 1024).busy = none ∧ (e.dirOf 1024).st = .e ∧ (e.dirOf 1024).owner = 1023) ∧
    ((i.remote job.req).live = true ∧ (e.remote job.req).live = true ∧ (∀ p ∈ job.puts, p.key = 0) ∧
      i.memPoisoned (128 * 1024) 128 = false ∧ i.l1Error 0 (128 * 1024) 128 = false) := by
  and_intros <;> decide +kernel

/-- A slice whose 24 ways of the set of line 1024 are all owned by core 5. -/
theorem witness_slice_full :
    let lines := (List.range 24).map fun k => 1024 + (k + 1) * (2 ^ 18 + 1)
    let s := { stWalk with l2 := lines, dir := lines.map fun k => (k, { Dir.none with st := .e, owner := 5 }) }
    (s.dirOf 1024).busy = none ∧ (s.dirOf 1024).waiting = [] ∧ (s.l2Make 1024).isNone = true ∧ s.l2Victims 1024 ≠ [] ∧ s.l2Evicting 1024 = false ∧
    (∀ v ∈ s.l2Victims 1024, (s.dirOf v).st = .e) := by
  and_intros <;> decide +kernel

/-- A busy line: the last and another answer to each of the waits, and to a push; a baton entry; a copy 65,536 mesh cycles old
(77,453 core cycles at 1.3 and 1.1 GHz). -/
theorem witness_home_answers :
    let d (l : List Nat) (k : HomeThen) := homeOf { Dir.none with st := .s, sharers := [5, 6], busy := some (l, k) }
    let b := stWalk.setCore 0 { stWalk.core 0 with batons := [⟨1, 1023, 7, [5]⟩, ⟨1, 1024, 7, [4, 5]⟩, ⟨2, 1024, 7, [5]⟩] }
    let c := { stWalk with copies := [(1024, ⟨[], 0⟩)], now := 77453 }
    (∀ k ∈ [HomeThen.grant 0 true [], .grant 0 false [5], .node [5], .settle .s [5] false, .evict, .hold (.group 1) true .i [],
        .perform (.homeWrite (.host) 0 (128 * 1024 + 127) [1])],
      ((d [5] k).dirOf 1024).busy = some ([5], k) ∧ ((d [5] k).dirOf 1024).waiting = [] ∧
      ((d [5, 6] k).dirOf 1024).busy = some ([5, 6], k) ∧ (d [5] k).poison = []) ∧
    ((homeOf { Dir.none with waiting := [.homeGets 5 1024] }).dirOf 1024).waiting ≠ [] ∧
    ([5].filter (· != 5) = [] ∧ [5, 6].filter (· != 5) ≠ []) ∧
    (((d [5, 6] (.pushed 0 [])).dirOf 1024).busy = some ([5, 6], .pushed 0 []) ∧
      ((d [5] (.pushed 0 [(6, 1)])).dirOf 1024).busy = some ([5], .pushed 0 [(6, 1)]) ∧
      ((d [5] (.pushed 0 [(6, 1)])).dirOf 1024).waiting = []) ∧
    ((b.core 0).batons = [⟨1, 1023, 7, [5]⟩] ++ ⟨1, 1024, 7, [4, 5]⟩ :: [⟨2, 1024, 7, [5]⟩] ∧
      ∀ x ∈ [(⟨1, 1023, 7, [5]⟩ : Baton)], x.line ≠ 1024 ∨ 5 ∉ x.pending) ∧
    (Tbl.find c.copies 1024 = some ⟨[], 0⟩ ∧ 65536 * c.mgmt.coreClk ≤ (c.now - 0) * c.mgmt.meshClk) := by
  and_intros <;> decide +kernel
/-! Witnesses of the steps of the pager, of swaps and of the dispatcher. -/

/-- Partition 0 with a mailbox of two slots at 0x20000, a fault message of the group's path 5 whose ticket is 2, and that
path parked on it. -/
def stMail (posted : Bool) (w4 : Nat) : State :=
  let s := st.setCtx 0 { st.ctx 0 with pagerq := 0x20000 }
  let m : Mail := { Mail.none with live := true, who := .path 1 5 0, box := 0x20000, size := 1, ticket := 2, posted := posted, reserved := true }
  { (grp s fun g => { g with parked := [parkedAt (.mail 4)] }).setMail 4 m with mem := putAll s.mem [⟨0x20044, leBytes 4 w4⟩] }
/-- What holds of the slot of message 4. -/
def slotHas (s : State) (p : MailAt → Bool) : Bool :=
  match s.slotAt (s.mail 4) with
  | some a => a.key == 0 && decide (s.keyTag = []) && p a
  | _ => false

/-- A ticket to take, a free slot and an answered one; a supervisor group in halt; the requester's grid without a machine
check. -/
theorem witness_mailbox :
    let s := grp (stMail false 0) fun g => { g with sup := true, parked := [parkedAt .halt] }
    let r := stMail true 0x10002
    let n := s.setMail 4 { s.mail 4 with reserved := false }
    ((n.mail 4).live = true ∧ (n.mail 4).posted = false ∧ (n.mail 4).reserved = false ∧
      (match n.mailAddr 0 0 0x20000 with
        | some p => p.key == 0 && n.homeFree (.mail 4) (p.pa / 128) true
        | none => false) = true) ∧
    ((s.mail 4).live = true ∧ (s.mail 4).posted = false ∧ (s.mail 4).reserved = true ∧ s.runsCtx 0 0 = true) ∧
    slotHas s (fun p => s.homeFree (.mail 4) (p.pa / 128) true && s.mailRead p 4 1 == 0 && s.mailRead p 0 4 == ((s.mail 4).ticket + 2 ^ 32 - 2 ^ 1) % 2 ^ 32) = true ∧
    ((s.group 1).sup = true ∧ parkedAt .halt ∈ (s.group 1).parked) ∧
    ((r.mail 4).posted = true ∧ slotHas r (fun p => r.homeFree (.mail 4) (p.pa / 128) true && r.mailRead p 4 1 == 2 && r.mailRead p 6 1 == 1) = true) ∧
    slotHas (stMail true 0x20002) (fun p => (stMail true 0x20002).mailRead p 6 1 == 2) = true ∧
    ((r.mail 4).who = .path 1 (parkedAt (.mail 4)).path.id 0 ∧ (r.group 1).live = true ∧
      parkedAt (.mail 4) ∈ (r.group 1).parked ∧ (parkedAt (.mail 4)).path.mask ≠ 0) ∧
    slotHas (stMail true 0x30002) (fun p => (stMail true 0x30002).mailRead p 6 1 == 3) = true ∧
    (r.mailGrid (r.mail 4) 4 = some 1 ∧ (r.grid 1).live = true ∧ (r.part (r.grid 1).part).mcstat = 0) := by
  and_intros <;> decide +kernel

/-- A write of the group to the page at 2^31 that has not left; a request names that page at the head of the queue. -/
def unsent : Remote :=
  { Remote.none with live := true, who := .store 1, loc := 2, addr := 0x40, n := 1, write := some [1], tval := 0x10000, va := 0x80000040 }
/-- It and another of the group with any page named at the head of the queue. -/
def stInval (s : State) (l : List (Nat × Remote)) : State :=
  { s.setPart 0 { s.part 0 with tlbq := [1] } with remotes := l }
/-- st with a leaf entry for the page at 2^31. -/
def stLeaf (e : Nat) : State := { st with mem := putAll st.mem [⟨0x2008, leBytes 8 e⟩] }
/-- What the tables say of a write's place, f of it. -/
def againIs (s : State) (x : Remote) (f : Nat → Nat → Bool) : Bool :=
  match Claims.againAt s 0 x with
  | .ok loc pa _ _ _ => f loc pa
  | _ => false

/-- Whether a leaf entry carries both its marks; then marking it changes nothing. -/
def markedAt (s : State) : Xlat → Bool
  | .ok _ _ at_ _ _ => decide (s.entryAt at_ ||| 512 ||| 1024 = s.entryAt at_)
  | _ => true
theorem markLeaf_of_marked {s : State} {x : Xlat} (h : markedAt s x = true) : s.markLeaf x true = s := by
  cases x with
  | ok loc pa a l z => exact if_pos (of_decide_eq_true h)
  | _ => rfl

/-- Invalidations: a request, one that is discarded, one at the head of a queue with nothing open, with a read open, and with an
instruction under way. -/
theorem witness_invalidations :
    let s := stInval st []
    let o := stInval stHost [(4, { unsent with sent := true, who := .path 1 5 0, write := none })]
    let w := grp s fun g => { g with run := { g.run with under := [stLane.laneAt 31 0x20040 4 Need.write] } }
    (1 / 2 ^ 48 = 0 ∧ 1 / 2 ^ 5 % 2 ^ 12 = 0 ∧ 1 / 4 % 2 = 0 ∧ 1 / 8 % 4 ≠ 3 ∧ 1 % 4 < 2) ∧ ¬ (2 % 4 < 2) ∧
    (st.part 0).tlbq.length < 16 ∧ ((s.part 0).tlbq = 1 :: [] ∧ s.tlbinvOpen 0 1 = [] ∧ s.tlbinvWaits 0 1 = false) ∧
    ((o.part 0).tlbq = 1 :: [] ∧ ∃ e ∈ o.tlbinvOpen 0 1, (e.2.away && e.2.loc == 2 && e.2.write.isSome) = false) ∧
    ((w.part 0).tlbq = 1 :: [] ∧ w.tlbinvOpen 0 1 = [] ∧ ∃ e ∈ w.groups, e.2.live = true ∧ (w.team e.2.team).part = 0 ∧
      ∃ l ∈ e.2.run.under, w.tlbinvReaches 0 1 l.va = true) := by
  and_intros <;> decide +kernel

/-- Writes checked again: of two one stays and one is of a page that is no longer mapped; one whose page is now local, at another
host address, or a peer's without a port. -/
theorem witness_writes_again :
    let gone : Remote := { unsent with va := 0x100000000 }
    let two := stInval stHost [(4, unsent), (5, gone)]
    let local_ := stInval (stLeaf 0x61F) [(4, unsent)]
    let there := stInval stHost [(4, { unsent with addr := 0x80 })]
    let peer := stInval (stLeaf 0x69F) [(4, unsent)]
    ((two.part 0).tlbq = 1 :: [] ∧ two.tlbinvWaits 0 1 = false ∧ (two.remotes.map Prod.fst).Nodup ∧ two.flight = []) ∧
    (∀ e ∈ two.remotes, e.2.live = true ∧ e.2.part = 0 ∧ e.2.loc ≠ 0 ∧ e.2.sent = false ∧ 2 ^ 16 ≤ e.2.tval.toNat ∧
      two.tlbinvReaches 0 1 e.2.va.toNat = true ∧ markedAt two (Claims.againAt two 0 e.2) = true ∧ e.2.who = .store 1) ∧
    (two.group 1).live = true ∧ againIs two unsent (fun loc pa => loc == unsent.loc && pa == unsent.addr) = true ∧
    againIs two gone (fun _ _ => true) = false ∧
    againIs local_ unsent (fun loc pa => loc == 0 && pa == 0x40) = true ∧
    againIs there unsent (fun loc pa => loc == 2 && pa != 0x80) = true ∧
    againIs peer unsent (fun loc pa => loc == 1 && !peer.reachable 0 loc pa) = true ∧
    (∀ x ∈ [local_, there, peer], markedAt x (Claims.againAt x 0 unsent) = true ∧ x.tlbinvWaits 0 1 = false ∧
      x.tlbinvReaches 0 1 unsent.va.toNat = true ∧ (x.group 1).live = true) := by
  and_intros <;> decide +kernel

/-- A `red` on its way to its home whose page stays, and one whose page is no longer mapped. -/
theorem witness_red_again :
    let red (va : Addr) (pa : Nat) : State :=
      { stInval st [(4, { unsent with loc := 0, va := va, write := none })] with
        flight := [.nearDataOp 0 .add .n32 pa ⟨1, ⟨4, 0, []⟩⟩] }
    let place (s : State) (va : Nat) : Xlat := s.translate 0 (s.part 0).live va (againNeed true unsent.tval)
    (∀ s ∈ [red 0x20040 0x20040, red 0x100000000 0x20040], (s.part 0).tlbq = 1 :: [] ∧ s.tlbinvWaits 0 1 = false ∧
      (s.group 1).live = true ∧ s.tlbinvReaches 0 1 0x20040 = true) ∧
    (match place (red 0x20040 0x20040) 0x20040 with | .ok loc pa _ _ _ => loc == 0 && pa == 0x20040 | _ => false) = true ∧
    (match place (red 0x100000000 0x20040) 0x100000000 with | .ok .. => true | _ => false) = false := by
  and_intros <;> decide +kernel

/-- A swap at each of its phases. -/
def stSwap (n : Nat) (halted : Bool) : State :=
  let s := grp st fun g => { g with halted := halted }
  (s.setPart 0 { s.part 0 with swap := some n }).setCtx 1 { s.ctx 1 with hasRun := true }

theorem witness_swap :
    (let s := stSwap 2 false
     (s.group 1).live = true ∧ (s.group 1).halted = false ∧ (s.part 0).pastat = 2 ∧ (s.part 0).swap = some 2 ∧
      (s.part 0).live = coreCtx (s.team 1).core ∧ (∀ x ∈ (s.core 0).batons, x.group ≠ 1) ∧
      (∀ e ∈ s.remotes, e.2.live = true → e.2.who ≠ .store 1) ∧ (s.group 1).run.issued.isNone = true ∧
      ((grp s fun g => { g with run := { g.run with issued := some ⟨0, .tret, none, 0⟩ } }).group 1).run.issued.isSome = true) ∧
    ((stSwap 1 false).part 0).swap = some 1 ∧
    (∀ e ∈ (stSwap 2 true).ctxGroups 0 ((stSwap 2 true).part 0).live, e.2.halted = true) ∧
    (((stSwap 3 true).part 0).swap = some 3 ∧ (stSwap 3 true).swapQuiet 0 0 = true ∧ (stSwap 3 true).partPosts 0 = false) ∧
    (let s := stSwap 4 true
     (s.part 0).swap = some 4 ∧ (s.part 0).live < 2 ∧ s.asked (.boot 0) = false ∧
      (s.ctx (2 * 0 + (1 - (s.part 0).live))).hasRun = true ∧ .shadow (2 * 0 + (1 - (s.part 0).live)) ∉ s.poison ∧
      (s.part 0).mcstat = 0 ∧
      .shadow (2 * 0 + (1 - (s.part 0).live)) ∈ ({ s with poison := [.shadow 1] } : State).poison) ∧
    (let s := (stSwap 4 true).setMail 4 { Mail.none with live := true, who := .path 1 5 0, part := 0, ctx := 1 }
     (s.mail 4).live = true ∧ (s.mail 4).reserved = false ∧ (s.mail 4).part = 0 ∧ (s.mail 4).ctx = 1 - (s.part 0).live) := by
  and_intros <;> decide +kernel

theorem witness_queue_registers :
    (st.part 0).pastat = 2 ∧ (State.reset.part 0).pastat ≠ 2 ∧ (0x100 : Word).getLsbD 8 = true ∧
    ((0x0 : Word) &&& 0x1F).toNat < 1 ∧ 16 < ((0x11 : Word) &&& 0x1F).toNat ∧ ((0x10 : Word) &&& 0x1F).toNat ≤ 16 := by
  and_intros <;> decide +kernel

/-- Queue 3 of partition 0 with a record of zeros at 0x20000; the same with an uncorrectable error there; a record in the
device intake. -/
def stQueue : State := st.setLq 0 3 { st.queue 0 3 with base := 0x20000, ctl := 0x101, tail := 1 }

theorem witness_acceptance :
    let bad := { stQueue with poison := [.mem (0x20000 / 32)] }
    let i := st.setCtx 0 { st.ctx 0 with intake := [([0], 2)] }
    (stQueue.runsCtx 0 0 = true ∧ stQueue.liveGrids 0 < 64) ∧
    ((List.range 9).map fun i => (0 + i) % 9).find? (stQueue.turnReady 0) = some 3 ∧
    ((stQueue.headRead 0 3).r matches .bytes _) = true ∧ (bad.turnReady 0 3 = true ∧ ((bad.headRead 0 3).r matches .bad) = true) ∧
    ((List.range 9).map fun i => (0 + i) % 9).find? (i.turnReady 0) = some 8 ∧ (i.ctx 0).intake = ([0], 2) :: [] := by
  and_intros <;> decide +kernel

/-- A descriptor of one core, 8 vector and 8 scalar registers, at 0x20000; grid 2 with its record. -/
def desc0 : List DWord := [0x10002, 0x0000100800000000, 0, 0x100000000] ++ List.replicate 12 0
def stGrid (state : GridState) (r : List DWord) : State :=
  { st.setGrid 2 { Grid.none with live := true, id := 7, rec_ := r, st := state, hit := true, desc := desc0 } with
    mem := putAll st.mem [⟨0x20000, (desc0.take 4).flatMap fun w => leBytes 8 w.toNat⟩] }

theorem witness_record_checks :
    let bad := stGrid .accepted [0x20001]
    let s := stGrid .accepted [0x20000]
    ((bad.grid 2).recordBad false = some 0 ∧ (s.grid 2).live = true ∧ (s.grid 2).st = .accepted ∧
      s.runsCtx 0 0 = true ∧ s.asked (.grid 2) = false) ∧
    ((s.grid 2).recordBad false = none ∧ (s.grid 2).waitAt = 0 ∧ (s.grid 2).signalAt = 0) ∧
    (bad.dispStuck (.grid 2) 0 (bad.descRead 2) = false ∧
      (match (s.descRead 2).r with | .bytes bs => decide (dwordsOf bs 16 = desc0) | _ => false) = true) ∧
    (descBad desc0 = none ∧ (s.grid 2).teams % (Desc.of desc0).cores = 0) ∧
    trialFits (Desc.of desc0) (s.part 0).pgcfg 0 0 (s.grid 2).teams = true ∧
    descBad (List.replicate 16 0) = some 0 := by
  and_intros <;> decide +kernel

/-- A wait counter that has reached its value and one that has not. -/
theorem witness_counter_reads :
    let s (w : DWord) := stGrid .waiting [0x20000, 0, 0, 0x20040, w]
    ((s 0).mayRead 2 = true ∧ ((s 0).grid 2).hit = true ∧ ((s 0).grid 2).waitFor ≤ 0 ∧ ¬ ((s 1).grid 2).waitFor ≤ 0) ∧
    (match (s 0).counterRead 2 with
      | ⟨[(a, .ok 0 _ _ _ _)], .bytes bs⟩ => a == ((s 0).grid 2).waitAt && leValue bs == 0
      | _ => false) = true := by
  and_intros <;> decide +kernel

/-- An eligible grid whose cluster has its place, alone and behind an older one whose data area no core holds; the same grid
co-resident, with a place for each of its clusters, and with none. -/
theorem witness_dispatch :
    let s := stGrid .eligible [0x20000, 0x0123456789ABCDEF]
    let x := s.grid 2
    let w := (s.setGrid 2 { x with age := 5 }).setGrid 3 { x with age := 4, desc := desc0.set 2 0x7FFFF }
    let co := s.setGrid 2 { x with desc := desc0.set 3 0x100010000 }
    let no := s.setGrid 2 { x with desc := (desc0.set 2 0x7FFFF).set 3 0x100010000 }
    (s.runsCtx 0 0 = true ∧ s.dispatchOrder 0 0 = [] ++ (2, s.grid 2) :: []) ∧
    ((Desc.of (s.grid 2).desc).coresident = false ∧
      ((s.pool 0 0).placeCluster (Desc.of (s.grid 2).desc) (s.part 0).pgcfg 0 0).isSome = true) ∧
    w.dispatchOrder 0 0 = [(3, w.grid 3)] ++ (2, w.grid 2) :: [] ∧
    ((Desc.of (w.grid 3).desc).coresident = false ∧
      ((w.pool 0 0).placeCluster (Desc.of (w.grid 3).desc) (w.part 0).pgcfg 0 0).isNone = true) ∧
    (co.dispatchOrder 0 0 = (2, co.grid 2) :: [] ∧ (Desc.of (co.grid 2).desc).coresident = true ∧ (co.grid 2).placed = 0 ∧
      ((co.pool 0 0).placeAll (Desc.of (co.grid 2).desc) (co.part 0).pgcfg 0 0
        ((co.grid 2).teams / (Desc.of (co.grid 2).desc).cores)).isSome = true) ∧
    (no.dispatchOrder 0 0 = (2, no.grid 2) :: [] ∧
      ((no.pool 0 0).placeAll (Desc.of (no.grid 2).desc) (no.part 0).pgcfg 0 0
        ((no.grid 2).teams / (Desc.of (no.grid 2).desc).cores)).isNone = true) := by
  and_intros <;> decide +kernel

/-- A team without a group, which hosts no walk, or walks that run or await the answer to a release; a grid whose teams have
retired, its status word or its counter in plaintext memory. -/
theorem witness_grid_end :
    let t := grp st fun g => { g with live := false }
    let o : Origin := { device := 1, part := 0, core := 0, ctx := 0, queue := 0, team := 1, group := 1, lane := 0, serial := 7 }
    let x : Walk := { Walk.none with live := true, team := 1, hosted := some o }
    let h := (t.setWalk 3 x).setWalk 4 { x with wait := .released .next false }
    let s := (stGrid (.ending 3 5) [0x20000, 0, 0, 0, 0, 0, 0x20040]).setTeam 9 { Team.none with grid := 2 }
    let c := (stGrid (.ending 3 5) [0x20000, 0, 0, 0, 0, 0x20040, 0]).setTeam 9 { Team.none with grid := 2 }
    ((t.team 1).live = true ∧ t.liveGroups 1 = [] ∧ t.settles 0 (coreCtx (t.team 1).core) = true ∧ t.teamBusy 1 = false ∧
      t.hostedBy 1 = []) ∧
    (h.liveGroups 1 = [] ∧ h.settles 0 (coreCtx (h.team 1).core) = true ∧ h.teamBusy 1 = false ∧ h.hostedBy 1 = [3, 4]) ∧
    (s.gridOutcome 2 = some (3, 5) ∧ (s.grid 2).st ≠ .signalling ∧ s.settles 0 0 = true ∧ s.gridQuiet 2 = true ∧
      s.gridPosts 2 = false ∧ s.homeHeld (.grid 2) (s.endLines 2) true = none) ∧
    ((s.grid 2).signalAt = 0 ∧ (s.grid 2).statusAt = 0x20040 ∧ s.keyTag = []) ∧
    (match s.dispXlate 0 0 0x20040 Need.write with | .ok 0 _ _ leaf _ => keyOf 0 leaf == 0 | _ => false) = true ∧
    (c.gridOutcome 2 = some (3, 5) ∧ (c.grid 2).st ≠ .signalling ∧ c.gridQuiet 2 = true ∧ c.gridPosts 2 = false ∧
      c.homeHeld (.grid 2) (c.endLines 2) true = none ∧ (c.grid 2).statusAt = 0 ∧ (c.grid 2).signalAt = 0x20040 ∧
      (c.grid 2).noSignal = false ∧ c.keyTag = []) ∧
    (match c.signalXlate 2 with | .ok 0 pa _ leaf _ => keyOf 0 leaf == 0 && !c.memPoisoned pa 8 | _ => false) = true := by
  and_intros <;> decide +kernel
/-! Witnesses of the ingress statements. -/

/-- Ingress port 1 on, its stream 5 bound to ring 2 of core 0: slots of 1 KiB, f of them filled, epoch 9, semaphore 63. -/
def stPort (slots f : Nat) : State :=
  let s := st.setPort 1 { Port.none with ctl := 1, link := true, strm := [(5, 0x10200)] }
  s.setCore 0 { s.core 0 with
    rings := [(2, { Ring.none with bound := true, team := 1, slots := slots, size := 1, sem := 63, epoch := 9, filled := f })] }
/-- A line of stream 5 with n pixels of 8 bits, and its frame. -/
def lineBody (epoch n : Nat) : List Byte :=
  leBytes 4 (0x050101 + 2 ^ 24 * epoch) ++ leBytes 4 1 ++ leBytes 4 0x123 ++ leBytes 4 n ++ List.replicate (8 + n) 0xA5
def frameOf (body : List Byte) : List Byte := body ++ leBytes 4 (crc32 body).toNat

/-- A line that is well formed, and a frame one byte short of the shortest. -/
theorem witness_line_frames :
    let s := stPort 2 1
    let b := lineBody 9 1
    let f := frameOf b
    let x := Line.of b
    ((s.port 1).ctl.getLsbD 0 = true ∧ (s.port 1).link = true ∧ (f.take 25 = b ∧ f.length = 29 ∧ (List.replicate 27 (0 : Byte)).length < 28)) ∧
    ((crc32 b).toNat = wordAt f 25 ∧ wordAt f 0 % 2 ^ 16 = 0x0101 ∧ wordAt f 0 / 2 ^ 22 % 4 = 0 ∧ wordAt f 8 / 2 ^ 18 = 0 ∧
      wordAt f 12 / 2 ^ 16 = 0 ∧ 29 = 28 + (x.pixels * 8 + 7) / 8 ∧ x.format = 0 ∧ x.stream = 5) ∧
    (∀ h ∈ (s.port 1).held, s.heldReady h = false) ∧
    (let e := s.stream 1 5
     e.on = true ∧ ((s.core e.core).ring e.ring).bound = true ∧ ((s.core e.core).ring e.ring).epoch = x.epoch ∧
      (s.part (corePart e.core)).live = coreCtx e.core ∧ (s.part (corePart e.core)).swap = none) ∧
    ((Line.of (lineBody 8 1)).epoch ≠ 9 ∧ ((s.setPart 0 { s.part 0 with live := 1 }).part 0).live ≠ 0) := by
  and_intros <;> decide +kernel

/-- Lines that fit exactly, that overflow the ring, and that are longer than it. -/
theorem witness_deliveries :
    (max 1 (ceilDiv 1 ((1024 * 1 - 64) / 2)) = 1 ∧ (Line.of (lineBody 9 1)).stamp.length = 8) ∧
    (1 ≤ ((stPort 2 1).core 0 |>.ring 2).slots ∧ ((stPort 2 1).core 0 |>.ring 2).slots - ((stPort 2 1).core 0 |>.ring 2).filled = 1) ∧
    ((stPort 2 2).core 0 |>.ring 2).slots - ((stPort 2 2).core 0 |>.ring 2).filled < 1 ∧
    ((stPort 1 0).core 0 |>.ring 2).slots < max 1 (ceilDiv 481 ((1024 * 1 - 64) / 2)) := by
  and_intros <;> decide +kernel

/-- A held line whose context is live, and a ring whose unbinding a parked path awaits. -/
theorem witness_port_events :
    let h : Held := ⟨lineBody 9 1, 0x10200, false⟩
    let s := (stPort 2 1).setPort 1 { (stPort 2 1).port 1 with held := [h] }
    let p := parkedAt (.unbind 2)
    let u := grp ((stPort 2 1).setCore 0 { (stPort 2 1).core 0 with rings := [(2, { Ring.none with unbinding := true, team := 1 })] })
      fun g => { g with parked := [p] }
    ((s.port 1).held = [] ++ h :: [] ∧ s.heldReady h = true) ∧
    (((u.core 0).ring 2).unbinding = true ∧ 1 ∈ (u.team ((u.core 0).ring 2).team).groups ∧ p ∈ (u.group 1).parked ∧
      p.why = .unbind 2) := by
  and_intros <;> decide +kernel

/-- Sixteen enabled streams. -/
theorem witness_flow_control :
    let s := (stPort 2 1).setPort 1 { (stPort 2 1).port 1 with strm := (List.range 16).map fun n => (n + 48, 0x10200) }
    let on := (List.range 64).filter fun n => (s.stream 1 n).on
    (s.port 1).ctl.getLsbD 0 = true ∧ (on ≠ [] ∧ on.length = 16 ∧ on[15]? = some 63) ∧
    ((s.core (s.stream 1 63).core).ring (s.stream 1 63).ring).bound = true := by
  and_intros <;> decide +kernel

/-! Witnesses of the partition, firmware and power statements. -/

/-- The ready device with partition 0 in a state, and with other registers. -/
def stPart (f : Part → Part) : State := (st.setPart 0 (f (st.part 0))).setGrid 1 Grid.none
def freshPart (f : Part → Part) : State := stPart fun p => f { p with pastat := 0 }
/-- With two pager cores, the pager's record at 0x30000 and its descriptor of desc0 at 0x20000. -/
def stPager : State :=
  { freshPart (fun p => { p with pacfg := 0x200, paimg := 0x30000 }) with
    mem := putAll st.mem [⟨0x20000, (desc0.take 4).flatMap fun w => leBytes 8 w.toNat⟩, ⟨0x30000, leBytes 8 0x20000⟩, ⟨0x30010, leBytes 8 1⟩] }

/-- Each outcome of an assignment: the range's end at the fitted memory and beyond it, meeting partition 1's; no pool; no
key; three pager cores; a record beyond the fitted memory by one byte; no pager core; a record that is read. -/
theorem witness_assign :
    let fresh := freshPart id
    let met := (freshPart fun p => { p with pamem := 0x3F00 }).setPart 1 { Machine.Part.none with pastat := 2, pamem := 0x3F3F }
    (fresh.mgmt.fwstate = 4 ∧ fresh.asked (.boot 0) = false ∧ (fresh.part 0).pastat = 0 ∧ (st.part 0).pastat ≠ 0) ∧
    128 * 2 ^ 30 < (freshPart fun p => { p with pamem := 0x7F01 }).partBase 0 + (freshPart fun p => { p with pamem := 0x7F01 }).partSize 0 ∧
    ((met.part 1).pastat ≠ 0 ∧ met.partBase 0 < met.partBase 1 + met.partSize 1 ∧ met.partBase 1 < met.partBase 0 + met.partSize 0) ∧
    (fresh.partBase 0 + fresh.partSize 0 = 128 * 2 ^ 30 ∧ ∀ c < 4, c ≠ 0 → (fresh.part c).pastat = 0) ∧
    ((freshPart fun p => { p with papool := 0 }).part 0).papool.toNat % 65536 = 0 ∧
    ((fresh.part 0).papool.toNat % 65536 ≠ 0 ∧ ¬ fresh.partSize 0 ≤ (fresh.part 0).papool.toNat % 65536 * 4096) ∧
    (((freshPart fun p => { p with pacfg := 1 }).part 0).pacfg.getLsbD 0 = true ∧ (fresh.part 0).key = none) ∧
    ((fresh.part 0).pacfg.getLsbD 0 = false ∧ (fresh.part 0).pacfg.toNat / 256 % 4 = 0) ∧
    ((freshPart fun p => { p with pacfg := 0x300 }).part 0).pacfg.toNat / 256 % 4 = 3 ∧
    128 * 2 ^ 30 < ((freshPart fun p => { p with pacfg := 0x100, paimg := 0x1FFFFFFFC1 }).part 0).paimg.toNat + 64 ∧
    ((stPager.part 0).pacfg.toNat / 256 % 4 = 2 ∧ (((stPager.assignBase 0).bootRead 0 0).r matches .ok _ _) = true) ∧
    ((({ stPager with mem := [] }.assignBase 0).bootRead 0 0).r matches .bad) = true := by
  and_intros <;> decide +kernel

/-- Release and reset: no grid, a pager grid, another grid; an unassigned and a stopped partition. -/
theorem witness_release :
    let s := stPart id
    let p := s.setGrid 3 { Grid.none with live := true, pager := true }
    (s.mgmt.fwstate = 4 ∧ (s.part 0).pastat = 2 ∧ ((freshPart id).part 0).pastat ≠ 2 ∧ s.asked (.boot 0) = false ∧
      (s.part 0).closing = false) ∧
    (1 ∈ st.gridsAll 0 ∧ (st.grid 1).pager = false) ∧ (p.gridsAll 0 = [3] ∧ ∀ g ∈ p.gridsAll 0, (p.grid g).pager = true) := by
  and_intros <;> decide +kernel

/-- The end of a release and of a reset: a grid is left, a walk from elsewhere is left, nothing is left, with pager cores too, whose
record lies beyond the fitted memory, or is read. -/
theorem witness_closing :
    let c (s : State) : State := s.setPart 0 { s.part 0 with closing := true }
    let s := c (stPart id)
    let h := s.setWalk 5 { Walk.none with live := true, hosted := some ⟨1, 0, 0, 0, 0, 1, 1, 0, 7⟩ }
    let r := c (stPart fun p => { p with pastat := 3, pacfg := 0x100, paimg := 0x1FFFFFFFC1 })
    let q := c (stPager.setPart 0 { stPager.part 0 with pastat := 2 })
    ((c st).gridsAll 0 ≠ [] ∧ ((c st).part 0).closing = true) ∧
    (∃ e ∈ h.walks, e.2.live = true ∧ e.2.hosted ≠ none ∧ corePart (e.1 / 64) = 0) ∧
    (s.gridsAll 0 = [] ∧ (∀ e ∈ s.walks, e.2.hosted = none) ∧ (s.part 0).pastat ≠ 0 ∧ (s.part 0).pacfg.toNat / 256 % 4 = 0) ∧
    ((r.part 0).pacfg.toNat / 256 % 4 ≠ 0 ∧ 128 * 2 ^ 30 < (r.part 0).paimg.toNat + 64) ∧
    (q.gridsAll 0 = [] ∧ (q.part 0).pacfg.toNat / 256 % 4 = 2 ∧ (((q.resetBase 0).bootRead 0 0).r matches .ok _ _) = true) := by
  and_intros <;> decide +kernel

/-- Of every image exactly what R406 asks holds, whatever the signature and the root key hash are, which the spec leaves
to the board: some verdict is met. An empty image is malformed. -/
theorem witness_verdict (svn : Half) (b : List Byte) : ∃ e, Claims.verdict svn b e := by
  unfold Claims.verdict
  dsimp only
  generalize (512 ≤ b.length ∧ _) = shape
  generalize (sha256 _ = _) = known
  generalize (hssVerify _ _ _ = true) = signed
  generalize (svn.toNat ≤ _) = recent
  generalize (∀ s < 3, _) = whole
  by_cases h1 : shape
  · by_cases h2 : known
    · by_cases h3 : signed
      · by_cases h4 : recent
        · by_cases h5 : whole
          · exact ⟨none, by simp [*]⟩
          · exact ⟨some 6, by simp [*]⟩
        · exact ⟨some 5, by simp [*]⟩
      · exact ⟨some 4, by simp [*]⟩
    · exact ⟨some 3, by simp [*]⟩
  · exact ⟨some 2, by simp [*]⟩

/-- The states of the image commands and of stage 1, the shortest legal recovery image, and one that is being written to flash,
over what an interrupted write left. -/
theorem witness_images :
    let at_ (n c : Nat) : State := { st with mgmt := { st.mgmt with fwstate := n, fwcmd := c, fwreclen := 0x1000 } }
    let w (c : Nat) : State := { at_ 4 c with mgmt := { (at_ 4 c).mgmt with flashing := some [1], flashTorn := true } }
    let torn : State := { at_ 1 0 with mgmt := { (at_ 1 0).mgmt with flashTorn := true } }
    ((at_ 1 0).mgmt.fwstate = 1 ∧ (at_ 1 0).mgmt.fwcmd = 0 ∧ (at_ 1 0).mgmt.flash = none ∧ (at_ 1 0).mgmt.flashTorn = false) ∧
    (torn.mgmt.fwstate = 1 ∧ torn.mgmt.flashTorn = true) ∧
    ((at_ 4 2).mgmt.fwcmd = 2 ∧ (at_ 2 1).mgmt.fwcmd = 1 ∧ (at_ 2 1).mgmt.flashing = none ∧
      (at_ 2 1).mgmt.fwreclen.toNat = 4096 ∧ 4096 % 4096 = 0 ∧ ¬ (0 : Word).toNat % 4096 ≠ 0 ∧ ¬ 4096 ≤ (0 : Word).toNat) ∧
    ((w 1).mgmt.fwcmd = 1 ∧ (w 2).mgmt.fwcmd = 2 ∧ (w 1).mgmt.flashing = some [1]) ∧ (at_ 3 0).mgmt.fwstate = 3 := by
  and_intros <;> decide +kernel

/-- An empty image is malformed: the verdict that a torn flash has, and none at all of what is to run from it. -/
theorem witness_malformed : Claims.verdict 0 [] (some 2) :=
  .inl ⟨rfl, fun h => absurd h.1 (by decide)⟩

/-- Every sense code is one of those that stage 1 tells apart. -/
theorem witness_sense :
    (∃ w, Config.boardSense = some w ∧ w ≠ 600 ∧ w ≠ 450 ∧ w ≠ 300) ∨
      (Config.boardSense = none ∨ ∃ w, Config.boardSense = some w ∧ (w = 600 ∨ w = 450 ∨ w = 300)) := by
  cases h : Config.boardSense with
  | none => simp
  | some w => by_cases h1 : w = 600 ∨ w = 450 ∨ w = 300 <;> simp_all

/-- Keys of unequal halves and of equal ones, without a request and with one, of an assigned and an unassigned partition. -/
theorem witness_keys :
    let key : List Byte := List.replicate 32 1 ++ List.replicate 32 2
    let same : List Byte := List.replicate 64 1
    let s := { freshPart id with mgmt := { st.mgmt with session := 2, keyReply := some [1] } }
    st.mgmt.keyReply = none ∧ (s.mgmt.keyReply = some [1] ∧ (s.part 0).pastat = 0) ∧
    (({ st with mgmt := s.mgmt } : State).part 0).pastat ≠ 0 ∧ (key.length = 64 ∧ key.take 32 ≠ key.drop 32) ∧
    (same.length = 64 ∧ same.take 32 = same.drop 32) := by
  and_intros <;> decide +kernel

/-- SPDM messages in the clear: of an unknown code, for measurement 8 without a signature, and for a signature, of which none or
one is left; the codes of chunks. -/
def stSpdm (leaf : Nat) (msg : List Byte) : State :=
  { st with mgmt := { st.mgmt with spdmctl := 0x80000004, spdmbuf := msg ++ List.replicate (2048 - msg.length) 0, leaf := leaf } }
def spdmAsked (s : State) : List Byte := s.mgmt.spdmbuf.take (s.mgmt.spdmctl.toNat % 2 ^ 12)

theorem witness_spdm :
    let e := stSpdm 0 [0x13, 0x11, 0, 0]
    let m := stSpdm 0 [0x13, 0xE0, 0, 8]
    let g := stSpdm (2 ^ 40 - 1) [0x13, 0xE0, 1, 0]
    let n := stSpdm (2 ^ 40) [0x13, 0xE0, 1, 0]
    (e.mgmt.spdmctl.getLsbD 31 = true ∧ e.mgmt.session = 0 ∧ e.mgmt.spdmbuf.length = 2048 ∧ spdmCode (spdmAsked e) = 0x11 ∧
      (e.mgmt.spdmAnswer e.tick false (spdmAsked e)).2.length = 4) ∧
    (m.mgmt.spdmbuf.length = 2048 ∧ spdmCode (spdmAsked m) = 0xE0 ∧ spdmByte (spdmAsked m) 2 % 2 = 0 ∧
      spdmByte (spdmAsked m) 3 = 7 + 1) ∧
    (spdmSigned (spdmAsked g) = true ∧ spdmInvalid (spdmAsked g) = false ∧ g.mgmt.leaf < 2 ^ 40) ∧
    (spdmSigned (spdmAsked n) = true ∧ spdmInvalid (spdmAsked n) = false ∧ 2 ^ 40 ≤ n.mgmt.leaf) ∧ spdmCode [0x13, 0x85] = 0x85 ∧
    e.mgmt.keyReply = none ∧ spdmCode [0x13, 0x81, 0, 0] = 0x81 := by
  and_intros <;> decide +kernel

/-- The signed response is longer than `spdmbuf`: a signature alone has 5716 bytes. -/
theorem witness_spdm_large (s : State) (draw : Nat) (h : s.mgmt.leaf < 2 ^ 40) :
    2048 < (s.mgmt.spdmAnswer draw false [0x13, 0xE0, 1, 0]).2.length := by
  have hs : spdmSigned [0x13, 0xE0, 1, 0] = true := by decide
  unfold Mgmt.spdmAnswer
  rw [if_neg (by decide), if_neg (by decide), if_neg (by simp; omega)]
  simp only [hs, if_true, List.length_append, identitySign_length]
  omega

/-- The ends of the clocks' range, 110 °C and just below it, and a device that is off. -/
theorem witness_power :
    let s := { st with mgmt := { st.mgmt with pwrlim := 0x00640064, tempnow := 880 } }
    (s.mgmt.fwstate = 4 ∧ State.reset.mgmt.fwstate ≠ 4) ∧
    (8 * (s.mgmt.pwrlim.toNat % 2 ^ 16) < 801 ∧ ¬ (8 * (s.mgmt.pwrlim.toNat % 2 ^ 16) < 800) ∧
      s.mgmt.pwrlim.toNat / 2 ^ 16 ≠ 0) ∧
    (880 ≤ signedOf 16 s.mgmt.tempnow.toNat ∧ ¬ 880 ≤ signedOf 16 st.mgmt.tempnow.toNat) ∧
    ({ st with off := true } : State).off = true := by
  and_intros <;> decide +kernel

/-- A dump into the last 48 MiB but one step, above the partition's memory; of a partition without and with a key; with the place
not given; a group of the core whose section it is, and a home in the midst of a recall. -/
def stDump (confidential : Bool) : State :=
  let s := st.setPart 0 { st.part 0 with pamem := 0x3F00, pacfg := if confidential then 1 else 0 }
  { s with mgmt := { s.mgmt with dumpbase := 0x1F00000001 } }

theorem witness_dump :
    let s := stDump false
    let h := { st with dir := [(1024, { Dir.none with st := .e, busy := some ([0], .evict) })] }
    (s.mgmt.dumpbase.getLsbD 0 = true ∧ s.mgmt.dumpstat.getLsbD 0 = false ∧
      s.mgmt.dumpbase.toNat / 2 ^ 24 % 2 ^ 24 * 2 ^ 24 + 48 * 2 ^ 20 ≤ 128 * 2 ^ 30 ∧
      ∀ b < 4, (s.part b).pastat ≠ 0 →
        s.mgmt.dumpbase.toNat / 2 ^ 24 % 2 ^ 24 * 2 ^ 24 + 48 * 2 ^ 20 ≤ s.partBase b ∨
          s.partBase b + s.partSize b ≤ s.mgmt.dumpbase.toNat / 2 ^ 24 % 2 ^ 24 * 2 ^ 24) ∧
    (s.confidential 0 = false ∧ (stDump true).confidential 0 = true ∧ st.mayDump = false) ∧
    (h.homeBusy 0 = true ∧ (h.part 0).pastat = 2 ∧ (h.part 0).mcstat = 0) := by
  and_intros <;> decide +kernel

/-- Two teams of core 0, the second with a group of its own on slot 3, a walk with a checkpoint, and a quad inside a command. -/
def stDumped : State :=
  let s := stDump false
  let s := s.setTeam 2 { s.team 1 with groups := [2], base := 300000, sems := [(1, 5)], nsem := 2 }
  let s := s.setGroup 2 { s.group 1 with team := 2, slot := 3, v := [(5, 7)], nv := 256, ns := 64 }
  let s := s.setTeam 1 { s.team 1 with nsem := 4 }
  let s := s.setWalk 0 { Walk.none with
    live := true, team := 1, cp := { (s.walk 0).cp with qb := List.replicate 64 1, w := List.replicate 15 2, stack := [3] } }
  s.setQuad 0 { s.quad 0 with buf := [1, 2], own := some ⟨[3], none⟩ }

/-- The quads of the dump within their bounds, by evaluation. -/
def quadFits (s : State) (k : Nat) : Bool :=
  decide ((s.quadCores k).length ≤ 4 ∧ (s.quad k).buf.length ≤ 0x8000) &&
    (match (s.quad k).own with
    | some x => decide (x.bytes.length ≤ 0x6000)
    | none => true) && (s.quadCores k).all fun c => Tbl.wf 0 (s.core c).tiles && (s.core c).tiles.all fun e => decide (e.1 < 16384)

theorem witness_dump_fits : Claims.dumpFits stDumped 0 := by
  refine ⟨by decide +kernel, by decide +kernel, fun j hj => ⟨?_, ?_, ?_, ?_, ?_, fun k hk e he => ?_⟩, fun q hq => ?_⟩
  any_goals (revert j; decide +kernel)
  · refine ⟨?_, ?_, ?_, ?_, ?_, ?_, ?_, ?_, ?_, ?_⟩ <;> (revert e; revert k; revert j; decide +kernel)
  have h : ∀ q < 16, quadFits stDumped (64 * (stDumped.part 0).live + 16 * 0 + q) = true := by decide +kernel
  have h := h q hq
  simp only [quadFits, Bool.and_eq_true, decide_eq_true_eq, List.all_eq_true] at h
  refine ⟨h.1.1.1, h.1.1.2, fun x hx => ?_, h.2⟩
  have hx2 := h.1.2
  rw [hx] at hx2
  exact of_decide_eq_true hx2

/-- It may be dumped; both its teams and both its groups are in it, at two of their core's slots. -/
theorem witness_dumped :
    Claims.dumpPlace stDumped 0x1F00000000 ∧ (stDumped.confidential 0 = false ∧ Claims.dumpedCore stDumped 0 0 = 0) ∧
    (Claims.teamsAt stDumped 0).map (fun u => u.nsem) = [4, 2] ∧
    (stDumped.slotContexts 0 0 ≠ [] ∧ stDumped.slotContexts 0 3 ≠ [] ∧ stDumped.walksOf 0 = [0]) ∧
    ((stDumped.walk 0).cp.qb.length = 64 ∧ (stDumped.walk 0).cp.w.length = 15 ∧ stDumped.quadCores 0 ≠ []) := by
  unfold Claims.dumpPlace
  decide +kernel

/-- An offer of the device's signature algorithm, whatever its identifier is. -/
theorem witness_offer : offersHss (List.replicate 28 0 ++ [1, 0, 0, 0] ++ hssAlgorithm) = true := by
  simp [offersHss, spdmByte, nthD, hssAlgorithm, leBytes]
/-! Witnesses of the relay, link, host and peer statements. -/

/-- Partition 0 admits device 1's partition 0 on port 0, which is up, and hosts program 2 for grids of tag 0. -/
def stPeer : State :=
  let s := (ported stWalk)
  let s := s.setPart 0 { s.part 0 with peermap := [(1, 0x11)], rlyctl := [(2, 1)] }
  s.setCtx 0 { s.ctx 0 with progs := [(2, ⟨0x10000, 2, [], 0⟩)] }
def aBody : WalkBody := ⟨List.replicate 64 0, List.replicate 15 7, [], 0x10000⟩
/-- A message of walk 0 of core 5 of device 1. -/
def aMsg : RelayMsg :=
  { RelayMsg.none with device := 1, core := 5, program := 2, code := 0x10000, words := 2, serial := 3, body := some aBody, src := 1 }
/-- The message as it arrives, in a type, what is read of it, and a state that has taken note of it. -/
def msgIn (type : Nat) (m : RelayMsg) : RelayIn := ⟨m.src, m.srcPart, m.port, messageBytes type (usedBy type m)⟩
def msgOf (type : Nat) (m : RelayMsg) : RelayMsg := RelayIn.msg (msgIn type m)
def told (s : State) (type : Nat) (m : RelayMsg) : State := s.heard 0 (msgIn type m)

/-- Every type is told apart by its bytes, and a walk message is read as it was sent; it names the same walk in each. -/
theorem test_message_read :
    (∀ k ∈ (List.range 11).map (· + 1), RelayIn.isA (msgIn k aMsg) k = true ∧ RelayIn.isA (msgIn k aMsg) (k + 1) = false ∧
      (msgOf k aMsg).core = 5 ∧ (msgOf k aMsg).serial = 3) ∧
    msgOf 1 aMsg = aMsg ∧ (msgOf 10 aMsg).body = some aBody := by
  and_intros <;> decide +kernel

/-- A request that a message answers is open no more; one of another serial is. -/
theorem test_message_heard :
    let o (serial : Nat) : RelayOpen :=
      ⟨0, 1, 0, 1, leValue ((messageBytes 2 (usedBy 2 aMsg)).drop 4 |>.take 4) % 2 ^ 22, serial⟩
    (told { stPeer with relayOpen := [o 3, o 4] } 2 aMsg).relayOpen = [o 4] := by
  decide +kernel

/-- Walk 0 hosted for that message, waiting. -/
def hosted (w : WalkWait) : State := stPeer.setWalk 0 { stPeer.walk 0 with hosted := some (Origin.of aMsg), wait := w }

/-- A message with every field at the end of its range, with 40 stack entries, and with eight records. -/
theorem witness_message_bytes :
    let b : WalkBody := ⟨List.replicate 64 0, List.replicate 15 0, List.replicate 40 0, 0x10000⟩
    let m : RelayMsg := { RelayMsg.none with
      answer := 255, device := 7, part := 3, core := 59, ctx := 63, queue := 3, team := 65535, group := 31, lane := 31,
      program := 63, words := 65536, word := 2 ^ 32 - 1, body := some b }
    let r : RelayMsg := { m with body := none, recs := List.replicate 8 ⟨1, 2, 3, 4⟩ }
    (11 < 12 ∧ 1 ≤ 11 ∧ b.stack.length = 40 ∧ b.qb.length = 64 ∧ b.w.length = 15 ∧ m.body = some b ∧ m.recs = []) ∧
    (m.answer < 256 ∧ m.device < 8 ∧ m.part < 4 ∧ m.core < 60 ∧ m.ctx < 64 ∧ m.queue < 4 ∧ m.team < 2 ^ 16 ∧ m.group < 32 ∧
      m.lane < 32 ∧ m.program < 64 ∧ 0 < m.words ∧ m.words ≤ 2 ^ 16 ∧ m.word < 2 ^ 32) ∧
    (r.body.isNone = true ∧ r.recs.length = 8 ∧ r.recs[7]? = some ⟨1, 2, 3, 4⟩) := by
  and_intros <;> decide +kernel

/-- An intake entry of core 0 that holds the walk of the message. -/
def anEntry : Intake :=
  { query := 0, team := 0, group := 0, lane := 0, queue := 0, seq := 0, pid := 2, prog := ⟨0x10000, 2, [], 0⟩, acq := 0,
    hosted := some (Origin.of aMsg, aBody) }
def intakeOf (s : State) (n : Nat) : State := s.setCore 0 { s.core 0 with intake := List.replicate n anEntry }

/-- A message passes R398 or not by one bit of the entry, and by the port's link security; a walk message that is accepted at the
first core, also during a save, each of its answers, an intake without room, and 256 hosted walks that wait. -/
theorem witness_walk_message :
    let closed := stPeer.setPart 0 { stPeer.part 0 with peermap := [(1, 0x10)] }
    let secure := stPeer.setPart 0 { stPeer.part 0 with peermap := [(1, 0x211)] }
    let none_ := stPeer.setPart 0 { stPeer.part 0 with rlyctl := [] }
    let other := { aMsg with words := 3 }
    let empty := stPeer.setTeam 1 { stPeer.team 1 with live := false }
    let save := stPeer.setPart 0 { stPeer.part 0 with swap := some 2 }
    let u := told stPeer 1 aMsg
    let m := msgOf 1 aMsg
    let own := Tbl.get Prog.none (u.ctx 0).progs 2
    let e := Tbl.get 0 (u.part 0).peermap 1
    RelayIn.isA (msgIn 1 aMsg) 1 = true ∧ (u.pairHeld 0 m.src = false ∧ u.relayHeld = []) ∧
    (e.getLsbD 0 = true ∧ e.toNat / 2 % 4 = m.srcPart ∧ m.port < 4 ∧ e.getLsbD (4 + m.port) = true ∧
      e.getLsbD 9 = false ∧ u.confidential 0 = false) ∧
    ((Tbl.get 0 (closed.part 0).peermap 1).getLsbD 0 = false ∧ (Tbl.get 0 (secure.part 0).peermap 1).getLsbD 9 = true ∧
      Tbl.get false secure.mgmt.ualSec 0 = false ∧
      Tbl.get false ({ secure with mgmt := { secure.mgmt with ualSec := [(0, true)] } } : State).mgmt.ualSec 0 = true) ∧
    ((Tbl.get 0 (u.part 0).rlyctl 2).getLsbD 0 = true ∧ (Tbl.get 0 (none_.part 0).rlyctl 2).getLsbD 0 = false) ∧
    (own.words ≠ 0 ∧ own.code.setWidth 64 = m.code ∧ own.words = m.words ∧ own.words ≠ (msgOf 1 other).words) ∧
    ((u.hostTeam (coreAt 0 0 (0 % 60)) 0).isSome = true ∧ (u.core (coreAt 0 0 (0 % 60))).intakeLoad < 1024 ∧
      ¬ ((intakeOf stPeer 1024).core (coreAt 0 0 (0 % 60))).intakeLoad < 1024) ∧
    (∀ i < 60, (empty.hostTeam (coreAt 0 0 (i % 60)) 0).isSome = false) ∧
    (u.hostedLoad 0 < 256 ∧ 256 ≤ (intakeOf stPeer 256).hostedLoad 0 ∧ m.body = some aBody) ∧
    (u.saving 0 = false ∧ save.saving 0 = true ∧ (save.portFor 0 m.device).isSome = true ∧
      save.pairHeld 0 m.device = false) := by
  and_intros <;> decide +kernel

/-- Messages for a hosted walk in each of its states, for one that has not started, and for one that is not there; a message that
fails R398. -/
theorem witness_at_peer :
    let s := told (hosted (.released .next false)) 4 aMsg
    let r := told (hosted (.released .home false)) 4 aMsg
    let q (k : Nat) := told (intakeOf stPeer 1) k aMsg
    let closed (s : State) : State := s.setPart 0 { s.part 0 with peermap := [(1, 0x10)] }
    (∀ k ∈ [4, 5, 8, 9], RelayIn.isA (msgIn k aMsg) k = true ∧ (msgOf k aMsg).src = 1 ∧ (msgOf k aMsg).srcPart = 0) ∧
    (s.hostedAt 0 (msgOf 4 aMsg) = some 0 ∧ (s.walk 0).live = true ∧ (s.walk 0).hosted = some (Origin.of aMsg) ∧
      (s.walk 0).wait = .released .next false ∧ (s.walk 0).inside ((s.walk 0).pc.toNat + 4) = true) ∧
    ((r.hostedAt 0 (msgOf 4 aMsg) = some 0 ∧ (r.walk 0).wait = .released .home false) ∧
      (r.portFor (corePart (0 / 64)) 1).isSome = true ∧ r.pairHeld (corePart (0 / 64)) 1 = false ∧ r.relayHeld = []) ∧
    ((hosted (.goHome .next)).hostedAt 0 (msgOf 4 aMsg) = some 0 ∧ (msgOf 4 { aMsg with answer := 1 }).answer ≠ 0) ∧
    ((hosted (.released .next true)).hostedAt 0 (msgOf 5 aMsg) = some 0 ∧
      ((hosted (.released .next true)).walk 0).wait = .released .next true) ∧
    ((∀ k ∈ [8, 9], (hosted .ready).hostedAt 0 (msgOf k aMsg) = some 0) ∧ ((hosted .ready).walk 0).wait = .ready) ∧
    ((closed s).hostedAt 0 (msgOf 4 aMsg) = some 0 ∧ (Tbl.get 0 ((closed s).part 0).peermap (msgOf 4 aMsg).src).getLsbD 0 = false) ∧
    (∀ k ∈ [4, 5, 8, 9], ((q k).hostedAt 0 (msgOf k aMsg)).isNone = true ∧
      (q k).hostedEntry 0 (msgOf k aMsg) = some (0, anEntry) ∧ ((closed (q k)).hostedAt 0 (msgOf k aMsg)).isNone = true) ∧
    anEntry.hosted = some (Origin.of aMsg, aBody) ∧
    (∀ k ∈ [8, 9], (stPeer.hostedAt 0 (msgOf k aMsg)).isNone = true ∧ (stPeer.hostedEntry 0 (msgOf k aMsg)).isNone = true) := by
  and_intros <;> decide +kernel

/-- Walk 0 relayed to device 1 with serial 3, in a state; a message about it. -/
def relayedWalk (w : WalkWait) (cancel : Bool) : State :=
  stPeer.setWalk 0 { stPeer.walk 0 with serial := 3, wait := w, cancel := cancel }
def homeMsg : RelayMsg := { aMsg with device := 0, core := 0 }

theorem witness_at_origin :
    let a := told (relayedWalk (.answer 1) false) 2 homeMsg
    let w := told (relayedWalk (.away 1) false) 3 homeMsg
    let full := w.setPart 0 { w.part 0 with cqfree := 0 }
    let m := msgOf 2 homeMsg
    (∀ k ∈ [2, 3, 6, 7, 10, 11], RelayIn.isA (msgIn k homeMsg) k = true ∧
      (told w k homeMsg).awayWalk 0 (msgOf k homeMsg) = some 0 ∧
      ((told w k homeMsg).awayWalk 0 (msgOf k { homeMsg with serial := 4 })).isNone = true) ∧
    (a.awayWalk 0 m = some 0 ∧ (a.walk 0).cancel = false ∧ (a.walk 0).hosted = none) ∧
    (let e := Tbl.get 0 (a.part 0).peermap 1
     e.getLsbD 0 = true ∧ e.toNat / 2 % 4 = m.srcPart ∧ m.port < 4 ∧ e.getLsbD (4 + m.port) = true ∧
      e.getLsbD 9 = false ∧ a.confidential 0 = false) ∧
    ((a.walk 0).wait = .answer m.src ∧ (a.part 0).swap = none ∧ a.queueRoom 1 0 1 = true) ∧
    (let v := a.setPart 0 { a.part 0 with swap := some 2 }
     v.awayWalk 0 m = some 0 ∧ (v.part 0).swap = some 2 ∧ (v.portFor 0 1).isSome = true ∧ v.pairHeld 0 1 = false) ∧
    ((w.walk 0).wait = .away m.src ∧ w.queueRoom 1 0 9 = true ∧ full.queueRoom 1 0 9 = false ∧
      (w.portFor 0 1).isSome = true ∧ w.pairHeld 0 1 = false ∧ w.relayHeld = []) ∧
    (let c := a.setPart 0 { a.part 0 with peermap := [(1, 0x10)] }
     c.awayWalk 0 m = some 0 ∧ (Tbl.get 0 (c.part 0).peermap 1).getLsbD 0 = false ∧ c.queueRoom 1 0 1 = true) ∧
    ((msgOf 10 homeMsg).body = some aBody ∧ aBody.w.length = 15) := by
  and_intros <;> decide +kernel

/-- Walks that are cancelled: away, and at a peer that has not answered. -/
theorem witness_cancelled :
    let w := relayedWalk (.away 1) true
    let a := relayedWalk (.answer 1) true
    ((w.walk 0).cancel = true ∧ (w.walk 0).wait = .away homeMsg.src ∧ (w.portFor 0 1).isSome = true ∧ w.pairHeld 0 1 = false) ∧
    (∀ k ∈ [3, 6, 10, 11], (told w k homeMsg).awayWalk 0 (msgOf k homeMsg) = some 0) ∧
    ((msgOf 11 homeMsg).answer = 0 ∧ (msgOf 11 { homeMsg with answer := 1 }).answer ≠ 0) ∧
    ((told a 2 homeMsg).awayWalk 0 (msgOf 2 { homeMsg with answer := 1 }) = some 0 ∧ (msgOf 2 { homeMsg with answer := 1 }).answer = 1 ∧
      (a.walk 0).cancel = true ∧ (a.walk 0).wait = .answer homeMsg.src) := by
  and_intros <;> decide +kernel

/-- Links: an enabled port, a device with two ports of which one fails, a mesh failure with a busy home and without one. -/
theorem witness_links :
    let two := stPeer.setPart 0 { stPeer.part 0 with peermap := [(1, 0x31)] }
    let up := { two with mgmt := { two.mgmt with ualUp := [(0, true), (1, true)], ualEnable := [(0, true), (1, true)] } }
    let busy := { stWalk with dir := [(1024, { Dir.none with busy := some ([5], .grant 0 true []) })] }
    Tbl.get false up.mgmt.ualEnable 1 = true ∧
    (∀ b < 4, ∀ d < 8, up.pathFor b d = none ∨ (∃ k < 4, k ≠ 0 ∧
      (Tbl.get 0 (up.part b).peermap d).getLsbD (4 + k) = true ∧ Tbl.get false up.mgmt.ualUp k = true)) ∧
    up.pathFor 0 1 ≠ none ∧ stWalk.homeBusy 0 = false ∧
    (busy.homeBusy 0 = true ∧ (busy.part 0).pastat = 2 ∧ (busy.part 0).mcstat = 0) := by
  and_intros <;> decide +kernel

/-- A line read whose path waits for nothing else, one that a write of the partition has passed, a lane of an atomic, with a
refused lane above it and one below it; writes to a peer, refused behind deferred faults at lower and higher addresses; a read
behind the writes to the host. -/
theorem witness_remote_answers :
    let run : Path := { st.cg.run with id := 5, asked := [4], waits := true }
    let r : Remote := { Remote.none with
      live := true, who := .path 1 5 3, loc := 2, addr := 0x20000, n := 128, va := 0x20000, sent := true }
    let w : Remote := { Remote.none with
      live := true, who := .store 1, loc := 1, addr := 0x20000, n := 4, write := some [1, 2, 3, 4], va := 0x20000, sent := true }
    let s (r : Remote) := (grp st fun g => { g with run := run }).setRemote 4 r
    let f (lane : Nat) : Path := { run with failed := some { Trap.plain 0x14 0 0 with lane := some lane } }
    let d (a : Addr) := grp (s w) fun g => { g with deferred := some ⟨a, 0⟩ }
    let z : Remote := { Remote.none with live := true, who := .flush 0, loc := 2, sent := true }
    (((s r).remote 4) = r ∧ r.who = .path 1 run.id 3 ∧ ((s r).group 1).live = true ∧ ((s r).group 1).run = run ∧
      4 ∈ run.asked ∧ (s r).poison = [] ∧ r.n = 128 ∧ r.write.isNone = true ∧ r.atomic.isNone = true ∧ r.stale = false ∧
      ((s r).l2Make (2 * 2 ^ 41 + 0x20000 / 128)).isSome = true) ∧
    ({ r with stale := true }.stale = true ∧ { r with n := 8 }.n ≠ 128) ∧
    (run.failed.isNone = true ∧ (f 4).failed.any (fun o => 3 < o.lane.getD 32) = true ∧
      (f 3).failed.any (fun o => o.lane.getD 32 ≤ 3) = true) ∧
    (((s w).remote 4) = w ∧ w.who = .store 1 ∧ w.write.isSome = true ∧ w.loc = 1 ∧ ((s w).group 1).deferred.isNone = true) ∧
    (((d 0x20000).group 1).deferred = some ⟨0x20000, 0⟩ ∧ ((d 0x20001).group 1).deferred = some ⟨0x20001, 0⟩) ∧
    (((s z).remote 4) = z ∧ z.n = 0 ∧ z.write.isNone = true ∧ z.atomic.isNone = true) := by
  and_intros <;> decide +kernel

/-- Accesses at the last bytes of the fitted memory and one byte beyond; a confidential range with its stream and without;
the last bytes of a partition's mappable memory. -/
theorem witness_outside :
    let c := stPart fun p => { p with pacfg := 0x11 }
    let up := { c with mgmt := { c.mgmt with ide := [(1, true)] } }
    (st.mgmt.fwstate = 4 ∧ (128 * 2 ^ 30 - 8) + 8 ≤ 128 * 2 ^ 30 ∧ ¬ (128 * 2 ^ 30 - 7) + 8 ≤ 128 * 2 ^ 30 ∧
      ∀ b < 4, st.confidential b = false) ∧
    (c.confidential 0 = true ∧ (c.part 0).pastat ≠ 0 ∧ (c.part 0).pacfg.toNat / 16 % 4 = 1) ∧
    (Tbl.get false up.mgmt.ide 1 = true ∧ Tbl.get false c.mgmt.ide 1 = false) ∧
    (st.keyTag = [] ∧ st.memPoisoned 0x20000 8 = false ∧ 0x20000 % 8 = 0 ∧ 0x20001 % 4 ≠ 0 ∧
      ∀ g ∈ [AgentId.host, .peer 1], ∀ k ∈ linesOf 0x20000 8, st.homeFree g k true = true ∧ st.homeFree g k false = true) ∧
    ((stPeer.part 0).pastat ≠ 0 ∧ stPeer.partBase 0 ≤ 0x1FFFFFEFF8 ∧
      0x1FFFFFEFF8 + 8 = stPeer.partBase 0 + stPeer.partSize 0 - stPeer.poolSize 0) := by
  and_intros <;> decide +kernel

/-- Offsets of register writes: unaligned, past the page, the last entry of a map; a tlbinv request; accesses to BAR0. -/
theorem witness_register_writes :
    (0x192 % 4 ≠ 0 ∨ 0x1000 ≤ 0x192) ∧ (0x1000 % 4 ≠ 0 ∨ 0x1000 ≤ 0x1000) ∧ (7 < 8 ∧ 0x200 + 8 * 7 = 0x238) ∧
    ((st.part 0).tlbq.length < 16 ∧ (1 : DWord).toNat = 1) ∧ st.mgmt.fwcmd = 0 ∧
    (1 < 2 ∧ 2 ≤ 2 ∧ 0x6000 % 4 = 0 ∧ 0x7FFC < 0x8000) ∧ (0x114 % 4 = 0 ∧ 0x2 % 4 ≠ 0 ∧ 0x9000 % 4 = 0 ∧ [(0 : Byte), 0, 0, 0].length = 4 ∧ 0x3000 + 0x240 = 0x1000 * 3 + 0x240) := by
  and_intros <;> decide +kernel

/-! Witnesses of the statements about the step. -/

/-- The group's turn at an `exit`: chosen, without a partner, a well-formed line; and one at which it takes the trap of a failed
request, or goes on with an instruction that it has issued. -/
theorem witness_step_group :
    let s := State.reset.withCore 0x0200 []
    let s0 := { s.ticked with agenda := [] }
    let s1 := ((s0.engineTaken 1).passOver 1 none).begun 1
    let i : Issued := ⟨1, .exit ⟨0, false⟩, none, 0⟩
    let f := grp { s0 with cur := 1 } fun g => { g with run := { g.run with failed := some (Trap.plain 0x14 0 0) } }
    let r := grp { s0 with cur := 1 } fun g => { g with run := { g.run with issued := some i } }
    (s.off = false ∧ s.mgmt.overheated = false ∧ s.mgmt.fwstate ≠ 0 ∧ s.agenda = .group 1 :: []) ∧ s0.groupReady 1 = true ∧
    (s0.proceeds 1 = false ∧ s0.pacerChoice 1 = 1 ∧ (s0.partner 1).isNone = true ∧ s0.controlError 1 = false ∧ (s0.group 1).turn < 64) ∧
    (f.proceeds 1 = true ∧ (f.group 1).run.failed.isSome = true) ∧
    (r.proceeds 1 = true ∧ (r.group 1).run.failed.isNone = true ∧ (r.group 1).run.issued = some i) ∧
    (match exec (.exit ⟨0, false⟩) (s1.fetched 1 .bad) with
      | .next t => !(t.group 1).run.waits && decide ((t.group 1).turn < 64) && t.groups.all fun e => e.2.run.issued.isNone
      | _ => false) = true ∧
    (match s1.fetchBytes with
      | .ok (bs, _) => lineWellFormed (halvesOfBytes bs) && lineN (halvesOfBytes bs) == 1 &&
          (match decodeAt (halvesOfBytes bs) 1 with | .ok i => i == .exit ⟨0, false⟩ | .error _ => false)
      | .error _ => false) = true ∧
    s1.cg.run.pc.toNat % 64 = 2 := by
  and_intros <;> decide +kernel

/-- Two groups of one team at one `nop` on one slot, of disjoint lanes, the first of them passed over 32 times. -/
def stPair : State :=
  let s := State.reset.withCore 0 []
  let g := s.group 1
  let s := (s.setGroup 1 { g with run := { g.run with mask := 0xFFFF }, passed := 32 }).setGroup 2
    { g with run := { g.run with mask := 0xFFFF0000 }, num := 1 }
  { s.ticked with agenda := [] }

/-- The groups of the slot, where the second group's operands are ready, which no rule says when they are (R258, R261). -/
theorem stPair_rivals (hr : Config.operandsReady 1 2 = true) :
    stPair.rivals 1 = [1, 2] ∧ (stPair.engineTaken 1).rivals 1 = [1, 2] := by
  have of_ready (s : State) (hl : (s.groups.map fun e => e.1) = [1, 2]) (ht : s.tick = 1)
      (hb : (2 != 1 && s.sameSlot 1 2 && s.groupReady 2) = true) : s.rivals 1 = [1, 2] := by
    simp only [State.rivals, hl, List.filter, hb, ht, hr, bne_self_eq_false, Bool.false_and, Bool.true_and]
  exact ⟨of_ready _ (by decide +kernel) (by decide +kernel) (by decide +kernel),
    of_ready _ (by decide +kernel) (by decide +kernel) (by decide +kernel)⟩

/-- They pair, the first chosen, and the second issues after the first, which leaves its path as it is. -/
theorem witness_pair (hr : Config.operandsReady 1 2 = true) :
    let s1 := (stPair.engineTaken 1).passOver 1 (some 2)
    stPair.pacerChoice 1 = 1 ∧ stPair.partner 1 = some 2 ∧ s1.older 2 1 = false ∧
      (match s1.issueOne 1 with
        | .next t => (t.group 2).live && decide ((t.group 2).run = (stPair.group 2).run)
        | _ => false) = true ∧
      (stPair.nextInstr 1).any pairable = true ∧ stPair.forced 1 = true ∧ stPair.forced 2 = false := by
  have h := stPair_rivals hr
  simp only [State.pacerChoice, State.partner, State.passOver, h.1, h.2]
  and_intros <;> decide +kernel

/-- A walk's turn at `done`. -/
theorem witness_step_walk :
    let s := State.reset.withWalker 0x30000000
    let s0 := { s.ticked with agenda := [] }
    let s1 := { s0.setCore (0 / 64) { s0.core (0 / 64) with lastWalk := 0 % 64 } with curWalk := 0 }
    (s.off = false ∧ s.mgmt.overheated = false ∧ s.mgmt.fwstate ≠ 0 ∧ s.agenda = .walk 0 :: []) ∧
    (s0.nextWalk 0 = some 0 ∧ .walker 0 ∉ s0.poison ∧ s1.cw.qb ≠ [] ∧ s1.cw.inside s1.cw.pc.toNat = true ∧
      (s1.codeMiss 0).isNone = true) ∧
    (match s1.walkRead 0 s1.cw.pc.toNat 4 with
      | .bytes bs => decide (decodeWalker (s1.codeWord 0 bs) = some .done)
      | _ => false) = true ∧
    (match s1.walkXlat 0 s1.cw.pc.toNat with
      | .ok loc pa _ _ _ => decide (Tbl.get 0 s1.stamps ((loc * 2 ^ 48 + pa) / 64) ≤ s1.cw.prog.since)
      | _ => false) = true := by
  and_intros <;> decide +kernel

/-- An event at the head of the agenda, from inside the device and from the host; an access to BAR0; an empty agenda with a walk
that is ready, and without anything; a device at 110 °C. -/
theorem witness_step_event :
    let at_ (l : List Turn) : State := { State.reset with agenda := l, mgmt := { State.reset.mgmt with fwstate := 2 } }
    let r : State := { State.reset.withCore 0x0200 [] with agenda := [] }
    let v : State := { (State.reset.withWalker 0x30000000).setCore 0 Core.none with agenda := [] }
    let w : Instr := .hostBar2Write 0x40000 [1] none
    let h : State := { State.reset.withCore 0x0200 [] with agenda := [.event w] }
    let late : State := { h with flight := [w], agenda := [.bar0Read 0 4] }
    let hot : State := { r with mgmt := { r.mgmt with tempnow := 880 } }
    ((at_ [.event .thermalShutdown]).off = false ∧ (at_ []).mgmt.overheated = false ∧ (at_ []).mgmt.fwstate ≠ 0 ∧
      (flightChannel .thermalShutdown).isNone = true ∧ (at_ [.bar0Read 0 4]).agenda = .bar0Read 0 4 :: [] ∧
      (at_ [.event .thermalShutdown]).engineMeets .thermalShutdown = none ∧ (at_ []).hostBehind = false ∧ late.hostBehind = true) ∧
    (channelBusy h.ticked.flight w = false ∧ (∀ k ∈ linesOf 0x40000 1, h.ticked.homeFree .host k true = true) ∧
      (exec w { h.ticked with agenda := [] } matches .next _) = true) ∧
    (v.agenda = [] ∧ v.off = false ∧ v.mgmt.overheated = false ∧ v.mgmt.fwstate ≠ 0 ∧ v.ticked.moves ≠ []) ∧
    ((at_ []).agenda = [] ∧ (at_ []).off = false ∧ (at_ []).ticked.moves = []) ∧
    (hot.off = false ∧ hot.mgmt.overheated = true) := by
  and_intros <;> decide +kernel

/-- Well-formed instructions of both processors. -/
theorem witness_encodings :
    (Instr.isCore (.fma ⟨7, true⟩ ⟨true, .rup, .bf16, 255, 255, 255, 255⟩) = true ∧
      Instr.wf (.fma ⟨7, true⟩ ⟨true, .rup, .bf16, 255, 255, 255, 255⟩) = true) ∧
    (Instr.isWalker (.wadd ⟨31, 31, 31, true, true⟩) = true ∧ Instr.wf (.wadd ⟨31, 31, 31, true, true⟩) = true) := by
  and_intros <;> decide +kernel

/-- Memory in its form, and a step from it. -/
theorem witness_step_memory :
    MemoryInv State.reset ∧ (step (State.reset.withCore 0x0200 []) matches .next _) = true := by
  exact ⟨reset_memoryInv, by decide +kernel⟩

/-- R352: an error in a group's control state is a partition machine check of source 2 when the group issues. -/
theorem test_control_error :
    (match step { State.reset.withCore 0x0200 [] with poison := [.control 1] } with
      | .next t => decide ((t.part 0).pastat = 3 ∧ (t.part 0).mcstat.toNat % 256 = 2 ∧ (t.part 0).mccount = 1)
      | _ => false) = true := by
  decide +kernel

/-- R403: a byte beside a partial write under another key, and a byte read under another key, are not what was written. -/
theorem test_key_tags :
    let s := (st.putKeyed 1 [⟨0x40000, leBytes 8 0x1122334455667788⟩]).putKeyed 0 [⟨0x40000, [0xAA]⟩]
    s.readKeyed 0 0x40000 1 = [0xAA] ∧ s.keyMatches 0 0x40001 1 = false ∧ s.keyMatches 1 0x40001 1 = false ∧
      s.sectorKey 0x40010 = 0 := by
  and_intros <;> decide +kernel

/-- R397: nothing is sent through a peer map entry that is not enabled. -/
theorem test_peer_enable :
    let p (v : Nat) : State := { st.setPart 0 { st.part 0 with peermap := [(1, BitVec.ofNat 32 v)] } with
      mgmt := { st.mgmt with ualUp := [(0, true)] } }
    (p 0x11).portFor 0 1 = some 0 ∧ (p 0x10).portFor 0 1 = none ∧ (p 0x21).portFor 0 1 = none := by
  and_intros <;> decide +kernel

/-- R276: an error in a core's command queues that its Walker meets as it takes a wlaunch is found there, and nowhere else. -/
theorem test_engine_error :
    let s (p : Poison) : State := { stLaunch false 1 with poison := [p] }
    (s (.queue 0)).engineMeets (.wlaunchIntake 0 9) = some 0 ∧ (s (.sem 1 63)).engineMeets (.wlaunchIntake 0 9) = some 0 ∧
    (s (.queue 1)).engineMeets (.wlaunchIntake 0 9) = none ∧ (s (.sem 1 62)).engineMeets (.wlaunchIntake 0 9) = none := by
  and_intros <;> decide +kernel

/-- R94, R257: with the 64th instruction the path gives way at once, whatever the group does next. -/
theorem test_turn_end :
    let s := State.reset.withCore 0 []
    let g := s.group 1
    let u := s.setGroup 1 { g with turn := 63, ready := [{ Path.none with id := 7, pc := 0x20002, mask := 1 }] }
    (match step u with
      | .next t => decide ((t.group 1).run.id = 7 ∧ (t.group 1).ready.map (fun p => p.id) = [g.run.id] ∧ (t.group 1).turn = 0)
      | _ => false) = true := by
  decide +kernel
/-! Worked examples of the spec, each as one step. -/

def always : Guard := ⟨0, false⟩
/-- The state after an instruction whose two source registers v1 and v2 hold a and b in every lane. -/
def ran (i : Instr) (a b : Nat) : State := go (putV (putV (lanesAre st 0x80000000) 1 a) 2 b) [i]
/-- What lane 31 of v3 holds then. -/
def v3After (i : Instr) (a b : Nat) : Nat := ((ran i a b).cg.vreg 3 31).toNat

/-! "Integer results at the limits", chapter "Integer, Address and Lane Floating-Point Instructions". -/

theorem test_div_min_by_minus_one : v3After (.div always ⟨false, .s32, 3, 1, 2⟩) 0x80000000 0xFFFFFFFF = 0x80000000 := by
  decide +kernel
theorem test_div_by_zero : v3After (.div always ⟨false, .n32, 3, 1, 2⟩) 7 0 = 0xFFFFFFFF := by decide +kernel
theorem test_rem_by_zero : v3After (.rem always ⟨false, .n32, 3, 1, 2⟩) 7 0 = 7 := by decide +kernel
theorem test_rem_truncates : v3After (.rem always ⟨false, .s32, 3, 1, 2⟩) 0xFFFFFFF9 2 = 0xFFFFFFFF := by decide +kernel
theorem test_mulh_unsigned : v3After (.mulh always ⟨false, .n32, 3, 1, 2⟩) 0xFFFFFFFF 0xFFFFFFFF = 0xFFFFFFFE := by
  decide +kernel
theorem test_mulh_signed : v3After (.mulh always ⟨false, .s32, 3, 1, 2⟩) 0x80000000 0x80000000 = 0x40000000 := by
  decide +kernel
theorem test_sra_beyond_width : v3After (.sra always ⟨false, .s32, 3, 1, 2⟩) 0x80000000 40 = 0xFFFFFFFF := by decide +kernel
theorem test_shr_beyond_width : v3After (.shr always ⟨false, .n32, 3, 1, 2⟩) 0x80000000 40 = 0 := by decide +kernel
theorem test_clz_zero : v3After (.clz always ⟨false, .n32, 3, 1⟩) 0 0 = 32 := by decide +kernel
theorem test_bfx_signed : v3After (.bfx always ⟨false, .s32, 3, 1, 0, 8, 8⟩) 0xF0A0 0 = 0xFFFFFFF0 := by decide +kernel
theorem test_prmt : v3After (.prmt always ⟨false, 3, 1, 2, 0x4887⟩) 0x44332211 0x88776655 = 0x55001188 := by decide +kernel
theorem test_cvt_s8 : v3After (.cvt always ⟨.s8, .s32, false, 3, 1⟩) 0x180 0 = 0xFFFFFF80 := by decide +kernel
theorem test_cvt_s8_saturates : v3After (.cvt always ⟨.s8, .s32, true, 3, 1⟩) 0x180 0 = 0x7F := by decide +kernel

/-! "A worked fused multiply-add", the same chapter. -/

theorem test_fma_one_rounding :
    let s := go (putV (putV (lanesAre st 0x80000000) 1 0x3F800001) 2 0xBF800002) [.fma always ⟨false, .dyn, .f32, 3, 1, 1, 2⟩]
    s.cg.vreg 3 31 = 0x28800000 ∧ Tbl.get 0 s.cg.fflags 31 = 0 := by
  decide +kernel
theorem test_fmul_inexact :
    let s := ran (.fmul always ⟨false, .dyn, .f32, 3, 1, 1⟩) 0x3F800001 0
    s.cg.vreg 3 31 = 0x3F800002 ∧ Tbl.get 0 s.cg.fflags 31 = 1 := by
  decide +kernel
theorem test_fadd_cancels : v3After (.fadd always ⟨false, .dyn, .f32, 3, 1, 2⟩) 0x3F800002 0xBF800002 = 0 := by decide +kernel
/-- With NX enabled the same fmul traps FP_TRAP with `%tval` 0x101, its destination unwritten. -/
theorem test_fmul_traps :
    let s := putV (putV stTrap 1 0x3F800001) 3 7
    let t := go (s.setCt { s.ct with enables := 1 }) [.fmul always ⟨false, .dyn, .f32, 3, 1, 1⟩]
    t.cg.tval = 0x101 ∧ t.cg.vreg 3 31 = 7 := by
  decide +kernel

/-! Variable precision: 1/3 at 39 and 40 bits (chapter "Number Formats and Arithmetic"), xadd.x and xcvt.f32 (chapter
"Variable-Precision Instructions"). -/

theorem test_vp_third_39 :
    (vpRound 39 .rne (Val.div 39 (.fin false 1 0) (.fin false 3 0)) 0).words = [0x11FFFF55, 0x55555555] := by decide +kernel
theorem test_vp_third_40 :
    (vpRound 40 .rne (Val.div 40 (.fin false 1 0) (.fin false 3 0)) 0).words = [0x21FFFF55, 0x55555555, 0x80000000] := by
  decide +kernel

/-- Windows x0, x1 and x2 of three words; words of a value in a window of lane 31, and a precision. -/
def vpState (x1 x2 : List Nat) : State :=
  let s := go (grp (lanesAre stTrap 0x80000000) fun g => { g with nw := 16, prec := (List.range 32).map fun l => (l, 71) })
    [.xalloc always 0 (.words 3), .xalloc always 1 (.words 3), .xalloc always 2 (.words 3)]
  let put (g : Group) (x : Nat) (ws : List Nat) : Group :=
    (ws.zip (List.range 3)).foldl (fun h e => h.setWin (h.xb + (h.xwin x).base + e.2) 31 (BitVec.ofNat 32 e.1)) g
  grp s fun g => put (put g 1 x1) 2 x2

theorem test_xadd_prec_exhausted :
    let t := go (vpState [0x11FFFFC0, 0] [0x11FFE6C0, 0]) [.xadd always ⟨false, .rne, true, 0, 1, 2⟩]
    t.cg.tcause.toNat % 256 = 0x06 ∧ t.cg.tval = 0x65013300 := by
  decide +kernel
theorem test_xadd_rounds :
    let t := go (vpState [0x11FFFFC0, 0] [0x11FFE6C0, 0]) [.xadd always ⟨false, .rne, false, 0, 1, 2⟩]
    t.cg.xwords 0 31 = [0x21FFFFC0, 0, 0] ∧ Tbl.get 0 t.cg.fflags 31 = 1 := by
  decide +kernel
theorem test_xcvt_no_double_rounding :
    let t := go (vpState [0x21FFFFC0, 0x4000, 0x400] []) [.xcvt always ⟨false, .rne, false, .f32, true, 3, 1⟩]
    t.cg.vreg 3 31 = 0x3F800001 ∧ Tbl.get 0 t.cg.fflags 31 = 1 := by
  decide +kernel

/-! "Example of an atomic" (chapter "Memory, Atomic and Baton Instructions"): cas of lanes in order. -/

theorem test_cas_lanes :
    let s := { cached (lanesAre st 0xF) with mem := putAll st.mem [⟨0x20040, leBytes 4 5⟩] }
    let s := (putV (putV s 4 0x20040) 6 5).writeV 8 false ((List.range 4).map fun l => (l, 10 + l))
    let t := go s [.atom always ⟨.ar, .d, .n32, .cas, 2, 4, 8, 0, 6, 0, 0⟩]
    (List.range 4).map (fun l => (t.cg.vreg 2 l).toNat) = [5, 10, 10, 10] ∧ readBytes t.mem 0x20040 4 = [10, 0, 0, 0] := by
  decide +kernel

/-! The truncation example of "Number Formats and Arithmetic" (R91) and the products of "Worked command". -/

def products (l : List (Nat × Nat)) : List Exact := l.map fun e => Val.mul (Enc.f16.decode e.1) (Enc.f16.decode e.2)

theorem test_mma_truncates :
    Enc.f32.encode (dot (products [(0x6400, 0x6400), (0x0180, 1), (0xE400, 0x6400)]) (.zero false)) = 0 := by decide +kernel
theorem test_mma_keeps :
    Enc.f32.encode (dot (products [(0, 0x6400), (0x0180, 1), (0, 0x6400)]) (.zero false)) = 0x2BC00000 := by decide +kernel
theorem test_mma_infinity :
    Enc.f32.encode (dot (products [(0x3C00, 0x7C00), (0x4000, 0)]) (.zero false)) = 0x7F800000 := by decide +kernel
theorem test_mma_zero_times_infinity :
    Enc.f32.encode (dot (products [(0, 0x7C00)]) (.zero false)) = 0x7FC00000 := by decide +kernel

/-! "A worked walk": keys 35 and 20 against the separators 10, 20, …, 160. -/

def rankOf (key : Nat) : Nat :=
  let s := nodeWords (walkReg (walkReg stWalk 3 key) 4 16) 0 ((List.range 16).map fun i => 10 * (i + 1))
  (go s [.tkey ⟨5, 3, 4, 0, false, false⟩]).cw.reg 5

theorem test_tkey_no_match : rankOf 35 = 3 := by decide +kernel
theorem test_tkey_match : rankOf 20 = 0x62 := by decide +kernel

/-! "Placement of the example grid": clusters of 2 × 2 beside a pager core at (0, 0). -/

theorem test_first_fit :
    let x : Desc := { Desc.of [] with
      entry := 2, groups := 4, width := 2, height := 2, nv := 32, ns := 8, nw := 0, d := 205056, t := 0 }
    ((Pool.empty.placeAll x 0x100 0 0 3).map fun l => l.map fun c => (c.x0, c.y0)) = some [(1, 0), (0, 2), (2, 2)] := by
  decide +kernel

/-! "Worked example" of "Image Ingress": the header words of line 0's two pieces. -/

theorem test_slot_headers :
    let x : Line := ⟨5, 1, 7, 0, 2, 600, List.replicate 8 0, 0⟩
    ((slotHeader x 0 0 2 480 0).take 16 = leBytes 4 7 ++ leBytes 4 0x60000 ++ leBytes 4 0x025801E0 ++ leBytes 4 0x50000) ∧
      ((slotHeader x 0 1 2 120 0).take 16 = leBytes 4 7 ++ leBytes 4 0x01020000 ++ leBytes 4 0x02580078 ++ leBytes 4 0x50000) := by
  decide +kernel

/-! "Examples of the check" of a code line (R36). -/

theorem test_line_check :
    lineWellFormed ([0x1800, 4 * 64, 64, 0] ++ List.replicate 28 0) = true ∧
      lineWellFormed ([0x2800, 448, 448, 448, 128, 128] ++ List.replicate 26 0) = true ∧
      lineWellFormed ([0x5000, 256, 256] ++ List.replicate 8 128 ++ List.replicate 21 0) = false ∧
      lineWellFormed (List.replicate 32 0) = false := by
  decide +kernel

/-! "As an example, a team of one group" (chapter "Variable-Precision Instructions"): xframe, then the xalloc that spills it. -/

/-- The group at its start under the example's descriptor, s4 holding the carry mask 2. -/
def vpFrame : State :=
  putS (grp st fun g => { g with
    nv := 40, nw := 24, ssp := 2048, xmap := [(0, ⟨0, 3⟩), (1, ⟨3, 3⟩), (2, ⟨6, 8⟩)] }) 4 2
def vpTeam : State := vpFrame.setTeam 1 { vpFrame.team 1 with d := 0, t := 2048 }

theorem test_xframe :
    let t := go vpTeam [.xframe always (some 4)]
    t.cg.xb = 14 ∧ t.cg.depth = 1 ∧ t.cg.ssp = 2048 ∧ t.cg.xmap = [(1, ⟨0, 3⟩)] := by
  decide +kernel
theorem test_xalloc_spills :
    let t := go vpTeam [.xframe always (some 4), .xalloc always 5 (.words 8)]
    t.cg.xb = 0 ∧ t.cg.ssp = 128 ∧ t.cg.xwin 1 = ⟨0, 3⟩ ∧ t.cg.xwin 5 = ⟨3, 8⟩ := by
  decide +kernel

/-! The GDDR7 channel of an address (R276). -/

theorem test_mem_channel : memChannel 0x00000F00 = 15 ∧ memChannel 0x00123400 = 4 ∧ memChannel 0x1000000FF = 0 := by
  decide +kernel
end Sys2Proof.Tests
end

/-! SUPPORT. The lane arithmetic family (R115-R133): each instruction is one use of the shared integer shape with the
value of its rule. The values that the model and the rule write in different words are compared first. -/
namespace Sys2Proof.Machine

open Sys2Proof

/-! Values: the model's functions are the rules' formulas. -/

theorem intSub_zero (w a : Nat) : intSub w 0 a = wrapTo w (-(a : Int)) := by
  simp [intSub]

theorem intAdd_intMul (w a b c : Nat) : intAdd w (intMul w a b) c = (a * b + c) % 2 ^ w :=
  Nat.mod_add_mod ..

/-- R122 with its exceptional cases. -/
theorem intDiv_eq (sgn : Bool) (w a b : Nat) :
    intDiv sgn w a b =
      if b % 2 ^ w = 0 then (if sgn = true ∧ signedOf w a < 0 then 1 else 2 ^ w - 1)
      else wrapTo w (Int.tdiv (valueOf sgn w a) (valueOf sgn w b)) := by
  simp only [intDiv, Bool.and_eq_true, decide_eq_true_eq]

/-- A field is at most as long as the type (R125). -/
theorem intBfx_eq (sgn : Bool) (w a pos len : Nat) :
    intBfx sgn w a pos len =
      let l := min len w
      let f := wrapTo l (valueOf sgn w a / (2 ^ pos : Nat))
      if l = 0 then 0 else if sgn then wrapTo w (signedOf l f) else f := by
  rw [Nat.min_def]
  rfl

theorem intBfi_eq (w a b pos len : Nat) :
    intBfi w a b pos len =
      let l := min len w
      a - (a &&& ((2 ^ l - 1) * 2 ^ pos % 2 ^ w)) + b % 2 ^ l * 2 ^ pos % 2 ^ w := by
  rw [Nat.min_def]
  rfl

/-- Byte k of a word, numbered from its low end. -/
theorem bits_byte (x k : Nat) : bits x (8 * k + 7) (8 * k) = x / 256 ^ k % 256 := by
  have hlen : 8 * k + 7 + 1 - 8 * k = 8 := by omega
  rw [bits, hlen, show 256 = 2 ^ 8 from rfl, ← pow_mul]

/-- R126: the byte that a selector's digit names, of b and a joined. -/
theorem intPrmt_eq (a b sel : Nat) :
    intPrmt a b sel =
      let both := a % 2 ^ 32 + 2 ^ 32 * (b % 2 ^ 32)
      let byte (j : Nat) : Nat :=
        if sel.testBit (12 + j) then 0 else both / 256 ^ bits sel (3 * j + 2) (3 * j) % 256
      byte 0 + 2 ^ 8 * byte 1 + 2 ^ 16 * byte 2 + 2 ^ 24 * byte 3 := by
  simp only [intPrmt, bits_byte]

/-- A value held between two bounds is the nearest one of their range. -/
theorem clamp_eq {lo hi : Int} (h : lo ≤ hi) (v : Int) :
    (if v < lo then lo else if hi < v then hi else v) = max lo (min hi v) := by
  split_ifs <;> omega

/-- The least value of a type is at most its greatest. -/
theorem ty_min_le_max (sgn : Bool) (w : Nat) :
    (if sgn then -((2 ^ (w - 1) : Nat) : Int) else 0) ≤
      if sgn then ((2 ^ (w - 1) : Nat) : Int) - 1 else ((2 ^ w : Nat) : Int) - 1 := by
  have hw := Nat.two_pow_pos w
  have hw1 := Nat.two_pow_pos (w - 1)
  cases sgn
  · simp only [Bool.false_eq_true, if_false]
    omega
  · simp only [if_true]
    omega

/-- Conversion (R129): saturated or wrapped to the type, then extended to a register. -/
theorem intCvt_eq (dty sty : Ty) (sat : Bool) (x : Nat) :
    intCvt dty sty sat x =
      let v := valueOf (Ty.signed sty) (tyBits sty) x
      let w := tyBits dty
      let lo : Int := if Ty.signed dty then -(2 ^ (w - 1) : Nat) else 0
      let hi : Int := if Ty.signed dty then (2 ^ (w - 1) : Nat) - 1 else (2 ^ w : Nat) - 1
      wrapTo (max w 32) (if sat then max lo (min hi v) else valueOf (Ty.signed dty) w (wrapTo w v)) := by
  have hw : (if tyBits dty < 32 then 32 else tyBits dty) = max (tyBits dty) 32 := by split_ifs <;> omega
  simp only [intCvt, clamp_eq (ty_min_le_max ..), hw]

/-! The shapes of the family: with fine operands each completes with its value and its frame. -/

/-- A uniform form reads the same in every lane (R117). -/
theorem readInt_uniform {uni : Bool} (h : uni = true) (g : Group) (wide : Bool) (r : Reg) (l l' : Nat) :
    g.readInt uni wide r l = g.readInt uni wide r l' := by
  subst h
  rfl

theorem intBin_holds (s : State) (g : Guard) (o : IntBin) (amount : Bool) (f : Nat → Nat → Nat → Nat)
    (h : s.fine g
      [opInt o.uni o.b (is64 o.ty && !amount) true, opInt o.uni o.a (is64 o.ty) true,
        opInt o.uni o.d (is64 o.ty) false]) :
    ∃ t, s.intBin g o amount f = .next t ∧
      intHolds s t g o.uni o.d (is64 o.ty) fun l =>
        f (tyBits o.ty) (s.cg.readInt o.uni (is64 o.ty) o.a l)
          (s.cg.readInt o.uni (is64 o.ty && !amount) o.b l) :=
  intOp_holds s g o.uni _ o.d _ _ _ h (fun _ => rfl) fun hu l l' => by
    rw [readInt_uniform hu s.cg _ o.a l l', readInt_uniform hu s.cg _ o.b l l']

theorem intImm_holds (s : State) (g : Guard) (o : IntImm) (n : Nat) (f : Nat → Nat → Nat → Nat)
    (h : s.fine g [opInt o.uni o.a (is64 o.ty) true, opInt o.uni o.d (is64 o.ty) false]) :
    ∃ t, s.intImm g o n f = .next t ∧
      intHolds s t g o.uni o.d (is64 o.ty) fun l =>
        f (tyBits o.ty) (s.cg.readInt o.uni (is64 o.ty) o.a l) n :=
  intOp_holds s g o.uni _ o.d _ _ _ h (fun _ => rfl) fun hu l l' => by
    rw [readInt_uniform hu s.cg _ o.a l l']

theorem intUn_holds (s : State) (g : Guard) (o : IntUn) (count : Bool) (f : Nat → Nat → Nat)
    (h : s.fine g [opInt o.uni o.a (is64 o.ty) true, opInt o.uni o.d (is64 o.ty && !count) false]) :
    ∃ t, s.intUn g o count f = .next t ∧
      intHolds s t g o.uni o.d (is64 o.ty && !count) fun l =>
        f (tyBits o.ty) (s.cg.readInt o.uni (is64 o.ty) o.a l) :=
  intOp_holds s g o.uni _ o.d _ _ _ h (fun _ => rfl) fun hu l l' => by
    rw [readInt_uniform hu s.cg _ o.a l l']

/-! Each row of the tables is its shape with its value. -/

theorem exec_intRow : ∀ row ∈ Claims.intRows, ∀ (s : State) (g : Guard) (o : IntBin),
    exec (row.ins g o) s = s.intBin g o row.amount (row.val (Ty.signed o.ty)) := by
  simp only [Claims.intRows, List.forall_mem_cons, List.not_mem_nil, false_imp_iff, implies_true, and_true]
  and_intros <;> exact fun _ _ _ => rfl

theorem exec_immRow : ∀ row ∈ Claims.immRows, ∀ (s : State) (g : Guard) (o : IntImm),
    exec (row.ins g o) s = s.intImm g o (row.imm (tyBits o.ty) o.imm) (row.val (Ty.signed o.ty)) := by
  simp only [Claims.immRows, List.forall_mem_cons, List.not_mem_nil, false_imp_iff, implies_true, and_true]
  and_intros <;> exact fun _ _ _ => rfl

theorem exec_neg (s : State) (g : Guard) (o : IntUn) :
    exec (.neg g o) s = s.intUn g o false fun w a => wrapTo w (-(a : Int)) := by
  simp only [← intSub_zero]
  rfl

theorem exec_unRow : ∀ row ∈ Claims.unRows, ∀ (s : State) (g : Guard) (o : IntUn),
    exec (row.ins g o) s = s.intUn g o row.count row.val := by
  simp only [Claims.unRows, List.forall_mem_cons, List.not_mem_nil, false_imp_iff, implies_true, and_true]
  refine ⟨exec_neg, ?_⟩
  and_intros <;> exact fun _ _ _ => rfl

/-! The clauses of integer arithmetic. -/

theorem integerTwoSourceResults : Claims.IntegerTwoSourceResults := fun row hrow s g o h => by
  rw [exec_intRow row hrow]
  exact intBin_holds s g o row.amount _ h

theorem integerImmediateResults : Claims.IntegerImmediateResults := fun row hrow s g o h => by
  rw [exec_immRow row hrow]
  exact intImm_holds s g o _ _ h

theorem integerOneSourceResults : Claims.IntegerOneSourceResults := fun row hrow s g o h => by
  rw [exec_unRow row hrow]
  exact intUn_holds s g o row.count _ h

theorem divisionResults : Claims.DivisionResults := fun s g o h => by
  have hf (f : Nat → Nat → Nat → Nat) :=
    intBin_holds s g o false f (by simpa only [Bool.not_false, Bool.and_true] using h)
  simp only [Bool.not_false, Bool.and_true] at hf
  constructor
  · have hdiv := hf (intDiv (Ty.signed o.ty))
    simp only [intDiv_eq] at hdiv
    exact hdiv
  · exact hf (intRem (Ty.signed o.ty))

theorem multiplyAddResult : Claims.MultiplyAddResult := fun s g o h =>
  intOp_holds s g o.uni _ o.d _ _ _ h (fun _ => intAdd_intMul ..) fun hu l l' => by
    simp only [readInt_uniform hu s.cg _ _ l l']

/-- Settles O1: every row is its shape with the rule's value; the shapes complete with their frames. -/
theorem integerArithmetic : Obligations.IntegerArithmetic :=
  ⟨integerTwoSourceResults, integerImmediateResults, integerOneSourceResults, divisionResults, multiplyAddResult⟩

/-- Settles O2: each instruction is the shared shape with the value of its rule. -/
theorem integerOtherResults : Obligations.IntegerOtherResults := by
  unfold Obligations.IntegerOtherResults
  refine ⟨fun s g o h => ?bfx, fun s g o h => ?bfi, fun s g o h => ?prmt, fun s g o h => ?lea, fun s g o h => ?cvt,
    fun s g o h => ?movi⟩
  case bfx =>
    exact intOp_holds s g o.uni _ o.d _ _ _ h (fun _ => intBfx_eq ..) fun hu l l' => by
      simp only [readInt_uniform hu s.cg _ _ l l']
  case bfi =>
    exact intOp_holds s g o.uni _ o.d _ _ _ h (fun _ => intBfi_eq ..) fun hu l l' => by
      simp only [readInt_uniform hu s.cg _ _ l l']
  case prmt =>
    exact intOp_holds s g o.uni _ o.d _ _ _ h (fun _ => intPrmt_eq ..) fun hu l l' => by
      simp only [readInt_uniform hu s.cg _ _ l l']
  case lea =>
    exact intOp_holds s g o.uni _ o.d _ _ _ h (fun _ => rfl) fun hu l l' => by
      simp only [readInt_uniform hu s.cg _ _ l l']
  case cvt =>
    exact intOp_holds s g false _ o.d _ _ _ h (fun _ => intCvt_eq ..) fun hu => absurd hu Bool.false_ne_true
  case movi =>
    exact intOp_holds s g o.uni _ o.d _ _ _ h (fun _ => rfl) fun _ _ _ => rfl

end Sys2Proof.Machine
